-- ==== Sys2Proof/Word.lean ====
section
/-! DEFINITION. The plain types every other file uses: octets, 32-bit stamps, the bounded numbers of the
site (slots, segments, groups, records, channels), and tables of a fixed number of like things. -/

namespace Sys2Proof

/-- One octet of a message or line frame (R156, R161). -/
abbrev Byte := BitVec 8
/-- A detection stamp or a start time: a 32-bit number that wraps (R47, R115). -/
abbrev Stamp := BitVec 32
/-- A post slot, 0 to 255 (R1, R52). -/
abbrev Slot := Fin 256
/-- A segment, 0 to 7 (R6). -/
abbrev SegId := Fin 8
/-- An announcement group, 0 to 15 (R11, R115). -/
abbrev GroupId := Fin 16
/-- The index of a call record, 0 to 47 (R87). -/
abbrev CallIdx := Fin 48
/-- A voice channel of an end, 0 to 3 (R74). -/
abbrev Chan := Fin 4
/-- A trunk slot of a link. The slot of number n (1 to 16) has the place n − 1 in the table (R152). -/
abbrev Trunk := Fin 16

/-- The entry of a table at an index. -/
def nth {α : Type} {n : Nat} (t : Vector α n) (i : Fin n) : α := t[i.val]

/-- The table with the entry at an index replaced by its image. -/
def modNth {α : Type} {n : Nat} (t : Vector α n) (i : Fin n) (f : α → α) : Vector α n :=
  t.set i.val (f (nth t i))

/-- The numbers below `k` that are below `n`, in ascending order. -/
def finsBelow (n : Nat) : Nat → List (Fin n)
  | 0 => []
  | k + 1 => if h : k < n then finsBelow n k ++ [⟨k, h⟩] else finsBelow n k

/-- Every number below `n`, in ascending order. -/
def allFin (n : Nat) : List (Fin n) := finsBelow n n

end Sys2Proof
end

