-- ==== Sys2Proof/Syntax.lean ====
section
/-! DEFINITION. The commands: one constructor of `Instr` for each row of spec/opcode_table.json. A request row carries
the link it came on, its tag and its fields as received (R158); an event row carries what the event names. -/

namespace Sys2Proof

/-- The two control links (R143). -/
inductive LinkId | a | b
  deriving DecidableEq, Repr

/-- The two terminals of a segment (R53). -/
inductive Side | a | b
  deriving DecidableEq, Repr

/-- One end, written 0A to 7B. -/
structure EndId where
  seg : SegId
  side : Side
  deriving DecidableEq, Repr

/-- The seven kinds of measurement result, in the order of R56. -/
inductive MeasKind | good | openPair | short | mismatch | crossed | busy | unknown
  deriving DecidableEq, Repr

/-- The NAME fields as a request carries them (R157 table, 52h). -/
structure RawName where
  labelLength : Nat
  label : List Byte
  kind : Nat
  carriageway : Nat
  side : Nat
  marker : Nat
  deriving DecidableEq, Repr

/-- The PLACE fields as a request carries them (53h). -/
structure RawPlace where
  present : Nat
  seg : Nat
  position : Nat
  serial : Nat
  deriving DecidableEq, Repr

/-- The segment record as a request carries it (54h, kind 0). -/
structure RawSegment where
  fitted : Nat
  cableLength : Nat
  feederA : Nat
  feederB : Nat
  speed : Nat
  layRatio : Nat
  anchor : Nat
  direction : Nat
  split : Nat
  homeLink : Nat
  route : Nat
  deriving DecidableEq, Repr

/-- The global record as a request carries it (54h, kind 1). -/
structure RawGlobal where
  ignored : Nat
  offerOverflow : Nat
  threshold : Nat
  ring : Nat
  acknowledge : Nat
  silence : Nat
  retest : Nat
  deriving DecidableEq, Repr

/-- A request, its fields as received (R158). -/
inductive Request
  | answer (index generation slot : Nat)
  | join (index generation slot : Nat)
  | leave (index generation : Nat)
  | clear (index generation : Nat)
  | callPost (post slot : Nat)
  | queryCalls (start : Nat)
  | announceStart (group slot : Nat)
  | announceStop (group : Nat)
  | groupEdit (group operation : Nat) (slots : List Nat)
  | groupResult (group first : Nat)
  | endService (endCode setting : Nat)
  | lineTest (endCode : Nat)
  | lineStats (endCode clearFlag : Nat)
  | postTest (post count pattern : Nat)
  | postTestStop (endCode : Nat)
  | queryPost (post : Nat)
  | queryEnd (endCode : Nat)
  | writeEnable
  | writeDisable
  | writeName (post : Nat) (fields : RawName)
  | writePlace (post : Nat) (fields : RawPlace)
  | writeSegment (seg : Nat) (fields : RawSegment)
  | writeGlobal (fields : RawGlobal)
  | storeErase (scope : Nat)
  | directoryRead (kind index first : Nat)
  deriving DecidableEq, Repr

/-- The commands of the part. Requests are taken from the head of link `x`'s intake buffer (R148). -/
inductive Instr
  /-- R29. `reached` is the place, in the order of R24, of the record that an erase in flight was writing. -/
  | powerOnReset (reached : Nat)
  /-- R28. `reached` as for `powerOnReset`. -/
  | powerLoss (reached : Nat)
  | startUpLoadEnd
  /-- R147. The octets from the one a frame sync marks to the end of the reception (R156). -/
  | frameReceived (x : LinkId) (octets : List Byte)
  | lossOfFraming (x : LinkId)
  | silenceTimerExpiry (x : LinkId)
  | reportFrameSent (x : LinkId)
  /-- R157. A frame of type `typ` that fails the structural check is taken. -/
  | badRequestFrame (x : LinkId) (tag typ : Byte)
  | answer (x : LinkId) (tag : Byte) (index generation slot : Nat)
  | join (x : LinkId) (tag : Byte) (index generation slot : Nat)
  | leave (x : LinkId) (tag : Byte) (index generation : Nat)
  | clear (x : LinkId) (tag : Byte) (index generation : Nat)
  | callPost (x : LinkId) (tag : Byte) (post slot : Nat)
  | queryCalls (x : LinkId) (tag : Byte) (start : Nat)
  | announceStart (x : LinkId) (tag : Byte) (group slot : Nat)
  | announceStop (x : LinkId) (tag : Byte) (group : Nat)
  | groupEdit (x : LinkId) (tag : Byte) (group operation : Nat) (slots : List Nat)
  | groupResult (x : LinkId) (tag : Byte) (group first : Nat)
  /-- R63. An END SERVICE whose setting is not ON: 0 is OFF, a setting above 1 is refused OUT OF RANGE. -/
  | endServiceOff (x : LinkId) (tag : Byte) (endCode setting : Nat)
  /-- R64. An END SERVICE whose setting is ON (1). -/
  | endServiceOn (x : LinkId) (tag : Byte) (endCode : Nat)
  | lineTest (x : LinkId) (tag : Byte) (endCode : Nat)
  | lineStats (x : LinkId) (tag : Byte) (endCode clearFlag : Nat)
  | postTest (x : LinkId) (tag : Byte) (post count pattern : Nat)
  | postTestStop (x : LinkId) (tag : Byte) (endCode : Nat)
  | queryPost (x : LinkId) (tag : Byte) (post : Nat)
  | queryEnd (x : LinkId) (tag : Byte) (endCode : Nat)
  | writeEnable (x : LinkId) (tag : Byte)
  | writeDisable (x : LinkId) (tag : Byte)
  | directoryWriteName (x : LinkId) (tag : Byte) (post : Nat) (fields : RawName)
  | directoryWritePlace (x : LinkId) (tag : Byte) (post : Nat) (fields : RawPlace)
  | siteWriteSegment (x : LinkId) (tag : Byte) (seg : Nat) (fields : RawSegment)
  | siteWriteGlobal (x : LinkId) (tag : Byte) (fields : RawGlobal)
  | storeErase (x : LinkId) (tag : Byte) (scope : Nat)
  | directoryRead (x : LinkId) (tag : Byte) (kind index first : Nat)
  | nameWriteCompletion
  | placeCompletion
  | segmentWriteCompletion
  | globalWriteCompletion
  | groupEditCompletion
  | eraseCompletion
  /-- R36, R162. The octets of the reply as received within the window of the scan poll in progress. -/
  | pollReply (e : EndId) (octets : List Byte)
  | pollWindowExpiry (e : EndId)
  /-- R139, R162. The octets of the reply as received within the window of the test frame in progress. -/
  | testFrameReply (e : EndId) (octets : List Byte)
  | testFrameWindowExpiry (e : EndId)
  | loopLossEvent (e : EndId)
  | loopCurrentRestored (e : EndId)
  | measurementBegin (e : EndId)
  /-- R56. The kind, the echo delay in ticks and, for CROSSED, the segment named. -/
  | measurementResult (e : EndId) (kind : MeasKind) (delay : Nat) (coupled : Option SegId)
  | retryWaitExpiry (e : EndId)
  | retestTimerExpiry (e : EndId)
  | overflowTimerExpiry (i : CallIdx)
  | ringTimerExpiry (i : CallIdx)
  | clearConfirmTimerExpiry (i : CallIdx)
  | acknowledgeWindowExpiry (g : GroupId)
  | acknowledgeLateExpiry (g : GroupId)
  deriving DecidableEq, Repr

end Sys2Proof
end

