-- ==== Sys2Proof/Decode.lean ====
section
/-! DEFINITION. The command that a word spells by the bits of spec/opcode_table.json. The table gives no row any bits (its fields
are empty): commands are events, and the frames of requests are decoded by the command that takes them (Machine/Operands.lean). -/

namespace Sys2Proof

/-- No word spells a command (log 4). -/
def decodeTableWord (_nbits _w : Nat) : Option Instr := none

end Sys2Proof
end

