-- ==== Sys2Proof/Machine/Octets.lean ====
section
/-! DEFINITION. Octets: numbers sent most significant octet first (chapter 10) and the check value of R156. -/

namespace Sys2Proof.Machine

/-- A number in `k` octets, most significant first (chapter 10). -/
def octets : Nat → Nat → List Byte
  | 0, _ => []
  | k + 1, n => BitVec.ofNat 8 (n / 256 ^ k) :: octets k n

/-- The number that octets carry, most significant first (chapter 10). -/
def number (os : List Byte) : Nat := os.foldl (fun n o => n * 256 + o.toNat) 0

/-- A field that reads absent: every octet FFh (R160). -/
def absentField (k : Nat) : List Byte := List.replicate k 0xFF

/-- A field of `k` octets that may read absent (R160). -/
def optField (k : Nat) : Option Nat → List Byte
  | some n => octets k n
  | none => absentField k

/-- One bit shifted into the check register, generator x^16 + x^12 + x^5 + 1 (R156). -/
def checkBit (c : BitVec 16) (b : Bool) : BitVec 16 :=
  if c.msb != b then (c <<< 1) ^^^ 0x1021 else c <<< 1

/-- One octet into the register. DESIGN CHOICE: its most significant bit first (log 54). -/
def checkOctet (c : BitVec 16) (o : Byte) : BitVec 16 :=
  [7, 6, 5, 4, 3, 2, 1, 0].foldl (fun c i => checkBit c (o.getLsbD i)) c

/-- The check value of R156: register preset to FFFFh. -/
def checkValue (os : List Byte) : BitVec 16 := os.foldl checkOctet 0xFFFF

/-- The two check octets that follow `os` (R156, R161). -/
def checkOctets (os : List Byte) : List Byte := octets 2 (checkValue os).toNat

/-- A flag as a bit of an octet. -/
def flagBit (i : Nat) (b : Bool) : Nat := if b then 2 ^ i else 0

end Sys2Proof.Machine
end

