-- ==== Sys2Proof/Config.lean ====
section
/-! DEFINITION. The sizes and times that the spec fixes and that no request can change. The values that a centre
programs (R6, R9) are state, not configuration. The spec leaves no value of an ordinary command open, so
there is no free constant here. -/

namespace Sys2Proof.Config

/-- Places of a link's intake buffer (R143). -/
def intakePlaces : Nat := 8
/-- Places of a link's report queue (R143, R149). -/
def queuePlaces : Nat := 64
/-- Highest value of a saturating counter (R134, R136, R143). -/
def counterTop : Nat := 65535
/-- Highest running time of LINK START, in seconds (R151). -/
def runningTimeTop : Nat := 4294967
/-- The clear confirm time, in milliseconds (R104). -/
def clearConfirmMs : Nat := 2000
/-- The retry wait after a BUSY measurement, in milliseconds (R59). -/
def retryWaitMs : Nat := 1000
/-- BUSY results that lead to a retry (R59). -/
def busyRetries : Nat := 3
/-- Present entries that one segment may hold (R3). -/
def postsPerSegment : Nat := 32
/-- Slots that one GROUP EDIT may carry (R11). -/
def editSlots : Nat := 32
/-- Damaged records that a LINK START names (R151). -/
def damagedNamed : Nat := 16
/-- Call summaries in one QUERY CALLS response (R153). -/
def summariesListed : Nat := 8
/-- Records in one GROUP RESULT or DIRECTORY READ list (R132, R5). -/
def recordsListed : Nat := 64
/-- Highest road chainage (R14). -/
def chainageTop : Nat := 999999
/-- Highest post serial (R1). -/
def serialTop : Nat := 16777215
/-- The distance a fault record carries for a kind without distance (R56). -/
def noDistance : Nat := 65535

end Sys2Proof.Config
end

