-- ==== Sys2Proof/Machine/Records.lean ====
section
/-! DEFINITION. The records that the blocks of the part hold, chapter by chapter, each with its power-on or blank value. -/

namespace Sys2Proof.Machine

/-! ## The store (chapters 1 and 2) -/

/-- The kind of a post (R1). -/
inductive PostKind | openRoad | tunnel | ramp | layBy
  deriving DecidableEq, Repr

/-- The side of the road (R1). -/
inductive RoadSide | left | right | centre
  deriving DecidableEq, Repr

/-- The carriageway: 0 (none), 1 or 2 (R1). -/
inductive Carriageway | none | one | two
  deriving DecidableEq, Repr

/-- The NAME form of a directory entry (R1). -/
structure NameForm where
  label : List Byte
  kind : PostKind
  carriageway : Carriageway
  side : RoadSide
  marker : Option Nat
  deriving DecidableEq, Repr

/-- The PLACE form of a directory entry (R1). -/
structure PlaceForm where
  present : Bool
  seg : SegId
  position : Nat
  serial : Nat
  deriving DecidableEq, Repr

/-- A directory entry (R1). -/
structure DirEntry where
  place : PlaceForm
  name : NameForm
  deriving DecidableEq, Repr

/-- Direction of rising chainage along the cable (R6). -/
inductive Direction | increasing | decreasing
  deriving DecidableEq, Repr

/-- A segment record (R6). -/
structure SegRecord where
  fitted : Bool
  cableLength : Nat
  feederA : Nat
  feederB : Nat
  speed : Nat
  layRatio : Nat
  anchor : Nat
  direction : Direction
  split : Nat
  homeLink : LinkId
  route : Nat
  deriving DecidableEq, Repr

/-- The global record (R9). Times are in seconds. -/
structure GlobalRecord where
  offerOverflow : Nat
  threshold : Nat
  ring : Nat
  acknowledge : Nat
  silence : Nat
  retest : Nat
  deriving DecidableEq, Repr

/-- The blank NAME values of R1: a label of one space, OPEN ROAD, carriageway 0, LEFT, no override. -/
def NameForm.blank : NameForm :=
  { label := [0x20], kind := .openRoad, carriageway := .none, side := .left, marker := none }

/-- The blank PLACE values of R1. -/
def PlaceForm.blank : PlaceForm := { present := false, seg := 0, position := 1, serial := 1 }

def DirEntry.blank : DirEntry := { place := .blank, name := .blank }

/-- The blank values of R6. -/
def SegRecord.blank : SegRecord :=
  { fitted := false, cableLength := 1000, feederA := 0, feederB := 0, speed := 200, layRatio := 1000, anchor := 0,
    direction := .increasing, split := 500, homeLink := .a, route := 0 }

/-- The defaults of R9. -/
def GlobalRecord.default : GlobalRecord :=
  { offerOverflow := 15, threshold := 3, ring := 45, acknowledge := 3, silence := 3, retest := 60 }

/-- A record of the store as the start-up load finds it (R27). -/
inductive Cell (α : Type)
  /-- erased, never programmed -/
  | blank
  /-- the check value matches -/
  | valid (content : α)
  /-- neither of the two -/
  | bad
  deriving DecidableEq, Repr

/-- The 281 stored records (chapter 1). -/
structure StoredRecords where
  entries : Vector (Cell DirEntry) 256
  segments : Vector (Cell SegRecord) 8
  global : Cell GlobalRecord
  groups : Vector (Cell (List Slot)) 16
  deriving DecidableEq, Repr

/-- The working copy from which all blocks read site data (chapter 1). A group is its slots in ascending order (R11). -/
structure Site where
  entries : Vector DirEntry 256
  segments : Vector SegRecord 8
  global : GlobalRecord
  groups : Vector (List Slot) 16
  deriving DecidableEq, Repr

/-- A store never programmed (R31). -/
def StoredRecords.blank : StoredRecords :=
  { entries := Vector.replicate 256 .blank, segments := Vector.replicate 8 .blank, global := .blank,
    groups := Vector.replicate 16 .blank }

/-- The working copy of a blank site (R31). -/
def Site.blank : Site :=
  { entries := Vector.replicate 256 .blank, segments := Vector.replicate 8 .blank, global := .default,
    groups := Vector.replicate 16 [] }

/-- The name of a stored record, in the order of the table of R24. -/
inductive RecordId
  | entry (slot : Slot)
  | segment (seg : SegId)
  | global
  | group (g : GroupId)
  deriving DecidableEq, Repr

/-- The scope of an erase (R24). -/
inductive EraseScope | directory | groups | all
  deriving DecidableEq, Repr

/-- What an operation in flight programs, with the new content (R18). -/
inductive StoreWrite
  | name (slot : Slot) (content : DirEntry)
  | place (slot : Slot) (content : DirEntry)
  | segment (seg : SegId) (content : SegRecord)
  | global (content : GlobalRecord)
  | group (g : GroupId) (members : List Slot)
  | erase (scope : EraseScope)
  deriving DecidableEq, Repr

/-- The operation record (R18). -/
structure StoreOperation where
  write : StoreWrite
  writer : LinkId
  tag : Byte
  deriving DecidableEq, Repr

/-- The state of the Store Controller (R18). -/
inductive StoreState
  | starting
  | ready
  | busy (operation : StoreOperation)
  deriving DecidableEq, Repr

/-- The record a STORE DONE or DIRECTORY CHANGED names (R22). -/
inductive WriteName
  | name (slot : Slot)
  | place (slot : Slot)
  | segment (seg : SegId)
  | global
  | group (g : GroupId)
  | erase (scope : EraseScope)
  deriving DecidableEq, Repr

def StoreWrite.named : StoreWrite → WriteName
  | .name slot _ => .name slot
  | .place slot _ => .place slot
  | .segment seg _ => .segment seg
  | .global _ => .global
  | .group g _ => .group g
  | .erase scope => .erase scope

/-- The Store Controller (R18). -/
structure StoreBlock where
  stored : StoredRecords
  site : Site
  damaged : List RecordId
  state : StoreState
  deriving DecidableEq, Repr

/-! ## The Line Supervisor and the Line Interface (chapters 3, 4 and 8) -/

/-- Reach status of a post (R52). -/
inductive PostReach
  | unserved
  | served (e : EndId)
  | isolated
  deriving DecidableEq, Repr

/-- Reply status of a post (R43). -/
inductive ReplyStatus | unproven | answering | noReply
  deriving DecidableEq, Repr

inductive Hook | on | off
  deriving DecidableEq, Repr

inductive Button | none | assist | emergency
  deriving DecidableEq, Repr

/-- EMERGENCY above ASSIST above NONE (R37, R91). -/
def Button.rank : Button → Nat
  | .none => 0
  | .assist => 1
  | .emergency => 2

structure Sensors where
  door : Bool
  battery : Bool
  speaker : Bool
  deriving DecidableEq, Repr

/-- Activity of a post (R52). -/
inductive Activity | idle | calling | ringing | hearing | tested
  deriving DecidableEq, Repr

/-- A row of the post table (R52). -/
structure PostRow where
  reach : PostReach
  hop : Nat
  reply : ReplyStatus
  failures : Nat
  silenceReported : Bool
  unverified : Bool
  sensors : Sensors
  hook : Hook
  button : Button
  activity : Activity
  stamp : Option Stamp
  deriving DecidableEq, Repr

/-- The power-on row of R52. -/
def PostRow.powerOn : PostRow :=
  { reach := .unserved, hop := 0, reply := .unproven, failures := 0, silenceReported := false, unverified := false,
    sensors := ⟨false, false, false⟩, hook := .on, button := .none, activity := .idle, stamp := none }

/-- A command to a post (R38). -/
inductive Command
  | connect (c : Chan)
  | ring
  | release
  | lampOn
  | lampOff
  | announce (c : Chan)
  | announceEnd
  deriving DecidableEq, Repr

inductive Family | voice | lamp | announcement
  deriving DecidableEq, Repr

/-- The family of a command (R38). -/
def Command.family : Command → Family
  | .connect _ => .voice
  | .ring => .voice
  | .release => .voice
  | .lampOn => .lamp
  | .lampOff => .lamp
  | .announce _ => .announcement
  | .announceEnd => .announcement

/-- An entry of a command list (R38). -/
structure CommandEntry where
  slot : Slot
  command : Command
  age : Nat
  deriving DecidableEq, Repr

/-- State of an end (R53). -/
inductive EndState | unfitted | serving | testing | faulted | off
  deriving DecidableEq, Repr

/-- Reach of an end (R53, R68). -/
inductive EndReach
  | full
  | limit (x : Nat)
  | none
  deriving DecidableEq, Repr

/-- The fault record of an end (R56). -/
structure FaultRecord where
  kind : MeasKind
  delay : Nat
  distance : Nat
  position : Option Nat
  chainage : Option Nat
  beyond : Bool
  inFeeder : Bool
  coupled : Option SegId
  deriving DecidableEq, Repr

inductive Measurement | none | waiting | running
  deriving DecidableEq, Repr

/-- Cause of an END STATE, in the order of R73. -/
inductive EndCause
  | startUp | segmentWrite | erase | suspectFailure | loopLoss | retest | lineTest | serviceOn | serviceOff | result
  deriving DecidableEq, Repr

/-- The end record (R53), with the state the end left and the cause of its last change, which QUERY END carries (R155).
A timer is its expiry on the Timebase, in milliseconds, while it runs. -/
structure EndRecord where
  state : EndState
  reach : EndReach
  fault : Option FaultRecord
  suppressed : Option Slot
  busyCount : Nat
  retryWait : Option Nat
  retest : Option Nat
  measurement : Measurement
  scanPosition : Nat
  commands : List CommandEntry
  previous : Option EndState
  cause : Option EndCause
  deriving DecidableEq, Repr

/-- The power-on record of R53 and R155. -/
def EndRecord.powerOn : EndRecord :=
  { state := .unfitted, reach := .none, fault := none, suppressed := none, busyCount := 0, retryWait := none,
    retest := none, measurement := .none, scanPosition := 0, commands := [], previous := none, cause := none }

inductive LoopReading | present | lost
  deriving DecidableEq, Repr

/-- Pattern of a burst, in the order of R136. -/
inductive Pattern | alternate | zeros | ones | count
  deriving DecidableEq, Repr

/-- A transaction in progress on a port (R35). -/
inductive Transaction
  /-- A scan poll to a post by hop, with the entry it carries: the command and its age (R39). -/
  | poll (slot : Slot) (hop : Nat) (carried : Option (Command × Nat))
  /-- A test frame (R138). `counted` holds until the burst that sent it ends (R141). -/
  | test (slot : Slot) (hop : Nat) (frameNumber : BitVec 16) (pattern : Pattern) (counted : Bool)
  deriving DecidableEq, Repr

/-- One line port (R33, R35). `current` is the loop current that flows, an input of the part. -/
structure Port where
  reading : LoopReading
  current : Bool
  transaction : Option Transaction
  deriving DecidableEq, Repr

/-- The power-on port: reading LOST (R33). DESIGN CHOICE: the loop current flows (log 9, unsafe). -/
def Port.powerOn : Port := { reading := .lost, current := true, transaction := none }

/-- The six quality counters of an end (R134). -/
structure Counters where
  pollsSent : Nat
  goodReplies : Nat
  corruptReplies : Nat
  noReplies : Nat
  mismatches : Nat
  measurements : Nat
  deriving DecidableEq, Repr

def Counters.zero : Counters := ⟨0, 0, 0, 0, 0, 0⟩

inductive LastTransaction | testFrame | poll
  deriving DecidableEq, Repr

/-- Why a burst was aborted, in the order of R142. -/
inductive AbortReason
  | callEvent | announcement | postMoved | postIsolated | postUnserved | endTesting | endOff | endUnfitted | segmentWrite
  deriving DecidableEq, Repr

/-- How a burst ended (R136). -/
inductive BurstEnding
  | done
  | stopped (x : LinkId)
  | aborted (reason : AbortReason)
  deriving DecidableEq, Repr

/-- The fields of a burst (R136). -/
structure Burst where
  target : Slot
  requester : LinkId
  tag : Byte
  count : Nat
  pattern : Pattern
  frameNumber : BitVec 16
  last : LastTransaction
  sent : Nat
  echoedGood : Nat
  echoedBad : Nat
  noEcho : Nat
  deriving DecidableEq, Repr

/-- The burst record of an end (R136). -/
inductive BurstRecord
  | none
  | running (burst : Burst)
  | ended (burst : Burst) (ending : BurstEnding)
  deriving DecidableEq, Repr

/-- All that the Line Supervisor and the Line Interface hold. `first` is, for each segment, the end that first met the
conditions of R55 (log 11). -/
structure LineBlock where
  hopMaps : Vector (List Slot) 8
  posts : Vector PostRow 256
  stampCounter : Stamp
  placings : Nat
  ends : Vector EndRecord 16
  ports : Vector Port 16
  counters : Vector Counters 16
  bursts : Vector BurstRecord 16
  first : Vector (Option Side) 8
  deriving DecidableEq, Repr

def LineBlock.powerOn : LineBlock :=
  { hopMaps := Vector.replicate 8 [], posts := Vector.replicate 256 .powerOn, stampCounter := 0, placings := 0,
    ends := Vector.replicate 16 .powerOn, ports := Vector.replicate 16 .powerOn,
    counters := Vector.replicate 16 .zero, bursts := Vector.replicate 16 .none, first := Vector.replicate 8 none }

/-! ## The Channel Arbiter (chapter 5) -/

/-- A call reference: index and generation (R87). -/
structure CallRef where
  index : CallIdx
  generation : BitVec 10
  deriving DecidableEq, Repr

/-- The class of a call (R87). -/
inductive CallClass | p0 | p1 | p2 | p3
  deriving DecidableEq, Repr

def CallClass.rank : CallClass → Nat
  | .p0 => 0
  | .p1 => 1
  | .p2 => 2
  | .p3 => 3

/-- A channel record (R74). -/
inductive Holder
  | free
  | call (ref : CallRef) (slot : Slot)
  | group (g : GroupId)
  deriving DecidableEq, Repr

/-- Kind of a call's channel request (R76). -/
inductive RequestKind | parked | connect
  deriving DecidableEq, Repr

/-- An entry of a waiting list (R75). -/
inductive Waiter
  | call (kind : RequestKind) (ref : CallRef) (slot : Slot) (cls : CallClass)
  | announce (g : GroupId) (start : Stamp)
  deriving DecidableEq, Repr

/-- What the Arbiter holds for one end (R74, R75). -/
structure ChannelEnd where
  channels : Vector Holder 4
  waiting : List Waiter
  preempted : List (GroupId × CallRef)
  deriving DecidableEq, Repr

def ChannelEnd.powerOn : ChannelEnd := { channels := Vector.replicate 4 .free, waiting := [], preempted := [] }

/-! ## The Call Controller (chapter 6) -/

inductive CallDirection | inbound | outbound
  deriving DecidableEq, Repr

/-- State of a live call (R87). -/
inductive CallState | offered | connecting | connected | parked | lineLost | ringing | clearing
  deriving DecidableEq, Repr

/-- A subset of the two links (R87). -/
structure LinkSet where
  a : Bool
  b : Bool
  deriving DecidableEq, Repr

def LinkSet.empty : LinkSet := ⟨false, false⟩

structure CallFlags where
  overflowed : Bool
  dropped : Bool
  upgraded : Bool
  unverified : Bool
  deriving DecidableEq, Repr

/-- A party: a link and a trunk slot (R87). -/
structure Party where
  link : LinkId
  trunk : Trunk
  deriving DecidableEq, Repr

inductive TimerKind | overflow | ring | clearConfirm
  deriving DecidableEq, Repr

/-- A live call record, less its generation (R87). `resuming`: it was PARKED before its present CONNECTING (R100). -/
structure LiveCall where
  slot : Slot
  direction : CallDirection
  cls : CallClass
  state : CallState
  stamp : Option Stamp
  offered : LinkSet
  flags : CallFlags
  parties : List Party
  channel : Option (EndId × Chan)
  request : Option (EndId × RequestKind)
  timer : Option (TimerKind × Nat)
  deferred : Option (Button × Stamp)
  resuming : Bool
  deriving DecidableEq, Repr

/-- A call record: its generation, and its fields while it is live (R87). -/
structure CallRecord where
  generation : BitVec 10
  live : Option LiveCall
  deriving DecidableEq, Repr

/-- An entry of the overflow list (R91). -/
structure OverflowEntry where
  slot : Slot
  stamp : Stamp
  button : Button
  deriving DecidableEq, Repr

/-- The Call Controller (R87, R91). -/
structure CallBlock where
  records : Vector CallRecord 48
  overflow : List OverflowEntry
  deriving DecidableEq, Repr

def CallBlock.powerOn : CallBlock :=
  { records := Vector.replicate 48 { generation := 0, live := none }, overflow := [] }

/-! ## The Announcement Controller (chapter 7) -/

/-- Phase of a PENDING member (R116). -/
inductive Phase | awaiting | commanded
  deriving DecidableEq, Repr

/-- Outcome of a member (R116). -/
inductive MemberOutcome
  | pending (phase : Phase)
  | hearing | failed | unreachable | noChannel | noAnswer | skippedInCall | skippedBusy | skippedAbsent | preempted
  | leftForCall
  deriving DecidableEq, Repr

/-- A member outcome record (R116). `leaving`: the member was COMMANDED or HEARING when its end stopped (R129; log 16). -/
structure Member where
  slot : Slot
  outcome : MemberOutcome
  leaving : Bool
  deriving DecidableEq, Repr

inductive AckPhase | window | late
  deriving DecidableEq, Repr

/-- Why an announcement ended (R115). -/
inductive EndReason
  | stopped (x : LinkId)
  | sourceLost
  deriving DecidableEq, Repr

/-- The runtime record of a group (R115). -/
structure GroupRun where
  active : Bool
  source : Option Party
  start : Option Stamp
  readySent : Bool
  timer : Option (AckPhase × Nat)
  held : List (EndId × Chan)
  waiting : List EndId
  members : List Member
  reason : Option EndReason
  deriving DecidableEq, Repr

def GroupRun.powerOn : GroupRun :=
  { active := false, source := none, start := none, readySent := false, timer := none, held := [], waiting := [],
    members := [], reason := none }

/-! ## Reports, responses and the link controllers (chapters 9 and 10) -/

/-- Where a name block's chainage comes from (R13). -/
inductive ChainageSource | computed | marker
  deriving DecidableEq, Repr

/-- The name block of a post (R13). -/
structure NameBlock where
  slot : Slot
  present : Bool
  route : Nat
  label : List Byte
  kind : PostKind
  carriageway : Carriageway
  side : RoadSide
  chainage : Nat
  source : ChainageSource
  seg : SegId
  servingEnd : Option EndId
  hop : Nat
  unverified : Bool
  deriving DecidableEq, Repr

/-- LINK START (R151). -/
structure LinkStart where
  link : LinkId
  powerOn : Bool
  runningTime : Nat
  good : Nat
  badCheck : Nat
  discarded : Nat
  damagedCount : Nat
  damaged : List RecordId
  deriving DecidableEq, Repr

/-- The events of CALL STATE, in the order of R113. -/
inductive CallEvent
  | connected | resumed | connecting | parked | lineLost | partyJoined | partyLeft | clearedByParty | clearedByPost
  | answeredByPost | noAnswer | ringing
  deriving DecidableEq, Repr

/-- The reasons of CALL STATE (R113, 10.4). -/
inductive CallReason
  | none | postMoved | postIsolated | endStopped | postServed | leave | linkLost | byLink (x : LinkId)
  deriving DecidableEq, Repr

/-- CALL STATE (R113). `state` is absent where the call is freed. -/
structure CallStateReport where
  ref : CallRef
  direction : CallDirection
  cls : CallClass
  state : Option CallState
  event : CallEvent
  reason : CallReason
  parties : List Party
  channel : Option (EndId × Chan)
  name : NameBlock
  deriving DecidableEq, Repr

/-- Why an OFFER is withdrawn (R114). -/
inductive WithdrawReason
  | answered (x : LinkId)
  | lineLost
  deriving DecidableEq, Repr

/-- Why a call is reported unanswered (R114). -/
inductive UnansweredReason
  | abandoned (ref : CallRef)
  | dismissed (ref : CallRef) (x : LinkId)
  | missed (slot : Slot) (stamp : Stamp)
  deriving DecidableEq, Repr

/-- END STATE (R73). -/
structure EndStateReport where
  endId : EndId
  state : EndState
  reach : EndReach
  previous : Option EndState
  cause : Option EndCause
  fault : Option FaultRecord
  suppressed : Option Slot
  postsServed : Nat
  deriving DecidableEq, Repr

/-- One count for each outcome of R116, PENDING first (R122). -/
structure OutcomeCounts where
  pending : Nat
  hearing : Nat
  failed : Nat
  unreachable : Nat
  noChannel : Nat
  noAnswer : Nat
  skippedInCall : Nat
  skippedBusy : Nat
  skippedAbsent : Nat
  preempted : Nat
  leftForCall : Nat
  deriving DecidableEq, Repr

/-- The reports of R150. -/
inductive Report
  | linkStart (body : LinkStart)
  | offer (ref : CallRef) (cls : CallClass) (rank : Nat) (stamp : Option Stamp) (flags : CallFlags) (name : NameBlock)
  | offerWithdrawn (ref : CallRef) (reason : WithdrawReason)
  | callState (body : CallStateReport)
  | callUnanswered (name : NameBlock) (cls : CallClass) (reason : UnansweredReason)
  | alarmSilent (name : NameBlock) (failures : Nat)
  | alarmAnswering (name : NameBlock) (failures : Nat)
  | alarmIdentity (name : NameBlock) (directory received : Nat)
  | alarmSensor (name : NameBlock) (sensors changed : Sensors)
  | alarmIsolated (name : NameBlock) (isolated : Bool)
  | endState (body : EndStateReport)
  | announceException (g : GroupId) (slot : Slot) (outcome : MemberOutcome) (late : Bool) (endId : Option EndId)
      (preemptor : Option CallRef) (name : NameBlock)
  | announceReady (g : GroupId) (source : Option Party) (start : Option Stamp) (members : Nat) (counts : OutcomeCounts)
  | announceEnded (g : GroupId) (reason : Option EndReason) (members : Nat) (counts : OutcomeCounts)
  | storeDone (tag : Byte) (record : WriteName)
  | directoryChanged (record : WriteName)
  | testDone (tag : Byte) (endId : EndId) (name : NameBlock) (count : Nat) (pattern : Pattern) (ending : BurstEnding)
      (sent echoedGood echoedBad noEcho : Nat)
  deriving DecidableEq, Repr

/-- The result codes of R159. -/
inductive Result
  | ok | notReady | badRequest | outOfRange | noSuchCall | notOffered | taken | notAParty | alreadyParty | slotBusy
  | noRecord | postBusy | postUnreachable | groupActive | groupIdle | groupEmpty | storeBusy | writeDisabled | inUse
  | duplicate | segmentFull | wrongEndState | testBusy
  deriving DecidableEq, Repr

/-- A call summary of QUERY CALLS (R153). A timer is its kind and the time to expiry. -/
structure CallSummary where
  ref : CallRef
  slot : Slot
  direction : CallDirection
  cls : CallClass
  state : CallState
  flags : CallFlags
  rank : Nat
  stamp : Option Stamp
  offered : LinkSet
  parties : List Party
  channel : Option (EndId × Chan)
  request : Option (EndId × RequestKind)
  timer : Option (TimerKind × Nat)
  deriving DecidableEq, Repr

/-- The body of a QUERY POST response (R154). -/
structure PostView where
  name : NameBlock
  row : PostRow
  call : Option (CallRef × CallState)
  overflowRank : Nat
  group : Option (GroupId × MemberOutcome)
  target : Bool
  commands : Nat
  commandsEnd : Option EndId
  deriving DecidableEq, Repr

/-- The port modes of R32. -/
inductive PortMode | quiet | scanning | held | measuring
  deriving DecidableEq, Repr

/-- The body of a QUERY END response (R155). A remaining time is absent for a stopped timer. -/
structure EndView where
  state : EndStateReport
  measurement : Measurement
  busyCount : Nat
  retryRemaining : Option Nat
  retestRemaining : Option Nat
  mode : PortMode
  reading : LoopReading
  scanPosition : Nat
  commands : Nat
  channels : Vector Holder 4
  waiting : List Waiter
  preempted : List GroupId
  deriving DecidableEq, Repr

/-- A record of a GROUP RESULT list: slot, outcome, end concerned (R132). -/
structure ResultRecord where
  slot : Slot
  outcome : MemberOutcome
  endId : Option EndId
  deriving DecidableEq, Repr

/-- The body of a response (R159, 10.5). -/
inductive ResponseBody
  | empty
  | label (label : List Byte)
  | segment (seg : SegId) (content : SegRecord)
  | global (content : GlobalRecord)
  | memberCount (n : Nat)
  | readEntry (slot : Slot) (damaged : Bool) (content : DirEntry)
  | readSegment (seg : SegId) (damaged : Bool) (content : SegRecord)
  | readGlobal (damaged : Bool) (content : GlobalRecord)
  | readGroup (g : GroupId) (damaged : Bool) (count first : Nat) (slots : List Slot)
  | calls (live offered overflow start : Nat) (summaries : List CallSummary)
  | post (view : PostView)
  | endRecord (view : EndView)
  | group (g : GroupId) (active : Bool) (source : Option Party) (start : Option Stamp) (readySent : Bool)
      (reason : Option EndReason) (members : Nat) (counts : OutcomeCounts) (first : Nat) (records : List ResultRecord)
  | stats (e : EndId) (counters : Counters) (burst : BurstRecord)
  | burstRunning (running : Bool)
  deriving DecidableEq, Repr

/-- An entry of a report queue: a response (R159) or a report with its gap indication (R149). -/
inductive QueueEntry
  | response (tag typ : Byte) (result : Result) (body : ResponseBody)
  | report (gap : Bool) (body : Report)
  deriving DecidableEq, Repr

/-- A valid frame as received: type, tag and body (R156). -/
structure Frame where
  typ : Byte
  tag : Byte
  body : List Byte
  deriving DecidableEq, Repr

/-- An entry of a trunk slot table (R152). -/
inductive TrunkUse
  | free
  | call (ref : CallRef)
  | announce (g : GroupId)
  deriving DecidableEq, Repr

/-- The link record (R143). `lastSent` is the last message frame sent, the link's output (log 27). `overrun` is the model's own:
the ANNOUNCE EXCEPTION and OFFER reports of the present event that found the queue full; it is empty between events (log 15). -/
structure LinkRecord where
  up : Bool
  silence : Option Nat
  intake : List Frame
  queue : List QueueEntry
  overrun : List Report
  gap : Bool
  heldStart : Option LinkStart
  firstUp : Bool
  latch : Bool
  trunks : Vector TrunkUse 16
  good : Nat
  badCheck : Nat
  discarded : Nat
  lastSent : Option (List Byte)
  deriving DecidableEq, Repr

/-- The power-on record of R143. -/
def LinkRecord.powerOn : LinkRecord :=
  { up := false, silence := none, intake := [], queue := [], overrun := [], gap := false, heldStart := none, firstUp := true,
    latch := false, trunks := Vector.replicate 16 .free, good := 0, badCheck := 0, discarded := 0, lastSent := none }

end Sys2Proof.Machine
end

