-- ==== Sys2Proof/Machine/Operands.lean ====
section
/-! DEFINITION. Message frames as received: delimiting and check value (R156), the structure of request bodies (R157) and
the codes of their fields (R158). -/

namespace Sys2Proof.Machine

/-- The frame that octets hold when they are correctly delimited and their check value matches (R156): start flag A5h, a body
length of at most 240, exactly the octets that the length announces, and the check value over type, tag, length and body. -/
def deframe : List Byte → Option Frame
  | flag :: typ :: tag :: len :: rest =>
    if flag = 0xA5 ∧ len.toNat ≤ 240 ∧ rest.length = len.toNat + 2
        ∧ rest.drop len.toNat = checkOctets (typ :: tag :: len :: rest.take len.toNat) then
      some { typ := typ, tag := tag, body := rest.take len.toNat }
    else none
  | _ => none

/-- A frame as sent (R156). -/
def enframe (f : Frame) : List Byte :=
  let inside := f.typ :: f.tag :: BitVec.ofNat 8 f.body.length :: f.body
  0xA5 :: inside ++ checkOctets inside

/-- Successive two-octet numbers. -/
def pairs : List Byte → List Nat
  | a :: b :: rest => number [a, b] :: pairs rest
  | _ => []

/-- GROUP EDIT: 4 + 2n octets, n from 1 to 32, operation 0 or 1, slots to 255 (R157). -/
def parseGroupEdit : List Byte → Option Request
  | g :: op :: n1 :: n0 :: rest =>
    let n := number [n1, n0]
    if rest.length = 2 * n ∧ 1 ≤ n ∧ n ≤ Config.editSlots ∧ op.toNat < 2 ∧ (pairs rest).all (fun p => decide (p < 256)) then
      some (.groupEdit g.toNat op.toNat (pairs rest))
    else none
  | _ => none

/-- DIRECTORY WRITE NAME: 21 octets (R157). -/
def parseName : List Byte → Option Request
  | p1 :: p0 :: len :: rest =>
    match rest.drop 12 with
    | [kind, carriageway, side, m2, m1, m0] =>
      some (.writeName (number [p1, p0])
        { labelLength := len.toNat, label := rest.take 12, kind := kind.toNat, carriageway := carriageway.toNat,
          side := side.toNat, marker := number [m2, m1, m0] })
    | _ => none
  | _ => none

/-- DIRECTORY WRITE PLACE: 9 octets (R157). -/
def parsePlace : List Byte → Option Request
  | [p1, p0, present, seg, x1, x0, s2, s1, s0] =>
    some (.writePlace (number [p1, p0])
      { present := present.toNat, seg := seg.toNat, position := number [x1, x0], serial := number [s2, s1, s0] })
  | _ => none

/-- SITE WRITE: kind 0 with 21 octets or kind 1 with 9 (R157). -/
def parseSite : List Byte → Option Request
  | kind :: rest =>
    if kind = 0 then
      match rest with
      | [seg, fitted, l1, l0, a1, a0, b1, b0, s, r1, r0, c2, c1, c0, dir, x1, x0, home, q1, q0] =>
        some (.writeSegment seg.toNat
          { fitted := fitted.toNat, cableLength := number [l1, l0], feederA := number [a1, a0], feederB := number [b1, b0],
            speed := s.toNat, layRatio := number [r1, r0], anchor := number [c2, c1, c0], direction := dir.toNat,
            split := number [x1, x0], homeLink := home.toNat, route := number [q1, q0] })
      | _ => none
    else if kind = 1 then
      match rest with
      | [ignored, o, m, r, a, l, t1, t0] =>
        some (.writeGlobal
          { ignored := ignored.toNat, offerOverflow := o.toNat, threshold := m.toNat, ring := r.toNat,
            acknowledge := a.toNat, silence := l.toNat, retest := number [t1, t0] })
      | _ => none
    else none
  | _ => none

/-- A body of an index, a generation and a trunk slot (ANSWER, JOIN). -/
def parseRefSlot (f : Nat → Nat → Nat → Request) : List Byte → Option Request
  | [i, g1, g0, t] => some (f i.toNat (number [g1, g0]) t.toNat)
  | _ => none

/-- A body of an index and a generation (LEAVE, CLEAR). -/
def parseRef (f : Nat → Nat → Request) : List Byte → Option Request
  | [i, g1, g0] => some (f i.toNat (number [g1, g0]))
  | _ => none

/-- A body of one octet. -/
def parseOne (f : Nat → Request) : List Byte → Option Request
  | [a] => some (f a.toNat)
  | _ => none

/-- A body of two one-octet fields. -/
def parseOneOne (f : Nat → Nat → Request) : List Byte → Option Request
  | [a, b] => some (f a.toNat b.toNat)
  | _ => none

/-- A body of a two-octet field. -/
def parseTwo (f : Nat → Request) : List Byte → Option Request
  | [a, b] => some (f (number [a, b]))
  | _ => none

/-- A body of a two-octet field and a one-octet field. -/
def parseTwoOne (f : Nat → Nat → Request) : List Byte → Option Request
  | [a, b, c] => some (f (number [a, b]) c.toNat)
  | _ => none

/-- A body of a one-octet field and a two-octet field. -/
def parseOneTwo (f : Nat → Nat → Request) : List Byte → Option Request
  | [a, b, c] => some (f a.toNat (number [b, c]))
  | _ => none

/-- POST TEST: post slot, count, pattern. -/
def parsePostTest : List Byte → Option Request
  | [p1, p0, c1, c0, k] => some (.postTest (number [p1, p0]) (number [c1, c0]) k.toNat)
  | _ => none

/-- DIRECTORY READ: kind, index, first index. -/
def parseRead : List Byte → Option Request
  | [k, i1, i0, f1, f0] => some (.directoryRead k.toNat (number [i1, i0]) (number [f1, f0]))
  | _ => none

/-- A body of no octets. -/
def parseEmpty (r : Request) : List Byte → Option Request
  | [] => some r
  | _ => none

/-- The request of a frame that passes the structural check of R157: its type is that of a request (10.2) and its body
has the length of the type. -/
def parseRequest (f : Frame) : Option Request :=
  if f.typ = 0x20 then parseRefSlot .answer f.body
  else if f.typ = 0x21 then parseRefSlot .join f.body
  else if f.typ = 0x22 then parseRef .leave f.body
  else if f.typ = 0x23 then parseRef .clear f.body
  else if f.typ = 0x24 then parseTwoOne .callPost f.body
  else if f.typ = 0x25 then parseOne .queryCalls f.body
  else if f.typ = 0x30 then parseOneOne .announceStart f.body
  else if f.typ = 0x31 then parseOne .announceStop f.body
  else if f.typ = 0x32 then parseGroupEdit f.body
  else if f.typ = 0x33 then parseOneTwo .groupResult f.body
  else if f.typ = 0x40 then parseOneOne .endService f.body
  else if f.typ = 0x41 then parseOne .lineTest f.body
  else if f.typ = 0x42 then parseOneOne .lineStats f.body
  else if f.typ = 0x43 then parsePostTest f.body
  else if f.typ = 0x44 then parseOne .postTestStop f.body
  else if f.typ = 0x45 then parseTwo .queryPost f.body
  else if f.typ = 0x46 then parseOne .queryEnd f.body
  else if f.typ = 0x50 then parseEmpty .writeEnable f.body
  else if f.typ = 0x51 then parseEmpty .writeDisable f.body
  else if f.typ = 0x52 then parseName f.body
  else if f.typ = 0x53 then parsePlace f.body
  else if f.typ = 0x54 then parseSite f.body
  else if f.typ = 0x55 then parseOne .storeErase f.body
  else if f.typ = 0x56 then parseRead f.body
  else none

/-- The type code of a request (10.2). -/
def requestType : Request → Byte
  | .answer _ _ _ => 0x20
  | .join _ _ _ => 0x21
  | .leave _ _ => 0x22
  | .clear _ _ => 0x23
  | .callPost _ _ => 0x24
  | .queryCalls _ => 0x25
  | .announceStart _ _ => 0x30
  | .announceStop _ => 0x31
  | .groupEdit _ _ _ => 0x32
  | .groupResult _ _ => 0x33
  | .endService _ _ => 0x40
  | .lineTest _ => 0x41
  | .lineStats _ _ => 0x42
  | .postTest _ _ _ => 0x43
  | .postTestStop _ => 0x44
  | .queryPost _ => 0x45
  | .queryEnd _ => 0x46
  | .writeEnable => 0x50
  | .writeDisable => 0x51
  | .writeName _ _ => 0x52
  | .writePlace _ _ => 0x53
  | .writeSegment _ _ => 0x54
  | .writeGlobal _ => 0x54
  | .storeErase _ => 0x55
  | .directoryRead _ _ _ => 0x56

/-- The 19 octets of a segment record after its kind and segment octets, from fields as a request carries them (10.2). -/
def segmentOctets (f : RawSegment) : List Byte :=
  octets 1 f.fitted ++ octets 2 f.cableLength ++ octets 2 f.feederA ++ octets 2 f.feederB ++ octets 1 f.speed
    ++ octets 2 f.layRatio ++ octets 3 f.anchor ++ octets 1 f.direction ++ octets 2 f.split ++ octets 1 f.homeLink
    ++ octets 2 f.route

/-- The 7 octets of a global record after its kind and ignored octets (10.2). -/
def globalOctets (f : RawGlobal) : List Byte :=
  octets 1 f.offerOverflow ++ octets 1 f.threshold ++ octets 1 f.ring ++ octets 1 f.acknowledge ++ octets 1 f.silence
    ++ octets 2 f.retest

/-- The body of a request (10.2). -/
def requestBody : Request → List Byte
  | .answer i g t => octets 1 i ++ octets 2 g ++ octets 1 t
  | .join i g t => octets 1 i ++ octets 2 g ++ octets 1 t
  | .leave i g => octets 1 i ++ octets 2 g
  | .clear i g => octets 1 i ++ octets 2 g
  | .callPost p t => octets 2 p ++ octets 1 t
  | .queryCalls k => octets 1 k
  | .announceStart g t => octets 1 g ++ octets 1 t
  | .announceStop g => octets 1 g
  | .groupEdit g o l => octets 1 g ++ octets 1 o ++ octets 2 l.length ++ l.flatMap (octets 2)
  | .groupResult g k => octets 1 g ++ octets 2 k
  | .endService e v => octets 1 e ++ octets 1 v
  | .lineTest e => octets 1 e
  | .lineStats e c => octets 1 e ++ octets 1 c
  | .postTest p c k => octets 2 p ++ octets 2 c ++ octets 1 k
  | .postTestStop e => octets 1 e
  | .queryPost p => octets 2 p
  | .queryEnd e => octets 1 e
  | .writeEnable => []
  | .writeDisable => []
  | .writeName p f =>
      octets 2 p ++ octets 1 f.labelLength ++ f.label ++ octets 1 f.kind ++ octets 1 f.carriageway ++ octets 1 f.side
        ++ octets 3 f.marker
  | .writePlace p f =>
      octets 2 p ++ octets 1 f.present ++ octets 1 f.seg ++ octets 2 f.position ++ octets 3 f.serial
  | .writeSegment s f => octets 1 0 ++ octets 1 s ++ segmentOctets f
  | .writeGlobal f => octets 1 1 ++ octets 1 f.ignored ++ globalOctets f
  | .storeErase c => octets 1 c
  | .directoryRead k i f => octets 1 k ++ octets 2 i ++ octets 2 f

/-- The frame by which a centre sends a request. -/
def requestFrame (tag : Byte) (r : Request) : Frame := { typ := requestType r, tag := tag, body := requestBody r }

/-! ## The codes of R158 -/

/-- A post slot, or none above 255. -/
def slotOf (n : Nat) : Option Slot := if h : n < 256 then some ⟨n, h⟩ else none

/-- A segment, or none above 7. -/
def segOf (n : Nat) : Option SegId := if h : n < 8 then some ⟨n, h⟩ else none

/-- A group, or none above 15. -/
def groupOf (n : Nat) : Option GroupId := if h : n < 16 then some ⟨n, h⟩ else none

/-- The index of a call record, or none above 47. -/
def callIdxOf (n : Nat) : Option CallIdx := if h : n < 48 then some ⟨n, h⟩ else none

/-- A trunk slot by its number, or none outside 1 to 16. -/
def trunkOf (n : Nat) : Option Trunk := if h : 1 ≤ n ∧ n ≤ 16 then some ⟨n - 1, by omega⟩ else none

/-- An end by its code: segment × 2, plus 0 for A or 1 for B; none above 15 (R158). -/
def endOf (n : Nat) : Option EndId :=
  if h : n < 16 then some { seg := ⟨n / 2, by omega⟩, side := if n % 2 = 0 then .a else .b } else none

/-- A call reference, or none for an index above 47 or a generation above 1023 (R98, R158). -/
def refOf (index generation : Nat) : Option CallRef :=
  match callIdxOf index with
  | some i => if generation ≤ 1023 then some { index := i, generation := BitVec.ofNat 10 generation } else none
  | none => none

/-- A present or fitted field: 0 no, 1 yes (R158). -/
def flagOf : Nat → Option Bool
  | 0 => some false
  | 1 => some true
  | _ => none

/-- A clear flag: 0 no, any other value set (R158). -/
def clearFlagOf (n : Nat) : Bool := n != 0

def linkOf : Nat → Option LinkId
  | 0 => some .a
  | 1 => some .b
  | _ => none

def directionOf : Nat → Option Direction
  | 0 => some .increasing
  | 1 => some .decreasing
  | _ => none

def postKindOf : Nat → Option PostKind
  | 0 => some .openRoad
  | 1 => some .tunnel
  | 2 => some .ramp
  | 3 => some .layBy
  | _ => none

def carriagewayOf : Nat → Option Carriageway
  | 0 => some .none
  | 1 => some .one
  | 2 => some .two
  | _ => none

def roadSideOf : Nat → Option RoadSide
  | 0 => some .left
  | 1 => some .right
  | 2 => some .centre
  | _ => none

def patternOf : Nat → Option Pattern
  | 0 => some .alternate
  | 1 => some .zeros
  | 2 => some .ones
  | 3 => some .count
  | _ => none

def scopeOf : Nat → Option EraseScope
  | 0 => some .directory
  | 1 => some .groups
  | 2 => some .all
  | _ => none

/-- A marker override: FFFFFFh is absent, any other value above 999,999 is outside its range (R158). -/
def markerOf (n : Nat) : Option (Option Nat) :=
  if n = 0xFFFFFF then some none else if n ≤ Config.chainageTop then some (some n) else none

/-- The characters a label may hold (R1). -/
def labelChar (o : Byte) : Bool :=
  (decide (0x41 ≤ o.toNat) && decide (o.toNat ≤ 0x5A)) || (decide (0x30 ≤ o.toNat) && decide (o.toNat ≤ 0x39))
    || o == 0x20 || o == 0x2D || o == 0x2E || o == 0x2F

/-- The label as it will be stored: its first `length` characters, each outside the set replaced by a space (R2, R158). -/
def storedLabel (length : Nat) (label : List Byte) : List Byte :=
  (label.take length).map (fun o => if labelChar o then o else 0x20)

/-- The nearer limit of a range (R6, R9). -/
def clamp (low high n : Nat) : Nat := max low (min high n)

end Sys2Proof.Machine
end

