-- ==== Sys2Proof/Machine/Frames.lean ====
section
/-! DEFINITION. What the part sends: responses and reports as message frames (R159, R160, 10.4, 10.5), and the frames of
the cable with the posts' replies (R161, R162). -/

namespace Sys2Proof.Machine

/-! ## Codes of enumerated fields: the place in the list where the manual defines them (R158) -/

def linkCode : LinkId → Nat
  | .a => 0
  | .b => 1

/-- An end's code: segment × 2, plus 0 for A or 1 for B (R158). -/
def endCode (e : EndId) : Nat := 2 * e.seg.val + (match e.side with | .a => 0 | .b => 1)

def kindCode : PostKind → Nat
  | .openRoad => 0
  | .tunnel => 1
  | .ramp => 2
  | .layBy => 3

def carriagewayCode : Carriageway → Nat
  | .none => 0
  | .one => 1
  | .two => 2

def roadSideCode : RoadSide → Nat
  | .left => 0
  | .right => 1
  | .centre => 2

def directionCode : Direction → Nat
  | .increasing => 0
  | .decreasing => 1

def scopeCode : EraseScope → Nat
  | .directory => 0
  | .groups => 1
  | .all => 2

def callDirectionCode : CallDirection → Nat
  | .inbound => 0
  | .outbound => 1

def callStateCode : CallState → Nat
  | .offered => 0
  | .connecting => 1
  | .connected => 2
  | .parked => 3
  | .lineLost => 4
  | .ringing => 5
  | .clearing => 6

def callEventCode : CallEvent → Nat
  | .connected => 0
  | .resumed => 1
  | .connecting => 2
  | .parked => 3
  | .lineLost => 4
  | .partyJoined => 5
  | .partyLeft => 6
  | .clearedByParty => 7
  | .clearedByPost => 8
  | .answeredByPost => 9
  | .noAnswer => 10
  | .ringing => 11

/-- The reason octet of CALL STATE (10.4). -/
def callReasonCode : CallReason → Nat
  | .none => 0
  | .postMoved => 1
  | .postIsolated => 2
  | .endStopped => 3
  | .postServed => 4
  | .leave => 5
  | .linkLost => 6
  | .byLink .a => 7
  | .byLink .b => 8

def endStateCode : EndState → Nat
  | .unfitted => 0
  | .serving => 1
  | .testing => 2
  | .faulted => 3
  | .off => 4

def endCauseCode : EndCause → Nat
  | .startUp => 0
  | .segmentWrite => 1
  | .erase => 2
  | .suspectFailure => 3
  | .loopLoss => 4
  | .retest => 5
  | .lineTest => 6
  | .serviceOn => 7
  | .serviceOff => 8
  | .result => 9

def measKindCode : MeasKind → Nat
  | .good => 0
  | .openPair => 1
  | .short => 2
  | .mismatch => 3
  | .crossed => 4
  | .busy => 5
  | .unknown => 6

/-- DESIGN CHOICE: no measurement is sent as its place in the list of R53, 0, and not as an absent field (log 26). -/
def measurementCode : Measurement → Nat
  | .none => 0
  | .waiting => 1
  | .running => 2

def portModeCode : PortMode → Nat
  | .quiet => 0
  | .scanning => 1
  | .held => 2
  | .measuring => 3

def postReachCode : PostReach → Nat
  | .unserved => 0
  | .served _ => 1
  | .isolated => 2

def replyCode : ReplyStatus → Nat
  | .unproven => 0
  | .answering => 1
  | .noReply => 2

def activityCode : Activity → Nat
  | .idle => 0
  | .calling => 1
  | .ringing => 2
  | .hearing => 3
  | .tested => 4

def patternCode : Pattern → Nat
  | .alternate => 0
  | .zeros => 1
  | .ones => 2
  | .count => 3

def abortCode : AbortReason → Nat
  | .callEvent => 0
  | .announcement => 1
  | .postMoved => 2
  | .postIsolated => 3
  | .postUnserved => 4
  | .endTesting => 5
  | .endOff => 6
  | .endUnfitted => 7
  | .segmentWrite => 8

/-- The place of an outcome in the list of R116. -/
def outcomeCode : MemberOutcome → Nat
  | .pending _ => 0
  | .hearing => 1
  | .failed => 2
  | .unreachable => 3
  | .noChannel => 4
  | .noAnswer => 5
  | .skippedInCall => 6
  | .skippedBusy => 7
  | .skippedAbsent => 8
  | .preempted => 9
  | .leftForCall => 10

def phaseCode : Phase → Nat
  | .awaiting => 0
  | .commanded => 1

/-- The end reason octet of ANNOUNCE ENDED and GROUP RESULT (10.4). -/
def endReasonCode : Option EndReason → Nat
  | none => 0
  | some (.stopped .a) => 1
  | some (.stopped .b) => 2
  | some .sourceLost => 3

def timerCode : Option (TimerKind × Nat) → Nat
  | none => 0
  | some (.overflow, _) => 1
  | some (.ring, _) => 2
  | some (.clearConfirm, _) => 3

/-- The result codes of R159. -/
def resultCode : Result → Byte
  | .ok => 0x00
  | .notReady => 0x01
  | .badRequest => 0x02
  | .outOfRange => 0x03
  | .noSuchCall => 0x10
  | .notOffered => 0x11
  | .taken => 0x12
  | .notAParty => 0x13
  | .alreadyParty => 0x14
  | .slotBusy => 0x15
  | .noRecord => 0x16
  | .postBusy => 0x17
  | .postUnreachable => 0x18
  | .groupActive => 0x20
  | .groupIdle => 0x21
  | .groupEmpty => 0x22
  | .storeBusy => 0x30
  | .writeDisabled => 0x31
  | .inUse => 0x32
  | .duplicate => 0x33
  | .segmentFull => 0x34
  | .wrongEndState => 0x40
  | .testBusy => 0x41

/-! ## Common fields -/

def refOctets (r : CallRef) : List Byte := octets 1 r.index.val ++ octets 2 r.generation.toNat

def optRef : Option CallRef → List Byte
  | some r => refOctets r
  | none => absentField 3

def optEnd (e : Option EndId) : List Byte := optField 1 (e.map endCode)

/-- A party: link and trunk slot number; FFh FFh for none (10.4). -/
def partyOctets : Option Party → List Byte
  | some p => octets 1 (linkCode p.link) ++ octets 1 (p.trunk.val + 1)
  | none => absentField 2

/-- A line channel: end and channel; FFh FFh for none (10.4). -/
def channelOctets : Option (EndId × Chan) → List Byte
  | some (e, c) => octets 1 (endCode e) ++ octets 1 c.val
  | none => absentField 2

/-- The label in 12 octets, unused ones sent as spaces (10.4). -/
def labelOctets (label : List Byte) : List Byte := (label ++ List.replicate 12 0x20).take 12

/-- The 27 octets of a name block (10.4). DESIGN CHOICE: 0 in the unused bits of its flags (log 60). -/
def nameBlockOctets (n : NameBlock) : List Byte :=
  octets 2 n.slot.val
    ++ octets 1 (flagBit 0 n.present + flagBit 1 n.unverified + flagBit 2 (n.source == .marker))
    ++ octets 2 n.route ++ octets 1 n.label.length ++ labelOctets n.label ++ octets 1 (kindCode n.kind)
    ++ octets 1 (carriagewayCode n.carriageway) ++ octets 1 (roadSideCode n.side) ++ octets 3 n.chainage
    ++ octets 1 n.seg.val ++ optEnd n.servingEnd ++ octets 1 n.hop

/-- The call flags octet (10.4). DESIGN CHOICE: 0 in its unused bits (log 60). -/
def callFlagsValue (f : CallFlags) : Nat :=
  flagBit 0 f.overflowed + flagBit 1 f.dropped + flagBit 2 f.upgraded + flagBit 3 f.unverified

/-- The 12 octets of a fault record (10.4): position and chainage carry zeros when absent, an absent record has flags 0. DESIGN
CHOICE: 0 in the unused bits of the flags (log 60). -/
def faultOctets : Option FaultRecord → List Byte
  | none => List.replicate 11 0 ++ absentField 1
  | some f =>
    octets 1 (1 + flagBit 1 f.beyond + flagBit 2 f.inFeeder + flagBit 3 f.position.isSome + flagBit 4 f.chainage.isSome)
      ++ octets 1 (measKindCode f.kind) ++ octets 2 f.delay ++ octets 2 f.distance ++ octets 2 (f.position.getD 0)
      ++ octets 3 (f.chainage.getD 0) ++ optField 1 (f.coupled.map Fin.val)

def reachOctets : EndReach → List Byte
  | .full => octets 1 0 ++ octets 2 0
  | .limit x => octets 1 1 ++ octets 2 x
  | .none => octets 1 2 ++ octets 2 0

/-- The 22 octets of END STATE after its report flags (10.4). -/
def endStateOctets (r : EndStateReport) : List Byte :=
  octets 1 (endCode r.endId) ++ octets 1 (endStateCode r.state) ++ reachOctets r.reach
    ++ optField 1 (r.previous.map endStateCode) ++ optField 1 (r.cause.map endCauseCode)
    ++ optField 2 (r.suppressed.map Fin.val) ++ octets 1 r.postsServed ++ faultOctets r.fault

/-- The eleven two-octet counts (10.4). -/
def countsOctets (c : OutcomeCounts) : List Byte :=
  [c.pending, c.hearing, c.failed, c.unreachable, c.noChannel, c.noAnswer, c.skippedInCall, c.skippedBusy,
    c.skippedAbsent, c.preempted, c.leftForCall].flatMap (octets 2)

/-- A damaged record of LINK START: its kind and index as DIRECTORY READ has them (R151, R158, 10.5). DESIGN CHOICE: two octets of
index, 0 for the global record, and no padding of the list (log 26). -/
def recordOctets : RecordId → List Byte
  | .entry i => octets 1 0 ++ octets 2 i.val
  | .segment i => octets 1 1 ++ octets 2 i.val
  | .global => octets 1 2 ++ octets 2 0
  | .group g => octets 1 3 ++ octets 2 g.val

/-- The record that STORE DONE and DIRECTORY CHANGED name: the kind in the order of R18, then the index or scope. DESIGN CHOICE:
these widths (log 26). -/
def writeNameOctets : WriteName → List Byte
  | .name i => octets 1 0 ++ octets 2 i.val
  | .place i => octets 1 1 ++ octets 2 i.val
  | .segment i => octets 1 2 ++ octets 2 i.val
  | .global => octets 1 3 ++ absentField 2
  | .group g => octets 1 4 ++ octets 2 g.val
  | .erase c => octets 1 5 ++ octets 2 (scopeCode c)

def sensorOctets (s : Sensors) : List Byte :=
  octets 1 (flagBit 0 s.door) ++ octets 1 (flagBit 0 s.battery) ++ octets 1 (flagBit 0 s.speaker)

/-- An ending with its stopping link or abort reason (10.5, LINE STATS). -/
def endingOctets : Option BurstEnding → List Byte
  | none => absentField 2
  | some .done => octets 1 0 ++ absentField 1
  | some (.stopped x) => octets 1 1 ++ octets 1 (linkCode x)
  | some (.aborted r) => octets 1 2 ++ octets 1 (abortCode r)

/-! ## Reports (R160) -/

/-- The type of a report (R160). -/
def reportType : Report → Byte
  | .linkStart _ => 0x90
  | .offer _ _ _ _ _ _ => 0x91
  | .offerWithdrawn _ _ => 0x92
  | .callState _ => 0x93
  | .callUnanswered _ _ _ => 0x94
  | .alarmSilent _ _ => 0x95
  | .alarmAnswering _ _ => 0x95
  | .alarmIdentity _ _ _ => 0x95
  | .alarmSensor _ _ _ => 0x95
  | .alarmIsolated _ _ => 0x95
  | .endState _ => 0x96
  | .announceException _ _ _ _ _ _ _ => 0x97
  | .announceReady _ _ _ _ _ => 0x98
  | .announceEnded _ _ _ _ => 0x99
  | .storeDone _ _ => 0x9A
  | .directoryChanged _ => 0x9B
  | .testDone _ _ _ _ _ _ _ _ _ _ => 0x9C

/-- The body of a report after its flags octet (10.4, R160). DESIGN CHOICE: the widths of reports without a layout table (log 26). -/
def reportFields : Report → List Byte
  | .linkStart r =>
    octets 1 (linkCode r.link) ++ octets 1 (flagBit 0 r.powerOn) ++ octets 4 r.runningTime ++ octets 2 r.good
      ++ octets 2 r.badCheck ++ octets 2 r.discarded ++ octets 2 r.damagedCount ++ r.damaged.flatMap recordOctets
  | .offer ref cls rank stamp flags name =>
    refOctets ref ++ octets 1 cls.rank ++ octets 1 rank ++ optField 4 (stamp.map BitVec.toNat)
      ++ octets 1 (callFlagsValue flags) ++ nameBlockOctets name
  | .offerWithdrawn ref reason =>
    refOctets ref ++ (match reason with
      | .answered x => octets 1 0 ++ octets 1 (linkCode x)
      | .lineLost => octets 1 1 ++ absentField 1)
  | .callState r =>
    refOctets r.ref ++ octets 1 (callDirectionCode r.direction) ++ octets 1 r.cls.rank
      ++ optField 1 (r.state.map callStateCode) ++ octets 1 (callEventCode r.event) ++ octets 1 (callReasonCode r.reason)
      ++ partyOctets r.parties[0]? ++ partyOctets r.parties[1]? ++ channelOctets r.channel ++ nameBlockOctets r.name
  | .callUnanswered name cls reason =>
    nameBlockOctets name ++ octets 1 cls.rank ++ (match reason with
      | .abandoned ref => octets 1 0 ++ absentField 1 ++ refOctets ref ++ absentField 6
      | .dismissed ref x => octets 1 1 ++ octets 1 (linkCode x) ++ refOctets ref ++ absentField 6
      | .missed slot stamp => octets 1 2 ++ absentField 1 ++ absentField 3 ++ octets 2 slot.val ++ octets 4 stamp.toNat)
  | .alarmSilent name failures => octets 1 0 ++ nameBlockOctets name ++ octets 2 failures
  | .alarmAnswering name failures => octets 1 1 ++ nameBlockOctets name ++ octets 2 failures
  | .alarmIdentity name directory received =>
    octets 1 2 ++ nameBlockOctets name ++ octets 3 directory ++ octets 3 received
  | .alarmSensor name sensors changed => octets 1 3 ++ nameBlockOctets name ++ sensorOctets sensors ++ sensorOctets changed
  | .alarmIsolated name isolated => octets 1 4 ++ nameBlockOctets name ++ octets 1 (flagBit 0 isolated)
  | .endState r => endStateOctets r
  | .announceException g slot outcome late e preemptor name =>
    octets 1 g.val ++ octets 2 slot.val ++ octets 1 (outcomeCode outcome) ++ octets 1 (flagBit 0 late) ++ optEnd e
      ++ optRef preemptor ++ nameBlockOctets name
  | .announceReady g source start members counts =>
    octets 1 g.val ++ partyOctets source ++ optField 4 (start.map BitVec.toNat) ++ octets 2 members ++ countsOctets counts
  | .announceEnded g reason members counts =>
    octets 1 g.val ++ octets 1 (endReasonCode reason) ++ octets 2 members ++ countsOctets counts
  | .storeDone tag record => [tag] ++ writeNameOctets record
  | .directoryChanged record => writeNameOctets record
  | .testDone tag e name count pattern ending sent good bad noEcho =>
    [tag] ++ octets 1 (endCode e) ++ nameBlockOctets name ++ octets 2 count ++ octets 1 (patternCode pattern)
      ++ endingOctets (some ending) ++ octets 2 sent ++ octets 2 good ++ octets 2 bad ++ octets 2 noEcho

/-! ## Responses (R159, 10.5) -/

/-- The 19 octets of a stored segment record (10.5). -/
def segmentRecordOctets (r : SegRecord) : List Byte :=
  octets 1 (flagBit 0 r.fitted) ++ octets 2 r.cableLength ++ octets 2 r.feederA ++ octets 2 r.feederB ++ octets 1 r.speed
    ++ octets 2 r.layRatio ++ octets 3 r.anchor ++ octets 1 (directionCode r.direction) ++ octets 2 r.split
    ++ octets 1 (linkCode r.homeLink) ++ octets 2 r.route

/-- The 7 octets of a stored global record (10.5). -/
def globalRecordOctets (r : GlobalRecord) : List Byte :=
  octets 1 r.offerOverflow ++ octets 1 r.threshold ++ octets 1 r.ring ++ octets 1 r.acknowledge ++ octets 1 r.silence
    ++ octets 2 r.retest

/-- The octets of an entry in DIRECTORY READ (10.5). -/
def entryOctets (e : DirEntry) : List Byte :=
  octets 1 (flagBit 0 e.place.present) ++ octets 1 e.place.seg.val ++ octets 2 e.place.position ++ octets 3 e.place.serial
    ++ octets 1 e.name.label.length ++ labelOctets e.name.label ++ octets 1 (kindCode e.name.kind)
    ++ octets 1 (carriagewayCode e.name.carriageway) ++ octets 1 (roadSideCode e.name.side) ++ optField 3 e.name.marker

/-- A holder in 3 octets: the kind in the top two bits, an index or group in the low six, a generation (10.5). DESIGN CHOICE: 0 in
the low six bits of FREE (log 60). -/
def holderOctets : Holder → List Byte
  | .free => octets 1 0 ++ octets 2 0
  | .call ref _ => octets 1 (64 + ref.index.val) ++ octets 2 ref.generation.toNat
  | .group g => octets 1 (128 + g.val) ++ octets 2 0

/-- A waiting list entry in 3 octets (10.5). -/
def waiterOctets : Waiter → List Byte
  | .call .parked ref _ _ => octets 1 ref.index.val ++ octets 2 ref.generation.toNat
  | .call .connect ref _ _ => octets 1 (64 + ref.index.val) ++ octets 2 ref.generation.toNat
  | .announce g _ => octets 1 (128 + g.val) ++ octets 2 0

def requestKindCode : RequestKind → Nat
  | .parked => 0
  | .connect => 1

/-- The 28 octets of a call summary (10.5). DESIGN CHOICE: FFh for an absent stamp, party, channel, request and time (log 59), 0
in the unused bits of the flags and of the offered set (log 60). -/
def summaryOctets (c : CallSummary) : List Byte :=
  refOctets c.ref ++ octets 2 c.slot.val ++ octets 1 (callDirectionCode c.direction) ++ octets 1 c.cls.rank
    ++ octets 1 (callStateCode c.state) ++ octets 1 (callFlagsValue c.flags + flagBit 4 c.stamp.isSome) ++ octets 1 c.rank
    ++ optField 4 (c.stamp.map BitVec.toNat) ++ octets 1 (flagBit 0 c.offered.a + flagBit 1 c.offered.b)
    ++ partyOctets c.parties[0]? ++ partyOctets c.parties[1]? ++ channelOctets c.channel
    ++ (match c.request with
        | some (e, k) => octets 1 (endCode e) ++ octets 1 (requestKindCode k)
        | none => absentField 2)
    ++ octets 1 (timerCode c.timer) ++ optField 4 (c.timer.map Prod.snd)

/-- The octets of a QUERY POST body (10.5). DESIGN CHOICE: FFh for an absent stamp, call, outcome, phase and end (log 59), 0 in
the unused bit of the flags (log 60). -/
def postViewOctets (v : PostView) : List Byte :=
  nameBlockOctets v.name ++ octets 1 (postReachCode v.row.reach) ++ octets 1 v.row.hop ++ octets 1 (replyCode v.row.reply)
    ++ octets 1 v.row.failures
    ++ octets 1 (flagBit 0 v.row.silenceReported + flagBit 1 v.row.unverified + flagBit 2 (v.row.hook == .off)
        + flagBit 3 v.row.sensors.door + flagBit 4 v.row.sensors.battery + flagBit 5 v.row.sensors.speaker
        + flagBit 6 v.row.stamp.isSome)
    ++ octets 1 v.row.button.rank ++ octets 1 (activityCode v.row.activity) ++ optField 4 (v.row.stamp.map BitVec.toNat)
    ++ optRef (v.call.map Prod.fst) ++ optField 1 (v.call.map (fun c => callStateCode c.2)) ++ octets 2 v.overflowRank
    ++ (match v.group with
        | some (g, .pending p) => octets 1 g.val ++ octets 1 0 ++ octets 1 (phaseCode p)
        | some (g, o) => octets 1 g.val ++ octets 1 (outcomeCode o) ++ absentField 1
        | none => absentField 3)
    ++ octets 1 (flagBit 0 v.target) ++ octets 1 v.commands ++ optEnd v.commandsEnd

/-- The octets of a QUERY END body (10.5). DESIGN CHOICE: FFh for an absent cause and for the remaining time of a timer that does
not run (log 59). -/
def endViewOctets (v : EndView) : List Byte :=
  endStateOctets v.state ++ octets 1 (measurementCode v.measurement) ++ octets 1 v.busyCount ++ optField 2 v.retryRemaining
    ++ optField 4 v.retestRemaining ++ octets 1 (portModeCode v.mode)
    ++ octets 1 (match v.reading with | .present => 0 | .lost => 1) ++ octets 1 v.scanPosition ++ octets 1 v.commands
    ++ v.channels.toList.flatMap holderOctets ++ octets 1 v.waiting.length ++ v.waiting.flatMap waiterOctets
    ++ octets 2 (v.preempted.foldl (fun n g => n ||| 2 ^ g.val) 0)

/-- A record of GROUP RESULT in 3 octets (10.5). DESIGN CHOICE: FFh for an end concerned of none (log 59); 0 in the phase bit of a
member that is not PENDING and in the unused bits (log 60). -/
def resultRecordOctets (r : ResultRecord) : List Byte :=
  octets 1 r.slot.val
    ++ octets 1 (outcomeCode r.outcome + (match r.outcome with | .pending .commanded => 16 | _ => 0))
    ++ optEnd r.endId

/-- The 18 octets of a burst's fields and the 2 of its ending (10.5). -/
def burstOctets (b : Burst) (ending : Option BurstEnding) : List Byte :=
  octets 2 b.target.val ++ octets 1 (linkCode b.requester) ++ [b.tag] ++ octets 2 b.count ++ octets 1 (patternCode b.pattern)
    ++ octets 2 b.frameNumber.toNat ++ octets 1 (match b.last with | .testFrame => 0 | .poll => 1) ++ octets 2 b.sent
    ++ octets 2 b.echoedGood ++ octets 2 b.echoedBad ++ octets 2 b.noEcho ++ endingOctets ending

/-- A burst record in LINE STATS: the fields of a NONE record carry FFh (10.5). -/
def burstRecordOctets : BurstRecord → List Byte
  | .none => octets 1 0 ++ absentField 20
  | .running b => octets 1 1 ++ burstOctets b none
  | .ended b e => octets 1 2 ++ burstOctets b (some e)

/-- The body of a response after its type and result octets (10.5). DESIGN CHOICE: FFh for the source and the start time of a
group never started (log 59). -/
def bodyOctets : ResponseBody → List Byte
  | .empty => []
  | .label l => octets 1 l.length ++ labelOctets l
  | .segment seg r => octets 1 0 ++ octets 1 seg.val ++ segmentRecordOctets r
  | .global r => octets 1 1 ++ octets 1 0 ++ globalRecordOctets r
  | .memberCount n => octets 2 n
  | .readEntry i d e => octets 1 0 ++ octets 2 i.val ++ octets 1 (flagBit 0 d) ++ entryOctets e
  | .readSegment i d r => octets 1 1 ++ octets 2 i.val ++ octets 1 (flagBit 0 d) ++ segmentRecordOctets r
  | .readGlobal d r => octets 1 2 ++ octets 2 0 ++ octets 1 (flagBit 0 d) ++ globalRecordOctets r
  | .readGroup g d count first slots =>
    octets 1 3 ++ octets 2 g.val ++ octets 1 (flagBit 0 d) ++ octets 2 count ++ octets 2 first ++ octets 1 slots.length
      ++ slots.flatMap (fun s => octets 1 s.val)
  | .calls live offered overflow start l =>
    octets 1 live ++ octets 1 offered ++ octets 2 overflow ++ octets 1 start ++ octets 1 l.length ++ l.flatMap summaryOctets
  | .post v => postViewOctets v
  | .endRecord v => endViewOctets v
  | .group g active source start readySent reason members counts first l =>
    octets 1 g.val ++ octets 1 (flagBit 0 active) ++ partyOctets source ++ optField 4 (start.map BitVec.toNat)
      ++ octets 1 (flagBit 0 readySent) ++ octets 1 (endReasonCode reason) ++ octets 2 members ++ countsOctets counts
      ++ octets 2 first ++ octets 1 l.length ++ l.flatMap resultRecordOctets
  | .stats e c b =>
    octets 1 (endCode e) ++ octets 2 c.pollsSent ++ octets 2 c.goodReplies ++ octets 2 c.corruptReplies ++ octets 2 c.noReplies
      ++ octets 2 c.mismatches ++ octets 2 c.measurements ++ burstRecordOctets b
  | .burstRunning r => octets 1 (flagBit 0 r)

/-- The frame that carries a queue entry: a response of type 80h with the request's tag (R159), or a report with tag 0 and
its flags octet first (R160). -/
def entryFrame : QueueEntry → Frame
  | .response tag typ result body => { typ := 0x80, tag := tag, body := typ :: resultCode result :: bodyOctets body }
  | .report gap r => { typ := reportType r, tag := 0, body := octets 1 (flagBit 0 gap) ++ reportFields r }

/-- The idle frame: type 00h, tag 0, no body (R156). -/
def idleFrame : Frame := { typ := 0, tag := 0, body := [] }

/-! ## Line frames (R161, R162) -/

/-- The command octet of a scan poll (R161). -/
def commandCode : Command → Nat
  | .connect _ => 1
  | .ring => 2
  | .release => 3
  | .lampOn => 4
  | .lampOff => 5
  | .announce _ => 6
  | .announceEnd => 7

/-- The channel octet of a scan poll: the channel of CONNECT or ANNOUNCE, 0 for the others (R161). -/
def commandChannel : Command → Nat
  | .connect c => c.val
  | .announce c => c.val
  | _ => 0

/-- The 16 octets of a pattern field (R138). DEDUCED: ALTERNATE begins with a one (log 26). -/
def patternField (p : Pattern) (frameNumber : BitVec 16) : List Byte :=
  match p with
  | .alternate => List.replicate 16 0xAA
  | .zeros => List.replicate 16 0x00
  | .ones => List.replicate 16 0xFF
  | .count => (List.replicate 8 (octets 2 frameNumber.toNat)).flatten

/-- The octets that an end sends for a transaction (R161). -/
def lineFrame : Transaction → List Byte
  | .poll _ hop carried =>
    let inside := octets 1 1 ++ octets 1 hop
      ++ (match carried with
          | some (c, _) => octets 1 (commandCode c) ++ octets 1 (commandChannel c)
          | none => octets 1 0 ++ octets 1 0)
    inside ++ checkOctets inside
  | .test _ hop n p _ =>
    let inside := octets 1 2 ++ octets 1 hop ++ octets 2 n.toNat ++ patternField p n
    inside ++ checkOctets inside

/-- The result of a command (R37). -/
inductive CommandResult | done | speakerFault | offHook
  deriving DecidableEq, Repr

/-- What a good reply carries (R37): the echoed pattern of a reply to a test frame, the result of the command a poll carried. -/
structure Reply where
  serial : Nat
  hook : Hook
  button : Button
  sensors : Sensors
  result : Option CommandResult
  echo : List Byte
  deriving DecidableEq, Repr

/-- The button of a status octet, at bits 1 and 2; code 3 is no button (R162). -/
def buttonOf (status : Byte) : Option Button :=
  match status.getLsbD 2, status.getLsbD 1 with
  | false, false => some .none
  | false, true => some .assist
  | true, false => some .emergency
  | true, true => none

/-- The result octet: 0 exactly when the poll carried no command, then 1 to 3 (R162). -/
def resultOf (carried : Bool) (o : Byte) : Option (Option CommandResult) :=
  if carried then
    (if o = 1 then some (some .done) else if o = 2 then some (some .speakerFault)
      else if o = 3 then some (some .offHook) else none)
  else if o = 0 then some none else none

/-- A reply's status octet with its serial, result and echo. -/
def replyOf (serial : Nat) (status : Byte) (result : Option CommandResult) (echo : List Byte) : Option Reply :=
  match buttonOf status with
  | some b =>
    some { serial := serial, hook := if status.getLsbD 0 then .off else .on, button := b,
           sensors := ⟨status.getLsbD 3, status.getLsbD 4, status.getLsbD 5⟩, result := result, echo := echo }
  | none => none

/-- A good reply to a scan poll, `carried` saying whether the poll carried a command; none for a corrupt one (R162). -/
def pollReplyOf (carried : Bool) : List Byte → Option Reply
  | [typ, s2, s1, s0, status, result, k1, k0] =>
    if typ = 9 ∧ [k1, k0] = checkOctets [typ, s2, s1, s0, status, result] then
      match resultOf carried result with
      | some r => replyOf (number [s2, s1, s0]) status r []
      | none => none
    else none
  | _ => none

/-- A good reply to a test frame; none for a corrupt one (R162). -/
def testReplyOf (os : List Byte) : Option Reply :=
  match os with
  | typ :: s2 :: s1 :: s0 :: status :: rest =>
    if typ = 10 ∧ rest.length = 18 ∧ rest.drop 16 = checkOctets (typ :: s2 :: s1 :: s0 :: status :: rest.take 16) then
      replyOf (number [s2, s1, s0]) status none (rest.take 16)
    else none
  | _ => none

end Sys2Proof.Machine
end

