-- ==== Sys2Proof/Machine/State.lean ====
section
/-! DEFINITION. The state of the part, block by block as the block diagram of 00_scope.md has them, the two reason
types of a step, and the state right after reset. The Location Unit and the Voice Switch hold no state of their own (00_scope.md,
5.6). -/

namespace Sys2Proof.Machine

/-- Plain data. `pending` is the queue of commands that wait, first in first out. -/
structure State where
  /-- whether the part has power (R28; log 7) -/
  powered : Bool
  /-- the Timebase count: milliseconds since the release of reset (R143) -/
  now : Nat
  /-- the Store Controller (R18) -/
  store : StoreBlock
  /-- the Line Supervisor and the Line Interface (R32 to R73, R134 to R142) -/
  line : LineBlock
  /-- the Channel Arbiter, one record an end (R74, R75) -/
  arbiter : Vector ChannelEnd 16
  /-- the Call Controller (R87, R91) -/
  calls : CallBlock
  /-- the Announcement Controller (R115) -/
  groups : Vector GroupRun 16
  /-- the link controllers (R143) -/
  linkA : LinkRecord
  linkB : LinkRecord
  /-- the commands that wait -/
  pending : List Instr
  deriving DecidableEq, Repr

/-- The part stops with no fault: a request it cannot carry out is answered with a result code (R159), and an event that
cannot occur changes nothing (log 1). No constructor, so no command ends in a fault: safe. -/
inductive Fault
  deriving DecidableEq, Repr

/-- Refusals of a step. -/
inductive Refusal
  /-- Raised by `exec` alone, for a command that has no meaning in the model. Safe: the model stops. No arm of `exec` raises it. -/
  | notModelled (mnemonic : String)
  deriving DecidableEq, Repr

/-- The part right after the release of its power-on reset, STARTING (R18, R29, R52, R53, R74, R87, R115, R136, R143), its
store never programmed. DESIGN CHOICE: the blank store (log 5, unsafe), for R18 leaves the store as it was. -/
def State.reset : State :=
  { powered := true
    now := 0
    store := { stored := .blank, site := .blank, damaged := [], state := .starting }
    line := .powerOn
    arbiter := Vector.replicate 16 .powerOn
    calls := .powerOn
    groups := Vector.replicate 16 .powerOn
    linkA := .powerOn
    linkB := .powerOn
    pending := [] }

end Sys2Proof.Machine
end

