-- ==== Sys2Proof/Machine/Ops.lean ====
section
/-! DEFINITION. The named operations on the state: one accessor and one update for each record, so that every other file
reads and writes a record in one way. -/

namespace Sys2Proof.Machine

/-- The other terminal of a segment. -/
def otherSide : Side → Side
  | .a => .b
  | .b => .a

/-- The other end of the same segment (R55). -/
def otherEnd (e : EndId) : EndId := { e with side := otherSide e.side }

/-- The other control link. -/
def otherLink : LinkId → LinkId
  | .a => .b
  | .b => .a

/-- The place of an end in ascending order: 0A, 0B, 1A and so on (R30, R158). -/
def endIdx (e : EndId) : Fin 16 :=
  match e.side with
  | .a => ⟨2 * e.seg.val, by omega⟩
  | .b => ⟨2 * e.seg.val + 1, by omega⟩

/-- The sixteen ends in ascending order. -/
def allEnds : List EndId := (allFin 8).flatMap (fun s => [⟨s, .a⟩, ⟨s, .b⟩])

/-- The two ends of a segment, A first. -/
def endsOf (seg : SegId) : List EndId := [⟨seg, .a⟩, ⟨seg, .b⟩]

/-- An increment that saturates at 65,535 (R134, R136, R143). -/
def satInc (n : Nat) : Nat := if n < Config.counterTop then n + 1 else n

/-- Stamp `a` is earlier than stamp `b`: b − a lies between 1 and 2,147,483,647 modulo 2^32 (R47). -/
def earlier (a b : Stamp) : Bool := decide (1 ≤ (b - a).toNat) && decide ((b - a).toNat ≤ 2147483647)

/-! ## Accessors -/

def State.post (s : State) (i : Slot) : PostRow := nth s.line.posts i
def State.endRec (s : State) (e : EndId) : EndRecord := nth s.line.ends (endIdx e)
def State.port (s : State) (e : EndId) : Port := nth s.line.ports (endIdx e)
def State.counters (s : State) (e : EndId) : Counters := nth s.line.counters (endIdx e)
def State.burst (s : State) (e : EndId) : BurstRecord := nth s.line.bursts (endIdx e)
def State.hopMap (s : State) (seg : SegId) : List Slot := nth s.line.hopMaps seg
def State.chan (s : State) (e : EndId) : ChannelEnd := nth s.arbiter (endIdx e)
def State.record (s : State) (i : CallIdx) : CallRecord := nth s.calls.records i
def State.group (s : State) (g : GroupId) : GroupRun := nth s.groups g
def State.entry (s : State) (i : Slot) : DirEntry := nth s.store.site.entries i
def State.segment (s : State) (seg : SegId) : SegRecord := nth s.store.site.segments seg
def State.membership (s : State) (g : GroupId) : List Slot := nth s.store.site.groups g

def State.link (s : State) : LinkId → LinkRecord
  | .a => s.linkA
  | .b => s.linkB

/-! ## Updates -/

def State.onLine (s : State) (f : LineBlock → LineBlock) : State := { s with line := f s.line }

def State.modPost (s : State) (i : Slot) (f : PostRow → PostRow) : State :=
  s.onLine fun l => { l with posts := modNth l.posts i f }

def State.modEnd (s : State) (e : EndId) (f : EndRecord → EndRecord) : State :=
  s.onLine fun l => { l with ends := modNth l.ends (endIdx e) f }

def State.modPort (s : State) (e : EndId) (f : Port → Port) : State :=
  s.onLine fun l => { l with ports := modNth l.ports (endIdx e) f }

def State.modCounters (s : State) (e : EndId) (f : Counters → Counters) : State :=
  s.onLine fun l => { l with counters := modNth l.counters (endIdx e) f }

def State.modBurst (s : State) (e : EndId) (f : BurstRecord → BurstRecord) : State :=
  s.onLine fun l => { l with bursts := modNth l.bursts (endIdx e) f }

def State.setHopMap (s : State) (seg : SegId) (m : List Slot) : State :=
  s.onLine fun l => { l with hopMaps := modNth l.hopMaps seg (fun _ => m) }

def State.modChan (s : State) (e : EndId) (f : ChannelEnd → ChannelEnd) : State :=
  { s with arbiter := modNth s.arbiter (endIdx e) f }

def State.setRecords (s : State) (r : Vector CallRecord 48) : State := { s with calls := { s.calls with records := r } }

def State.modRecord (s : State) (i : CallIdx) (f : CallRecord → CallRecord) : State :=
  s.setRecords (modNth s.calls.records i f)

/-- The fields of a live record replaced by their image. A free record stays as it is. -/
def State.modCall (s : State) (i : CallIdx) (f : LiveCall → LiveCall) : State :=
  s.modRecord i fun r => { r with live := r.live.map f }

def State.setOverflow (s : State) (l : List OverflowEntry) : State := { s with calls := { s.calls with overflow := l } }

def State.modGroup (s : State) (g : GroupId) (f : GroupRun → GroupRun) : State :=
  { s with groups := modNth s.groups g f }

def State.modLink (s : State) (x : LinkId) (f : LinkRecord → LinkRecord) : State :=
  match x with
  | .a => { s with linkA := f s.linkA }
  | .b => { s with linkB := f s.linkB }

def State.setStore (s : State) (b : StoreBlock) : State := { s with store := b }

def State.setSite (s : State) (w : Site) : State := { s with store := { s.store with site := w } }

/-- The Timebase has reached at least the given count (log 3). -/
def State.reach (s : State) (t : Nat) : State := { s with now := max s.now t }

/-! ## References and the live record of a post -/

/-- The reference of a record (R87). -/
def State.refOfRecord (s : State) (i : CallIdx) : CallRef := { index := i, generation := (s.record i).generation }

/-- The live fields of a record. -/
def State.liveCall (s : State) (i : CallIdx) : Option LiveCall := (s.record i).live

/-- The state of a live record. -/
def State.callState (s : State) (i : CallIdx) : Option CallState := (s.liveCall i).map LiveCall.state

/-- The record of a post's call: no two live records name the same post (R92). -/
def State.callOf (s : State) (slot : Slot) : Option CallIdx :=
  (allFin 48).find? fun i => match s.liveCall i with
    | some c => decide (c.slot = slot)
    | none => false

/-- The lowest-numbered free record (R88). -/
def State.freeRecord? (s : State) : Option CallIdx := (allFin 48).find? fun i => (s.liveCall i).isNone

/-- The post stands on the overflow list (R91). -/
def State.onOverflow (s : State) (slot : Slot) : Bool := s.calls.overflow.any fun o => decide (o.slot = slot)

/-- The milliseconds of a number of seconds from now (R10: a timer takes its length when it is started). -/
def State.after (s : State) (seconds : Nat) : Nat := s.now + 1000 * seconds

/-- The Timebase count as a start time: 32 bits, wrapping (R115). -/
def State.startTime (s : State) : Stamp := BitVec.ofNat 32 s.now

/-- Applies `f` to each element of a list, left to right. -/
def forEach {α : Type} (l : List α) (f : α → State → State) (s : State) : State := l.foldl (fun s a => f a s) s

end Sys2Proof.Machine
end

