-- ==== Sys2Proof/Machine/Flags.lean ====
section
/-! DEFINITION. What the blocks read from the state without changing it: the port mode, the reach of an end, the serving
assignment's choice, the served posts, use of a post, the call queue, and the arithmetic of the Location Unit. -/

namespace Sys2Proof.Machine

/-! ## Ends and ports -/

/-- Every end is UNFITTED in STARTING, and its port QUIET (R29, R32). -/
def starting (s : State) : Bool := decide (s.store.state = .starting)

/-- The mode of a port, from the state of its end and the measurement on the other end (R32). -/
def portMode (s : State) (e : EndId) : PortMode :=
  match (s.endRec e).state with
  | .serving => if (s.endRec (otherEnd e)).measurement = .running then .held else .scanning
  | .testing => .measuring
  | .unfitted => .quiet
  | .faulted => .quiet
  | .off => .quiet

/-- The loop-current sense is active in SCANNING and HELD (R32). -/
def senseActive (s : State) (e : EndId) : Bool :=
  match portMode s e with
  | .scanning => true
  | .held => true
  | .quiet => false
  | .measuring => false

/-- The end holds channels and a waiting list: SERVING or TESTING (R54). -/
def holdsChannels (st : EndState) : Bool :=
  match st with
  | .serving => true
  | .testing => true
  | .unfitted => false
  | .faulted => false
  | .off => false

/-- The positions of R68: FULL every one, LIMIT x below x from an A end and above x from a B end, NONE no one. -/
def reaches (side : Side) (r : EndReach) (p : Nat) : Bool :=
  match r, side with
  | .full, _ => true
  | .limit x, .a => decide (p < x)
  | .limit x, .b => decide (x < p)
  | .none, _ => false

/-- An end is available to a position: SERVING or TESTING with a reach that includes it (R69). -/
def available (s : State) (e : EndId) (p : Nat) : Bool :=
  holdsChannels (s.endRec e).state && reaches e.side (s.endRec e).reach p

/-- The primary end of an entry: A below the split position, B otherwise (R6, R69). -/
def primaryEnd (s : State) (i : Slot) : EndId :=
  let p := (s.entry i).place
  { seg := p.seg, side := if p.position < (s.segment p.seg).split then .a else .b }

/-- The post's call is CONNECTING, CONNECTED or PARKED (R69, R72). -/
def needsItsEnd (st : CallState) : Bool :=
  match st with
  | .connecting => true
  | .connected => true
  | .parked => true
  | .offered => false
  | .lineLost => false
  | .ringing => false
  | .clearing => false

/-- Case 1 of R69: the post's call needs the end that now serves the post, and that end, an end of the post's segment, is
available to it. -/
def heldOn (s : State) (i : Slot) : Option EndId :=
  match (s.post i).reach with
  | .served e =>
    let holds := match s.callOf i with
      | some c => match s.callState c with
        | some st => needsItsEnd st
        | none => false
      | none => false
    if holds && decide (e.seg = (s.entry i).place.seg) && available s e (s.entry i).place.position then some e else none
  | .unserved => none
  | .isolated => none

/-- The reach status that the serving assignment gives a post (R69). -/
def assignedReach (s : State) (i : Slot) : PostReach :=
  let p := (s.entry i).place
  if p.present && (s.segment p.seg).fitted then
    match heldOn s i with
    | some e => .served e
    | none =>
      if available s (primaryEnd s i) p.position then .served (primaryEnd s i)
      else if available s (otherEnd (primaryEnd s i)) p.position then .served (otherEnd (primaryEnd s i))
      else .isolated
  else .unserved

/-- The place of a slot in a list, counted from 1, or 0 when it is not there. -/
def placeIn (i : Slot) : List Slot → Nat
  | [] => 0
  | j :: l => if j = i then 1 else
    match placeIn i l with
    | 0 => 0
    | k + 1 => k + 2

/-- The hop of a post from an end: place k from the A end, n + 1 − k from the B end (R16). -/
def hopFrom (s : State) (e : EndId) (i : Slot) : Nat :=
  let m := s.hopMap e.seg
  match placeIn i m, e.side with
  | 0, _ => 0
  | k + 1, .a => k + 1
  | k + 1, .b => m.length - k

/-- The hop of a post for a reach status: from the serving end, or 0 when not SERVED (R16). -/
def hopFor (s : State) (r : PostReach) (i : Slot) : Nat :=
  match r with
  | .served e => hopFrom s e i
  | .unserved => 0
  | .isolated => 0

/-- Inserts a slot by ascending position (R16). -/
def insertByPosition (s : State) (i : Slot) : List Slot → List Slot
  | [] => [i]
  | j :: l =>
    if (s.entry i).place.position < (s.entry j).place.position then i :: j :: l else j :: insertByPosition s i l

/-- The present entries of a segment, in ascending slot order (R1). -/
def presentOn (s : State) (seg : SegId) : List Slot :=
  (allFin 256).filter fun i => (s.entry i).place.present && decide ((s.entry i).place.seg = seg)

/-- The hop map of the working copy: the present entries by ascending position (R16). -/
def hopMapOf (s : State) (seg : SegId) : List Slot :=
  (presentOn s seg).foldr (fun i l => insertByPosition s i l) []

/-- The posts an end serves, in ascending slot order (R42). -/
def servedBy (s : State) (e : EndId) : List Slot :=
  (allFin 256).filter fun i => decide ((s.post i).reach = .served e)

/-- The post of highest hop in a list. -/
def highestHop (s : State) : List Slot → Option Slot
  | [] => none
  | i :: l =>
    match highestHop s l with
    | none => some i
    | some j => if (s.post j).hop ≤ (s.post i).hop then some i else some j

/-- The post of lowest hop in a list. -/
def lowestHop (s : State) : List Slot → Option Slot
  | [] => none
  | i :: l =>
    match lowestHop s l with
    | none => some i
    | some j => if (s.post i).hop ≤ (s.post j).hop then some i else some j

/-- The farthest served post of an end (R49). -/
def farthest (s : State) (e : EndId) : Option Slot := highestHop s (servedBy s e)

/-- An end holds a channel when one of its four records is not FREE (R74). -/
def holdsChannel (s : State) (e : EndId) : Bool := (s.chan e).channels.toList.any fun h => decide (h ≠ .free)

/-- The end meets the three conditions of R55. -/
def mayMeasure (s : State) (e : EndId) : Bool :=
  decide ((s.endRec e).state = .testing) && decide ((s.endRec e).measurement = .waiting)
    && (s.port e).transaction.isNone && (s.port (otherEnd e)).transaction.isNone
    && decide ((s.endRec (otherEnd e)).measurement ≠ .running)

/-! ## Use of a post -/

/-- The post is the target of a RUNNING burst (R3, R154). -/
def burstTarget (s : State) (i : Slot) : Bool :=
  allEnds.any fun e => match s.burst e with
    | .running b => decide (b.target = i)
    | .none => false
    | .ended _ _ => false

/-- The member record of a post in a group. -/
def memberOf (r : GroupRun) (i : Slot) : Option Member := r.members.find? fun m => decide (m.slot = i)

/-- PENDING or HEARING: not settled (R116). -/
def unsettled (o : MemberOutcome) : Bool :=
  match o with
  | .pending _ => true
  | .hearing => true
  | .failed => false
  | .unreachable => false
  | .noChannel => false
  | .noAnswer => false
  | .skippedInCall => false
  | .skippedBusy => false
  | .skippedAbsent => false
  | .preempted => false
  | .leftForCall => false

/-- The post is PENDING or HEARING in an ACTIVE group (R118, R120). -/
def takingPart (s : State) (g : GroupId) (i : Slot) : Bool :=
  (s.group g).active && (s.group g).members.any fun m => decide (m.slot = i) && unsettled m.outcome

/-- The uses of a post that refuse a PLACE or segment write IN USE (R3). -/
def postInUse (s : State) (i : Slot) : Bool :=
  (s.callOf i).isSome || s.onOverflow i
    || (allFin 16).any (fun g => (s.group g).active && (s.group g).members.any fun m => decide (m.slot = i))
    || burstTarget s i

/-! ## The Location Unit -/

/-- The road chainage of a cable position (R14). -/
def chainageOf (r : SegRecord) (p : Nat) : Nat :=
  let offset := p * 1000 / r.layRatio
  match r.direction with
  | .increasing => min (r.anchor + offset) Config.chainageTop
  | .decreasing => r.anchor - offset

/-- The distance of a fault from the port, in metres (R65). -/
def faultDistance (r : SegRecord) (delay : Nat) : Nat := delay * r.speed / 200

/-- Where a measured distance lies (R66). -/
inductive FaultPlace
  | inFeeder
  | beyond
  | inside (x : Nat)
  deriving DecidableEq, Repr

/-- The place of a fault at distance `d` from the port of an end (R66). -/
def faultPlace (r : SegRecord) (side : Side) (d : Nat) : FaultPlace :=
  let feeder := match side with | .a => r.feederA | .b => r.feederB
  if d < feeder then .inFeeder
  else if r.cableLength ≤ d - feeder then .beyond
  else match side with
    | .a => .inside (d - feeder)
    | .b => .inside (r.cableLength - (d - feeder))

/-- LIMIT x reaches some position: x of 2 or more from an A end, of L − 2 or less from a B end (R67). -/
def limitReaches (r : SegRecord) (side : Side) (x : Nat) : Bool :=
  match side with
  | .a => decide (2 ≤ x)
  | .b => decide (x + 2 ≤ r.cableLength)

/-- The kinds for which a distance is computed (R56). -/
def hasDistance (k : MeasKind) : Bool :=
  match k with
  | .openPair => true
  | .short => true
  | .mismatch => true
  | .good => false
  | .crossed => false
  | .busy => false
  | .unknown => false

/-- The fault record formed from a result (R56). -/
def faultRecordOf (r : SegRecord) (side : Side) (kind : MeasKind) (delay : Nat) (coupled : Option SegId) : FaultRecord :=
  if hasDistance kind then
    let d := faultDistance r delay
    match faultPlace r side d with
    | .inFeeder =>
      { kind := kind, delay := delay, distance := d, position := none, chainage := none, beyond := false, inFeeder := true,
        coupled := none }
    | .beyond =>
      { kind := kind, delay := delay, distance := d, position := none, chainage := none, beyond := true, inFeeder := false,
        coupled := none }
    | .inside x =>
      { kind := kind, delay := delay, distance := d, position := some x, chainage := some (chainageOf r x), beyond := false,
        inFeeder := false, coupled := none }
  else
    { kind := kind, delay := delay, distance := Config.noDistance, position := none, chainage := none, beyond := false,
      inFeeder := false, coupled := if kind = .crossed then coupled else none }

/-- The state and reach that a result taken gives the end (R58, R66, R67). -/
def resultState (r : SegRecord) (side : Side) (kind : MeasKind) (delay : Nat) : EndState × EndReach :=
  match kind with
  | .good => (.serving, .full)
  | .crossed => (.faulted, .none)
  | .unknown => (.faulted, .none)
  | .busy => (.faulted, .none)
  | .openPair | .short | .mismatch =>
    match faultPlace r side (faultDistance r delay) with
    | .beyond => (.serving, .full)
    | .inFeeder => (.faulted, .none)
    | .inside x => if limitReaches r side x then (.serving, .limit x) else (.faulted, .none)

/-- The name block of a post, from the working copy and the post table (R13, R15). An absent entry reads as blank. -/
def nameBlock (s : State) (i : Slot) : NameBlock :=
  let e := s.entry i
  let row := s.post i
  if e.place.present then
    let r := s.segment e.place.seg
    { slot := i, present := true, route := r.route, label := e.name.label, kind := e.name.kind,
      carriageway := e.name.carriageway, side := e.name.side,
      chainage := e.name.marker.getD (chainageOf r e.place.position),
      source := if e.name.marker.isSome then .marker else .computed,
      seg := e.place.seg,
      servingEnd := match row.reach with
        | .served x => some x
        | .unserved => none
        | .isolated => none,
      hop := row.hop, unverified := row.unverified }
  else
    { slot := i, present := false, route := SegRecord.blank.route, label := NameForm.blank.label, kind := NameForm.blank.kind,
      carriageway := NameForm.blank.carriageway, side := NameForm.blank.side, chainage := 0, source := .computed,
      seg := PlaceForm.blank.seg, servingEnd := none, hop := 0, unverified := row.unverified }

/-! ## Calls -/

/-- The class of an inbound call, from the button and the kind of the post (R89). -/
def classOf (b : Button) (k : PostKind) : CallClass :=
  match b, k with
  | .emergency, .tunnel => .p3
  | .emergency, _ => .p2
  | .assist, .tunnel => .p1
  | .assist, _ => .p0
  | .none, .tunnel => .p1
  | .none, _ => .p0

/-- The home link of a post: that of its entry's segment (R6, R96). -/
def homeLinkOf (s : State) (i : Slot) : LinkId := (s.segment (s.entry i).place.seg).homeLink

/-- A link is in a set. -/
def LinkSet.has (l : LinkSet) : LinkId → Bool
  | .a => l.a
  | .b => l.b

/-- The set with one link put in or taken out. -/
def LinkSet.put (l : LinkSet) (x : LinkId) (b : Bool) : LinkSet :=
  match x with
  | .a => { l with a := b }
  | .b => { l with b := b }

/-- The order of the queue: higher class, then earlier stamp (R90). -/
def queueOrder (c : CallClass) (a : Option Stamp) (d : CallClass) (b : Option Stamp) : Bool :=
  decide (d.rank < c.rank)
    || (decide (d.rank = c.rank)
        && (match a, b with
            | some a, some b => earlier a b
            | _, _ => false))

/-- Call `c` stands before call `d` in the queue (R90). -/
def queuedBefore (c d : LiveCall) : Bool := queueOrder c.cls c.stamp d.cls d.stamp

/-- Inserts an OFFERED record into a list in queue order. -/
def insertQueued (i : CallIdx) (c : LiveCall) : List (CallIdx × LiveCall) → List (CallIdx × LiveCall)
  | [] => [(i, c)]
  | (j, d) :: l => if queuedBefore d c then (j, d) :: insertQueued i c l else (i, c) :: (j, d) :: l

/-- The call queue: the OFFERED records in queue order (R90). -/
def callQueue (s : State) : List (CallIdx × LiveCall) :=
  (allFin 48).foldr (fun i l => match s.liveCall i with
    | some c => if c.state = .offered then insertQueued i c l else l
    | none => l) []

/-- The queue rank of a record: its place in the call queue, 1 being the first; 0 when it is not OFFERED (R90, R153). -/
def queueRank (s : State) (i : CallIdx) : Nat :=
  match s.liveCall i with
  | some c =>
    if c.state = .offered then
      1 + ((allFin 48).filter fun j => match s.liveCall j with
        | some d => decide (d.state = .offered) && queuedBefore d c
        | none => false).length
    else 0
  | none => 0

/-! ## Groups -/

/-- The member is served from the end, as the post table reads now (R116). -/
def servedFrom (s : State) (e : EndId) (i : Slot) : Bool := decide ((s.post i).reach = .served e)

/-- A member served from the end is HEARING or PENDING (R121). -/
def needsChannel (s : State) (g : GroupId) (e : EndId) : Bool :=
  (s.group g).members.any fun m => unsettled m.outcome && servedFrom s e m.slot

/-- A member served from the end is PENDING in phase AWAITING (R119). -/
def awaitsChannel (s : State) (g : GroupId) (e : EndId) : Bool :=
  (s.group g).members.any fun m => decide (m.outcome = .pending .awaiting) && servedFrom s e m.slot

/-- Some member is PENDING (R122). -/
def anyPending (r : GroupRun) : Bool :=
  r.members.any fun m => match m.outcome with
    | .pending _ => true
    | _ => false

/-- The eleven outcome counts (R122). -/
def countOutcomes (l : List Member) : OutcomeCounts :=
  let n := fun (p : MemberOutcome → Bool) => (l.filter fun m => p m.outcome).length
  { pending := n fun o => match o with | .pending _ => true | _ => false
    hearing := n (· == .hearing)
    failed := n (· == .failed)
    unreachable := n (· == .unreachable)
    noChannel := n (· == .noChannel)
    noAnswer := n (· == .noAnswer)
    skippedInCall := n (· == .skippedInCall)
    skippedBusy := n (· == .skippedBusy)
    skippedAbsent := n (· == .skippedAbsent)
    preempted := n (· == .preempted)
    leftForCall := n (· == .leftForCall) }

/-- The exception outcomes of R116. -/
def isException (o : MemberOutcome) : Bool :=
  match o with
  | .unreachable => true
  | .failed => true
  | .noChannel => true
  | .noAnswer => true
  | .preempted => true
  | .leftForCall => true
  | .pending _ => false
  | .hearing => false
  | .skippedInCall => false
  | .skippedBusy => false
  | .skippedAbsent => false

/-- The end that serves a post, or none (R122). -/
def servingEnd (s : State) (i : Slot) : Option EndId :=
  match (s.post i).reach with
  | .served e => some e
  | .unserved => none
  | .isolated => none

/-! ## The Voice Switch (R85, R86): a connection map with no content of its own -/

/-- What a channel is joined with: the slots of a call's parties, two-way, or a group's source slot, one way to the channel. -/
inductive Connection
  | bridge (e : EndId) (c : Chan) (parties : List Party)
  | feed (e : EndId) (c : Chan) (source : Party)
  deriving DecidableEq, Repr

/-- The connection of one channel. A FREE channel is connected to no slot; a call whose record is gone or that has no party gives none. -/
def connectionOf (s : State) (e : EndId) (c : Chan) : Option Connection :=
  match nth (s.chan e).channels c with
  | .free => none
  | .call ref _ =>
    match s.liveCall ref.index with
    | some call =>
      if (s.record ref.index).generation = ref.generation ∧ call.parties ≠ [] then some (.bridge e c call.parties) else none
    | none => none
  | .group g =>
    match (s.group g).source with
    | some p => if (s.group g).active then some (.feed e c p) else none
    | none => none

/-- The channels an end carries: in QUIET none (R34). -/
def carriesVoice (s : State) (e : EndId) : Bool := decide (portMode s e ≠ .quiet)

/-- The connection map (5.6). -/
def connectionMap (s : State) : List Connection :=
  allEnds.flatMap fun e => (allFin 4).filterMap fun c => connectionOf s e c

end Sys2Proof.Machine
end

