-- ==== Sys2Proof/Machine/Reports.lean ====
section
/-! DEFINITION. The report queues: placing a report (R149, R150), the order of the reports of one event (R90, R122), taking a request with its response (R148),
and the reports of a call and of an end as they are built when placed. -/

namespace Sys2Proof.Machine

/-- A report placed in a link's queue: not while DOWN; discarded with the gap flag set while the queue is full; else at the tail with
the gap indication, which clears the flag (R149). -/
def enqueue (r : Report) (l : LinkRecord) : LinkRecord :=
  if l.up then
    if l.queue.length < Config.queuePlaces then { l with queue := l.queue ++ [.report l.gap r], gap := false }
    else { l with gap := true }
  else l

/-- A report for one link. -/
def report (x : LinkId) (r : Report) (s : State) : State := s.modLink x (enqueue r)

/-- A report for both UP links (R150). -/
def reportBoth (r : Report) (s : State) : State := report .b r (report .a r s)

/-! ## The order of one event's reports (R90, R122) -/

/-- An ANNOUNCE EXCEPTION or an OFFER placed within an event that may place several: as any report, but kept while the event runs when
it finds the queue full (log 15). -/
def enqueueInTurn (r : Report) (l : LinkRecord) : LinkRecord :=
  if l.up && decide (Config.queuePlaces ≤ l.queue.length) then { l with gap := true, overrun := l.overrun ++ [r] } else enqueue r l

/-- A report of an event that may place several, for one link. -/
def reportInTurn (x : LinkId) (r : Report) (s : State) : State := s.modLink x (enqueueInTurn r)

/-- A report of an event that may place several, for both UP links. -/
def reportBothInTurn (r : Report) (s : State) : State := reportInTurn .b r (reportInTurn .a r s)

/-- The rule that orders the reports of one event puts the first ahead of the second: exceptions by ascending member slot (R122),
OFFERs in queue order (R90). -/
def ahead : Report → Report → Bool
  | .announceException _ i _ _ _ _ _, .announceException _ j _ _ _ _ _ => decide (i < j)
  | .offer _ c _ a _ _, .offer _ d _ b _ _ => queueOrder c a d b
  | _, _ => false

/-- A report put before the first one that it goes ahead of, and else at the tail. The gap indication stays at its place. -/
def putReport (gap : Bool) (r : Report) : List QueueEntry → List QueueEntry
  | [] => [.report gap r]
  | .report g x :: l => if ahead r x then .report g r :: .report gap x :: l else .report g x :: putReport gap r l
  | .response tag typ result body :: l => .response tag typ result body :: putReport gap r l

/-- One more entry of an event, after those before it. -/
def putEntry (l : List QueueEntry) : QueueEntry → List QueueEntry
  | .report gap r => putReport gap r l
  | .response tag typ result body => l ++ [.response tag typ result body]

/-- The entries of one event, its exceptions in slot order and its OFFERs in queue order, and none later than it was placed (R90,
R122, R149; log 15). -/
def inOrder (l : List QueueEntry) : List QueueEntry := l.foldl putEntry []

/-- An OFFER of a call that is still OFFERED carries the rank that the call has at the end of the event (R90; log 55). -/
def refreshRank (s : State) : QueueEntry → QueueEntry
  | .report gap (.offer ref cls rank stamp flags name) =>
    .report gap (.offer ref cls
      (if s.refOfRecord ref.index = ref ∧ s.callState ref.index = some .offered then queueRank s ref.index else rank) stamp flags name)
  | q => q

/-- A link's record at the end of an event, for the record before it: what the event has placed is in order, and of that order as
much as found a place stays (R149; log 15). -/
def orderLink (refresh : QueueEntry → QueueEntry) (before l : LinkRecord) : LinkRecord :=
  let fresh := l.queue.drop before.queue.length
  let kept := (l.overrun.drop before.overrun.length).map (.report false)
  { l with queue := l.queue.take before.queue.length ++ ((inOrder (fresh ++ kept)).take fresh.length).map refresh
           overrun := before.overrun }

/-- The reports of one event, since the state before, in the order of R90 and R122 (log 15). -/
def orderReports (before s : State) : State :=
  { s with linkA := orderLink (refreshRank s) before.linkA s.linkA, linkB := orderLink (refreshRank s) before.linkB s.linkB }

/-! ## Taking a request (R148) -/

/-- The queue has a free place, or two while the link holds a LINK START (R148). -/
def roomToTake (l : LinkRecord) : Bool :=
  decide (l.queue.length + (if l.heldStart.isSome then 2 else 1) ≤ Config.queuePlaces)

/-- The frame at the head of the intake buffer is the request, with the tag. -/
def headIs (tag : Byte) (r : Request) (l : LinkRecord) : Bool :=
  match l.intake with
  | f :: _ => decide (f.tag = tag) && decide (parseRequest f = some r)
  | [] => false

/-- The frame at the head of the intake buffer has the tag and type and fails the structural check (R157). -/
def headMalformed (tag typ : Byte) (l : LinkRecord) : Bool :=
  match l.intake with
  | f :: _ => decide (f.tag = tag) && decide (f.typ = typ) && (parseRequest f).isNone
  | [] => false

/-- The link can take the request now: the part has power, the link is UP and the queue has room (R148). -/
def canTake (s : State) (x : LinkId) : Bool := s.powered && (s.link x).up && roomToTake (s.link x)

/-- The head frame leaves the intake buffer. -/
def popIntake (x : LinkId) (s : State) : State := s.modLink x fun l => { l with intake := l.intake.tail }

/-- A response, placed at the tail of the queue in the place found free (R148). -/
def respond (x : LinkId) (tag typ : Byte) (result : Result) (body : ResponseBody) (s : State) : State :=
  s.modLink x fun l => { l with queue := l.queue ++ [.response tag typ result body] }

/-- The taking of a request: it leaves the intake buffer, is answered NOT READY in STARTING (R29), and else passes to the block
that owns it, with the responder for its tag and type (R148). A request that cannot be taken waits: nothing changes (log 2). -/
def takeRequest (x : LinkId) (tag : Byte) (r : Request) (act : (Result → ResponseBody → State → State) → State → State)
    (s : State) : State :=
  if canTake s x && headIs tag r (s.link x) then
    let answer := respond x tag (requestType r)
    let s := popIntake x s
    if starting s then answer .notReady .empty s else act answer s
  else s

/-! ## Reports of calls -/

/-- CALL STATE as it reads now; `freed` sends no state (R113). -/
def callStateOf (s : State) (i : CallIdx) (c : LiveCall) (event : CallEvent) (reason : CallReason) (freed : Bool) : Report :=
  .callState
    { ref := s.refOfRecord i, direction := c.direction, cls := c.cls, state := if freed then none else some c.state,
      event := event, reason := reason, parties := c.parties, channel := c.channel, name := nameBlock s c.slot }

/-- CALL STATE of a live record to some links (R113). -/
def reportCall (i : CallIdx) (event : CallEvent) (reason : CallReason) (freed : Bool) (links : List LinkId) (s : State) : State :=
  match s.liveCall i with
  | some c => forEach links (fun x s => report x (callStateOf s i c event reason freed) s) s
  | none => s

/-- The links that are parties of a record. -/
def partyLinks (s : State) (i : CallIdx) : List LinkId :=
  match s.liveCall i with
  | some c => c.parties.map Party.link
  | none => []

/-- CALL STATE to the parties (R113). DESIGN CHOICE: the link whose request caused the change directly is left out by its own
operation (R102 to R104); a change that its request brings about through another unit is reported to it too (log 53). -/
def reportParties (i : CallIdx) (event : CallEvent) (reason : CallReason) (s : State) : State :=
  reportCall i event reason false (partyLinks s i) s

/-- OFFER as it reads now (R96). -/
def offerOf (s : State) (i : CallIdx) (c : LiveCall) : Report :=
  .offer (s.refOfRecord i) c.cls (queueRank s i) c.stamp c.flags (nameBlock s c.slot)

/-! ## Reports of ends -/

/-- END STATE as it reads now (R73). -/
def endStateOf (s : State) (e : EndId) : EndStateReport :=
  let r := s.endRec e
  { endId := e, state := r.state, reach := r.reach, previous := r.previous, cause := r.cause, fault := r.fault,
    suppressed := r.suppressed, postsServed := (servedBy s e).length }

/-- END STATE to both UP links (R73). -/
def reportEndState (e : EndId) (s : State) : State := reportBoth (.endState (endStateOf s e)) s

end Sys2Proof.Machine
end

