-- ==== Sys2Proof/Machine/Lines.lean ====
section
/-! DEFINITION. The Line Supervisor's smaller operations: the command lists (R38 to R40), the activity of a post (R52), the
burst record (R136 to R142), and the transactions of a port with the choice of the next one (R35, R41, R42, R138). -/

namespace Sys2Proof.Machine

/-! ## Command lists -/

/-- The list that holds a post's entries. -/
def listHolding (s : State) (i : Slot) : Option EndId :=
  allEnds.find? fun e => (s.endRec e).commands.any fun c => decide (c.slot = i)

/-- The list that takes a command for a post: its serving end's; for an ISOLATED post the list that holds its entries or, when it
has none, its primary end's; none for an UNSERVED post (R38). -/
def listFor (s : State) (i : Slot) : Option EndId :=
  match (s.post i).reach with
  | .served e => some e
  | .isolated => some ((listHolding s i).getD (primaryEnd s i))
  | .unserved => none

/-- An entry of the same post and family. -/
def sameFamily (i : Slot) (c : Command) (x : CommandEntry) : Bool :=
  decide (x.slot = i) && decide (x.command.family = c.family)

/-- Placing a command: it replaces a waiting one of its family at that one's age, or joins with the next number of the placing
sequence; for an UNSERVED post it is discarded (R38). -/
def placeCommand (i : Slot) (c : Command) (s : State) : State :=
  match listFor s i with
  | none => s
  | some e =>
    if (s.endRec e).commands.any (sameFamily i c) then
      s.modEnd e fun r => { r with commands := r.commands.map fun x => if sameFamily i c x then { x with command := c } else x }
    else
      let s := s.onLine fun l => { l with placings := l.placings + 1 }
      s.modEnd e fun r => { r with commands := r.commands ++ [{ slot := i, command := c, age := s.line.placings }] }

/-- An entry put at its place by age (R40). -/
def insertByAge (x : CommandEntry) : List CommandEntry → List CommandEntry
  | [] => [x]
  | y :: l => if x.age < y.age then x :: y :: l else y :: insertByAge x l

/-- The entries of a post, in whichever list they stand. -/
def entriesOf (s : State) (i : Slot) : List CommandEntry :=
  allEnds.flatMap fun e => (s.endRec e).commands.filter fun c => decide (c.slot = i)

/-- The entries of a post leave every list (R40). -/
def dropCommands (i : Slot) (s : State) : State :=
  forEach allEnds (fun e s => s.modEnd e fun r => { r with commands := r.commands.filter fun c => decide (c.slot ≠ i) }) s

/-- The entries of a post go to an end's list at their ages (R40). -/
def moveCommands (i : Slot) (e : EndId) (s : State) : State :=
  let l := entriesOf s i
  (dropCommands i s).modEnd e fun r => { r with commands := l.foldl (fun cs x => insertByAge x cs) r.commands }

/-! ## Activity -/

/-- A block sets the activity of a post; the detection stamp is held while it is CALLING (R47, R52). -/
def setActivity (i : Slot) (a : Activity) (stamp : Option Stamp) (s : State) : State :=
  s.modPost i fun r => { r with activity := a, stamp := if a = .calling then stamp else none }

/-- A block sets IDLE: it takes effect only while the activity holds a value of that block (R52). -/
def setIdle (mine : Activity → Bool) (i : Slot) (s : State) : State :=
  if mine (s.post i).activity then setActivity i .idle none s else s

/-- The Call Controller's IDLE. -/
def idleFromCall (i : Slot) (s : State) : State := setIdle (fun a => a == .calling || a == .ringing) i s

/-- The Announcement Controller's IDLE. -/
def idleFromAnnouncement (i : Slot) (s : State) : State := setIdle (· == .hearing) i s

/-- The burst's IDLE. -/
def idleFromBurst (i : Slot) (s : State) : State := setIdle (· == .tested) i s

/-! ## Bursts -/

/-- A test frame in flight no longer counts: its burst has ended (R141). -/
def uncount : Transaction → Transaction
  | .test i h n p _ => .test i h n p false
  | .poll i h c => .poll i h c

/-- Every ending of a burst: the record ENDED, the target IDLE if TESTED, TEST DONE to the requesting link if UP (R140). -/
def endBurst (e : EndId) (ending : BurstEnding) (s : State) : State :=
  match s.burst e with
  | .running b =>
    let s := s.modBurst e fun _ => .ended b ending
    let s := s.modPort e fun p => { p with transaction := p.transaction.map uncount }
    let s := idleFromBurst b.target s
    report b.requester
      (.testDone b.tag e (nameBlock s b.target) b.count b.pattern ending b.sent b.echoedGood b.echoedBad b.noEcho) s
  | .none => s
  | .ended _ _ => s

/-- The burst whose target is the post ends ABORTED (R142). -/
def abortTarget (i : Slot) (reason : AbortReason) (s : State) : State :=
  forEach allEnds (fun e s => match s.burst e with
    | .running b => if b.target = i then endBurst e (.aborted reason) s else s
    | .none => s
    | .ended _ _ => s) s

/-- The running burst of an end replaced by its image. -/
def modRunning (e : EndId) (f : Burst → Burst) (s : State) : State :=
  s.modBurst e fun
    | .running b => .running (f b)
    | .none => .none
    | .ended b x => .ended b x

/-! ## Transactions -/

/-- The oldest entry of a post in an end's list (R39). -/
def oldestOf (s : State) (e : EndId) (i : Slot) : Option CommandEntry :=
  (s.endRec e).commands.find? fun c => decide (c.slot = i)

/-- A scan poll is sent: with the post's hop now and its oldest entry; polls sent is incremented (R35, R36, R39). -/
def sendPoll (e : EndId) (i : Slot) (s : State) : State :=
  let t := Transaction.poll i (s.post i).hop ((oldestOf s e i).map fun c => (c.command, c.age))
  (s.modPort e fun p => { p with transaction := some t }).modCounters e fun c => { c with pollsSent := satInc c.pollsSent }

/-- A test frame is sent: frame number and sent are incremented, and it carries the target's hop now (R138). -/
def sendTest (e : EndId) (b : Burst) (s : State) : State :=
  let n := b.frameNumber + 1
  let s := modRunning e (fun b => { b with frameNumber := n, sent := satInc b.sent }) s
  s.modPort e fun p => { p with transaction := some (.test b.target (s.post b.target).hop n b.pattern true) }

/-- The oldest eligible entry: its post is served by the end and not NO REPLY (R41, case 2). -/
def oldestEligible (s : State) (e : EndId) : Option CommandEntry :=
  (s.endRec e).commands.find? fun c => servedFrom s e c.slot && decide ((s.post c.slot).reply ≠ .noReply)

/-- The post of the next cyclic poll: the lowest hop above the scan position, or the lowest hop (R42). -/
def cyclicPost (s : State) (e : EndId) : Option Slot :=
  match lowestHop s ((servedBy s e).filter fun i => decide ((s.endRec e).scanPosition < (s.post i).hop)) with
  | some i => some i
  | none => lowestHop s (servedBy s e)

/-- The burst of an end, when it runs and its last transaction is POLL (R41, case 1). -/
def testDue (s : State) (e : EndId) : Option Burst :=
  match s.burst e with
  | .running b => if b.last = .poll then some b else none
  | .none => none
  | .ended _ _ => none

/-- The next transaction of an end, the first case of R41 that applies. -/
def nextTransaction (e : EndId) (s : State) : State :=
  match testDue s e with
  | some b => sendTest e b s
  | none =>
    match oldestEligible s e with
    | some c => sendPoll e c.slot s
    | none =>
      match cyclicPost s e with
      | some i => (sendPoll e i s).modEnd e fun r => { r with scanPosition := (s.post i).hop }
      | none => s

/-- An idle port in SCANNING begins its next transaction, unless a measurement on the other end now meets the conditions to
begin (R41, R55; log 11). -/
def pumpEnd (e : EndId) (s : State) : State :=
  if portMode s e = .scanning ∧ (s.port e).transaction = none ∧ mayMeasure s (otherEnd e) = false then nextTransaction e s else s

/-- Which end of a segment met the conditions of R55 first: the one noted, while it still meets them; else A before B (log 11). -/
def noteFirst (seg : SegId) (s : State) : State :=
  let keep := match nth s.line.first seg with
    | some d => mayMeasure s ⟨seg, d⟩
    | none => false
  if keep then s
  else
    let d := if mayMeasure s ⟨seg, .a⟩ then some Side.a else if mayMeasure s ⟨seg, .b⟩ then some Side.b else none
    s.onLine fun l => { l with first := modNth l.first seg fun _ => d }

/-- The end of a step: every idle port that may begin a transaction does, then the ends that may measure are noted. -/
def finish (s : State) : State := forEach (allFin 8) noteFirst (forEach allEnds pumpEnd s)

end Sys2Proof.Machine
end

