-- ==== Sys2Proof/Machine/Arbiter.lean ====
section
/-! DEFINITION. The Channel Arbiter's release, grant and withdrawal (R79, R80), with the grants as the Call Controller
(R100, R101) and the Announcement Controller (R119) take them. -/

namespace Sys2Proof.Machine

/-- A channel record set. -/
def setHolder (e : EndId) (c : Chan) (h : Holder) (s : State) : State :=
  s.modChan e fun r => { r with channels := modNth r.channels c fun _ => h }

/-- A waiting list set. -/
def setWaiting (e : EndId) (l : List Waiter) (s : State) : State := s.modChan e fun r => { r with waiting := l }

/-- The reference names the live record of its index and generation (R87). -/
def liveRef (s : State) (ref : CallRef) : Option LiveCall :=
  if (s.record ref.index).generation = ref.generation then s.liveCall ref.index else none

/-! ## The Call Controller's taking of a grant -/

/-- A call takes a granted channel: it is recorded, a PARKED call goes CONNECTING and is reported, CONNECT is placed (R100). -/
def callTakesChannel (i : CallIdx) (e : EndId) (c : Chan) (s : State) : State :=
  match s.liveCall i with
  | some k =>
    let parked := k.state == .parked
    let s := s.modCall i fun k =>
      { k with channel := some (e, c), request := none, state := if parked then .connecting else k.state,
               resuming := parked || k.resuming }
    let s := if parked then reportParties i .connecting .none s else s
    placeCommand k.slot (.connect c) s
  | none => s

/-- A grant to a reference is wanted: its record is live in that generation, CONNECTING or PARKED (R101). -/
def callWants (s : State) (ref : CallRef) : Bool :=
  match liveRef s ref with
  | some k => k.state == .connecting || k.state == .parked
  | none => false

/-! ## The Announcement Controller's taking of a grant -/

/-- The record of a member replaced by its image. -/
def modMember (g : GroupId) (i : Slot) (f : Member → Member) (s : State) : State :=
  s.modGroup g fun r => { r with members := r.members.map fun m => if m.slot = i then f m else m }

/-- Once the window has expired, a member that becomes COMMANDED starts the LATE timer afresh (R124). -/
def startLate (g : GroupId) (s : State) : State :=
  s.modGroup g fun r => match r.timer with
    | some (.window, _) => r
    | _ => { r with timer := some (.late, s.after s.store.site.global.acknowledge) }

/-- A member is commanded on a channel of its serving end: ANNOUNCE is placed and it is PENDING, COMMANDED (R119, R126). -/
def commandMember (g : GroupId) (c : Chan) (i : Slot) (s : State) : State :=
  let s := placeCommand i (.announce c) s
  startLate g (modMember g i (fun m => { m with outcome := .pending .commanded, leaving := false }) s)

/-- The slots of members that are PENDING, AWAITING and served from an end, in ascending slot order. -/
def awaitingOn (s : State) (g : GroupId) (e : EndId) : List Slot :=
  ((s.group g).members.filter fun m => decide (m.outcome = .pending .awaiting) && servedFrom s e m.slot).map Member.slot

/-- A group takes a granted channel: the end joins the held ends and its AWAITING members there are commanded (R119). -/
def groupTakesChannel (g : GroupId) (e : EndId) (c : Chan) (s : State) : State :=
  let s := s.modGroup g fun r =>
    { r with held := r.held ++ [(e, c)], waiting := r.waiting.filter fun x => decide (x ≠ e) }
  forEach (awaitingOn s g e) (commandMember g c) s

/-- A grant to a group is wanted: it is ACTIVE with AWAITING members served from the end (R119). -/
def groupWants (s : State) (g : GroupId) (e : EndId) : Bool := (s.group g).active && awaitsChannel s g e

/-! ## Release and withdrawal -/

/-- A channel that frees goes to the head of the waiting list. An owner that no longer wants it releases it at once, and it goes to the
new head; with an empty list it becomes FREE (R79, R80, R101, R119). -/
def handOver (e : EndId) (c : Chan) : List Waiter → State → State
  | [], s => setHolder e c .free (setWaiting e [] s)
  | .call _ ref slot _ :: l, s =>
    if callWants s ref then callTakesChannel ref.index e c (setHolder e c (.call ref slot) (setWaiting e l s))
    else handOver e c l s
  | .announce g _ :: l, s =>
    if groupWants s g e then groupTakesChannel g e c (setHolder e c (.group g) (setWaiting e l s))
    else handOver e c l (s.modGroup g fun r => { r with waiting := r.waiting.filter fun x => decide (x ≠ e) })

/-- A release by the named holder; a channel it does not hold is not touched (R79). -/
def release (e : EndId) (c : Chan) (h : Holder) (s : State) : State :=
  if h ≠ .free ∧ nth (s.chan e).channels c = h then handOver e c (s.chan e).waiting s else s

/-- The waiter is a call's entry. -/
def waitsFor (ref : CallRef) : Waiter → Bool
  | .call _ r _ _ => decide (r = ref)
  | .announce _ _ => false

/-- The waiter is a group's entry. -/
def waitsForGroup (g : GroupId) : Waiter → Bool
  | .announce h _ => decide (h = g)
  | .call _ _ _ _ => false

/-- A withdrawal of a call's entry; it frees no channel (R80). -/
def withdrawCall (e : EndId) (ref : CallRef) (s : State) : State :=
  s.modChan e fun r => { r with waiting := r.waiting.filter fun w => !waitsFor ref w }

/-- A withdrawal of a group's entry (R80). -/
def withdrawGroup (e : EndId) (g : GroupId) (s : State) : State :=
  s.modChan e fun r => { r with waiting := r.waiting.filter fun w => !waitsForGroup g w }

/-! ## What the Arbiter reads -/

/-- The channel of an end that a call holds. -/
def heldByCall (s : State) (e : EndId) (ref : CallRef) : Option Chan :=
  (allFin 4).find? fun c => match nth (s.chan e).channels c with
    | .call r _ => decide (r = ref)
    | .free => false
    | .group _ => false

/-- The channel of an end that a group holds. -/
def heldByGroup (s : State) (e : EndId) (g : GroupId) : Option Chan :=
  (allFin 4).find? fun c => decide (nth (s.chan e).channels c = .group g)

/-- The lowest-numbered FREE channel of an end (R76, R78). -/
def lowestFree (s : State) (e : EndId) : Option Chan :=
  (allFin 4).find? fun c => decide (nth (s.chan e).channels c = .free)

/-- The kind's rank in grant order: PARKED, CONNECT, ANNOUNCE (R75). -/
def waiterRank : Waiter → Nat
  | .call .parked _ _ _ => 0
  | .call .connect _ _ _ => 1
  | .announce _ _ => 2

/-- Waiter `w` stands before waiter `v`, which is already in the list: an earlier kind; between ANNOUNCE entries the earlier start,
then the lower group number (R75). -/
def waitsBefore (w v : Waiter) : Bool :=
  match w, v with
  | .announce g a, .announce h b => earlier a b || (decide (a = b) && decide (g.val < h.val))
  | _, _ => decide (waiterRank w < waiterRank v)

/-- A new waiter put at its place (R75). -/
def insertWaiter (w : Waiter) : List Waiter → List Waiter
  | [] => [w]
  | v :: l => if waitsBefore w v then w :: v :: l else v :: insertWaiter w l

/-- Group `g` gives way before group `h`: the later start, or the higher number at equal starts (R77). -/
def givesWay (s : State) (g h : GroupId) : Bool :=
  match (s.group g).start, (s.group h).start with
  | some a, some b => earlier b a || (decide (a = b) && decide (h.val < g.val))
  | _, _ => decide (h.val < g.val)

/-- The channel that a P3 or P2 call takes from a group, with the group (R77). -/
def preemptable (s : State) (e : EndId) : Option (Chan × GroupId) :=
  (allFin 4).foldl (fun best c => match nth (s.chan e).channels c, best with
    | .group g, none => some (c, g)
    | .group g, some (c0, h) => if givesWay s g h then some (c, g) else some (c0, h)
    | .call _ _, b => b
    | .free, b => b) none

end Sys2Proof.Machine
end

