-- ==== Sys2Proof/Machine/Announce.lean ====
section
/-! DEFINITION. The Announcement Controller (chapter 7): a group's channel request and its answers, the reports of its members,
READY and the release of its channels, what each notice does to its members, and its ending. -/

namespace Sys2Proof.Machine

/-! ## Reports, READY and release -/

/-- The outcome is PENDING. -/
def isPending (o : MemberOutcome) : Bool :=
  match o with
  | .pending _ => true
  | .hearing => false
  | .failed => false
  | .unreachable => false
  | .noChannel => false
  | .noAnswer => false
  | .skippedInCall => false
  | .skippedBusy => false
  | .skippedAbsent => false
  | .preempted => false
  | .leftForCall => false

/-- The outcome of a post in a group. -/
def outcomeOf (s : State) (g : GroupId) (i : Slot) : Option MemberOutcome :=
  (memberOf (s.group g) i).map Member.outcome

/-- A change to the outcome is reported: an exception outcome, and after READY every outcome but PENDING (R122). -/
def isReported (late : Bool) (o : MemberOutcome) : Bool := isException o || (late && !isPending o)

/-- ANNOUNCE EXCEPTION for a member's outcome as it stands, where R122 reports it. -/
def reportMember (g : GroupId) (preemptor : Option CallRef) (i : Slot) (s : State) : State :=
  let late := (s.group g).readySent
  match outcomeOf s g i with
  | some o =>
    if isReported late o then reportBothInTurn (.announceException g i o late (servingEnd s i) preemptor (nameBlock s i)) s else s
  | none => s

/-- A member takes an outcome, and the change is reported (R122). -/
def changeMember (g : GroupId) (i : Slot) (o : MemberOutcome) (preemptor : Option CallRef) (s : State) : State :=
  reportMember g preemptor i (modMember g i (fun m => { m with outcome := o, leaving := false }) s)

/-- ANNOUNCE READY, once for each START, when no member is PENDING (R122). -/
def testReady (g : GroupId) (s : State) : State :=
  let r := s.group g
  if r.active && !r.readySent && !anyPending r then
    reportBoth (.announceReady g r.source r.start r.members.length (countOutcomes r.members))
      (s.modGroup g fun r => { r with readySent := true })
  else s

/-- The ACTIVE groups with a member record changed since the state before. -/
def changedGroups (before s : State) : List GroupId :=
  (allFin 16).filter fun g => (s.group g).active && decide ((s.group g).members ≠ (before.group g).members)

/-- The end of an event that may place several exceptions or OFFERs: they stand in order, and READY of each group that it has
changed follows (R90, R122; log 15). -/
def settle (before s : State) : State := forEach (changedGroups before s) testReady (orderReports before s)

/-- How an operation makes known what it has changed since the state before: `settle` for an event of its own, `later` as part of an
event that settles at its end (R122). -/
abbrev Telling := State → State → State

def later : Telling := fun _ s => s

/-- The channel that a group records on an end. -/
def heldOnEnd (r : GroupRun) (e : EndId) : Option Chan := (r.held.find? fun h => decide (h.1 = e)).map Prod.snd

/-- An end leaves the held ends of a group. -/
def dropHeld (g : GroupId) (e : EndId) (s : State) : State :=
  s.modGroup g fun r => { r with held := r.held.filter fun h => decide (h.1 ≠ e) }

/-- An end leaves the waiting ends of a group. -/
def dropWaiting (g : GroupId) (e : EndId) (s : State) : State :=
  s.modGroup g fun r => { r with waiting := r.waiting.filter fun x => decide (x ≠ e) }

/-- The test of R121 on one end: the group releases its channel there when no member served from it is HEARING or PENDING. -/
def releaseIfDone (g : GroupId) (e : EndId) (s : State) : State :=
  match heldOnEnd (s.group g) e with
  | some c => if (s.group g).active && !needsChannel s g e then release e c (.group g) (dropHeld g e s) else s
  | none => s

/-- The release test of each held end, in ascending order of end (R121; log 15). -/
def releases (g : GroupId) (s : State) : State := forEach allEnds (releaseIfDone g) s

/-! ## Requests (R78, R119) -/

/-- The slots of members that satisfy a test on outcome and are served from an end, in ascending slot order. -/
def membersOn (s : State) (g : GroupId) (e : EndId) (p : MemberOutcome → Bool) : List Slot :=
  ((s.group g).members.filter fun m => p m.outcome && servedFrom s e m.slot).map Member.slot

/-- The reference kept with a group in an end's preempted set (R74). -/
def preemptedBy (s : State) (e : EndId) (g : GroupId) : Option CallRef :=
  ((s.chan e).preempted.find? fun p => decide (p.1 = g)).map Prod.snd

/-- An end joins the waiting ends of a group (R119). -/
def joinWaiting (g : GroupId) (e : EndId) (s : State) : State :=
  s.modGroup g fun r => if r.waiting.contains e then r else { r with waiting := r.waiting ++ [e] }

/-- A group's channel request on an end, the first case of R78 that applies, with its answer taken by R119. -/
def requestForGroup (g : GroupId) (e : EndId) (s : State) : State :=
  if holdsChannels (s.endRec e).state then
    match preemptedBy s e g with
    | some ref => forEach (membersOn s g e isPending) (fun i s => changeMember g i .preempted (some ref) s) s
    | none =>
      match heldByGroup s e g with
      | some c => forEach (awaitingOn s g e) (commandMember g c) s
      | none =>
        if (s.chan e).waiting.any (waitsForGroup g) then joinWaiting g e s
        else
          match lowestFree s e with
          | some c => groupTakesChannel g e c (setHolder e c (.group g) s)
          | none =>
            joinWaiting g e
              (setWaiting e (insertWaiter (.announce g ((s.group g).start.getD 0)) (s.chan e).waiting) s)
  else s

/-! ## Notices about a member's post -/

/-- Applies `f` to each ACTIVE group in which the post is PENDING or HEARING, in ascending order, then makes the tests of R121. -/
def forGroupsOf (i : Slot) (f : GroupId → State → State) (s : State) : State :=
  forEach (allFin 16) (fun g s => if takingPart s g i then releases g (f g s) else s) s

/-- A post gets a call record or joins the overflow list: the member becomes LEFT FOR CALL, READY is tested, and the ends are
tested for release (R125). -/
def memberLeftForCall (tell : Telling) (i : Slot) (s : State) : State :=
  let groups := (allFin 16).filter fun g => takingPart s g i
  forEach groups releases
    (tell s (forEach groups (fun g s => changeMember g i .leftForCall none (placeCommand i .announceEnd s)) s))

/-- The member is COMMANDED or HEARING, or was when its end stopped (R126, R129; log 16). -/
def hasCommand (s : State) (g : GroupId) (i : Slot) : Bool :=
  match memberOf (s.group g) i with
  | some m => m.leaving || decide (m.outcome = .hearing) || decide (m.outcome = .pending .commanded)
  | none => false

/-- ANNOUNCE END is placed for a member that was COMMANDED or HEARING, and a HEARING member has its activity set to IDLE (R126). -/
def quitChannel (g : GroupId) (i : Slot) (s : State) : State :=
  let hearing := decide (outcomeOf s g i = some .hearing)
  let s := if hasCommand s g i then placeCommand i .announceEnd s else s
  if hearing then idleFromAnnouncement i s else s

/-- A member's post is re-homed: the first case of R126 that applies. -/
def moveMember (i : Slot) (e : EndId) (g : GroupId) (s : State) : State :=
  match heldOnEnd (s.group g) e with
  | some c =>
    let hearing := decide (outcomeOf s g i = some .hearing)
    let s := commandMember g c i s
    if hearing then idleFromAnnouncement i s else s
  | none =>
    if (s.group g).readySent then changeMember g i .noChannel none (quitChannel g i s)
    else
      let waits := (s.group g).waiting.contains e
      let s := changeMember g i (.pending .awaiting) none (quitChannel g i s)
      if waits then s else requestForGroup g e s

/-- The notice of a move, for the end that now serves the post (R126). -/
def memberMoved (i : Slot) (s : State) : State :=
  match servingEnd s i with
  | some e => forGroupsOf i (moveMember i e) s
  | none => s

/-- A member that takes part no more: ANNOUNCE END is placed, a HEARING member has its activity set to IDLE, and the outcome
changes (R127, R128). -/
def dropMember (g : GroupId) (o : MemberOutcome) (preemptor : Option CallRef) (i : Slot) (s : State) : State :=
  let hearing := decide (outcomeOf s g i = some .hearing)
  let s := placeCommand i .announceEnd s
  changeMember g i o preemptor (if hearing then idleFromAnnouncement i s else s)

/-- The notice that a post is ISOLATED, with ANNOUNCE END placed, or UNSERVED, when a placed command is discarded (R38, R127). -/
def memberLost (i : Slot) (s : State) : State := forGroupsOf i (fun g => dropMember g .unreachable none i) s

/-! ## Notices from the Arbiter -/

/-- A PREEMPTED notice (R128), which stands before the call's grant (R77). -/
def groupPreempted (g : GroupId) (e : EndId) (ref : CallRef) (s : State) : State :=
  let s := dropHeld g e s
  releases g (forEach (membersOn s g e unsettled) (dropMember g .preempted (some ref)) s)

/-- A CHANNEL LOST notice of a stopped end: its members there are AWAITING again, with no command and no report (R129). -/
def groupEndStopped (g : GroupId) (e : EndId) (s : State) : State :=
  let s := dropHeld g e s
  forEach (membersOn s g e unsettled) (fun i s =>
    let had := hasCommand s g i
    let hearing := decide (outcomeOf s g i = some .hearing)
    let s := modMember g i (fun m => { m with outcome := .pending .awaiting, leaving := had }) s
    if hearing then idleFromAnnouncement i s else s) s

/-! ## The acknowledge timer -/

/-- A PENDING member has run out of time: AWAITING becomes NO CHANNEL, COMMANDED becomes NO ANSWER with ANNOUNCE END placed
(R123). -/
def expireMember (g : GroupId) (i : Slot) (s : State) : State :=
  match outcomeOf s g i with
  | some (.pending .awaiting) => changeMember g i .noChannel none s
  | some (.pending .commanded) => changeMember g i .noAnswer none (placeCommand i .announceEnd s)
  | _ => s

/-- The slots of a group's members, in ascending order. -/
def memberSlots (s : State) (g : GroupId) : List Slot := (s.group g).members.map Member.slot

/-- The entries of a group leave the waiting lists of its waiting ends, and the waiting ends become empty (R123, R130). -/
def withdrawAll (g : GroupId) (s : State) : State :=
  let s := forEach allEnds (fun e s => if (s.group g).waiting.contains e then withdrawGroup e g s else s) s
  s.modGroup g fun r => { r with waiting := [] }

/-- The expiry of the window (R123). READY, if it has not been sent, follows the exceptions. -/
def windowExpires (g : GroupId) (s : State) : State :=
  let before := s
  let s := withdrawAll g s
  let s := releases g (testReady g (settle before (forEach (memberSlots s g) (expireMember g) s)))
  s.modGroup g fun r => { r with timer := none }

/-- The LATE expiry: each COMMANDED member becomes NO ANSWER (R124). -/
def lateExpires (g : GroupId) (s : State) : State :=
  let before := s
  let s := forEach (memberSlots s g) (fun i s =>
    if outcomeOf s g i = some (.pending .commanded) then expireMember g i s else s) s
  (releases g (settle before s)).modGroup g fun r => { r with timer := none }

/-! ## Results of ANNOUNCE (R120) -/

/-- The ACTIVE group in which a post is COMMANDED with a channel on its present serving end. -/
def commandedGroup (s : State) (i : Slot) (c : Chan) : Option GroupId :=
  match servingEnd s i with
  | some e => (allFin 16).find? fun g =>
      (s.group g).active && decide (outcomeOf s g i = some (.pending .commanded)) && decide (heldOnEnd (s.group g) e = some c)
  | none => none

/-- The post is PENDING or HEARING in some ACTIVE group. -/
def inAnyGroup (s : State) (i : Slot) : Bool := (allFin 16).any fun g => takingPart s g i

/-- The result of an ANNOUNCE command (R120). HEARING ends a burst of the post (R142). -/
def announceResult (i : Slot) (c : Chan) (result : CommandResult) (s : State) : State :=
  match commandedGroup s i c, result with
  | some g, .done =>
    releases g (settle s (changeMember g i .hearing none (abortTarget i .announcement (setActivity i .hearing none s))))
  | some g, .speakerFault => releases g (settle s (changeMember g i .failed none s))
  | some g, .offHook => releases g (settle s (changeMember g i .leftForCall none s))
  | none, .done => if inAnyGroup s i then s else placeCommand i .announceEnd s
  | none, .speakerFault => s
  | none, .offHook => s

/-! ## Ending (R130, R131) -/

/-- A trunk slot taken for a call or a group (R152). -/
def takeTrunk (x : LinkId) (t : Trunk) (u : TrunkUse) (s : State) : State :=
  s.modLink x fun l => { l with trunks := modNth l.trunks t fun _ => u }

/-- A trunk slot freed by the call or group that its entry names; otherwise no effect (R152). -/
def freeTrunk (p : Party) (u : TrunkUse) (s : State) : State :=
  s.modLink p.link fun l => { l with trunks := modNth l.trunks p.trunk fun v => if v = u then .free else v }

/-- The notice that a group has ended: it leaves every preempted set (R83). -/
def groupEndNotice (g : GroupId) (s : State) : State :=
  forEach allEnds (fun e s => s.modChan e fun r => { r with preempted := r.preempted.filter fun p => decide (p.1 ≠ g) }) s

/-- Steps 2 and 3 of R130 for one member. -/
def endMember (g : GroupId) (i : Slot) (s : State) : State :=
  match outcomeOf s g i with
  | some (.pending .commanded) =>
    placeCommand i .announceEnd (modMember g i (fun m => { m with outcome := .noAnswer, leaving := false }) s)
  | some (.pending .awaiting) => modMember g i (fun m => { m with outcome := .noChannel, leaving := false }) s
  | some .hearing => idleFromAnnouncement i (placeCommand i .announceEnd s)
  | _ => s

/-- Step 4 of R130 on one end. -/
def releaseHeld (g : GroupId) (e : EndId) (s : State) : State :=
  match heldOnEnd (s.group g) e with
  | some c => release e c (.group g) (dropHeld g e s)
  | none => s

/-- The source slot of a group becomes FREE (R130). -/
def freeSource (g : GroupId) (s : State) : State :=
  match (s.group g).source with
  | some p => freeTrunk p (.announce g) s
  | none => s

/-- A group ends (R130). DESIGN CHOICE: steps 2 and 3 take the members together in ascending order of slot, and step 4 releases
the held ends in ascending order of end (log 51). -/
def endGroup (g : GroupId) (reason : EndReason) (s : State) : State :=
  let s := s.modGroup g fun r => { r with timer := none, reason := some reason }
  let s := forEach (memberSlots s g) (endMember g) s
  let s := groupEndNotice g (withdrawAll g (forEach allEnds (releaseHeld g) s))
  let s := freeSource g s
  let s := s.modGroup g fun r => { r with active := false }
  let r := s.group g
  reportBoth (.announceEnded g r.reason r.members.length (countOutcomes r.members)) s

end Sys2Proof.Machine
end

