-- ==== Sys2Proof/Machine/Channels.lean ====
section
/-! DEFINITION. The Channel Arbiter's requests from calls, with preemption (R76, R77), its notices of posts that left an end
and of ends that stopped (R81, R82), and the Call Controller's taking of them (R100, R101). -/

namespace Sys2Proof.Machine

/-! ## Notices taken by the Call Controller (R101) -/

/-- CHANNEL LOST: a call CONNECTED or CONNECTING goes PARKED with no request, reported PARKED (R101). -/
def callLosesChannel (ref : CallRef) (reason : CallReason) (s : State) : State :=
  match liveRef s ref with
  | some k =>
    if k.state = .connected ∨ k.state = .connecting then
      reportParties ref.index .parked reason
        (s.modCall ref.index fun k => { k with channel := none, state := .parked, request := none })
    else s.modCall ref.index fun k => { k with channel := none }
  | none => s

/-- ENTRY REMOVED: the channel request becomes none (R101). -/
def callLosesEntry (ref : CallRef) (s : State) : State :=
  match liveRef s ref with
  | some _ => s.modCall ref.index fun k => { k with request := none }
  | none => s

/-! ## A post has left an end (R81) -/

/-- The channel of an end held by a call of a post, with the reference. -/
def channelOfPost (s : State) (e : EndId) (i : Slot) : Option (Chan × CallRef) :=
  (allFin 4).findSome? fun c => match nth (s.chan e).channels c with
    | .call ref slot => if slot = i then some (c, ref) else none
    | .free => none
    | .group _ => none

/-- The reference of a waiting entry of a call of a post. -/
def entryOfPost (i : Slot) (l : List Waiter) : Option CallRef :=
  l.findSome? fun w => match w with
    | .call _ ref slot _ => if slot = i then some ref else none
    | .announce _ _ => none

/-- A channel of the post's call is released, then its waiting entry removed, each with its notice (R81). -/
def postLeft (i : Slot) (e : EndId) (reason : CallReason) (s : State) : State :=
  let s := match channelOfPost s e i with
    | some (c, ref) => callLosesChannel ref reason (release e c (.call ref i) s)
    | none => s
  match entryOfPost i (s.chan e).waiting with
  | some ref => callLosesEntry ref (withdrawCall e ref s)
  | none => s

/-! ## Requests (R76, R77) -/

/-- A group joins an end's preempted set with the preempting call's reference, once (R74, R77). -/
def addPreempted (e : EndId) (g : GroupId) (ref : CallRef) (s : State) : State :=
  s.modChan e fun r => if r.preempted.any (fun p => decide (p.1 = g)) then r else { r with preempted := r.preempted ++ [(g, ref)] }

/-- WAITING: the channel request records the end and the kind (R100). -/
def callWaits (i : CallIdx) (e : EndId) (kind : RequestKind) (s : State) : State :=
  s.modCall i fun k => { k with request := some (e, kind) }

/-- A call takes a channel from a group (R77). -/
def preempt (i : CallIdx) (slot : Slot) (e : EndId) (c : Chan) (g : GroupId) (s : State) : State :=
  let ref := s.refOfRecord i
  let s := addPreempted e g ref (setHolder e c (.call ref slot) s)
  callTakesChannel i e c (groupPreempted g e ref s)

/-- The call has a holding or an entry on the end. -/
def usesEnd (s : State) (ref : CallRef) (e : EndId) : Bool :=
  (heldByCall s e ref).isSome || (s.chan e).waiting.any (waitsFor ref)

/-- Cases 4 to 6 of R76. -/
def grantOrWait (i : CallIdx) (k : LiveCall) (kind : RequestKind) (e : EndId) (s : State) : State :=
  let ref := s.refOfRecord i
  match lowestFree s e with
  | some c => callTakesChannel i e c (setHolder e c (.call ref k.slot) s)
  | none =>
    match (if 2 ≤ k.cls.rank then preemptable s e else none) with
    | some (c, g) => preempt i k.slot e c g s
    | none => callWaits i e kind (setWaiting e (insertWaiter (.call kind ref k.slot k.cls) (s.chan e).waiting) s)

/-- A call's channel request on an end, the first case of R76 that applies, with its answer taken by R100. -/
def requestForCall (i : CallIdx) (kind : RequestKind) (e : EndId) (s : State) : State :=
  match s.liveCall i with
  | none => s
  | some k =>
    let ref := s.refOfRecord i
    if !holdsChannels (s.endRec e).state then s
    else match heldByCall s e ref with
      | some c => callTakesChannel i e c s
      | none =>
        if (s.chan e).waiting.any (waitsFor ref) then callWaits i e kind s
        else
          let s := forEach allEnds (fun x s => if x ≠ e ∧ usesEnd s ref x then postLeft k.slot x .postMoved s else s) s
          grantOrWait i k kind e s

/-- A request on the end that serves the call's post (R100). -/
def requestOnServing (i : CallIdx) (kind : RequestKind) (s : State) : State :=
  match s.liveCall i with
  | some k => match servingEnd s k.slot with
    | some e => requestForCall i kind e s
    | none => s
  | none => s

/-! ## An end has stopped serving (R82) -/

/-- Step 1 of R82 for one channel. -/
def stopChannel (e : EndId) (c : Chan) (s : State) : State :=
  match nth (s.chan e).channels c with
  | .free => s
  | .call ref _ => callLosesChannel ref .endStopped (setHolder e c .free s)
  | .group g => groupEndStopped g e (setHolder e c .free s)

/-- Step 2 of R82 for one entry. -/
def stopEntry (e : EndId) (w : Waiter) (s : State) : State :=
  match w with
  | .call _ ref _ _ => callLosesEntry ref s
  | .announce g _ => dropWaiting g e s

/-- The three steps of R82. -/
def stopEnd (e : EndId) (s : State) : State :=
  let s := forEach (allFin 4) (stopChannel e) s
  let l := (s.chan e).waiting
  let s := forEach l (stopEntry e) (setWaiting e [] s)
  s.modChan e fun r => { r with preempted := [] }

end Sys2Proof.Machine
end

