-- ==== Sys2Proof/Machine/Calls.lean ====
section
/-! DEFINITION. The Call Controller's operations that free no record: offers (R96, R97), new calls and the overflow list (R91 to
R93), answers by the post (R108), and the calls of posts that move, are lost or are served again (R109 to R111). -/

namespace Sys2Proof.Machine

/-! ## Offers -/

/-- The overflow timer stops (R97). -/
def stopOverflowTimer (t : Option (TimerKind × Nat)) : Option (TimerKind × Nat) :=
  match t with
  | some (.overflow, _) => none
  | some (.ring, n) => some (.ring, n)
  | some (.clearConfirm, n) => some (.clearConfirm, n)
  | none => none

/-- An OFFERED call is due to a link: its home link, or the other when its overflowed flag is set or its home link is DOWN (R96). -/
def dueTo (s : State) (k : LiveCall) (x : LinkId) : Bool :=
  decide (x = homeLinkOf s k.slot) || k.flags.overflowed || !(s.link (homeLinkOf s k.slot)).up

/-- The fields of a call as a link joins its offered set: the other link sets the overflowed flag (R96), which stops the overflow
timer; the home link starts it while the flag is clear (R97). -/
def joinOffered (s : State) (x : LinkId) (k : LiveCall) : LiveCall :=
  if x = homeLinkOf s k.slot then
    { k with offered := k.offered.put x true,
             timer := if k.flags.overflowed then k.timer else some (.overflow, s.after s.store.site.global.offerOverflow) }
  else
    { k with offered := k.offered.put x true, flags := { k.flags with overflowed := true }, timer := stopOverflowTimer k.timer }

/-- How a report reaches a link: `report`, or `reportInTurn` within an event that may place several (R90, R122). -/
abbrev Placing := LinkId → Report → State → State

/-- OFFER to a link of the offered set (R96). -/
def sendOffer (place : Placing) (i : CallIdx) (x : LinkId) (s : State) : State :=
  match s.liveCall i with
  | some k => place x (offerOf s i k) s
  | none => s

/-- The test of R96 for one link. -/
def offerTo (place : Placing) (i : CallIdx) (x : LinkId) (s : State) : State :=
  match s.liveCall i with
  | some k =>
    if k.state = .offered ∧ (s.link x).up = true ∧ k.offered.has x = false ∧ dueTo s k x = true then
      sendOffer place i x (s.modCall i (joinOffered s x))
    else s
  | none => s

/-- The test of R96: the home link, then the other. -/
def offerBy (place : Placing) (i : CallIdx) (s : State) : State :=
  match s.liveCall i with
  | some k => offerTo place i (otherLink (homeLinkOf s k.slot)) (offerTo place i (homeLinkOf s k.slot) s)
  | none => s

/-- The test of R96 in an event that offers this call alone. -/
def offer (i : CallIdx) (s : State) : State := offerBy report i s

/-- The test of R96 in an event that may offer several calls; its end puts them in queue order (R90; log 55). -/
def offerInTurn (i : CallIdx) (s : State) : State := offerBy reportInTurn i s

/-- Every OFFERED call is tested for a link that has come UP, in queue order (R96, R144). -/
def offerAllTo (x : LinkId) (s : State) : State := forEach ((callQueue s).map Prod.fst) (fun i s => offerTo report i x s) s

/-- OFFER WITHDRAWN to each link of a set (R114). -/
def withdrawOffers (i : CallIdx) (reason : WithdrawReason) (set : LinkSet) (s : State) : State :=
  let r := Report.offerWithdrawn (s.refOfRecord i) reason
  let s := if set.a then report .a r s else s
  if set.b then report .b r s else s

/-- CALL UNANSWERED to both UP links (R114). -/
def reportUnanswered (slot : Slot) (cls : CallClass) (reason : UnansweredReason) (s : State) : State :=
  reportBoth (.callUnanswered (nameBlock s slot) cls reason) s

/-! ## New inbound calls and the overflow list -/

/-- The record of a new inbound call: OFFERED, or LINE LOST for a post that is not SERVED (R92, R110). DESIGN CHOICE: LINE LOST
also for a call event passed for such a post, by a reply to a test frame in flight (log 49), and the stored kind gives the class,
of an absent entry too (log 58). -/
def inboundCall (s : State) (slot : Slot) (b : Button) (stamp : Stamp) : LiveCall :=
  { slot := slot, direction := .inbound, cls := classOf b (s.entry slot).name.kind,
    state := if (servingEnd s slot).isSome then .offered else .lineLost, stamp := some stamp, offered := .empty,
    flags := { overflowed := false, dropped := false, upgraded := false, unverified := (s.post slot).unverified },
    parties := [], channel := none, request := none, timer := none, deferred := none, resuming := false }

/-- A record is made live (R88). -/
def makeLive (i : CallIdx) (k : LiveCall) (s : State) : State := s.modRecord i fun r => { r with live := some k }

/-- The head of the overflow list gets a record (R91) and is offered: CALLING and the lamp are set already. -/
def takeFromOverflow (i : CallIdx) (o : OverflowEntry) (s : State) : State :=
  offerInTurn i <| memberLeftForCall later o.slot (makeLive i (inboundCall s o.slot o.button o.stamp) s)

/-- The post becomes CALLING with its stamp, its lamp is lit and the Announcement Controller is told (R92). -/
def beginCalling (tell : Telling) (slot : Slot) (stamp : Stamp) (s : State) : State :=
  memberLeftForCall tell slot (placeCommand slot .lampOn (setActivity slot .calling (some stamp) s))

/-- A new call, before it is offered (R92). -/
def newCall (tell : Telling) (i : CallIdx) (slot : Slot) (b : Button) (stamp : Stamp) (s : State) : State :=
  beginCalling tell slot stamp (makeLive i (inboundCall s slot b stamp) s)

/-- An entry put at its place by stamp (R91). -/
def insertOverflow (o : OverflowEntry) : List OverflowEntry → List OverflowEntry
  | [] => [o]
  | p :: l => if earlier o.stamp p.stamp then o :: p :: l else p :: insertOverflow o l

/-- A post joins the overflow list (R92). -/
def joinOverflow (tell : Telling) (slot : Slot) (b : Button) (stamp : Stamp) (s : State) : State :=
  beginCalling tell slot stamp (s.setOverflow (insertOverflow { slot := slot, stamp := stamp, button := b } s.calls.overflow))

/-- The higher of the button held and a new one (R91, R95). -/
def higherButton (held new : Button) : Button := if held.rank < new.rank then new else held

/-- A button update of an overflow entry (R91). -/
def updateOverflow (slot : Slot) (b : Button) (s : State) : State :=
  s.setOverflow (s.calls.overflow.map fun o => if o.slot = slot then { o with button := higherButton o.button b } else o)

/-- A post leaves the overflow list, reported MISSED (R91, R94). DESIGN CHOICE: the stored kind gives the class, of an absent entry too
(log 58). -/
def missOverflow (slot : Slot) (s : State) : State :=
  match s.calls.overflow.find? fun o => decide (o.slot = slot) with
  | some o =>
    let s := s.setOverflow (s.calls.overflow.filter fun o => decide (o.slot ≠ slot))
    reportUnanswered slot (classOf o.button (s.entry slot).name.kind) (.missed slot o.stamp) s
  | none => s

/-- A call event of an OFFERED call (R93). -/
def upgrade (i : CallIdx) (k : LiveCall) (b : Button) (s : State) : State :=
  let cls := classOf b (s.entry k.slot).name.kind
  if k.cls.rank < cls.rank then
    let s := s.modCall i fun k => { k with cls := cls, flags := { k.flags with upgraded := true } }
    let s := if k.offered.a then sendOffer report i .a s else s
    if k.offered.b then sendOffer report i .b s else s
  else s

/-- A deferred event held (R95). -/
def holdDeferred (i : CallIdx) (b : Button) (stamp : Stamp) (s : State) : State :=
  s.modCall i fun k => { k with deferred := match k.deferred with
    | some (held, st) => some (higherButton held b, st)
    | none => some (b, stamp) }

/-- A RINGING call is answered by its post (R108). -/
def answeredByPost (i : CallIdx) (stamp : Stamp) (s : State) : State :=
  match s.liveCall i with
  | some k =>
    let before := s
    let s := s.modCall i fun k => { k with stamp := some stamp, timer := none, state := .connecting, resuming := false }
    let s := setActivity k.slot .calling (some stamp) s
    reportParties i .answeredByPost .none (settle before (requestOnServing i .connect s))
  | none => s

/-- A call event of a post (R92). -/
def callEvent (slot : Slot) (b : Button) (stamp : Stamp) (s : State) : State :=
  match s.callOf slot with
  | some i =>
    match s.liveCall i with
    | some k =>
      match k.state with
      | .offered => upgrade i k b s
      | .ringing => answeredByPost i stamp s
      | .clearing => holdDeferred i b stamp s
      | .connecting => s
      | .connected => s
      | .parked => s
      | .lineLost => s
    | none => s
  | none =>
    if s.onOverflow slot then updateOverflow slot b s
    else
      match s.freeRecord? with
      | some i => offer i (newCall settle i slot b stamp s)
      | none => joinOverflow settle slot b stamp s

/-! ## Calls of posts that move (6.8) -/

/-- The post was re-homed (R109). -/
def callPostMoved (slot : Slot) (s : State) : State :=
  match s.callOf slot with
  | some i =>
    match s.liveCall i with
    | some k =>
      if k.state = .parked then requestOnServing i .parked s
      else if k.state = .connecting ∧ k.channel = none ∧ k.request = none then requestOnServing i .connect s
      else s
    | none => s
  | none => s

/-- The post became ISOLATED or UNSERVED (R110). A call already LINE LOST stays as it is. -/
def callPostLost (slot : Slot) (s : State) : State :=
  match s.callOf slot with
  | some i =>
    match s.liveCall i with
    | some k =>
      if k.state = .clearing ∨ k.state = .lineLost then s
      else if k.state = .offered then
        withdrawOffers i .lineLost k.offered
          (s.modCall i fun k => { k with state := .lineLost, offered := .empty, timer := stopOverflowTimer k.timer })
      else
        reportParties i .lineLost .none
          (s.modCall i fun k => { k with state := .lineLost, channel := none, request := none })
    | none => s
  | none => s

/-- A LINE LOST call goes PARKED, reported, and requests a PARKED channel (R110). -/
def parkServed (i : CallIdx) (s : State) : State :=
  requestOnServing i .parked (reportParties i .parked .postServed (s.modCall i fun k => { k with state := .parked }))

/-- The post is served again (R110). -/
def callPostServed (slot : Slot) (s : State) : State :=
  match s.callOf slot with
  | some i =>
    match s.liveCall i with
    | some k =>
      if k.state = .lineLost then
        match k.direction, k.parties, k.stamp with
        | .inbound, [], _ => offerInTurn i (s.modCall i fun k => { k with state := .offered, offered := .empty, resuming := false })
        | .inbound, _ :: _, _ => parkServed i s
        | .outbound, _, none =>
          reportParties i .ringing .none (s.modCall i fun k => { k with state := .ringing })
        | .outbound, _, some _ => parkServed i s
      else s
    | none => s
  | none => s

/-- The channel of a call is released (R79). -/
def releaseCallChannel (i : CallIdx) (s : State) : State :=
  match s.liveCall i with
  | some k => match k.channel with
    | some (e, c) =>
      release e c (.call (s.refOfRecord i) k.slot) (s.modCall i fun k => { k with channel := none })
    | none => s
  | none => s

/-- The waiting request of a call is withdrawn (R80). -/
def withdrawCallRequest (i : CallIdx) (s : State) : State :=
  match s.liveCall i with
  | some k => match k.request with
    | some (e, _) => withdrawCall e (s.refOfRecord i) (s.modCall i fun k => { k with request := none })
    | none => s
  | none => s

/-- The post took a new hop on the same end (R111). -/
def callHopMoved (slot : Slot) (s : State) : State :=
  match s.callOf slot with
  | some i =>
    match s.liveCall i with
    | some k =>
      let parks := decide (k.state = .connected) || (decide (k.state = .connecting) && k.channel.isSome)
      let s := withdrawCallRequest i (releaseCallChannel i s)
      let s := if parks then reportParties i .parked .postMoved (s.modCall i fun k => { k with state := .parked }) else s
      if parks || decide (k.state = .parked) then requestOnServing i .parked s
      else if k.state = .connecting then requestOnServing i .connect s
      else s
    | none => s
  | none => s

end Sys2Proof.Machine
end

