-- ==== Sys2Proof/Machine/Supervisor.lean ====
section
/-! DEFINITION. The Line Supervisor's serving assignment with what follows a change of a post's reach status (R69 to R72), the
rebuild of a hop map (R17), the suppressed post (R51), and an end's entry to TESTING (R57). -/

namespace Sys2Proof.Machine

/-! ## A post's row and its notices -/

/-- The row of a post that takes a reach status: the hop from its end, failure count 0, UNPROVEN (R70, R71). -/
def setReach (i : Slot) (r : PostReach) (s : State) : State :=
  let hop := hopFor s r i
  s.modPost i fun row => { row with reach := r, hop := hop, reply := .unproven, failures := 0 }

/-- A post's overflow entry when it becomes UNSERVED (R91). -/
def overflowUnserved (i : Slot) (s : State) : State :=
  if s.onOverflow i then idleFromCall i (missOverflow i s) else s

/-- What follows a change of a post's reach status, in the order of R40, R142, R81 and the notices to the Call Controller and the
Announcement Controller (R70, R71, R4). The row already holds the new status. -/
def reachEffects (i : Slot) (old new : PostReach) (s : State) : State :=
  match old, new with
  | .served e, .served f =>
    let s := abortTarget i .postMoved (moveCommands i f s)
    memberMoved i (callPostMoved i (postLeft i e .postMoved s))
  | .served e, .isolated =>
    let s := abortTarget i .postIsolated s
    memberLost i (callPostLost i (postLeft i e .postIsolated s))
  | .served e, .unserved =>
    let s := abortTarget i .postUnserved (dropCommands i s)
    memberLost i (callPostLost i (overflowUnserved i (postLeft i e .postIsolated s)))
  | .isolated, .served f => callPostServed i (moveCommands i f s)
  | .unserved, .served f => callPostServed i (moveCommands i f s)
  | .isolated, .unserved => memberLost i (callPostLost i (overflowUnserved i (dropCommands i s)))
  | .unserved, .isolated => memberLost i (callPostLost i s)
  | .isolated, .isolated => s
  | .unserved, .unserved => s

/-- The serving assignment applied to one post (R69). A post whose reach status is unchanged keeps its row and commands. -/
def reassign (i : Slot) (s : State) : State :=
  let old := (s.post i).reach
  let new := assignedReach s i
  if new = old then s else reachEffects i old new (setReach i new s)

/-! ## The suppressed post -/

/-- The suppressed post becomes absent when another post has become the end's farthest served post (R51). -/
def fixSuppressed (e : EndId) (s : State) : State :=
  match (s.endRec e).suppressed with
  | some p => if farthest s e = some p then s else s.modEnd e fun r => { r with suppressed := none }
  | none => s

/-- Both ends of a segment. -/
def fixSegment (seg : SegId) (s : State) : State := forEach (endsOf seg) fixSuppressed s

/-- The serving assignment applied to a segment, in ascending order of slot (R60, R69), with what it makes known of members and calls. -/
def assignSegment (seg : SegId) (s : State) : State := settle s (fixSegment seg (forEach (presentOn s seg) reassign s))

/-- POST ALARM ISOLATED for each post that became ISOLATED, or was ISOLATED and is served, since the state before, in ascending
order of slot (R60, R71). -/
def isolationAlarms (before : State) (s : State) : State :=
  forEach (allFin 256) (fun i s =>
    match (before.post i).reach, (s.post i).reach with
    | .isolated, .isolated => s
    | _, .isolated => reportBoth (.alarmIsolated (nameBlock s i) true) s
    | .isolated, .served _ => reportBoth (.alarmIsolated (nameBlock s i) false) s
    | _, _ => s) s

/-- A post whose call no longer needs its end: if it is served by an end that is not its primary end, and the primary end is available,
it is re-homed; otherwise it stays (R72). -/
def heldPostReleased (i : Slot) (s : State) : State :=
  match (s.post i).reach with
  | .served e =>
    let p := primaryEnd s i
    if e ≠ p ∧ available s p (s.entry i).place.position = true then
      fixSegment e.seg (reachEffects i (.served e) (.served p) (setReach i (.served p) s))
    else s
  | .isolated => s
  | .unserved => s

/-! ## Hop maps -/

/-- A served post of a segment takes the hop of the rebuilt map; if it changed, count 0 and UNPROVEN (R17). -/
def rehop (seg : SegId) (i : Slot) (s : State) : State :=
  match (s.post i).reach with
  | .served e =>
    let hop := hopFrom s e i
    if e.seg = seg ∧ hop ≠ (s.post i).hop then
      s.modPost i fun row => { row with hop := hop, reply := .unproven, failures := 0 }
    else s
  | .isolated => s
  | .unserved => s

/-- A segment's hop map is rebuilt from the working copy (R17). -/
def rebuild (seg : SegId) (s : State) : State := forEach (presentOn s seg) (rehop seg) (s.setHopMap seg (hopMapOf s seg))

/-! ## Ends -/

/-- An end changes state: the state left and the cause are noted (R73, R155). An end that goes SERVING from another state takes its
loop-current reading from the current that flows (R33). -/
def changeEnd (e : EndId) (st : EndState) (reach : EndReach) (cause : EndCause) (s : State) : State :=
  let wasServing := decide ((s.endRec e).state = .serving)
  let s := s.modEnd e fun r => { r with state := st, reach := reach, previous := some r.state, cause := some cause }
  if st = .serving ∧ wasServing = false then
    s.modPort e fun p => { p with reading := if p.current then .present else .lost }
  else s

/-- The timers of an end stop and its BUSY retry count is 0. -/
def clearTimers (e : EndId) (s : State) : State :=
  s.modEnd e fun r => { r with busyCount := 0, retryWait := none, retest := none }

/-- A burst of an end ends ABORTED (R142). -/
def abortEnd (e : EndId) (reason : AbortReason) (s : State) : State := endBurst e (.aborted reason) s

/-- An end goes TESTING (R57). -/
def goTesting (e : EndId) (cause : EndCause) (s : State) : State :=
  let s := clearTimers e (changeEnd e .testing (s.endRec e).reach cause s)
  let s := s.modEnd e fun r => { r with measurement := .waiting }
  reportEndState e (abortEnd e .endTesting s)

end Sys2Proof.Machine
end

