-- ==== Sys2Proof/Machine/Events.lean ====
section
/-! DEFINITION. The freeing of a call record (R88) and all that may free one: on-hook (R94), clearing and dismissal (R104, R105),
the expiries of chapter 6, and a link that goes DOWN (R112). -/

namespace Sys2Proof.Machine

/-! ## Freeing -/

/-- Each trunk slot of a party is freed in its link's table (R88, R104). -/
def freeParties (ref : CallRef) (l : List Party) (s : State) : State := forEach l (fun p s => freeTrunk p (.call ref) s) s

/-- The channel that a call held is released and its waiting request is withdrawn (R79, R80). Its record already holds neither and
has left the states in which it would take a grant, so what it gives up goes to another. -/
def giveUpLine (ref : CallRef) (k : LiveCall) (s : State) : State :=
  let s := match k.channel with
    | some (e, c) => release e c (.call ref k.slot) s
    | none => s
  match k.request with
  | some (e, _) => withdrawCall e ref s
  | none => s

/-- Step 1 of R88, for the record as it was. -/
def giveUp (ref : CallRef) (k : LiveCall) (s : State) : State := freeParties ref k.parties (giveUpLine ref k s)

/-- Step 2 of R88: the generation is incremented, wrapping from 1023 to 0, and every other field is free. -/
def retire (i : CallIdx) (s : State) : State :=
  s.modRecord i fun r => { generation := r.generation + 1, live := none }

/-- A deferred event taken after its record is freed: a new call if the overflow list is empty, else an entry on it (R95). -/
def takeDeferred (slot : Slot) (b : Button) (stamp : Stamp) (s : State) : State :=
  match s.calls.overflow, s.freeRecord? with
  | [], some i => offerInTurn i (newCall later i slot b stamp s)
  | _, _ => joinOverflow later slot b stamp s

/-- Step 5 of R88: a record still free goes to the head of the overflow list. -/
def giveToOverflow (i : CallIdx) (s : State) : State :=
  match s.liveCall i, s.calls.overflow with
  | none, o :: rest => takeFromOverflow i o (s.setOverflow rest)
  | _, _ => s

/-- The Line Supervisor is told that a call has left the states that need its end (R72). -/
def leftItsEnd (st : CallState) (slot : Slot) (s : State) : State := if needsItsEnd st then heldPostReleased slot s else s

/-- A call record is freed (R88), within an event that makes the rest known at its end. The record is emptied as what it held is
given up (steps 1 and 2). -/
def freeing (i : CallIdx) (s : State) : State :=
  match s.liveCall i with
  | some k =>
    let s := giveUp (s.refOfRecord i) k (retire i s)
    let s := leftItsEnd k.state k.slot (idleFromCall k.slot s)
    let s := match k.deferred with
      | some (b, stamp) => takeDeferred k.slot b stamp s
      | none => s
    giveToOverflow i s
  | none => s

/-- A call record is freed, as the last part of an event (R88). -/
def freeRecord (i : CallIdx) (s : State) : State := settle s (freeing i s)

/-! ## On-hook -/

/-- LAMP OFF for an inbound call (R94, R104). -/
def lampOffInbound (k : LiveCall) (s : State) : State :=
  match k.direction with
  | .inbound => placeCommand k.slot .lampOff s
  | .outbound => s

/-- An on-hook event of a post (R94). In RINGING it is ignored (log 20). -/
def onHook (slot : Slot) (s : State) : State :=
  match s.callOf slot with
  | some i =>
    match s.liveCall i with
    | some k =>
      match k.state with
      | .offered =>
        let s := reportUnanswered slot k.cls (.abandoned (s.refOfRecord i)) s
        freeRecord i (placeCommand slot .lampOff s)
      | .connecting | .connected | .parked | .lineLost =>
        let s := reportCall i .clearedByPost .none true (partyLinks s i) s
        freeRecord i (lampOffInbound k (placeCommand slot .release s))
      | .clearing => s.modCall i fun k => { k with deferred := none }
      | .ringing => s
    | none => s
  | none =>
    if s.onOverflow slot then idleFromCall slot (placeCommand slot .lampOff (missOverflow slot s)) else s

/-! ## Clearing -/

/-- A call goes CLEARING (R104). CALL STATE CLEARED BY PARTY, naming the link, goes to the links given. -/
def clearing (i : CallIdx) (k : LiveCall) (reports : List LinkId) (x : LinkId) (s : State) : State :=
  let ref := s.refOfRecord i
  let s := freeParties ref k.parties s
  let s := s.modCall i fun k =>
    { k with parties := [], channel := none, request := none, state := .clearing, timer := none }
  let s := reportCall i .clearedByParty (.byLink x) false reports s
  let s := lampOffInbound k (placeCommand k.slot .release (giveUpLine ref k s))
  let s := s.modCall i fun k => { k with timer := some (.clearConfirm, s.now + Config.clearConfirmMs) }
  leftItsEnd k.state k.slot s

/-- Dismissal of a call with no party by a link (R105). -/
def dismiss (i : CallIdx) (k : LiveCall) (x : LinkId) (s : State) : State :=
  let s := reportUnanswered k.slot k.cls (.dismissed (s.refOfRecord i) x) s
  freeRecord i (placeCommand k.slot .lampOff s)

/-! ## Expiries -/

/-- The ring timer expires, in RINGING or in LINE LOST (R108, R110). -/
def ringExpires (i : CallIdx) (k : LiveCall) (s : State) : State :=
  let s := reportCall i .noAnswer .none true (partyLinks s i) s
  freeRecord i (placeCommand k.slot .release s)

/-! ## Loss of a link -/

/-- The call returns to OFFERED with its channel, request and party given up and the dropped flag set, and is offered; then the
Line Supervisor is told (R112). -/
def reoffer (i : CallIdx) (k : LiveCall) (s : State) : State :=
  let ref := s.refOfRecord i
  let s := freeParties ref k.parties s
  let s := s.modCall i fun k =>
    { k with parties := [], channel := none, request := none, state := .offered, offered := .empty, timer := none, resuming := false,
             flags := { k.flags with dropped := true } }
  leftItsEnd k.state k.slot (offerInTurn i (placeCommand k.slot .release (giveUpLine ref k s)))

/-- A party of a link is removed from a record. -/
def removeParty (i : CallIdx) (x : LinkId) (s : State) : State :=
  match s.liveCall i with
  | some k =>
    let s := freeParties (s.refOfRecord i) (k.parties.filter fun p => decide (p.link = x)) s
    s.modCall i fun k => { k with parties := k.parties.filter fun p => decide (p.link ≠ x) }
  | none => s

/-- The loss of a link by one call whose sole party it was (R112). -/
def solePartyLost (i : CallIdx) (k : LiveCall) (x : LinkId) (s : State) : State :=
  match k.direction, k.state with
  | .inbound, .lineLost =>
    (removeParty i x s).modCall i fun k => { k with flags := { k.flags with dropped := true } }
  | .inbound, _ => reoffer i k s
  | .outbound, _ =>
    if k.stamp.isNone then freeing i (placeCommand k.slot .release s) else clearing i k [] x s

/-- The loss of link `x` as one record takes it (R112). A call of which it is the home link is offered to the other link. -/
def callLinkLost (x : LinkId) (i : CallIdx) (s : State) : State :=
  match s.liveCall i with
  | some k =>
    match k.state with
    | .clearing => s
    | .offered =>
      let home := decide (homeLinkOf s k.slot = x)
      let s := s.modCall i fun k =>
        { k with offered := k.offered.put x false, timer := if home then stopOverflowTimer k.timer else k.timer }
      if home then offerInTurn i s else s
    | .connecting | .connected | .parked | .lineLost | .ringing =>
      if k.parties.any fun p => decide (p.link = x) then
        if k.parties.length ≤ 1 then solePartyLost i k x s
        else reportParties i .partyLeft .linkLost (removeParty i x s)
      else s
  | none => s

/-- The loss of link `x` by the Call Controller (R112): every record in ascending order of index. -/
def callsLoseLink (x : LinkId) (s : State) : State := settle s (forEach (allFin 48) (callLinkLost x) s)

end Sys2Proof.Machine
end

