-- ==== Sys2Proof/Machine/Links.lean ====
section
/-! DEFINITION. The link controllers (chapter 9): a link that comes UP (R144) or goes DOWN (R146), a valid frame (R147), and the
commands of a link that are no request. -/

namespace Sys2Proof.Machine

/-! ## Coming UP -/

/-- LINK START as it is built at an UP, its damaged records not yet filled in (R151). -/
def linkStartOf (s : State) (x : LinkId) : LinkStart :=
  let l := s.link x
  { link := x, powerOn := l.firstUp, runningTime := min (s.now / 1000) Config.runningTimeTop, good := l.good,
    badCheck := l.badCheck, discarded := l.discarded, damagedCount := 0, damaged := [] }

/-- The damaged count and records, filled in when LINK START is placed in the queue (R151). -/
def fillDamaged (s : State) (r : LinkStart) : LinkStart :=
  { r with damagedCount := s.store.damaged.length, damaged := s.store.damaged.take Config.damagedNamed }

/-- The silence timer started with the link silence timeout (R144, R145). -/
def startSilence (x : LinkId) (s : State) : State :=
  s.modLink x fun l => { l with silence := some (s.after s.store.site.global.silence) }

/-- A link comes UP (R144). -/
def linkUp (x : LinkId) (s : State) : State :=
  let start := linkStartOf s x
  let s := s.modLink x fun l => { l with up := true, good := 0, badCheck := 0, discarded := 0, firstUp := false }
  let s := startSilence x s
  let s :=
    if starting s then s.modLink x fun l => { l with heldStart := some start }
    else report x (.linkStart (fillDamaged s start)) s
  offerAllTo x s

/-! ## Frames received -/

/-- A valid frame received in UP (R147): the silence timer starts again; a request frame enters the intake buffer or is discarded. -/
def takeFrame (x : LinkId) (f : Frame) (s : State) : State :=
  let s := startSilence x s
  if f.typ = 0 then s
  else if (s.link x).intake.length < Config.intakePlaces then
    s.modLink x fun l => { l with intake := l.intake ++ [f], good := satInc l.good }
  else s.modLink x fun l => { l with discarded := satInc l.discarded }

/-- A valid frame (R144, R147). -/
def validFrame (x : LinkId) (f : Frame) (s : State) : State :=
  takeFrame x f (if (s.link x).up then s else linkUp x s)

/-- A frame whose check value does not match, or that is broken off (R147). -/
def badFrame (x : LinkId) (s : State) : State := s.modLink x fun l => { l with badCheck := satInc l.badCheck }

/-! ## Going DOWN -/

/-- Steps 1 to 4 of R146. -/
def closeLink (x : LinkId) (s : State) : State :=
  s.modLink x fun l =>
    { l with up := false, silence := none, intake := [], queue := [], gap := false, heldStart := none, latch := false }

/-- The group ends when its source link is the link that went DOWN (R131). -/
def sourceLost (x : LinkId) (g : GroupId) (s : State) : State :=
  match (s.group g).source with
  | some p => if (s.group g).active ∧ p.link = x then endGroup g .sourceLost s else s
  | none => s

/-- Every trunk slot of a link is FREE (R146). -/
def freeTrunks (x : LinkId) (s : State) : State := s.modLink x fun l => { l with trunks := Vector.replicate 16 .free }

/-- A link goes DOWN (R146). DESIGN CHOICE: the groups whose source it is end in ascending order of group number (log 52). -/
def linkDown (x : LinkId) (s : State) : State :=
  freeTrunks x (forEach (allFin 16) (sourceLost x) (callsLoseLink x (closeLink x s)))

/-! ## The commands -/

/-- FRAME_RECEIVED (R147). -/
def execFrameReceived (x : LinkId) (octets : List Byte) (s : State) : Host.Outcome State Fault Refusal :=
  if s.powered then
    match deframe octets with
    | some f => .next (validFrame x f s)
    | none => .next (badFrame x s)
  else .next s

/-- LOSS_OF_FRAMING (R145): no effect in DOWN. -/
def execLossOfFraming (x : LinkId) (s : State) : Host.Outcome State Fault Refusal :=
  if s.powered && (s.link x).up then .next (finish (linkDown x s)) else .next s

/-- SILENCE_TIMER_EXPIRY (R145). -/
def execSilenceTimerExpiry (x : LinkId) (s : State) : Host.Outcome State Fault Refusal :=
  if s.powered && (s.link x).up then
    match (s.link x).silence with
    | some t => .next (finish (linkDown x (s.reach t)))
    | none => .next s
  else .next s

/-- REPORT_FRAME_SENT (R149): the oldest entry of an UP link leaves its queue; with an empty queue an idle frame is sent. -/
def execReportFrameSent (x : LinkId) (s : State) : Host.Outcome State Fault Refusal :=
  if s.powered then
    match (s.link x).queue with
    | q :: rest => .next (s.modLink x fun l => { l with queue := rest, lastSent := some (enframe (entryFrame q)) })
    | [] => .next (s.modLink x fun l => { l with lastSent := some (enframe idleFrame) })
  else .next s

/-- BAD_REQUEST_FRAME (R148, R157): a malformed frame at the head of the intake buffer is answered BAD REQUEST in every state of
the Store Controller. -/
def execBadRequestFrame (x : LinkId) (tag typ : Byte) (s : State) : Host.Outcome State Fault Refusal :=
  if canTake s x && headMalformed tag typ (s.link x) then .next (respond x tag typ .badRequest .empty (popIntake x s))
  else .next s

end Sys2Proof.Machine
end

