-- ==== Sys2Proof/Machine/CallCommands.lean ====
section
/-! DEFINITION. The requests on calls (R98 to R107, R153) and the expiries of the call timers (R97, R106, R108). -/

namespace Sys2Proof.Machine

/-- How a block answers the request it takes: a result, a body, and the state in which the response is placed (R148). -/
abbrev Responder := Result → ResponseBody → State → State

/-- A request taken from a link, as an outcome. -/
def requested (x : LinkId) (tag : Byte) (r : Request) (act : Responder → State → State) (s : State) :
    Host.Outcome State Fault Refusal := .next (takeRequest x tag r act s)

/-- The link is a party of a record. -/
def isParty (x : LinkId) (k : LiveCall) : Bool := k.parties.any fun p => decide (p.link = x)

/-- A trunk slot is FREE in its link's table (R152). -/
def trunkFree (s : State) (x : LinkId) (t : Trunk) : Bool := decide (nth (s.link x).trunks t = .free)

/-- The range and reference checks of R98, then `act` on the live record. -/
def withCall (index generation : Nat) (answer : Responder) (s : State) (act : CallIdx → LiveCall → State) : State :=
  match refOf index generation with
  | none => answer .outOfRange .empty s
  | some ref =>
    match liveRef s ref with
    | none => answer .noSuchCall .empty s
    | some k => act ref.index k

/-- The range check of a trunk slot and the SLOT BUSY check (R98), then `act` on the slot. -/
def withTrunk (x : LinkId) (slot : Nat) (answer : Responder) (s : State) (act : Trunk → State) : State :=
  match trunkOf slot with
  | none => answer .outOfRange .empty s
  | some t => if trunkFree s x t then act t else answer .slotBusy .empty s

/-- An ANSWER carried out (R98). -/
def acceptAnswer (x : LinkId) (i : CallIdx) (k : LiveCall) (t : Trunk) (s : State) : State :=
  let before := s
  let s := takeTrunk x t (.call (s.refOfRecord i)) s
  let s := withdrawOffers i (.answered x) (k.offered.put x false) s
  let s := s.modCall i fun k =>
    { k with parties := [⟨x, t⟩], timer := none, offered := .empty, state := .connecting, resuming := false }
  settle before (requestOnServing i .connect s)

/-- ANSWER (R98). -/
def execAnswer (x : LinkId) (tag : Byte) (index generation slot : Nat) (s : State) : Host.Outcome State Fault Refusal :=
  requested x tag (.answer index generation slot) (fun answer s =>
    withCall index generation answer s fun i k =>
      if k.state ≠ .offered then answer .taken .empty s
      else if k.offered.has x = false then answer .notOffered .empty s
      else withTrunk x slot answer s fun t => finish (acceptAnswer x i k t (answer .ok .empty s))) s

/-- A second party added to a call (R102). -/
def addParty (x : LinkId) (i : CallIdx) (k : LiveCall) (t : Trunk) (s : State) : State :=
  let s := takeTrunk x t (.call (s.refOfRecord i)) s
  let s := s.modCall i fun k => { k with parties := k.parties ++ [⟨x, t⟩] }
  reportCall i .partyJoined .none false (k.parties.map Party.link) s

/-- JOIN (R102). -/
def execJoin (x : LinkId) (tag : Byte) (index generation slot : Nat) (s : State) : Host.Outcome State Fault Refusal :=
  requested x tag (.join index generation slot) (fun answer s =>
    withCall index generation answer s fun i k =>
      match k.state with
      | .offered => answer .notAParty .empty s
      | .ringing | .clearing => answer .taken .empty s
      | .connecting | .connected | .parked | .lineLost =>
        if isParty x k then answer .alreadyParty .empty s
        else withTrunk x slot answer s fun t => finish (addParty x i k t (answer .ok .empty s))) s

/-- The links of a call's parties other than one. -/
def otherParties (x : LinkId) (k : LiveCall) : List LinkId := (k.parties.map Party.link).filter fun y => decide (y ≠ x)

/-- A party leaves a call of two parties (R103). -/
def leaveCall (x : LinkId) (i : CallIdx) (s : State) : State := reportParties i .partyLeft .leave (removeParty i x s)

/-- A clearing that a party asks for (R104). -/
def clearCall (x : LinkId) (i : CallIdx) (k : LiveCall) (answer : Responder) (s : State) : State :=
  let s := answer .ok .empty s
  finish (settle s (clearing i k (otherParties x k) x s))

/-- LEAVE (R103): from the sole party it is taken as CLEAR. -/
def execLeave (x : LinkId) (tag : Byte) (index generation : Nat) (s : State) : Host.Outcome State Fault Refusal :=
  requested x tag (.leave index generation) (fun answer s =>
    withCall index generation answer s fun i k =>
      if isParty x k then
        if 2 ≤ k.parties.length then finish (leaveCall x i (answer .ok .empty s)) else clearCall x i k answer s
      else answer .notAParty .empty s) s

/-- CLEAR (R104). -/
def execClear (x : LinkId) (tag : Byte) (index generation : Nat) (s : State) : Host.Outcome State Fault Refusal :=
  requested x tag (.clear index generation) (fun answer s =>
    withCall index generation answer s fun i k =>
      match k.state with
      | .offered =>
        if k.offered.has x then finish (dismiss i k x (answer .ok .empty s)) else answer .notAParty .empty s
      | .lineLost =>
        if k.parties = [] then finish (dismiss i k x (answer .ok .empty s))
        else if isParty x k then clearCall x i k answer s
        else answer .notAParty .empty s
      | .ringing | .connecting | .connected | .parked =>
        if isParty x k then clearCall x i k answer s else answer .notAParty .empty s
      | .clearing => answer .notAParty .empty s) s

/-- The record of an outbound call (R107). -/
def outboundCall (s : State) (slot : Slot) (x : LinkId) (t : Trunk) : LiveCall :=
  { slot := slot, direction := .outbound, cls := .p0, state := .ringing, stamp := none, offered := .empty,
    flags := { overflowed := false, dropped := false, upgraded := false, unverified := (s.post slot).unverified },
    parties := [⟨x, t⟩], channel := none, request := none, timer := some (.ring, s.after s.store.site.global.ring),
    deferred := none, resuming := false }

/-- A CALL POST carried out (R107, R125). DESIGN CHOICE: RING joins the placing sequence before an ANNOUNCE END of R125 (log 50). -/
def placeCall (x : LinkId) (i : CallIdx) (slot : Slot) (t : Trunk) (s : State) : State :=
  let s := makeLive i (outboundCall s slot x t) s
  let s := takeTrunk x t (.call (s.refOfRecord i)) s
  memberLeftForCall settle slot (placeCommand slot .ring (setActivity slot .ringing none s))

/-- CALL POST (R107). -/
def execCallPost (x : LinkId) (tag : Byte) (post slot : Nat) (s : State) : Host.Outcome State Fault Refusal :=
  requested x tag (.callPost post slot) (fun answer s =>
    match slotOf post, trunkOf slot with
    | some p, some t =>
      if (s.post p).activity ≠ .idle ∨ (s.callOf p).isSome = true ∨ s.onOverflow p = true then answer .postBusy .empty s
      else if servingEnd s p = none then answer .postUnreachable .empty s
      else
        match s.freeRecord? with
        | none => answer .noRecord .empty s
        | some i =>
          if trunkFree s x t then finish (placeCall x i p t (answer .ok .empty s)) else answer .slotBusy .empty s
    | _, _ => answer .outOfRange .empty s) s

/-! ## QUERY CALLS (R153) -/

/-- The live records that are not OFFERED, in ascending order of index. -/
def otherLive (s : State) : List (CallIdx × LiveCall) :=
  (allFin 48).filterMap fun i => match s.liveCall i with
    | some k => if k.state = .offered then none else some (i, k)
    | none => none

/-- The call listing: the queue, then the other live records (R153). -/
def callListing (s : State) : List (CallIdx × LiveCall) := callQueue s ++ otherLive s

/-- The time to an expiry, in milliseconds. -/
def remaining (s : State) (expiry : Nat) : Nat := expiry - s.now

/-- A call summary (R153). -/
def summaryOf (s : State) (i : CallIdx) (k : LiveCall) : CallSummary :=
  { ref := s.refOfRecord i, slot := k.slot, direction := k.direction, cls := k.cls, state := k.state, flags := k.flags,
    rank := queueRank s i, stamp := k.stamp, offered := k.offered, parties := k.parties, channel := k.channel,
    request := k.request, timer := k.timer.map fun t => (t.1, remaining s t.2) }

/-- The body of a QUERY CALLS response (R153). -/
def callsBody (s : State) (start : Nat) : ResponseBody :=
  .calls (callListing s).length (callQueue s).length s.calls.overflow.length start
    ((((callListing s).drop start).take Config.summariesListed).map fun p => summaryOf s p.1 p.2)

/-- QUERY CALLS (R153). -/
def execQueryCalls (x : LinkId) (tag : Byte) (start : Nat) (s : State) : Host.Outcome State Fault Refusal :=
  requested x tag (.queryCalls start) (fun answer s => answer .ok (callsBody s start) s) s

/-! ## Expiries -/

/-- The expiry of a record's timer when it runs and is of the kind. -/
def timerOf (s : State) (i : CallIdx) (kind : TimerKind) : Option (LiveCall × Nat) :=
  match s.liveCall i with
  | some k => match k.timer with
    | some (kd, t) => if kd = kind then some (k, t) else none
    | none => none
  | none => none

/-- OVERFLOW_TIMER_EXPIRY (R97). -/
def execOverflowTimerExpiry (i : CallIdx) (s : State) : Host.Outcome State Fault Refusal :=
  match s.powered, timerOf s i .overflow with
  | true, some (_, t) =>
    .next (offer i ((s.reach t).modCall i fun k => { k with timer := none, flags := { k.flags with overflowed := true } }))
  | _, _ => .next s

/-- RING_TIMER_EXPIRY (R108, R110). -/
def execRingTimerExpiry (i : CallIdx) (s : State) : Host.Outcome State Fault Refusal :=
  match s.powered, timerOf s i .ring with
  | true, some (k, t) => .next (finish (ringExpires i k (s.reach t)))
  | _, _ => .next s

/-- CLEAR_CONFIRM_TIMER_EXPIRY (R106). -/
def execClearConfirmTimerExpiry (i : CallIdx) (s : State) : Host.Outcome State Fault Refusal :=
  match s.powered, timerOf s i .clearConfirm with
  | true, some (_, t) => .next (finish (freeRecord i (s.reach t)))
  | _, _ => .next s

end Sys2Proof.Machine
end

