-- ==== Sys2Proof/Machine/GroupCommands.lean ====
section
/-! DEFINITION. The requests on announcements (R117, R118, R130, R132) and the expiries of the acknowledge timer (R123, R124).
GROUP EDIT is with the store's writes. -/

namespace Sys2Proof.Machine

/-- A member's outcome at START, the first that applies (R118). -/
def startOutcome (s : State) (g : GroupId) (i : Slot) : MemberOutcome :=
  if (s.entry i).place.present = false then .skippedAbsent
  else if (s.callOf i).isSome || s.onOverflow i then .skippedInCall
  else if (allFin 16).any (fun h => decide (h ≠ g) && takingPart s h i) then .skippedBusy
  else if servingEnd s i = none then .unreachable
  else .pending .awaiting

/-- The member outcome records made at START (R118). -/
def startMembers (s : State) (g : GroupId) : List Member :=
  (s.membership g).map fun i =>
    { slot := i, outcome := startOutcome s g i, leaving := false }

/-- The runtime record of a group after steps 1 to 3 of R118. -/
def startedGroup (s : State) (g : GroupId) (x : LinkId) (t : Trunk) : GroupRun :=
  { active := true, source := some ⟨x, t⟩, start := some s.startTime, readySent := false,
    timer := some (.window, s.after s.store.site.global.acknowledge), held := [], waiting := [], members := startMembers s g,
    reason := none }

/-- Step 4 of R118 for one end. -/
def requestIfServing (g : GroupId) (e : EndId) (s : State) : State :=
  if membersOn s g e isPending = [] then s else requestForGroup g e s

/-- A START carried out (R118). -/
def startGroup (g : GroupId) (x : LinkId) (t : Trunk) (s : State) : State :=
  let before := s.modGroup g fun _ => .powerOn
  let s := takeTrunk x t (.announce g) (s.modGroup g fun _ => startedGroup s g x t)
  let unreachable := (memberSlots s g).filter fun i => decide (outcomeOf s g i = some .unreachable)
  settle before (forEach unreachable (reportMember g none) (forEach allEnds (requestIfServing g) s))

/-- ANNOUNCE START (R117, R118). -/
def execAnnounceStart (x : LinkId) (tag : Byte) (group slot : Nat) (s : State) : Host.Outcome State Fault Refusal :=
  requested x tag (.announceStart group slot) (fun answer s =>
    match groupOf group with
    | none => answer .outOfRange .empty s
    | some g =>
      if (s.group g).active then answer .groupActive .empty s
      else if s.membership g = [] then answer .groupEmpty .empty s
      else withTrunk x slot answer s fun t => finish (startGroup g x t (answer .ok .empty s))) s

/-- ANNOUNCE STOP (R130), from either link. -/
def execAnnounceStop (x : LinkId) (tag : Byte) (group : Nat) (s : State) : Host.Outcome State Fault Refusal :=
  requested x tag (.announceStop group) (fun answer s =>
    match groupOf group with
    | none => answer .outOfRange .empty s
    | some g =>
      if (s.group g).active then finish (endGroup g (.stopped x) (answer .ok .empty s)) else answer .groupIdle .empty s) s

/-- A record of the GROUP RESULT list: the end concerned of a PENDING member (R132). -/
def resultRecord (s : State) (m : Member) : ResultRecord :=
  { slot := m.slot, outcome := m.outcome, endId := if isPending m.outcome then servingEnd s m.slot else none }

/-- The body of a GROUP RESULT response (R132). -/
def groupBody (s : State) (g : GroupId) (first : Nat) : ResponseBody :=
  let r := s.group g
  .group g r.active r.source r.start r.readySent r.reason r.members.length (countOutcomes r.members) first
    (((r.members.drop first).take Config.recordsListed).map (resultRecord s))

/-- GROUP RESULT (R132). -/
def execGroupResult (x : LinkId) (tag : Byte) (group first : Nat) (s : State) : Host.Outcome State Fault Refusal :=
  requested x tag (.groupResult group first) (fun answer s =>
    match groupOf group with
    | none => answer .outOfRange .empty s
    | some g => answer .ok (groupBody s g first) s) s

/-- The expiry of a group's acknowledge timer when it runs in the phase. -/
def ackExpiry (s : State) (g : GroupId) (phase : AckPhase) : Option Nat :=
  match (s.group g).timer with
  | some (p, t) => if p = phase then some t else none
  | none => none

/-- ACKNOWLEDGE_WINDOW_EXPIRY (R123). -/
def execAcknowledgeWindowExpiry (g : GroupId) (s : State) : Host.Outcome State Fault Refusal :=
  match s.powered, ackExpiry s g .window with
  | true, some t => .next (finish (windowExpires g (s.reach t)))
  | _, _ => .next s

/-- ACKNOWLEDGE_LATE_EXPIRY (R124). -/
def execAcknowledgeLateExpiry (g : GroupId) (s : State) : Host.Outcome State Fault Refusal :=
  match s.powered, ackExpiry s g .late with
  | true, some t => .next (finish (lateExpires g (s.reach t)))
  | _, _ => .next s

end Sys2Proof.Machine
end

