-- ==== Sys2Proof/Machine/EndCommands.lean ====
section
/-! DEFINITION. The requests on ends and posts: END SERVICE, LINE TEST (R62 to R64), LINE STATS, POST TEST, POST TEST STOP
(R135, R137, R141), QUERY POST and QUERY END (R154, R155). -/

namespace Sys2Proof.Machine

/-- The range check of an end code (R158), then `act` on the end. -/
def withEnd (code : Nat) (answer : Responder) (s : State) (act : EndId → State) : State :=
  match endOf code with
  | none => answer .outOfRange .empty s
  | some e => act e

/-- END SERVICE OFF carried out (R63). -/
def endOff (e : EndId) (s : State) : State :=
  let before := s
  let s := (clearTimers e s).modEnd e fun r => { r with measurement := .none, suppressed := none }
  let s := abortEnd e .endOff (changeEnd e .off .none .serviceOff s)
  let s := assignSegment e.seg (stopEnd e s)
  isolationAlarms before (reportEndState e s)

/-- END SERVICE (R63, R64). -/
def endService (code setting : Nat) (answer : Responder) (s : State) : State :=
  withEnd code answer s fun e =>
    match flagOf setting with
    | none => answer .outOfRange .empty s
    | some false =>
      match (s.endRec e).state with
      | .serving | .testing | .faulted => finish (endOff e (answer .ok .empty s))
      | .off | .unfitted => answer .wrongEndState .empty s
    | some true =>
      match (s.endRec e).state with
      | .off => finish (goTesting e .serviceOn (answer .ok .empty s))
      | .serving | .testing | .faulted | .unfitted => answer .wrongEndState .empty s

/-- END SERVICE OFF (R63), with a setting above 1 refused OUT OF RANGE. -/
def execEndServiceOff (x : LinkId) (tag : Byte) (endCode setting : Nat) (s : State) : Host.Outcome State Fault Refusal :=
  requested x tag (.endService endCode setting) (endService endCode setting) s

/-- END SERVICE ON (R64). -/
def execEndServiceOn (x : LinkId) (tag : Byte) (endCode : Nat) (s : State) : Host.Outcome State Fault Refusal :=
  requested x tag (.endService endCode 1) (endService endCode 1) s

/-- LINE TEST (R62). -/
def execLineTest (x : LinkId) (tag : Byte) (endCode : Nat) (s : State) : Host.Outcome State Fault Refusal :=
  requested x tag (.lineTest endCode) (fun answer s =>
    withEnd endCode answer s fun e =>
      match (s.endRec e).state with
      | .faulted | .off => finish (goTesting e .lineTest (answer .ok .empty s))
      | .serving | .testing | .unfitted => answer .wrongEndState .empty s) s

/-- LINE STATS (R135): the snapshot, then the clearing. -/
def execLineStats (x : LinkId) (tag : Byte) (endCode clearFlag : Nat) (s : State) : Host.Outcome State Fault Refusal :=
  requested x tag (.lineStats endCode clearFlag) (fun answer s =>
    withEnd endCode answer s fun e =>
      let s := answer .ok (.stats e (s.counters e) (s.burst e)) s
      if clearFlagOf clearFlag then s.modCounters e fun _ => .zero else s) s

/-- The record of a burst that starts (R137). -/
def newBurst (x : LinkId) (tag : Byte) (i : Slot) (count : Nat) (p : Pattern) : Burst :=
  { target := i, requester := x, tag := tag, count := count, pattern := p, frameNumber := 0, last := .poll, sent := 0,
    echoedGood := 0, echoedBad := 0, noEcho := 0 }

/-- A burst runs on an end. -/
def burstRuns (s : State) (e : EndId) : Bool :=
  match s.burst e with
  | .running _ => true
  | .none => false
  | .ended _ _ => false

/-- POST TEST (R137). -/
def execPostTest (x : LinkId) (tag : Byte) (post count pattern : Nat) (s : State) : Host.Outcome State Fault Refusal :=
  requested x tag (.postTest post count pattern) (fun answer s =>
    match slotOf post, patternOf pattern with
    | some i, some p =>
      match servingEnd s i with
      | none => answer .postBusy .empty s
      | some e =>
        if (s.post i).reply ≠ .answering ∨ (s.post i).activity ≠ .idle then answer .postBusy .empty s
        else if (s.endRec e).state ≠ .serving then answer .wrongEndState .empty s
        else if burstRuns s e then answer .testBusy .empty s
        else
          let s := (answer .ok .empty s).modBurst e fun _ => .running (newBurst x tag i count p)
          finish (setActivity i .tested none s)
    | _, _ => answer .outOfRange .empty s) s

/-- POST TEST STOP (R141), from either link. -/
def execPostTestStop (x : LinkId) (tag : Byte) (endCode : Nat) (s : State) : Host.Outcome State Fault Refusal :=
  requested x tag (.postTestStop endCode) (fun answer s =>
    withEnd endCode answer s fun e =>
      finish (endBurst e (.stopped x) (answer .ok (.burstRunning (burstRuns s e)) s))) s

/-! ## Queries -/

/-- The rank of a post on the overflow list, 1 being the head, 0 when it has no entry (R154). -/
def overflowRank (s : State) (i : Slot) : Nat := placeIn i (s.calls.overflow.map OverflowEntry.slot)

/-- The ACTIVE group in which a post is PENDING or HEARING, with its outcome (R154; at most one, R125; log 37). -/
def groupTakenPart (s : State) (i : Slot) : Option (GroupId × MemberOutcome) :=
  (allFin 16).findSome? fun g => if takingPart s g i then (outcomeOf s g i).map fun o => (g, o) else none

/-- The live call record of a post, with its state (R154). -/
def callView (s : State) (i : Slot) : Option (CallRef × CallState) :=
  match s.callOf i with
  | some c => (s.callState c).map fun st => (s.refOfRecord c, st)
  | none => none

/-- The body of a QUERY POST response (R154). -/
def postView (s : State) (i : Slot) : PostView :=
  { name := nameBlock s i, row := s.post i, call := callView s i, overflowRank := overflowRank s i, group := groupTakenPart s i,
    target := burstTarget s i, commands := (entriesOf s i).length, commandsEnd := listHolding s i }

/-- QUERY POST (R154). -/
def execQueryPost (x : LinkId) (tag : Byte) (post : Nat) (s : State) : Host.Outcome State Fault Refusal :=
  requested x tag (.queryPost post) (fun answer s =>
    match slotOf post with
    | none => answer .outOfRange .empty s
    | some i => answer .ok (.post (postView s i)) s) s

/-- The body of a QUERY END response (R155). -/
def endView (s : State) (e : EndId) : EndView :=
  let r := s.endRec e
  { state := endStateOf s e, measurement := r.measurement, busyCount := r.busyCount,
    retryRemaining := r.retryWait.map (remaining s), retestRemaining := r.retest.map (remaining s), mode := portMode s e,
    reading := (s.port e).reading, scanPosition := r.scanPosition, commands := r.commands.length,
    channels := (s.chan e).channels, waiting := (s.chan e).waiting, preempted := (s.chan e).preempted.map Prod.fst }

/-- QUERY END (R155). -/
def execQueryEnd (x : LinkId) (tag : Byte) (endCode : Nat) (s : State) : Host.Outcome State Fault Refusal :=
  requested x tag (.queryEnd endCode) (fun answer s =>
    withEnd endCode answer s fun e => answer .ok (.endRecord (endView s e)) s) s

end Sys2Proof.Machine
end

