-- ==== Sys2Proof/Machine/StoreCommands.lean ====
section
/-! DEFINITION. The requests on the store: the checks of R19 with those of R2, R3, R7, R9, R11 and R24, the latches (R23), and
DIRECTORY READ (R5). -/

namespace Sys2Proof.Machine

/-- The state of the Store Controller is BUSY (R18). -/
def storeBusy (s : State) : Bool :=
  match s.store.state with
  | .busy _ => true
  | .ready => false
  | .starting => false

/-- The operation record is filled and the Store Controller goes BUSY (R20). -/
def beginWrite (w : StoreWrite) (x : LinkId) (tag : Byte) (s : State) : State :=
  s.setStore { s.store with state := .busy { write := w, writer := x, tag := tag } }

/-- An accepted write: the OK response with its body, then BUSY (R20). -/
def acceptWrite (w : StoreWrite) (x : LinkId) (tag : Byte) (body : ResponseBody) (answer : Responder) (s : State) : State :=
  beginWrite w x tag (answer .ok body s)

/-- Steps 2 and 3 of R19 for a write that needs the latches to be set, then `act`. -/
def checkWrite (latched : Bool) (answer : Responder) (s : State) (act : State) : State :=
  if latched = false then answer .writeDisabled .empty s
  else if storeBusy s then answer .storeBusy .empty s
  else act

/-! ## NAME -/

/-- The NAME form that a request writes, or the result that refuses it (R2). -/
def nameForm (f : RawName) : Except Result NameForm :=
  if f.labelLength = 0 ∨ 12 < f.labelLength then .error .badRequest
  else
    match postKindOf f.kind, carriagewayOf f.carriageway, roadSideOf f.side, markerOf f.marker with
    | some k, some c, some d, some m =>
      .ok { label := storedLabel f.labelLength f.label, kind := k, carriageway := c, side := d, marker := m }
    | _, _, _, _ => .error .outOfRange

/-- DIRECTORY WRITE NAME (R2). -/
def execDirectoryWriteName (x : LinkId) (tag : Byte) (post : Nat) (fields : RawName) (s : State) :
    Host.Outcome State Fault Refusal :=
  requested x tag (.writeName post fields) (fun answer s =>
    checkWrite (s.link x).latch answer s
      (match nameForm fields, slotOf post with
       | .error r, _ => answer r .empty s
       | .ok _, none => answer .outOfRange .empty s
       | .ok n, some i => acceptWrite (.name i { s.entry i with name := n }) x tag (.label n.label) answer s)) s

/-! ## PLACE -/

/-- The PLACE form that a request writes, or none where step 1 of R3 refuses it. With present no the stored fields are kept. -/
def placeForm (s : State) (i : Slot) (f : RawPlace) : Option PlaceForm :=
  match flagOf f.present with
  | none => none
  | some false => some { (s.entry i).place with present := false }
  | some true =>
    match segOf f.seg with
    | none => none
    | some seg =>
      if 1 ≤ f.serial ∧ f.serial ≤ Config.serialTop ∧ 1 ≤ f.position ∧ f.position + 1 ≤ (s.segment seg).cableLength then
        some { present := true, seg := seg, position := f.position, serial := f.serial }
      else none

/-- Another present entry of the segment has the position, or another present entry anywhere has the serial (R3). -/
def duplicate (s : State) (i : Slot) (p : PlaceForm) : Bool :=
  (allFin 256).any fun j =>
    let q := (s.entry j).place
    decide (j ≠ i) && q.present && ((decide (q.seg = p.seg) && decide (q.position = p.position)) || decide (q.serial = p.serial))

/-- The segment has 32 present entries other than the one written (R3). -/
def segmentFull (s : State) (i : Slot) (p : PlaceForm) : Bool :=
  decide (Config.postsPerSegment ≤ ((presentOn s p.seg).filter fun j => decide (j ≠ i)).length)

/-- DIRECTORY WRITE PLACE (R3). -/
def execDirectoryWritePlace (x : LinkId) (tag : Byte) (post : Nat) (fields : RawPlace) (s : State) :
    Host.Outcome State Fault Refusal :=
  requested x tag (.writePlace post fields) (fun answer s =>
    checkWrite (s.link x).latch answer s
      (match slotOf post with
       | none => answer .outOfRange .empty s
       | some i =>
         match placeForm s i fields with
         | none => answer .outOfRange .empty s
         | some p =>
           if postInUse s i then answer .inUse .empty s
           else if p.present && duplicate s i p then answer .duplicate .empty s
           else if p.present && segmentFull s i p then answer .segmentFull .empty s
           else acceptWrite (.place i { s.entry i with place := p }) x tag .empty answer s)) s

/-! ## SITE WRITE, segment -/

/-- The segment record that a request writes, with clamped values, or none where a field is refused (R6). -/
def segmentForm (f : RawSegment) : Option SegRecord :=
  match flagOf f.fitted, directionOf f.direction, linkOf f.homeLink with
  | some fitted, some direction, some home =>
    if 100 ≤ f.cableLength ∧ f.cableLength ≤ 12000 ∧ f.feederA ≤ 2000 ∧ f.feederB ≤ 2000 ∧ f.anchor ≤ Config.chainageTop
        ∧ f.route ≤ 4095 then
      some { fitted := fitted, cableLength := f.cableLength, feederA := f.feederA, feederB := f.feederB,
             speed := clamp 120 240 f.speed, layRatio := clamp 1000 1300 f.layRatio, anchor := f.anchor,
             direction := direction, split := clamp 0 f.cableLength f.split, homeLink := home, route := f.route }
    else none
  | _, _, _ => none

/-- Every present entry of the segment stands below the cable length (R7). -/
def cableReaches (s : State) (seg : SegId) (length : Nat) : Bool :=
  (presentOn s seg).all fun i => decide ((s.entry i).place.position < length)

/-- The uses of a segment that refuse a segment write IN USE (R7). -/
def segmentInUse (s : State) (seg : SegId) : Bool :=
  (presentOn s seg).any (postInUse s)
    || (endsOf seg).any fun e => holdsChannel s e || decide ((s.endRec e).state = .testing)

/-- SITE WRITE of a segment (R7). -/
def execSiteWriteSegment (x : LinkId) (tag : Byte) (seg : Nat) (fields : RawSegment) (s : State) :
    Host.Outcome State Fault Refusal :=
  requested x tag (.writeSegment seg fields) (fun answer s =>
    checkWrite (s.link x).latch answer s
      (match segOf seg, segmentForm fields with
       | some g, some r =>
         if cableReaches s g r.cableLength = false then answer .outOfRange .empty s
         else if segmentInUse s g then answer .inUse .empty s
         else acceptWrite (.segment g r) x tag (.segment g r) answer s
       | _, _ => answer .outOfRange .empty s)) s

/-! ## SITE WRITE, global -/

/-- The global record that a request writes, every value clamped (R9). -/
def globalForm (f : RawGlobal) : GlobalRecord :=
  { offerOverflow := clamp 5 60 f.offerOverflow, threshold := clamp 2 8 f.threshold, ring := clamp 10 120 f.ring,
    acknowledge := clamp 1 10 f.acknowledge, silence := clamp 1 10 f.silence, retest := clamp 10 600 f.retest }

/-- SITE WRITE of the global record (R9). -/
def execSiteWriteGlobal (x : LinkId) (tag : Byte) (fields : RawGlobal) (s : State) : Host.Outcome State Fault Refusal :=
  requested x tag (.writeGlobal fields) (fun answer s =>
    checkWrite (s.link x).latch answer s
      (acceptWrite (.global (globalForm fields)) x tag (.global (globalForm fields)) answer s)) s

/-! ## GROUP EDIT -/

/-- The membership after an edit, in ascending order of slot: operation 0 adds the listed slots, any other removes them (R11). -/
def editedMembers (old : List Slot) (operation : Nat) (slots : List Nat) : List Slot :=
  (allFin 256).filter fun i =>
    if operation = 0 then old.contains i || slots.contains i.val else old.contains i && !slots.contains i.val

/-- GROUP EDIT (R11). -/
def execGroupEdit (x : LinkId) (tag : Byte) (group operation : Nat) (slots : List Nat) (s : State) :
    Host.Outcome State Fault Refusal :=
  requested x tag (.groupEdit group operation slots) (fun answer s =>
    checkWrite (s.link x).latch answer s
      (match groupOf group with
       | none => answer .outOfRange .empty s
       | some g =>
         if (s.group g).active then answer .groupActive .empty s
         else
           let m := editedMembers (s.membership g) operation slots
           acceptWrite (.group g m) x tag (.memberCount m.length) answer s)) s

/-! ## STORE ERASE -/

/-- A live call record or an ACTIVE group (R24). -/
def deviceInUse (s : State) : Bool :=
  (allFin 48).any (fun i => (s.liveCall i).isSome) || (allFin 16).any fun g => (s.group g).active

/-- STORE ERASE (R19, R24): both latches must be set. -/
def execStoreErase (x : LinkId) (tag : Byte) (scope : Nat) (s : State) : Host.Outcome State Fault Refusal :=
  requested x tag (.storeErase scope) (fun answer s =>
    checkWrite (s.linkA.latch && s.linkB.latch) answer s
      (match scopeOf scope with
       | none => answer .outOfRange .empty s
       | some c =>
         if deviceInUse s then answer .inUse .empty s else acceptWrite (.erase c) x tag .empty answer s)) s

/-! ## The latches (R23) -/

def setLatch (x : LinkId) (b : Bool) (s : State) : State := s.modLink x fun l => { l with latch := b }

/-- WRITE ENABLE (R23). -/
def execWriteEnable (x : LinkId) (tag : Byte) (s : State) : Host.Outcome State Fault Refusal :=
  requested x tag .writeEnable (fun answer s => setLatch x true (answer .ok .empty s)) s

/-- WRITE DISABLE (R23). -/
def execWriteDisable (x : LinkId) (tag : Byte) (s : State) : Host.Outcome State Fault Refusal :=
  requested x tag .writeDisable (fun answer s => setLatch x false (answer .ok .empty s)) s

/-! ## DIRECTORY READ (R5) -/

/-- A record is on the damaged list (R27). -/
def isDamaged (s : State) (r : RecordId) : Bool := s.store.damaged.contains r

/-- The record that a DIRECTORY READ selects, or none for an index or kind outside its range (R5, R158). -/
def readBody (s : State) (kind index first : Nat) : Option ResponseBody :=
  match kind with
  | 0 => (slotOf index).map fun i => .readEntry i (isDamaged s (.entry i)) (s.entry i)
  | 1 => (segOf index).map fun g => .readSegment g (isDamaged s (.segment g)) (s.segment g)
  | 2 => some (.readGlobal (isDamaged s .global) s.store.site.global)
  | 3 => (groupOf index).map fun g =>
      let m := s.membership g
      .readGroup g (isDamaged s (.group g)) m.length first ((m.drop first).take Config.recordsListed)
  | _ => none

/-- DIRECTORY READ (R5). -/
def execDirectoryRead (x : LinkId) (tag : Byte) (kind index first : Nat) (s : State) : Host.Outcome State Fault Refusal :=
  requested x tag (.directoryRead kind index first) (fun answer s =>
    match readBody s kind index first with
    | some b => answer .ok b s
    | none => answer .outOfRange .empty s) s

end Sys2Proof.Machine
end

