-- ==== Sys2Proof/Machine/Completions.lean ====
section
/-! DEFINITION. The completions of the store's operations (R22) with their effects: R4 for PLACE, R8 for a segment, R10 for the
global record, R12 for a group, R25 for an erase. -/

namespace Sys2Proof.Machine

/-! ## What every completion does -/

/-- STORE DONE to the writing link and DIRECTORY CHANGED to the other (R22). -/
def reportWritten (o : StoreOperation) (s : State) : State :=
  report (otherLink o.writer) (.directoryChanged o.write.named) (report o.writer (.storeDone o.tag o.write.named) s)

/-- The operation record is emptied and the Store Controller goes READY (R22). -/
def storeReady (s : State) : State := s.setStore { s.store with state := .ready }

/-- The stored record that a write programs becomes valid (R22, R27). -/
def setCell {α : Type} {n : Nat} (t : Vector (Cell α) n) (i : Fin n) (content : α) : Vector (Cell α) n :=
  modNth t i fun _ => .valid content

/-- The damaged marks of the records written are cleared (R22). -/
def clearMarks (p : RecordId → Bool) (s : State) : State :=
  s.setStore { s.store with damaged := s.store.damaged.filter fun r => !p r }

/-- An entry of either form takes its new content, in the store and in the working copy (R22). -/
def writeEntry (i : Slot) (content : DirEntry) (s : State) : State :=
  clearMarks (· == .entry i) <| s.setStore
    { s.store with stored := { s.store.stored with entries := setCell s.store.stored.entries i content },
                   site := { s.store.site with entries := modNth s.store.site.entries i fun _ => content } }

/-- A segment record takes its new content. -/
def writeSegment (seg : SegId) (content : SegRecord) (s : State) : State :=
  clearMarks (· == .segment seg) <| s.setStore
    { s.store with stored := { s.store.stored with segments := setCell s.store.stored.segments seg content },
                   site := { s.store.site with segments := modNth s.store.site.segments seg fun _ => content } }

/-- The global record takes its new content. -/
def writeGlobal (content : GlobalRecord) (s : State) : State :=
  clearMarks (· == .global) <| s.setStore
    { s.store with stored := { s.store.stored with global := .valid content }, site := { s.store.site with global := content } }

/-- A group takes its new membership. -/
def writeGroup (g : GroupId) (members : List Slot) (s : State) : State :=
  clearMarks (· == .group g) <| s.setStore
    { s.store with stored := { s.store.stored with groups := setCell s.store.stored.groups g members },
                   site := { s.store.site with groups := modNth s.store.site.groups g fun _ => members } }

/-! ## Timers whose condition has gone -/

/-- The overflow timer of an OFFERED call stops when its home link is no longer in its offered set (R97; log 30). -/
def fixOverflowTimer (i : CallIdx) (s : State) : State :=
  match s.liveCall i with
  | some k =>
    if k.state = .offered ∧ k.offered.has (homeLinkOf s k.slot) = false then
      s.modCall i fun k => { k with timer := stopOverflowTimer k.timer }
    else s
  | none => s

def fixOverflowTimers (s : State) : State := forEach (allFin 48) fixOverflowTimer s

/-! ## PLACE (R4) -/

/-- The segments that a PLACE completion touches: the old one, if the entry was present, and the new one, if it is (R4). -/
def touchedSegments (old new : PlaceForm) : List SegId :=
  let l := if old.present then [old.seg] else []
  if new.present && !l.contains new.seg then l ++ [new.seg] else l

/-- The placed post's row, set afresh (R4, R46). -/
def placedRow (i : Slot) (r : PostReach) (s : State) : State :=
  (setReach i r s).modPost i fun row => { row with hook := .on, button := .none }

/-- What the new place means for the post's call, commands, burst and memberships (R4). -/
def placeEffects (i : Slot) (old : PostRow) (s : State) : State :=
  let new := (s.post i).reach
  if new = old.reach then
    match new with
    | .served _ =>
      if (s.post i).hop = old.hop then s else callHopMoved i (abortTarget i .postMoved s)
    | .unserved => s
    | .isolated => s
  else reachEffects i old.reach new s

/-- The effects of a PLACE completion (R4). -/
def placed (i : Slot) (oldPlace : PlaceForm) (oldRow : PostRow) (s : State) : State :=
  let before := s
  let segs := touchedSegments oldPlace (s.entry i).place
  let s := forEach segs rebuild s
  let s := placedRow i (assignedReach s i) s
  let s := settle before (forEach segs fixSegment (placeEffects i oldRow s))
  isolationAlarms before (fixOverflowTimers s)

/-! ## Segment (R8) -/

/-- The state of an end after a segment write (R8). -/
def segmentEnd (fitted : Bool) (st : EndState) : EndState × EndReach :=
  match fitted, st with
  | false, _ => (.unfitted, .none)
  | true, .off => (.off, .none)
  | true, .unfitted => (.serving, .full)
  | true, .serving => (.serving, .full)
  | true, .testing => (.serving, .full)
  | true, .faulted => (.serving, .full)

/-- What a segment write or an erase of scope ALL clears in an end record (R8, R25). -/
def clearEnd (e : EndId) (s : State) : State :=
  (clearTimers e s).modEnd e fun r => { r with fault := none, suppressed := none, measurement := .none }

/-- The command list of an end is emptied (R8, R38). -/
def emptyCommands (e : EndId) (s : State) : State := s.modEnd e fun r => { r with commands := [] }

/-- An end of the written segment takes its state (R8, R142). An end UNFITTED before and after has not changed state (R155). -/
def rewriteEnd (fitted : Bool) (e : EndId) (s : State) : State :=
  let st := segmentEnd fitted (s.endRec e).state
  let s := if (s.endRec e).state = .unfitted ∧ st.1 = .unfitted then s else changeEnd e st.1 st.2 .segmentWrite s
  let s := clearEnd e s
  match st.1 with
  | .serving => abortEnd e .segmentWrite (s.modEnd e fun r => { r with scanPosition := 0 })
  | .unfitted => stopEnd e (abortEnd e .endUnfitted s)
  | .testing => s
  | .faulted => s
  | .off => s

/-- END STATE for an end that is not UNFITTED both before and after (R8). -/
def reportRewritten (before : State) (e : EndId) (s : State) : State :=
  if (before.endRec e).state = .unfitted ∧ (s.endRec e).state = .unfitted then s else reportEndState e s

/-- The effects of a segment completion (R8). DESIGN CHOICE: the A end takes its state, has its burst ended, stops serving by R82
and is reported END STATE before the B end (log 56). -/
def segmentWritten (seg : SegId) (s : State) : State :=
  let before := s
  let fitted := (s.segment seg).fitted
  let s := forEach (endsOf seg) (rewriteEnd fitted) s
  let s := assignSegment seg (rebuild seg s)
  let s := if fitted then s else forEach (endsOf seg) emptyCommands s
  let s := forEach (endsOf seg) (reportRewritten before) s
  isolationAlarms before (fixOverflowTimers s)

/-! ## Global record (R10) -/

/-- A failure count above the new threshold takes its value (R10). -/
def lowerCounts (s : State) : State :=
  s.onLine fun l => { l with posts := l.posts.map fun r => { r with failures := min r.failures s.store.site.global.threshold } }

/-! ## Erase (R25) -/

/-- The working copy and the stored records after an erase (R24, R25). -/
def erasedStore (c : EraseScope) (b : StoreBlock) : StoreBlock :=
  let entries := Vector.replicate 256 DirEntry.blank
  let groups := Vector.replicate 16 ([] : List Slot)
  match c with
  | .directory =>
    { b with stored := { b.stored with entries := entries.map .valid }, site := { b.site with entries := entries } }
  | .groups =>
    { b with stored := { b.stored with groups := groups.map .valid }, site := { b.site with groups := groups } }
  | .all =>
    { b with stored := { entries := entries.map .valid, segments := (Vector.replicate 8 SegRecord.blank).map .valid,
                         global := .valid .default, groups := groups.map .valid },
             site := .blank }

/-- The records of a scope (R24). -/
def inScope (c : EraseScope) (r : RecordId) : Bool :=
  match c, r with
  | .directory, .entry _ => true
  | .directory, _ => false
  | .groups, .group _ => true
  | .groups, _ => false
  | .all, _ => true

/-- Every post becomes UNSERVED and every hop map is empty (R25). -/
def directoryErased (s : State) : State :=
  let s := s.onLine fun l => { l with hopMaps := Vector.replicate 8 [] }
  settle s (forEach (allFin 8) fixSegment (forEach (allFin 256) reassign s))

/-- An end goes UNFITTED by an erase (R25). -/
def eraseEnd (e : EndId) (s : State) : State :=
  if (s.endRec e).state = .unfitted then s
  else stopEnd e (abortEnd e .endUnfitted (clearEnd e (changeEnd e .unfitted .none .erase s)))

/-- The bursts running on any post end ABORTED with the reason POST UNSERVED (R25, R142). DESIGN CHOICE: in ascending order of end
(log 32). -/
def abortAll (s : State) : State := forEach allEnds (fun e s => abortEnd e .postUnserved s) s

/-- END STATE for an end that the erase has made UNFITTED (R25). -/
def reportErased (before : State) (e : EndId) (s : State) : State :=
  if (before.endRec e).state = .unfitted then s else reportEndState e s

/-- The effects of an erase completion (R25). -/
def erased (c : EraseScope) (s : State) : State :=
  match c with
  | .groups => s
  | .directory => directoryErased (abortAll s)
  | .all =>
    let before := s
    let s := forEach allEnds eraseEnd (abortAll s)
    let s := forEach allEnds emptyCommands (directoryErased s)
    lowerCounts (fixOverflowTimers (forEach allEnds (reportErased before) s))

/-! ## The commands -/

/-- NAME_WRITE_COMPLETION (R22, R2): the new content itself is the only effect. -/
def execNameWriteCompletion (s : State) : Host.Outcome State Fault Refusal :=
  match s.powered, s.store.state with
  | true, .busy o =>
    match o.write with
    | .name i content => .next (storeReady (reportWritten o (writeEntry i content s)))
    | _ => .next s
  | _, _ => .next s

/-- PLACE_COMPLETION (R22, R4). -/
def execPlaceCompletion (s : State) : Host.Outcome State Fault Refusal :=
  match s.powered, s.store.state with
  | true, .busy o =>
    match o.write with
    | .place i content =>
      .next (finish (storeReady (placed i (s.entry i).place (s.post i) (reportWritten o (writeEntry i content s)))))
    | _ => .next s
  | _, _ => .next s

/-- SEGMENT_WRITE_COMPLETION (R22, R8). -/
def execSegmentWriteCompletion (s : State) : Host.Outcome State Fault Refusal :=
  match s.powered, s.store.state with
  | true, .busy o =>
    match o.write with
    | .segment seg content =>
      .next (finish (storeReady (segmentWritten seg (reportWritten o (writeSegment seg content s)))))
    | _ => .next s
  | _, _ => .next s

/-- GLOBAL_WRITE_COMPLETION (R22, R10). -/
def execGlobalWriteCompletion (s : State) : Host.Outcome State Fault Refusal :=
  match s.powered, s.store.state with
  | true, .busy o =>
    match o.write with
    | .global content => .next (storeReady (lowerCounts (reportWritten o (writeGlobal content s))))
    | _ => .next s
  | _, _ => .next s

/-- GROUP_EDIT_COMPLETION (R22, R12): an ACTIVE group's outcomes and channels stay as they are. -/
def execGroupEditCompletion (s : State) : Host.Outcome State Fault Refusal :=
  match s.powered, s.store.state with
  | true, .busy o =>
    match o.write with
    | .group g members => .next (storeReady (reportWritten o (writeGroup g members s)))
    | _ => .next s
  | _, _ => .next s

/-- ERASE_COMPLETION (R22, R25). -/
def execEraseCompletion (s : State) : Host.Outcome State Fault Refusal :=
  match s.powered, s.store.state with
  | true, .busy o =>
    match o.write with
    | .erase c =>
      let s := clearMarks (inScope c) (s.setStore (erasedStore c s.store))
      .next (finish (storeReady (erased c (reportWritten o s))))
    | _ => .next s
  | _, _ => .next s

end Sys2Proof.Machine
end

