-- ==== Sys2Proof/WellFormed.lean ====
section
/-! DEFINITION. Which commands can be sent: every field of a request fits the octets that R157's table gives it, and an
event names what the part can report. A request field that fits its octets but lies outside its range is well formed: the
owning rule refuses it with a result code (R158). -/

namespace Sys2Proof

/-- A field of `k` octets. -/
def fitsOctets (k n : Nat) : Bool := decide (n < 256 ^ k)

def RawName.wf (f : RawName) : Bool :=
  fitsOctets 1 f.labelLength && f.label.length == 12 && fitsOctets 1 f.kind && fitsOctets 1 f.carriageway
    && fitsOctets 1 f.side && fitsOctets 3 f.marker

def RawPlace.wf (f : RawPlace) : Bool :=
  fitsOctets 1 f.present && fitsOctets 1 f.seg && fitsOctets 2 f.position && fitsOctets 3 f.serial

def RawSegment.wf (f : RawSegment) : Bool :=
  fitsOctets 1 f.fitted && fitsOctets 2 f.cableLength && fitsOctets 2 f.feederA && fitsOctets 2 f.feederB
    && fitsOctets 1 f.speed && fitsOctets 2 f.layRatio && fitsOctets 3 f.anchor && fitsOctets 1 f.direction
    && fitsOctets 2 f.split && fitsOctets 1 f.homeLink && fitsOctets 2 f.route

def RawGlobal.wf (f : RawGlobal) : Bool :=
  fitsOctets 1 f.ignored && fitsOctets 1 f.offerOverflow && fitsOctets 1 f.threshold && fitsOctets 1 f.ring
    && fitsOctets 1 f.acknowledge && fitsOctets 1 f.silence && fitsOctets 2 f.retest

/-- A request that R157's structural check passes. -/
def Request.wf : Request → Bool
  | .answer i g t => fitsOctets 1 i && fitsOctets 2 g && fitsOctets 1 t
  | .join i g t => fitsOctets 1 i && fitsOctets 2 g && fitsOctets 1 t
  | .leave i g => fitsOctets 1 i && fitsOctets 2 g
  | .clear i g => fitsOctets 1 i && fitsOctets 2 g
  | .callPost p t => fitsOctets 2 p && fitsOctets 1 t
  | .queryCalls k => fitsOctets 1 k
  | .announceStart g t => fitsOctets 1 g && fitsOctets 1 t
  | .announceStop g => fitsOctets 1 g
  | .groupEdit g o l =>
      fitsOctets 1 g && decide (o < 2) && decide (1 ≤ l.length) && decide (l.length ≤ Config.editSlots)
        && l.all (fun p => decide (p < 256))
  | .groupResult g k => fitsOctets 1 g && fitsOctets 2 k
  | .endService e v => fitsOctets 1 e && fitsOctets 1 v
  | .lineTest e => fitsOctets 1 e
  | .lineStats e c => fitsOctets 1 e && fitsOctets 1 c
  | .postTest p c k => fitsOctets 2 p && fitsOctets 2 c && fitsOctets 1 k
  | .postTestStop e => fitsOctets 1 e
  | .queryPost p => fitsOctets 2 p
  | .queryEnd e => fitsOctets 1 e
  | .writeEnable => true
  | .writeDisable => true
  | .writeName p f => fitsOctets 2 p && f.wf
  | .writePlace p f => fitsOctets 2 p && f.wf
  | .writeSegment s f => fitsOctets 1 s && f.wf
  | .writeGlobal f => f.wf
  | .storeErase c => fitsOctets 1 c
  | .directoryRead k i f => fitsOctets 1 k && fitsOctets 2 i && fitsOctets 2 f

/-- The request that a request row takes, where it is one. -/
def Instr.request : Instr → Option Request
  | .powerOnReset _ => none
  | .powerLoss _ => none
  | .startUpLoadEnd => none
  | .frameReceived _ _ => none
  | .lossOfFraming _ => none
  | .silenceTimerExpiry _ => none
  | .reportFrameSent _ => none
  | .badRequestFrame _ _ _ => none
  | .answer _ _ i g t => some (.answer i g t)
  | .join _ _ i g t => some (.join i g t)
  | .leave _ _ i g => some (.leave i g)
  | .clear _ _ i g => some (.clear i g)
  | .callPost _ _ p t => some (.callPost p t)
  | .queryCalls _ _ k => some (.queryCalls k)
  | .announceStart _ _ g t => some (.announceStart g t)
  | .announceStop _ _ g => some (.announceStop g)
  | .groupEdit _ _ g o l => some (.groupEdit g o l)
  | .groupResult _ _ g k => some (.groupResult g k)
  | .endServiceOff _ _ e v => some (.endService e v)
  | .endServiceOn _ _ e => some (.endService e 1)
  | .lineTest _ _ e => some (.lineTest e)
  | .lineStats _ _ e c => some (.lineStats e c)
  | .postTest _ _ p c k => some (.postTest p c k)
  | .postTestStop _ _ e => some (.postTestStop e)
  | .queryPost _ _ p => some (.queryPost p)
  | .queryEnd _ _ e => some (.queryEnd e)
  | .writeEnable _ _ => some .writeEnable
  | .writeDisable _ _ => some .writeDisable
  | .directoryWriteName _ _ p f => some (.writeName p f)
  | .directoryWritePlace _ _ p f => some (.writePlace p f)
  | .siteWriteSegment _ _ s f => some (.writeSegment s f)
  | .siteWriteGlobal _ _ f => some (.writeGlobal f)
  | .storeErase _ _ c => some (.storeErase c)
  | .directoryRead _ _ k i f => some (.directoryRead k i f)
  | .nameWriteCompletion => none
  | .placeCompletion => none
  | .segmentWriteCompletion => none
  | .globalWriteCompletion => none
  | .groupEditCompletion => none
  | .eraseCompletion => none
  | .pollReply _ _ => none
  | .pollWindowExpiry _ => none
  | .testFrameReply _ _ => none
  | .testFrameWindowExpiry _ => none
  | .loopLossEvent _ => none
  | .loopCurrentRestored _ => none
  | .measurementBegin _ => none
  | .measurementResult _ _ _ _ => none
  | .retryWaitExpiry _ => none
  | .retestTimerExpiry _ => none
  | .overflowTimerExpiry _ => none
  | .ringTimerExpiry _ => none
  | .clearConfirmTimerExpiry _ => none
  | .acknowledgeWindowExpiry _ => none
  | .acknowledgeLateExpiry _ => none

/-- R56, R163. The delay has 14 bits; CROSSED, and no other kind, names a segment, and not the tested one. -/
def measurementWf (e : EndId) (kind : MeasKind) (delay : Nat) (coupled : Option SegId) : Bool :=
  decide (delay ≤ 16383) &&
    (match kind, coupled with
     | .crossed, some seg => decide (seg ≠ e.seg)
     | .crossed, none => false
     | _, some _ => false
     | _, none => true)

/-- The checks of a command as a term. -/
def Instr.wf (i : Instr) : Bool :=
  match i, i.request with
  | .powerOnReset r, _ => decide (r ≤ 280)
  | .powerLoss r, _ => decide (r ≤ 280)
  | .badRequestFrame _ _ typ, _ => decide (typ ≠ 0)
  | .endServiceOff _ _ e v, _ => fitsOctets 1 e && fitsOctets 1 v && decide (v ≠ 1)
  | .measurementResult e k t c, _ => measurementWf e k t c
  | _, some r => r.wf
  | _, none => true

end Sys2Proof
end

