-- ==== Sys2Proof/Machine/LineCommands.lean ====
section
/-! DEFINITION. The events of the line ports: the endings of scan polls and test frames (R36, R139), the handling of replies (R43
to R49), loop current (R33, R50), measurements (R55 to R60) and the expiries of an end's timers (R59, R61). -/

namespace Sys2Proof.Machine

/-! ## Steps of a good reply (R48) -/

/-- Step 1: the failure count, the reply status and POST ALARM ANSWERING (R43). -/
def answered (i : Slot) (s : State) : State :=
  let flagged := (s.post i).silenceReported && decide ((s.post i).reply ≠ .answering)
  let s := s.modPost i fun r => { r with failures := 0, reply := .answering, silenceReported := r.silenceReported && !flagged }
  if flagged then reportBoth (.alarmAnswering (nameBlock s i) (s.post i).failures) s else s

/-- Step 2: the end's suppression is released by its suppressed post (R51). -/
def releaseSuppression (e : EndId) (i : Slot) (s : State) : State :=
  s.modEnd e fun r => { r with suppressed := if r.suppressed = some i then none else r.suppressed }

/-- The serial number that the directory holds for a post. An absent entry names no post, and its stored serial is compared with
nothing (R1; log 57). -/
def heldSerial (s : State) (i : Slot) : Option Nat :=
  if (s.entry i).place.present then some (s.entry i).place.serial else none

/-- A good reply on the end with a serial number other than the directory's is an identity mismatch (R44, R134). -/
def countMismatch (e : EndId) (i : Slot) (serial : Nat) (s : State) : State :=
  match heldSerial s i with
  | some held => if serial ≠ held then s.modCounters e fun c => { c with mismatches := satInc c.mismatches } else s
  | none => s

/-- Step 3: identity (R44). -/
def checkIdentity (e : EndId) (i : Slot) (serial : Nat) (s : State) : State :=
  match heldSerial s i with
  | some held =>
    let differs := decide (serial ≠ held)
    let s := countMismatch e i serial s
    if (s.post i).unverified = differs then s
    else
      let s := s.modPost i fun r => { r with unverified := differs }
      reportBoth (.alarmIdentity (nameBlock s i) held serial) s
  | none => s

/-- Which sensors differ. -/
def sensorsChanged (a b : Sensors) : Sensors := ⟨a.door != b.door, a.battery != b.battery, a.speaker != b.speaker⟩

/-- Step 4: sensors (R45). -/
def checkSensors (i : Slot) (new : Sensors) (s : State) : State :=
  let old := (s.post i).sensors
  if new = old then s
  else
    let s := s.modPost i fun r => { r with sensors := new }
    reportBoth (.alarmSensor (nameBlock s i) new (sensorsChanged old new)) s

/-- A stamp is taken from the stamp counter (R47). -/
def takeStamp (s : State) : State := s.onLine fun l => { l with stampCounter := l.stampCounter + 1 }

/-- A RING was refused OFF-HOOK: a RINGING call is answered by its post, with a stamp taken now (R108). -/
def ringRefused (i : Slot) (s : State) : State :=
  match s.callOf i with
  | some c =>
    if s.callState c = some .ringing then
      let s := takeStamp s
      answeredByPost c s.line.stampCounter s
    else s
  | none => s

/-- The result of a CONNECT: on its line channel a CONNECTING call goes CONNECTED, reported CONNECTED or RESUMED (R100). -/
def connectDone (i : Slot) (ch : Chan) (s : State) : State :=
  match s.callOf i with
  | some c =>
    match s.liveCall c with
    | some k =>
      if k.state = .connecting ∧ k.channel.map Prod.snd = some ch then
        reportParties c (if k.resuming then .resumed else .connected) .none
          (s.modCall c fun k => { k with state := .connected, resuming := false })
      else s
    | none => s
  | none => s

/-- The result of a RELEASE: a CLEARING call is freed; any other is not touched (R106). -/
def releaseDone (i : Slot) (s : State) : State :=
  match s.callOf i with
  | some c => if s.callState c = some .clearing then freeRecord c s else s
  | none => s

/-- The result of a command, as the block that placed it takes it (R39, R100, R106, R108, R120). A refusal of a command of the Call
Controller is taken as DONE, but for a RING refused OFF-HOOK. -/
def commandResult (i : Slot) (c : Command) (result : CommandResult) (s : State) : State :=
  match c with
  | .connect ch => connectDone i ch s
  | .ring => if result = .offHook then ringRefused i s else s
  | .release => releaseDone i s
  | .lampOn => s
  | .lampOff => s
  | .announce ch => announceResult i ch result s
  | .announceEnd => s

/-- Step 5: the entry carried leaves the list, unless another command has taken its place meanwhile, and its result is passed on
(R39; log 12). -/
def passResult (e : EndId) (i : Slot) (carried : Option (Command × Nat)) (result : Option CommandResult) (s : State) : State :=
  match carried, result with
  | some (c, age), some r =>
    let s := s.modEnd e fun v =>
      { v with commands := v.commands.filter fun x => !(decide (x.slot = i) && decide (x.age = age) && decide (x.command = c)) }
    commandResult i c r s
  | _, _ => s

/-- A call event is passed with a new stamp, and then the burst of its post ends (R46, R47, R142). -/
def passCallEvent (i : Slot) (b : Button) (s : State) : State :=
  let s := takeStamp s
  abortTarget i .callEvent (callEvent i b s.line.stampCounter s)

/-- Step 6: hook and button (R46). -/
def hookAndButton (i : Slot) (hook : Hook) (button : Button) (s : State) : State :=
  let row := s.post i
  match row.hook, hook with
  | .on, .on => s.modPost i fun r => { r with button := .none }
  | .off, .on => onHook i (s.modPost i fun r => { r with hook := .on, button := .none })
  | .on, .off => passCallEvent i button (s.modPost i fun r => { r with hook := .off, button := button })
  | .off, .off =>
    if button = row.button then s else passCallEvent i button (s.modPost i fun r => { r with button := button })

/-! ## Failures -/

/-- A failure of a post (R43). -/
def postFails (i : Slot) (s : State) : State :=
  let m := s.store.site.global.threshold
  let s := s.modPost i fun r => { r with failures := if r.failures < m then r.failures + 1 else r.failures }
  if (s.post i).failures = m ∧ (s.post i).reply ≠ .noReply then
    let told := (s.post i).silenceReported
    let s := s.modPost i fun r => { r with reply := .noReply, silenceReported := true }
    if told then s else reportBoth (.alarmSilent (nameBlock s i) (s.post i).failures) s
  else s

/-- The test for a suspect end after a failure (R49). -/
def suspectTest (e : EndId) (i : Slot) (s : State) : State :=
  if (s.endRec e).state = .serving ∧ farthest s e = some i ∧ (s.post i).failures = s.store.site.global.threshold
      ∧ (s.endRec e).suppressed ≠ some i then
    goTesting e .suspectFailure s
  else s

/-! ## The ending of a scan poll (R36) -/

/-- The post is still served by the end at the hop that the poll carried (R36). -/
def stillThere (s : State) (e : EndId) (i : Slot) (hop : Nat) : Bool := servedFrom s e i && decide ((s.post i).hop = hop)

/-- The transaction of a port ends (R35). -/
def endTransaction (e : EndId) (s : State) : State := s.modPort e fun p => { p with transaction := none }

/-- A scan poll of the end has ended (R139). -/
def lastWasPoll (e : EndId) (s : State) : State := modRunning e (fun b => { b with last := .poll }) s

/-- A good reply to a scan poll (R48). -/
def goodPoll (e : EndId) (i : Slot) (carried : Option (Command × Nat)) (r : Reply) (s : State) : State :=
  let s := checkIdentity e i r.serial (releaseSuppression e i (answered i s))
  hookAndButton i r.hook r.button (passResult e i carried r.result (checkSensors i r.sensors s))

/-- A failed scan poll of a post that is still there (R43, R49). -/
def failedPoll (e : EndId) (i : Slot) (s : State) : State := suspectTest e i (postFails i s)

/-- The outcome of a scan poll. -/
inductive PollOutcome
  | good (reply : Reply)
  | corrupt
  | silent

/-- The quality counter of an outcome (R134). -/
def countOutcome (o : PollOutcome) (c : Counters) : Counters :=
  match o with
  | .good _ => { c with goodReplies := satInc c.goodReplies }
  | .corrupt => { c with corruptReplies := satInc c.corruptReplies }
  | .silent => { c with noReplies := satInc c.noReplies }

/-- The reply of a post that has moved meanwhile is counted and does no more (R36, R134; log 46). -/
def movedPoll (e : EndId) (i : Slot) (o : PollOutcome) (s : State) : State :=
  match o with
  | .good r => countMismatch e i r.serial s
  | .corrupt => s
  | .silent => s

/-- The ending of a scan poll (R36): its outcome is counted, and handled if the post is still there. -/
def pollEnds (e : EndId) (i : Slot) (hop : Nat) (carried : Option (Command × Nat)) (o : PollOutcome) (s : State) : State :=
  let s := (lastWasPoll e (endTransaction e s)).modCounters e (countOutcome o)
  finish
    (if stillThere s e i hop then
      match o with
      | .good r => goodPoll e i carried r s
      | .corrupt => failedPoll e i s
      | .silent => failedPoll e i s
    else movedPoll e i o s)

/-- The outcome of a scan poll from the octets of its reply (R162). -/
def pollOutcome (carried : Option (Command × Nat)) (octets : List Byte) : PollOutcome :=
  match pollReplyOf carried.isSome octets with
  | some r => .good r
  | none => .corrupt

/-- POLL_REPLY (R36). -/
def execPollReply (e : EndId) (octets : List Byte) (s : State) : Host.Outcome State Fault Refusal :=
  match s.powered, (s.port e).transaction with
  | true, some (.poll i hop carried) => .next (pollEnds e i hop carried (pollOutcome carried octets) s)
  | _, _ => .next s

/-- POLL_WINDOW_EXPIRY (R36). -/
def execPollWindowExpiry (e : EndId) (s : State) : Host.Outcome State Fault Refusal :=
  match s.powered, (s.port e).transaction with
  | true, some (.poll i hop carried) => .next (pollEnds e i hop carried .silent s)
  | _, _ => .next s

/-! ## The ending of a test frame (R139) -/

/-- The outcome of a test frame in the burst's counters (R139). -/
inductive EchoOutcome | good | bad | silent

def countEcho (o : EchoOutcome) (b : Burst) : Burst :=
  match o with
  | .good => { b with last := .testFrame, echoedGood := satInc b.echoedGood }
  | .bad => { b with last := .testFrame, echoedBad := satInc b.echoedBad }
  | .silent => { b with last := .testFrame, noEcho := satInc b.noEcho }

/-- A counted burst ends DONE when sent has reached its count (R140). -/
def endIfDone (e : EndId) (s : State) : State :=
  match s.burst e with
  | .running b => if b.count ≠ 0 ∧ b.count ≤ b.sent then endBurst e .done s else s
  | .none => s
  | .ended _ _ => s

/-- The outcome is counted while the burst that sent the frame runs; the frame of an ended burst is not counted, but it is the last
transaction of the end for a burst that runs since (R136, R139, R141). -/
def testCounted (e : EndId) (counted : Bool) (o : EchoOutcome) (s : State) : State :=
  if counted then endIfDone e (modRunning e (countEcho o) s)
  else modRunning e (fun b => { b with last := .testFrame }) s

/-- A good reply to a test frame: steps 2, 3, 4 and 6 of R48 (R139, R141). -/
def goodTest (e : EndId) (i : Slot) (r : Reply) (s : State) : State :=
  hookAndButton i r.hook r.button (checkSensors i r.sensors (checkIdentity e i r.serial (releaseSuppression e i s)))

/-- The outcome of a test frame from its reply (R139). -/
def echoOutcome (n : BitVec 16) (p : Pattern) (reply : Option Reply) : EchoOutcome :=
  match reply with
  | some r => if r.echo = patternField p n then .good else .bad
  | none => .bad

/-- TEST_FRAME_REPLY (R139): the outcome is counted before the reply is handled. -/
def execTestFrameReply (e : EndId) (octets : List Byte) (s : State) : Host.Outcome State Fault Refusal :=
  match s.powered, (s.port e).transaction with
  | true, some (.test i _ n p counted) =>
    let reply := testReplyOf octets
    let s := testCounted e counted (echoOutcome n p reply) (endTransaction e s)
    .next (finish (match reply with
      | some r => goodTest e i r s
      | none => s))
  | _, _ => .next s

/-- TEST_FRAME_WINDOW_EXPIRY (R139). -/
def execTestFrameWindowExpiry (e : EndId) (s : State) : Host.Outcome State Fault Refusal :=
  match s.powered, (s.port e).transaction with
  | true, some (.test _ _ _ _ counted) => .next (finish (testCounted e counted .silent (endTransaction e s)))
  | _, _ => .next s

/-! ## Loop current (R33, R50) -/

/-- LOOP_LOSS_EVENT: the current has failed for 20 ms. While the sense is active and reads PRESENT, the reading becomes LOST and a
SERVING end is suspect (R33, R50). -/
def execLoopLossEvent (e : EndId) (s : State) : Host.Outcome State Fault Refusal :=
  if s.powered then
    let active := senseActive s e
    let seen := active && decide ((s.port e).reading = .present)
    let s := s.modPort e fun p => { p with current := false, reading := if active then .lost else p.reading }
    .next (if seen then finish (goTesting e .loopLoss s) else s)
  else .next (s.modPort e fun p => { p with current := false })

/-- LOOP_CURRENT_RESTORED: while the sense is active the reading becomes PRESENT, reported to no block (R33). -/
def execLoopCurrentRestored (e : EndId) (s : State) : Host.Outcome State Fault Refusal :=
  let active := s.powered && senseActive s e
  .next (s.modPort e fun p => { p with current := true, reading := if active then .present else p.reading })

/-! ## Measurements -/

/-- MEASUREMENT_BEGIN (R55): the end that first met the conditions begins. -/
def execMeasurementBegin (e : EndId) (s : State) : Host.Outcome State Fault Refusal :=
  if s.powered && mayMeasure s e && decide (nth s.line.first e.seg = some e.side) then
    let s := s.modEnd e fun r => { r with measurement := .running }
    .next (finish (s.modCounters e fun c => { c with measurements := satInc c.measurements }))
  else .next s

/-- A BUSY result below the third retry: the retry wait starts (R59). -/
def busyRetry (e : EndId) (s : State) : State :=
  s.modEnd e fun r =>
    { r with busyCount := r.busyCount + 1, measurement := .none, retryWait := some (s.now + Config.retryWaitMs) }

/-- The suppressed post that a result gives: for GOOD the farthest served post if its count is M (R51, R58). -/
def resultSuppressed (s : State) (e : EndId) (kind : MeasKind) : Option Slot :=
  if kind = .good then
    match farthest s e with
    | some i => if (s.post i).failures = s.store.site.global.threshold then some i else none
    | none => none
  else none

/-- The retest timer runs while the end is FAULTED or SERVING LIMIT (R60, R61). -/
def retestAfter (s : State) (st : EndState × EndReach) : Option Nat :=
  match st with
  | (.faulted, _) => some (s.after s.store.site.global.retest)
  | (.serving, .limit _) => some (s.after s.store.site.global.retest)
  | _ => none

/-- Step 1 of R60. -/
def takeRecord (e : EndId) (kind : MeasKind) (delay : Nat) (coupled : Option SegId) (s : State) : State :=
  let seg := s.segment e.seg
  let st := resultState seg e.side kind delay
  let suppressed := resultSuppressed s e kind
  let s := changeEnd e st.1 st.2 .result s
  s.modEnd e fun r =>
    { r with fault := some (faultRecordOf seg e.side kind delay coupled), busyCount := 0, measurement := .none,
             suppressed := suppressed, retest := retestAfter s st,
             scanPosition := if st.1 = .serving then 0 else r.scanPosition }

/-- A result is taken, with its consequences in the order of R60. -/
def takeResult (e : EndId) (kind : MeasKind) (delay : Nat) (coupled : Option SegId) (s : State) : State :=
  let before := s
  let s := takeRecord e kind delay coupled s
  let s := if (s.endRec e).state = .faulted then stopEnd e s else s
  isolationAlarms before (reportEndState e (assignSegment e.seg s))

/-- MEASUREMENT_RESULT (R58, R59). A result that the stage cannot give is none (log 44). -/
def execMeasurementResult (e : EndId) (kind : MeasKind) (delay : Nat) (coupled : Option SegId) (s : State) :
    Host.Outcome State Fault Refusal :=
  if s.powered && decide ((s.endRec e).state = .testing) && decide ((s.endRec e).measurement = .running)
      && measurementWf e kind delay coupled then
    if kind = .busy ∧ (s.endRec e).busyCount < Config.busyRetries then .next (finish (busyRetry e s))
    else .next (finish (takeResult e kind delay coupled s))
  else .next s

/-! ## Expiries -/

/-- RETRY_WAIT_EXPIRY (R59). -/
def execRetryWaitExpiry (e : EndId) (s : State) : Host.Outcome State Fault Refusal :=
  match s.powered, (s.endRec e).retryWait with
  | true, some t => .next (finish ((s.reach t).modEnd e fun r => { r with retryWait := none, measurement := .waiting }))
  | _, _ => .next s

/-- The retest timer of an end expires (R61). -/
def retestExpires (e : EndId) (s : State) : State :=
  match (s.endRec e).state with
  | .faulted => goTesting e .retest s
  | .serving =>
    if holdsChannel s e then s.modEnd e fun r => { r with retest := some (s.after s.store.site.global.retest) }
    else goTesting e .retest s
  | .unfitted => s
  | .testing => s
  | .off => s

/-- RETEST_TIMER_EXPIRY (R61). -/
def execRetestTimerExpiry (e : EndId) (s : State) : Host.Outcome State Fault Refusal :=
  match s.powered, (s.endRec e).retest with
  | true, some t => .next (finish (retestExpires e (s.reach t)))
  | _, _ => .next s

end Sys2Proof.Machine
end

