-- ==== Sys2Proof/Machine/Power.lean ====
section
/-! DEFINITION. Power-on reset with the load of the store (R27, R29), loss of power during an operation (R28) and the end of the
start-up load (R30). -/

namespace Sys2Proof.Machine

/-! ## An operation that power loss interrupts (R28) -/

/-- A record of an erase that power loss interrupts: written if it stands before the record reached, bad if it is that record, else
old (R28). -/
def eraseCell {α : Type} (reached place : Nat) (blank : α) (old : Cell α) : Cell α :=
  if place < reached then .valid blank else if place = reached then .bad else old

/-- A table of records under an interrupted erase; its first record has the place `base` in the order of R24. -/
def eraseCells {α : Type} {n : Nat} (reached base : Nat) (blank : α) (t : Vector (Cell α) n) : Vector (Cell α) n :=
  Vector.ofFn fun i => eraseCell reached (base + i.val) blank (nth t i)

/-- The last place of an erase's scope: 256 entries, 16 groups, or all 281 records (R24). -/
def lastPlace : EraseScope → Nat
  | .directory => 255
  | .groups => 15
  | .all => 280

/-- The place of the record that an erase was programming when power was lost. It is a record of the scope, for the end of the last record's
programming is the completion (R20, R28; log 8). -/
def placeReached (c : EraseScope) (reached : Nat) : Nat := min reached (lastPlace c)

/-- The stored records after power is lost during an operation (R28; log 8). -/
def interrupted (w : StoreWrite) (reached : Nat) (r : StoredRecords) : StoredRecords :=
  match w with
  | .name i _ => { r with entries := modNth r.entries i fun _ => .bad }
  | .place i _ => { r with entries := modNth r.entries i fun _ => .bad }
  | .segment i _ => { r with segments := modNth r.segments i fun _ => .bad }
  | .global _ => { r with global := .bad }
  | .group g _ => { r with groups := modNth r.groups g fun _ => .bad }
  | .erase .directory => { r with entries := eraseCells (placeReached .directory reached) 0 DirEntry.blank r.entries }
  | .erase .groups => { r with groups := eraseCells (placeReached .groups reached) 0 [] r.groups }
  | .erase .all =>
    let reached := placeReached .all reached
    { entries := eraseCells reached 0 DirEntry.blank r.entries,
      segments := eraseCells reached 256 SegRecord.blank r.segments,
      global := eraseCell reached 264 GlobalRecord.default r.global,
      groups := eraseCells reached 265 [] r.groups }

/-- The stored records that a loss of power leaves. -/
def storedAfterLoss (s : State) (reached : Nat) : StoredRecords :=
  match s.powered, s.store.state with
  | true, .busy o => interrupted o.write reached s.store.stored
  | _, _ => s.store.stored

/-! ## The load (R27, R29) -/

/-- What the working copy takes from a record (R27). -/
def loaded {α : Type} (blank : α) : Cell α → α
  | .blank => blank
  | .valid content => content
  | .bad => blank

/-- The record is read bad. -/
def isBad {α : Type} : Cell α → Bool
  | .blank => false
  | .valid _ => false
  | .bad => true

/-- The working copy that the load gives (R27). -/
def loadSite (r : StoredRecords) : Site :=
  { entries := r.entries.map (loaded .blank), segments := r.segments.map (loaded .blank), global := loaded .default r.global,
    groups := r.groups.map (loaded []) }

/-- The damaged list that the load builds, in the order of R24 (R27). -/
def loadDamaged (r : StoredRecords) : List RecordId :=
  ((allFin 256).filter fun i => isBad (nth r.entries i)).map RecordId.entry
    ++ ((allFin 8).filter fun i => isBad (nth r.segments i)).map RecordId.segment
    ++ (if isBad r.global then [.global] else [])
    ++ ((allFin 16).filter fun g => isBad (nth r.groups g)).map RecordId.group

/-- The volatile state at its power-on values, with the inputs that power does not change: the loop currents and the commands
that wait (R29; log 7). -/
def volatileReset (powered : Bool) (b : StoreBlock) (s : State) : State :=
  { State.reset with
    powered := powered
    store := b
    line := { LineBlock.powerOn with ports := s.line.ports.map fun p => { Port.powerOn with current := p.current } }
    pending := s.pending }

/-! ## The commands -/

/-- POWER_ON_RESET (R29): STARTING, with the load of the stored records (log 6). -/
def execPowerOnReset (reached : Nat) (s : State) : Host.Outcome State Fault Refusal :=
  let r := storedAfterLoss s reached
  .next (volatileReset true { stored := r, site := loadSite r, damaged := loadDamaged r, state := .starting } s)

/-- POWER_LOSS (R28). -/
def execPowerLoss (reached : Nat) (s : State) : Host.Outcome State Fault Refusal :=
  if s.powered then
    .next (volatileReset false
      { stored := storedAfterLoss s reached, site := .blank, damaged := [], state := .starting } s)
  else .next s

/-- A held LINK START is placed in the queue of an UP link (R30, R151). -/
def releaseStart (x : LinkId) (s : State) : State :=
  match (s.link x).heldStart with
  | some r => report x (.linkStart (fillDamaged s r)) (s.modLink x fun l => { l with heldStart := none })
  | none => s

/-- An end of a fitted segment goes SERVING FULL at the end of the load (R30). -/
def startEnd (e : EndId) (s : State) : State :=
  if (s.segment e.seg).fitted then
    (changeEnd e .serving .full .startUp s).modEnd e fun r => { r with scanPosition := 0 }
  else s

/-- END STATE for an end that went SERVING (R30). -/
def reportStarted (e : EndId) (s : State) : State := if (s.segment e.seg).fitted then reportEndState e s else s

/-- START_UP_LOAD_END (R30). -/
def execStartUpLoadEnd (s : State) : Host.Outcome State Fault Refusal :=
  if s.powered && starting s then
    let s := forEach (allFin 8) rebuild s
    let s := forEach allEnds startEnd s
    let s := storeReady (forEach (allFin 8) assignSegment s)
    .next (finish (forEach allEnds reportStarted (releaseStart .b (releaseStart .a s))))
  else .next s

end Sys2Proof.Machine
end

