-- ==== Sys2Proof/Machine/Dispatch.lean ====
section
/-! DEFINITION. The dispatch of a command to its meaning: one arm for each row of spec/opcode_table.json. -/

namespace Sys2Proof.Machine

def exec (i : Instr) (s : State) : Host.Outcome State Fault Refusal :=
  match i with
  | .powerOnReset reached => Sys2Proof.Machine.execPowerOnReset reached s
  | .powerLoss reached => Sys2Proof.Machine.execPowerLoss reached s
  | .startUpLoadEnd => Sys2Proof.Machine.execStartUpLoadEnd s
  | .frameReceived x octets => Sys2Proof.Machine.execFrameReceived x octets s
  | .lossOfFraming x => Sys2Proof.Machine.execLossOfFraming x s
  | .silenceTimerExpiry x => Sys2Proof.Machine.execSilenceTimerExpiry x s
  | .reportFrameSent x => Sys2Proof.Machine.execReportFrameSent x s
  | .badRequestFrame x tag typ => Sys2Proof.Machine.execBadRequestFrame x tag typ s
  | .answer x tag index generation slot => Sys2Proof.Machine.execAnswer x tag index generation slot s
  | .join x tag index generation slot => Sys2Proof.Machine.execJoin x tag index generation slot s
  | .leave x tag index generation => Sys2Proof.Machine.execLeave x tag index generation s
  | .clear x tag index generation => Sys2Proof.Machine.execClear x tag index generation s
  | .callPost x tag post slot => Sys2Proof.Machine.execCallPost x tag post slot s
  | .queryCalls x tag start => Sys2Proof.Machine.execQueryCalls x tag start s
  | .announceStart x tag group slot => Sys2Proof.Machine.execAnnounceStart x tag group slot s
  | .announceStop x tag group => Sys2Proof.Machine.execAnnounceStop x tag group s
  | .groupEdit x tag group operation slots => Sys2Proof.Machine.execGroupEdit x tag group operation slots s
  | .groupResult x tag group first => Sys2Proof.Machine.execGroupResult x tag group first s
  | .endServiceOff x tag endCode setting => Sys2Proof.Machine.execEndServiceOff x tag endCode setting s
  | .endServiceOn x tag endCode => Sys2Proof.Machine.execEndServiceOn x tag endCode s
  | .lineTest x tag endCode => Sys2Proof.Machine.execLineTest x tag endCode s
  | .lineStats x tag endCode clearFlag => Sys2Proof.Machine.execLineStats x tag endCode clearFlag s
  | .postTest x tag post count pattern => Sys2Proof.Machine.execPostTest x tag post count pattern s
  | .postTestStop x tag endCode => Sys2Proof.Machine.execPostTestStop x tag endCode s
  | .queryPost x tag post => Sys2Proof.Machine.execQueryPost x tag post s
  | .queryEnd x tag endCode => Sys2Proof.Machine.execQueryEnd x tag endCode s
  | .writeEnable x tag => Sys2Proof.Machine.execWriteEnable x tag s
  | .writeDisable x tag => Sys2Proof.Machine.execWriteDisable x tag s
  | .directoryWriteName x tag post fields => Sys2Proof.Machine.execDirectoryWriteName x tag post fields s
  | .directoryWritePlace x tag post fields => Sys2Proof.Machine.execDirectoryWritePlace x tag post fields s
  | .siteWriteSegment x tag seg fields => Sys2Proof.Machine.execSiteWriteSegment x tag seg fields s
  | .siteWriteGlobal x tag fields => Sys2Proof.Machine.execSiteWriteGlobal x tag fields s
  | .storeErase x tag scope => Sys2Proof.Machine.execStoreErase x tag scope s
  | .directoryRead x tag kind index first => Sys2Proof.Machine.execDirectoryRead x tag kind index first s
  | .nameWriteCompletion => Sys2Proof.Machine.execNameWriteCompletion s
  | .placeCompletion => Sys2Proof.Machine.execPlaceCompletion s
  | .segmentWriteCompletion => Sys2Proof.Machine.execSegmentWriteCompletion s
  | .globalWriteCompletion => Sys2Proof.Machine.execGlobalWriteCompletion s
  | .groupEditCompletion => Sys2Proof.Machine.execGroupEditCompletion s
  | .eraseCompletion => Sys2Proof.Machine.execEraseCompletion s
  | .pollReply e octets => Sys2Proof.Machine.execPollReply e octets s
  | .pollWindowExpiry e => Sys2Proof.Machine.execPollWindowExpiry e s
  | .testFrameReply e octets => Sys2Proof.Machine.execTestFrameReply e octets s
  | .testFrameWindowExpiry e => Sys2Proof.Machine.execTestFrameWindowExpiry e s
  | .loopLossEvent e => Sys2Proof.Machine.execLoopLossEvent e s
  | .loopCurrentRestored e => Sys2Proof.Machine.execLoopCurrentRestored e s
  | .measurementBegin e => Sys2Proof.Machine.execMeasurementBegin e s
  | .measurementResult e kind delay coupled => Sys2Proof.Machine.execMeasurementResult e kind delay coupled s
  | .retryWaitExpiry e => Sys2Proof.Machine.execRetryWaitExpiry e s
  | .retestTimerExpiry e => Sys2Proof.Machine.execRetestTimerExpiry e s
  | .overflowTimerExpiry c => Sys2Proof.Machine.execOverflowTimerExpiry c s
  | .ringTimerExpiry c => Sys2Proof.Machine.execRingTimerExpiry c s
  | .clearConfirmTimerExpiry c => Sys2Proof.Machine.execClearConfirmTimerExpiry c s
  | .acknowledgeWindowExpiry g => Sys2Proof.Machine.execAcknowledgeWindowExpiry g s
  | .acknowledgeLateExpiry g => Sys2Proof.Machine.execAcknowledgeLateExpiry g s

end Sys2Proof.Machine
end

