-- ==== Sys2Proof/Machine/Step.lean ====
section
/-! DEFINITION. One step: the command at the front of the queue is carried out; on an empty queue the Timebase ticks. -/

namespace Sys2Proof.Machine

/-- The Timebase counts a millisecond while the part has power (R143; log 3). -/
def State.tick (s : State) : State := if s.powered then { s with now := s.now + 1 } else s

/-- The queue of commands replaced. -/
def State.withPending (s : State) (l : List Instr) : State := { s with pending := l }

/-- The command at the front of the queue, carried out with the rest of the queue; a tick when none waits (log 3). -/
def step (s : State) : Host.Outcome State Fault Refusal :=
  match s.pending with
  | [] => .next s.tick
  | i :: rest => exec i (s.withPending rest)

/-- The command that a word spells, put at the front of the queue; no word spells one (log 4). -/
def State.withFetchWord (s : State) (nbits w : Nat) : State :=
  match decodeTableWord nbits w with
  | some i => s.withPending (i :: s.pending)
  | none => s

end Sys2Proof.Machine
end

