-- ==== Sys2Proof/Safety.lean ====
section
/-! DEFINITION. The words that claims about the part use: a request that is taken and answered, a state less the transactions
that idle ports begin, and the conditions that every step keeps. -/

namespace Sys2Proof

/-- The link and the tag of a request row (R148). -/
def Instr.sender : Instr → Option (LinkId × Byte)
  | .powerOnReset _ => none
  | .powerLoss _ => none
  | .startUpLoadEnd => none
  | .frameReceived _ _ => none
  | .lossOfFraming _ => none
  | .silenceTimerExpiry _ => none
  | .reportFrameSent _ => none
  | .badRequestFrame _ _ _ => none
  | .answer x tag _ _ _ => some (x, tag)
  | .join x tag _ _ _ => some (x, tag)
  | .leave x tag _ _ => some (x, tag)
  | .clear x tag _ _ => some (x, tag)
  | .callPost x tag _ _ => some (x, tag)
  | .queryCalls x tag _ => some (x, tag)
  | .announceStart x tag _ _ => some (x, tag)
  | .announceStop x tag _ => some (x, tag)
  | .groupEdit x tag _ _ _ => some (x, tag)
  | .groupResult x tag _ _ => some (x, tag)
  | .endServiceOff x tag _ _ => some (x, tag)
  | .endServiceOn x tag _ => some (x, tag)
  | .lineTest x tag _ => some (x, tag)
  | .lineStats x tag _ _ => some (x, tag)
  | .postTest x tag _ _ _ => some (x, tag)
  | .postTestStop x tag _ => some (x, tag)
  | .queryPost x tag _ => some (x, tag)
  | .queryEnd x tag _ => some (x, tag)
  | .writeEnable x tag => some (x, tag)
  | .writeDisable x tag => some (x, tag)
  | .directoryWriteName x tag _ _ => some (x, tag)
  | .directoryWritePlace x tag _ _ => some (x, tag)
  | .siteWriteSegment x tag _ _ => some (x, tag)
  | .siteWriteGlobal x tag _ => some (x, tag)
  | .storeErase x tag _ => some (x, tag)
  | .directoryRead x tag _ _ _ => some (x, tag)
  | .nameWriteCompletion => none
  | .placeCompletion => none
  | .segmentWriteCompletion => none
  | .globalWriteCompletion => none
  | .groupEditCompletion => none
  | .eraseCompletion => none
  | .pollReply _ _ => none
  | .pollWindowExpiry _ => none
  | .testFrameReply _ _ => none
  | .testFrameWindowExpiry _ => none
  | .loopLossEvent _ => none
  | .loopCurrentRestored _ => none
  | .measurementBegin _ => none
  | .measurementResult _ _ _ _ => none
  | .retryWaitExpiry _ => none
  | .retestTimerExpiry _ => none
  | .overflowTimerExpiry _ => none
  | .ringTimerExpiry _ => none
  | .clearConfirmTimerExpiry _ => none
  | .acknowledgeWindowExpiry _ => none
  | .acknowledgeLateExpiry _ => none

end Sys2Proof

namespace Sys2Proof.Machine

/-! ## Requests -/

/-- The request at the head of the link's intake buffer can be taken now (R148). -/
def Ready (s : State) (x : LinkId) (tag : Byte) (r : Request) : Prop :=
  canTake s x = true ∧ headIs tag r (s.link x) = true

/-- It can be taken, and the part is not in STARTING: the block that owns the request takes it (R29, R148). -/
def Takes (s : State) (x : LinkId) (tag : Byte) (r : Request) : Prop :=
  Ready s x tag r ∧ s.store.state ≠ .starting

/-- A reply tells of a call event of its post: a lift, or another button with the handset off (R46). -/
def tellsCallEvent (s : State) (i : Slot) (r : Reply) : Bool :=
  decide (r.hook = .off) && (decide ((s.post i).hook = .on) || decide (r.button ≠ (s.post i).button))

/-- A reply refuses the RING of a RINGING call OFF-HOOK (R108). -/
def answersRing (s : State) (i : Slot) (carried : Option (Command × Nat)) (r : Reply) : Bool :=
  decide (carried.map Prod.fst = some .ring) && decide (r.result = some .offHook)
    && decide ((s.callOf i).bind s.callState = some .ringing)

/-- The state with the head frame out of the intake buffer and one response placed (R148). -/
def taken (x : LinkId) (tag : Byte) (r : Request) (result : Result) (body : ResponseBody) (s : State) : State :=
  respond x tag (requestType r) result body (popIntake x s)

/-- A write operation is in flight (R18). -/
def inFlight (s : State) : Option StoreOperation :=
  match s.store.state with
  | .busy o => some o
  | .ready => none
  | .starting => none

/-! ## Frames -/

/-- A burst record less what the sending of a test frame changes (R138). -/
def BurstRecord.settled : BurstRecord → BurstRecord
  | .running b => .running { b with frameNumber := 0, sent := 0 }
  | .none => .none
  | .ended b x => .ended b x

/-- The line block less what the choice of next transactions (R41, R42, R138) and the noting of the end that may measure first
(R55, log 11) change. -/
def LineBlock.settled (l : LineBlock) : LineBlock :=
  { l with ports := l.ports.map fun p => { p with transaction := none }
           counters := l.counters.map fun c => { c with pollsSent := 0 }
           bursts := l.bursts.map BurstRecord.settled
           ends := l.ends.map fun r => { r with scanPosition := 0 }
           first := Vector.replicate 8 none }

/-- Two states agree in everything but the transactions that idle ports begin at the end of a step (R41). -/
def Agree (s t : State) : Prop :=
  { s with line := s.line.settled } = { t with line := t.line.settled }

/-- A report queue after a step that took no request from the link: nothing but reports joined it (R149). -/
def OnlyReports (old new : List QueueEntry) : Prop :=
  ∃ l : List (Bool × Report), new = old ++ l.map fun p => .report p.1 p.2

/-- A link record that took no part but for reports placed in its queue, and trunk slots that became FREE (R149, R152). -/
def OnlyTold (old new : LinkRecord) : Prop :=
  OnlyReports old.queue new.queue
    ∧ (∀ t, nth new.trunks t = nth old.trunks t ∨ nth new.trunks t = .free)
    ∧ { new with queue := [], gap := false, trunks := old.trunks } = { old with queue := [], gap := false }

/-- Reports as a queue takes them one after the other: the first carries the gap indication (R149). -/
def placedReports (gap : Bool) : List Report → List QueueEntry
  | [] => []
  | r :: l => .report gap r :: l.map (.report false)

/-- An end record less its command list, its scan position and its suppressed post. -/
def EndRecord.core (r : EndRecord) : EndRecord := { r with commands := [], scanPosition := 0, suppressed := none }

/-! ## Conditions that every step keeps -/

/-- A link record within R143, R144 and R146: its buffers hold what they may, no report is kept from an earlier event, and a DOWN link is
empty. -/
def LinkOk (starting : Bool) (l : LinkRecord) : Prop :=
  l.intake.length ≤ Config.intakePlaces ∧ l.queue.length ≤ Config.queuePlaces ∧ l.overrun = [] ∧ l.silence.isSome = l.up
    ∧ (l.heldStart.isSome = true → starting = true)
    ∧ (l.up = false → l.intake = [] ∧ l.queue = [] ∧ l.gap = false ∧ l.heldStart = none ∧ l.latch = false
        ∧ ∀ t, nth l.trunks t = .free)

def LinksOk (s : State) : Prop := LinkOk (starting s) s.linkA ∧ LinkOk (starting s) s.linkB

/-- Each end within R53 to R61 and R74: a SERVING end has a reach, and only a SERVING or TESTING end has one, channels in use, a waiting
list or a preempted set; a measurement and a retry wait belong to TESTING, where one of the two always stands; the retest timer
runs in FAULTED and SERVING LIMIT alone. In STARTING every end is UNFITTED (R29). -/
def EndOk (starting : Bool) (r : EndRecord) (c : ChannelEnd) : Prop :=
  (starting = true → r.state = .unfitted)
    ∧ (holdsChannels r.state = false → r.reach = .none ∧ c = .powerOn)
    ∧ (r.state = .serving → r.reach ≠ .none)
    ∧ (r.state ≠ .testing → r.measurement = .none ∧ r.retryWait = none ∧ r.busyCount = 0)
    ∧ (r.state = .testing → (r.measurement = .none ↔ r.retryWait.isSome = true))
    ∧ r.busyCount ≤ Config.busyRetries
    ∧ (r.retest.isSome = true ↔ r.state = .faulted ∨ (r.state = .serving ∧ ∃ x, r.reach = .limit x))

def EndsOk (s : State) : Prop := ∀ e : EndId, EndOk (starting s) (s.endRec e) (s.chan e)

/-- The six counters of an end are at most 65,535 (R134). -/
def Counters.ok (c : Counters) : Prop :=
  c.pollsSent ≤ Config.counterTop ∧ c.goodReplies ≤ Config.counterTop ∧ c.corruptReplies ≤ Config.counterTop
    ∧ c.noReplies ≤ Config.counterTop ∧ c.mismatches ≤ Config.counterTop ∧ c.measurements ≤ Config.counterTop

/-- The four counters of a burst are at most 65,535 (R136). -/
def Burst.ok (b : Burst) : Prop :=
  b.sent ≤ Config.counterTop ∧ b.echoedGood ≤ Config.counterTop ∧ b.echoedBad ≤ Config.counterTop
    ∧ b.noEcho ≤ Config.counterTop

def BurstRecord.ok : BurstRecord → Prop
  | .none => True
  | .running b => b.ok
  | .ended b _ => b.ok

/-- The counters of a link are at most 65,535 (R143). -/
def LinkRecord.countersOk (l : LinkRecord) : Prop :=
  l.good ≤ Config.counterTop ∧ l.badCheck ≤ Config.counterTop ∧ l.discarded ≤ Config.counterTop

/-- Every saturating counter is at most 65,535 (R134, R136, R143), and no failure count is above M (R43, R10). -/
def CountersOk (s : State) : Prop :=
  (∀ e : EndId, (s.counters e).ok ∧ (s.burst e).ok)
    ∧ s.linkA.countersOk ∧ s.linkB.countersOk
    ∧ ∀ i : Slot, (s.post i).failures ≤ s.store.site.global.threshold

/-- A live call's parties are on different links, each UP; a call that is OFFERED or CLEARING has none (R102, R104, R106). -/
def PartiesOk (s : State) : Prop :=
  ∀ (i : CallIdx) (k : LiveCall), s.liveCall i = some k →
    (k.parties.map Party.link).Nodup ∧ (∀ p ∈ k.parties, (s.link p.link).up = true)
      ∧ (k.state = .offered ∨ k.state = .clearing → k.parties = [])

/-- A call that is not CONNECTING, CONNECTED or PARKED, that is one OFFERED, RINGING, LINE LOST or CLEARING, has no line channel and no
channel request (R106, R110). -/
def CallLinesOk (s : State) : Prop :=
  ∀ (i : CallIdx) (k : LiveCall), s.liveCall i = some k → needsItsEnd k.state = false → k.channel = none ∧ k.request = none

/-- On an end, the channel records and entries for a post are those that name the reference, and no other end has one that names
it (R74, R76). -/
def placesMatch (s : State) (e : EndId) (i : Slot) (ref : CallRef) : Bool :=
  (allEnds.all fun d => decide (d = e) || !usesEnd s ref d)
    && ((allFin 4).all fun c => match nth (s.chan e).channels c with
      | .call r j => decide (r = ref ↔ j = i)
      | .free => true
      | .group _ => true)
    && (s.chan e).waiting.all fun w => match w with
      | .call _ r j _ => decide (r = ref ↔ j = i)
      | .announce _ _ => true

/-- A list of slots in ascending order, none held twice (R11). -/
def Ascending (l : List Slot) : Prop := l.Pairwise (· < ·)

/-- Every membership, in the store, in the working copy and in flight, and every list of member outcomes is in ascending order of
slot (R11, R115). -/
def GroupsOk (s : State) : Prop :=
  (∀ (g : GroupId) (l : List Slot), nth s.store.stored.groups g = .valid l → Ascending l)
    ∧ (∀ g : GroupId, Ascending (s.membership g))
    ∧ (∀ (o : StoreOperation) (g : GroupId) (l : List Slot), inFlight s = some o → o.write = .group g l → Ascending l)
    ∧ ∀ g : GroupId, Ascending (memberSlots s g)

/-- The volatile state of the blocks behind the link controllers as power-on leaves it (R29); the loop currents are inputs. -/
def BlocksAtPowerOn (s : State) : Prop :=
  s.line = { LineBlock.powerOn with ports := s.line.ports.map fun p => { Port.powerOn with current := p.current } }
    ∧ s.arbiter = Vector.replicate 16 .powerOn ∧ s.calls = .powerOn ∧ s.groups = Vector.replicate 16 .powerOn

/-- While the start-up load runs, those blocks stay at their power-on values (R29). -/
def StartingOk (s : State) : Prop := s.store.state = .starting → BlocksAtPowerOn s

end Sys2Proof.Machine
end

