-- ==== Sys2Proof/Certificates/Slice0/Obligations.lean ====
section
/-! DEFINITION. The statements for the provers. Where a statement rests on a choice of the model, its docstring names the log entry. A
statement that ends in `Agree` gives the whole next state, less the transactions that idle ports begin at the end of the step
(`nextTransactionChosen` states those). -/

section
open Sys2Proof Sys2Proof.Machine

/-! ## The step -/

/-- A step carries out the command at the front of the queue with the rest of the queue. The model's choice, log 3: on an empty
queue one millisecond passes while the part has power, and nothing else changes. -/
def Obligations.stepRunsFrontCommand : Prop :=
  (∀ (c : Instr) (rest : List Instr) (s : State), step (s.withPending (c :: rest)) = exec c (s.withPending rest))
  ∧ ∀ s : State, s.pending = [] → step s = .next (if s.powered then { s with now := s.now + 1 } else s)

/-! ## Power -/

/-- Right after the release of the power-on reset: STARTING, every end UNFITTED with reach NONE, every post UNSERVED and IDLE,
channels and trunk slots free, no live call, no ACTIVE group, links DOWN, counters zero, the Timebase at 0. The conditions that
every step keeps hold. -/
def Obligations.resetLeavesPowerOnValues : Prop :=
  (State.reset.store.state = .starting ∧ State.reset.now = 0 ∧ State.reset.line.stampCounter = 0
      ∧ (∀ i : Slot, State.reset.post i =
          { reach := .unserved, hop := 0, reply := .unproven, failures := 0, silenceReported := false, unverified := false,
            sensors := ⟨false, false, false⟩, hook := .on, button := .none, activity := .idle, stamp := none })
      ∧ (∀ e : EndId, State.reset.endRec e =
          { state := .unfitted, reach := .none, fault := none, suppressed := none, busyCount := 0, retryWait := none,
            retest := none, measurement := .none, scanPosition := 0, commands := [], previous := none, cause := none })
      ∧ (∀ e : EndId, (State.reset.port e).reading = .lost ∧ portMode State.reset e = .quiet
          ∧ State.reset.counters e = ⟨0, 0, 0, 0, 0, 0⟩ ∧ State.reset.burst e = .none)
      ∧ (∀ (e : EndId) (c : Chan), nth (State.reset.chan e).channels c = .free)
      ∧ (∀ e : EndId, (State.reset.chan e).waiting = [] ∧ (State.reset.chan e).preempted = [])
      ∧ (∀ i : CallIdx, State.reset.record i = { generation := 0, live := none }) ∧ State.reset.calls.overflow = []
      ∧ (∀ g : GroupId, State.reset.group g =
          { active := false, source := none, start := none, readySent := false, timer := none, held := [], waiting := [],
            members := [], reason := none })
      ∧ ∀ x : LinkId, State.reset.link x =
          { up := false, silence := none, intake := [], queue := [], overrun := [], gap := false, heldStart := none, firstUp := true,
            latch := false, trunks := Vector.replicate 16 .free, good := 0, badCheck := 0, discarded := 0, lastSent := none })
  ∧ (LinksOk State.reset ∧ EndsOk State.reset ∧ CountersOk State.reset ∧ PartiesOk State.reset ∧ CallLinesOk State.reset
      ∧ GroupsOk State.reset ∧ StartingOk State.reset)

/-- POWER_ON_RESET loads each record by its condition, lists the bad ones, leaves the store as it was unless an operation was in
flight, and puts everything volatile at its power-on values. The model's choices: the working copy and the damaged list stand
loaded already in STARTING (log 6), the hop maps are empty until the load ends (log 10), and the loop currents and the waiting
commands are inputs that stay (log 7). -/
def Obligations.powerOnResetLoadsTheStore : Prop :=
  ∀ (reached : Nat) (s : State), ∃ t, exec (.powerOnReset reached) s = .next t
    ∧ t.powered = true ∧ t.now = 0 ∧ t.pending = s.pending ∧ t.store.state = .starting
    ∧ BlocksAtPowerOn t ∧ (∀ e, (t.port e).current = (s.port e).current) ∧ t.linkA = .powerOn ∧ t.linkB = .powerOn
    ∧ (s.powered = false ∨ inFlight s = none → t.store.stored = s.store.stored)
    ∧ (∀ i, t.entry i = match nth t.store.stored.entries i with | .valid c => c | .blank => .blank | .bad => .blank)
    ∧ (∀ g, t.segment g = match nth t.store.stored.segments g with | .valid c => c | .blank => .blank | .bad => .blank)
    ∧ (t.store.site.global = match t.store.stored.global with | .valid c => c | .blank => .default | .bad => .default)
    ∧ (∀ g, t.membership g = match nth t.store.stored.groups g with | .valid c => c | .blank => [] | .bad => [])
    ∧ (∀ r, r ∈ t.store.damaged ↔ match r with
        | .entry i => nth t.store.stored.entries i = .bad
        | .segment g => nth t.store.stored.segments g = .bad
        | .global => t.store.stored.global = .bad
        | .group g => nth t.store.stored.groups g = .bad)
    ∧ t.store.damaged.Nodup

/-- Loss of power during an operation leaves the record being programmed bad and every other record as it was. Of an erase, the
records before the one reached hold blank values, that one is bad, and the rest are old; the one reached is a record of the scope.
The model's choices: how far it had come is an operand (log 8), and without power the volatile state has its power-on values while
the loop currents and the waiting commands stay (log 7). -/
def Obligations.powerLossDamagesTheRecordInFlight : Prop :=
  ∀ (reached : Nat) (s : State), s.powered = true → ∃ t, exec (.powerLoss reached) s = .next t
    ∧ t.powered = false ∧ t.pending = s.pending ∧ BlocksAtPowerOn t ∧ t.linkA = .powerOn ∧ t.linkB = .powerOn
    ∧ (∀ e, (t.port e).current = (s.port e).current)
    ∧ (inFlight s = none → t.store.stored = s.store.stored)
    ∧ ∀ o, inFlight s = some o →
        match o.write with
        | .name i _ | .place i _ =>
          t.store.stored = { s.store.stored with entries := modNth s.store.stored.entries i fun _ => .bad }
        | .segment g _ => t.store.stored = { s.store.stored with segments := modNth s.store.stored.segments g fun _ => .bad }
        | .global _ => t.store.stored = { s.store.stored with global := .bad }
        | .group g _ => t.store.stored = { s.store.stored with groups := modNth s.store.stored.groups g fun _ => .bad }
        | .erase .directory =>
          t.store.stored = { s.store.stored with entries := t.store.stored.entries }
            ∧ ∀ i, nth t.store.stored.entries i =
                if i.val < min reached 255 then .valid .blank else if i.val = min reached 255 then .bad
                else nth s.store.stored.entries i
        | .erase .groups =>
          t.store.stored = { s.store.stored with groups := t.store.stored.groups }
            ∧ ∀ g, nth t.store.stored.groups g =
                if g.val < min reached 15 then .valid [] else if g.val = min reached 15 then .bad
                else nth s.store.stored.groups g
        | .erase .all =>
          let reached := min reached 280
          (∀ i, nth t.store.stored.entries i =
              if i.val < reached then .valid .blank else if i.val = reached then .bad else nth s.store.stored.entries i)
            ∧ (∀ g, nth t.store.stored.segments g =
                if 256 + g.val < reached then .valid .blank else if 256 + g.val = reached then .bad
                else nth s.store.stored.segments g)
            ∧ (t.store.stored.global =
                if 264 < reached then .valid .default else if 264 = reached then .bad else s.store.stored.global)
            ∧ ∀ g, nth t.store.stored.groups g =
                if 265 + g.val < reached then .valid [] else if 265 + g.val = reached then .bad
                else nth s.store.stored.groups g

/-- At the end of the load, with the blocks still at their power-on values: the ends of fitted segments go SERVING FULL, the others
stay UNFITTED; a present post of a fitted segment is SERVED by its primary end at its hop, any other is UNSERVED; the Store
Controller is READY; each UP link gets its held LINK START, then END STATE of the ends that went SERVING, in ascending order. -/
def Obligations.startUpLoadEndStartsService : Prop :=
  ∀ s : State, s.powered = true → s.store.state = .starting → BlocksAtPowerOn s →
    ∃ t, exec .startUpLoadEnd s = .next t
      ∧ t.store = { s.store with state := .ready } ∧ t.now = s.now ∧ t.arbiter = s.arbiter ∧ t.calls = s.calls
      ∧ t.groups = s.groups ∧ t.pending = s.pending ∧ t.powered = true
      ∧ (∀ seg, t.hopMap seg = hopMapOf s seg)
      ∧ (∀ e, (t.endRec e).core =
          if (s.segment e.seg).fitted then
            { EndRecord.powerOn with state := .serving, reach := .full, previous := some .unfitted, cause := some .startUp }
          else .powerOn)
      ∧ (∀ i, t.post i =
          if (s.entry i).place.present = true ∧ (s.segment (s.entry i).place.seg).fitted = true then
            { PostRow.powerOn with reach := .served (primaryEnd s i), hop := hopFrom t (primaryEnd s i) i }
          else .powerOn)
      ∧ ∀ x, (s.link x).up = true → (s.link x).queue.length ≤ 47 → ∀ r, (s.link x).heldStart = some r →
          t.link x = { s.link x with
            heldStart := none, gap := false
            queue := (s.link x).queue ++ .report (s.link x).gap (.linkStart (fillDamaged s r)) ::
              ((allEnds.filter fun e => (s.segment e.seg).fitted).map fun e => .report false (.endState (endStateOf t e))) }

/-! ## The links -/

/-- A frame received on an UP link: bad-check frames are counted and do no more; a valid frame restarts the silence timer, and a
request frame enters the intake buffer at its tail or, with 8 frames there, is discarded. A bad-check frame is counted in DOWN
too. -/
def Obligations.frameReceivedIsClassed : Prop :=
  ∀ (x : LinkId) (octets : List Byte) (s : State), s.powered = true →
    (deframe octets = none → exec (.frameReceived x octets) s =
        .next (s.modLink x fun l => { l with badCheck := satInc l.badCheck }))
    ∧ ∀ f, deframe octets = some f → (s.link x).up = true →
        exec (.frameReceived x octets) s = .next (s.modLink x fun l =>
          let l := { l with silence := some (s.now + 1000 * s.store.site.global.silence) }
          if f.typ = 0 then l
          else if l.intake.length < 8 then { l with intake := l.intake ++ [f], good := satInc l.good }
          else { l with discarded := satInc l.discarded })

/-- A valid frame brings a DOWN link UP: its frame counters start at 0, LINK START is built, and held in STARTING; every OFFERED call
then due to the link is offered to it, by one OFFER each in queue order, and nothing else is placed. -/
def Obligations.validFrameBringsLinkUp : Prop :=
  ∀ (x : LinkId) (octets : List Byte) (f : Frame) (s : State),
    s.powered = true → LinksOk s → (s.link x).up = false → deframe octets = some f →
    ∃ t, exec (.frameReceived x octets) s = .next t
      ∧ t = { s with linkA := t.linkA, linkB := t.linkB, calls := { s.calls with records := t.calls.records } }
      ∧ t.link (otherLink x) = s.link (otherLink x)
      ∧ (∃ start : LinkStart,
          start = { link := x, powerOn := (s.link x).firstUp, runningTime := min (s.now / 1000) 4294967, good := (s.link x).good,
                    badCheck := (s.link x).badCheck, discarded := (s.link x).discarded, damagedCount := 0, damaged := [] }
          ∧ t.link x = { s.link x with
              up := true, firstUp := false, silence := some (s.now + 1000 * s.store.site.global.silence), badCheck := 0, discarded := 0
              good := if f.typ = 0 then 0 else 1
              intake := if f.typ = 0 then [] else [f]
              heldStart := if s.store.state = .starting then some start else none
              queue := (if s.store.state = .starting then []
                  else [.report false (.linkStart { start with damagedCount := s.store.damaged.length
                                                               damaged := s.store.damaged.take 16 })]) ++
                ((callQueue s).filter fun p => !p.2.offered.has x && dueTo s p.2 x).map fun p =>
                  .report false (offerOf s p.1 (joinOffered s x p.2)) })
      ∧ ∀ i, (t.record i).generation = (s.record i).generation
          ∧ t.liveCall i = (s.liveCall i).map fun k =>
              if k.state = .offered ∧ k.offered.has x = false ∧ dueTo s k x = true then joinOffered s x k else k

/-- A link that goes DOWN, by a loss of framing or by the expiry of its silence timer: its record is emptied, its latch cleared and its
trunk slots FREE; no call keeps it as a party, no OFFERED call in its offered set. A call with another party keeps that one, told PARTY
LEFT, LINK LOST. A call whose sole party it was: inbound, it is OFFERED with the dropped flag, its stamp and class, with no channel and
RELEASE placed, and is offered to the other link if that is UP, with its rank in the queue when the event ends (log 55); in LINE LOST
it stays so, with the dropped flag and no party; outbound, its record is freed before the post has answered, and CLEARING after (the
model's note of an earlier PARKED, log 17, is left out of what is said). A group whose source link it is ends SOURCE LOST; the other
link is only told; the store and the ends' states stay. A report is placed while room is left. A loss of framing in DOWN has no
effect. -/
def Obligations.linkDownLeavesNothing : Prop :=
  (∀ (x : LinkId) (s : State), s.powered = true → (s.link x).up = true → (s.link x).silence.isSome = true → PartiesOk s → CallLinesOk s →
    ∀ c, c = .lossOfFraming x ∨ c = .silenceTimerExpiry x →
    ∃ t, exec c s = .next t
      ∧ t.link x = { s.link x with up := false, silence := none, intake := [], queue := [], gap := false, heldStart := none,
                                   latch := false, trunks := Vector.replicate 16 .free }
      ∧ OnlyTold (s.link (otherLink x)) (t.link (otherLink x))
      ∧ (∀ i k, t.liveCall i = some k →
          (∀ p ∈ k.parties, p.link ≠ x) ∧ (k.state = .offered → k.offered.has x = false))
      ∧ (∀ i k, s.liveCall i = some k → (∃ p ∈ k.parties, p.link = x) → (∃ p ∈ k.parties, p.link ≠ x) →
          (∃ l, t.liveCall i = some l ∧ l.parties = k.parties.filter fun p => decide (p.link ≠ x))
          ∧ ∀ p ∈ k.parties, p.link ≠ x → (t.link p.link).queue.length < 64 → ∃ gap body, body.event = .partyLeft
              ∧ body.reason = .linkLost ∧ body.ref = s.refOfRecord i ∧ QueueEntry.report gap (.callState body) ∈ (t.link p.link).queue)
      ∧ (∀ i k, s.liveCall i = some k → (∃ p, k.parties = [p] ∧ p.link = x) →
          (k.direction = .inbound → k.state = .connecting ∨ k.state = .connected ∨ k.state = .parked →
            (∃ l, t.liveCall i = some l ∧ l.slot = k.slot ∧ l.direction = .inbound ∧ l.state = .offered ∧ l.flags.dropped = true
              ∧ l.stamp = k.stamp ∧ l.cls = k.cls ∧ l.parties = [] ∧ l.channel = none ∧ l.request = none
              ∧ l.offered.has (otherLink x) = (s.link (otherLink x)).up
              ∧ ((s.link (otherLink x)).up = true → (t.link (otherLink x)).queue.length < 64 →
                  ∃ gap name, name.slot = k.slot ∧ QueueEntry.report gap (.offer (t.refOfRecord i) l.cls (queueRank t i) l.stamp
                    l.flags name) ∈ (t.link (otherLink x)).queue))
            ∧ ((s.post k.slot).reach ≠ .unserved → (∀ j d, s.liveCall j = some d → d.slot = k.slot → j = i) →
                ∃ e y, y ∈ (t.endRec e).commands ∧ y.slot = k.slot ∧ y.command = .release))
          ∧ (k.direction = .inbound → k.state = .lineLost →
            t.liveCall i = some { k with parties := [], flags := { k.flags with dropped := true } })
          ∧ (k.direction = .outbound → k.stamp = none → k.state ≠ .clearing → k.state ≠ .offered →
            (t.record i).generation = (s.record i).generation + 1 ∧ ∀ l, t.liveCall i = some l → l.parties = [])
          ∧ (k.direction = .outbound → k.stamp ≠ none → k.state ≠ .clearing → k.state ≠ .offered →
            ∃ note, t.liveCall i = some { k with parties := [], channel := none, request := none, state := .clearing,
                                                 timer := some (.clearConfirm, t.now + 2000), resuming := note }))
      ∧ (∀ g p, (s.group g).active = true → (s.group g).source = some p →
          if p.link = x then (t.group g).active = false ∧ (t.group g).reason = some .sourceLost
          else (t.group g).active = true ∧ (t.group g).reason = (s.group g).reason)
      ∧ t.store = s.store ∧ ∀ e, (t.endRec e).core = (s.endRec e).core)
  ∧ ∀ (x : LinkId) (s : State), (s.link x).up = false → exec (.lossOfFraming x) s = .next s

/-- A report goes to the tail of the queue of an UP link, with the gap indication if the flag was set, and clears the flag; at 64
entries it is discarded and the flag set; for a DOWN link nothing is placed and no flag is set; a response leaves the flag as it
is. The oldest entry of the queue is sent as a frame and leaves the queue; with an empty queue an idle frame is sent. The frame
sent last is the link's output (log 27). -/
def Obligations.reportQueue : Prop :=
  (∀ (x : LinkId) (r : Report) (s : State),
      ((s.link x).up = true → (s.link x).queue.length < 64 →
        report x r s = s.modLink x fun l => { l with queue := l.queue ++ [.report l.gap r], gap := false })
      ∧ ((s.link x).up = true → 64 ≤ (s.link x).queue.length → report x r s = s.modLink x fun l => { l with gap := true })
      ∧ ((s.link x).up = false → report x r s = s)
      ∧ ∀ tag typ result body, ((respond x tag typ result body s).link x).gap = (s.link x).gap)
  ∧ (∀ (x : LinkId) (s : State), s.powered = true →
      (∀ q rest, (s.link x).queue = q :: rest →
        exec (.reportFrameSent x) s =
          .next (s.modLink x fun l => { l with queue := rest, lastSent := some (enframe (entryFrame q)) }))
      ∧ ((s.link x).queue = [] →
        exec (.reportFrameSent x) s =
          .next (s.modLink x fun l => { l with lastSent := some (enframe { typ := 0, tag := 0, body := [] }) })))

/-- A frame at the head of the intake buffer that fails the structural check is answered BAD REQUEST in every state of the Store
Controller, and leaves the buffer; nothing else changes. -/
def Obligations.malformedRequestIsAnsweredBadRequest : Prop :=
  ∀ (x : LinkId) (f : Frame) (rest : List Frame) (s : State), canTake s x = true → (s.link x).intake = f :: rest →
    parseRequest f = none →
    exec (.badRequestFrame x f.tag f.typ) s =
      .next (s.modLink x fun l =>
        { l with intake := rest, queue := l.queue ++ [.response f.tag f.typ .badRequest .empty] })

/-! ## Taking requests -/

/-- In STARTING every request taken is answered NOT READY and does nothing else. A request waits, and nothing changes, while its
link is DOWN, while its link's queue has no room for the response, and while another frame stands before it (log 2). -/
def Obligations.requestsInStartingAndWaiting : Prop :=
  (∀ (c : Instr) (x : LinkId) (tag : Byte) (r : Request) (s : State), c.sender = some (x, tag) → c.request = some r →
      Ready s x tag r → s.store.state = .starting → exec c s = .next (taken x tag r .notReady .empty s))
  ∧ (∀ (c : Instr) (x : LinkId) (tag : Byte) (r : Request) (s : State), c.sender = some (x, tag) → c.request = some r →
      ¬ Ready s x tag r → exec c s = .next s)

/-- Each request taken leaves the intake buffer and receives exactly one response, which carries its tag and type and stands
before every report that the taking causes on the same link; on the other link only reports are placed. -/
def Obligations.oneResponseForEachRequest : Prop :=
  ∀ (c : Instr) (x : LinkId) (tag : Byte) (r : Request) (s : State), c.sender = some (x, tag) → c.request = some r →
    Ready s x tag r → ∃ t, exec c s = .next t ∧ (t.link x).intake = (s.link x).intake.tail
      ∧ (∃ result body, OnlyReports ((s.link x).queue ++ [.response tag (requestType r) result body]) (t.link x).queue)
      ∧ OnlyReports (s.link (otherLink x)).queue (t.link (otherLink x)).queue
      ∧ (t.link (otherLink x)).intake = (s.link (otherLink x)).intake

/-- A request answered with any result but OK changes nothing: it leaves the intake buffer and its response is placed, with no body. -/
def Obligations.refusedRequestChangesNothing : Prop :=
  ∀ (c : Instr) (x : LinkId) (tag : Byte) (r : Request) (s t : State) (result : Result) (body : ResponseBody),
    c.sender = some (x, tag) → c.request = some r → Ready s x tag r → exec c s = .next t →
    (t.link x).queue[(s.link x).queue.length]? = some (.response tag (requestType r) result body) → result ≠ .ok →
    t = taken x tag r result .empty s

/-- What a centre sends is what the part reads: a well-formed request, framed with its tag, is delimited whole and parsed as that
request. -/
def Obligations.requestFramesReadBack : Prop :=
  ∀ (tag : Byte) (r : Request), r.wf = true →
    deframe (enframe (requestFrame tag r)) = some (requestFrame tag r) ∧ parseRequest (requestFrame tag r) = some r

/-! ## The whole part -/

/-- The stored records, the working copy and the damaged list change at the completion of a programming operation, at power-on and at
loss of power, and at no other command: a write that is taken changes no content. The Store Controller leaves READY for BUSY only by
an accepted write request of a link with its latch set, whose operation record holds the kind and index of the request, the link and
the tag; BUSY for READY only by the completion of the operation in flight; and STARTING only at the end of the load. Loss of power
leaves STARTING (the model's reading, log 7). -/
def Obligations.storeChangesOnlyByWrites : Prop :=
  (∀ (c : Instr) (s t : State), exec c s = .next t →
      (t.store.stored = s.store.stored ∧ t.store.site = s.store.site ∧ t.store.damaged = s.store.damaged)
        ∨ c = .nameWriteCompletion ∨ c = .placeCompletion ∨ c = .segmentWriteCompletion ∨ c = .globalWriteCompletion
        ∨ c = .groupEditCompletion ∨ c = .eraseCompletion ∨ ∃ n, c = .powerOnReset n ∨ c = .powerLoss n)
  ∧ (∀ (c : Instr) (s t : State), exec c s = .next t →
      t.store.state = s.store.state
        ∨ (c = .startUpLoadEnd ∧ s.store.state = .starting ∧ t.store.state = .ready)
        ∨ (∃ x tag q o, c.sender = some (x, tag) ∧ c.request = some q ∧ Takes s x tag q ∧ s.store.state = .ready
            ∧ t.store.state = .busy o ∧ o.writer = x ∧ o.tag = tag ∧ (s.link x).latch = true ∧
            match q with
            | .writeName post _ => ∃ i v, slotOf post = some i ∧ o.write = .name i { s.entry i with name := v }
            | .writePlace post _ => ∃ i v, slotOf post = some i ∧ o.write = .place i { s.entry i with place := v }
            | .writeSegment seg _ => ∃ i v, segOf seg = some i ∧ o.write = .segment i v
            | .writeGlobal _ => ∃ v, o.write = .global v
            | .groupEdit group _ _ => ∃ i m, groupOf group = some i ∧ o.write = .group i m
            | .storeErase code => ∃ scope, scopeOf code = some scope ∧ o.write = .erase scope ∧ (s.link (otherLink x)).latch = true
            | _ => False)
        ∨ (∃ o, s.store.state = .busy o ∧ t.store.state = .ready ∧
            match o.write with
            | .name _ _ => c = .nameWriteCompletion
            | .place _ _ => c = .placeCompletion
            | .segment _ _ => c = .segmentWriteCompletion
            | .global _ => c = .globalWriteCompletion
            | .group _ _ => c = .groupEditCompletion
            | .erase _ => c = .eraseCompletion)
        ∨ ((∃ n, c = .powerOnReset n ∨ c = .powerLoss n) ∧ t.store.state = .starting))

/-- The state, reach, fault record, measurement and timers of an end change only by a command about that end, by a completion for its
segment or an erase, by the end of the load and by power. -/
def Obligations.endsChangeOnlyByTheirCommands : Prop :=
  ∀ (c : Instr) (e : EndId) (s t : State), exec c s = .next t →
    (t.endRec e).core = (s.endRec e).core
      ∨ match c with
        | .powerOnReset _ | .powerLoss _ | .startUpLoadEnd | .eraseCompletion => True
        | .segmentWriteCompletion => ∃ o r, inFlight s = some o ∧ o.write = .segment e.seg r
        | .endServiceOff _ _ code _ | .endServiceOn _ _ code | .lineTest _ _ code => endOf code = some e
        | .pollReply d _ | .pollWindowExpiry d | .loopLossEvent d | .measurementBegin d | .measurementResult d _ _ _
        | .retryWaitExpiry d | .retestTimerExpiry d => d = e
        | _ => False

/-! ## Conditions that every step keeps -/

/-- Every step keeps each link record within its buffers, with no report kept from an earlier event (log 15), and a DOWN link
empty with its latch clear and its trunk slots FREE. -/
def Obligations.stepKeepsLinks : Prop := ∀ s t : State, LinksOk s → step s = .next t → LinksOk t

/-- Every step keeps each end's record consistent with its state, and an end that is not SERVING or TESTING without channels. -/
def Obligations.stepKeepsEnds : Prop := ∀ s t : State, EndsOk s → step s = .next t → EndsOk t

/-- Every step keeps the counters at or below 65,535 and each failure count at or below M. -/
def Obligations.stepKeepsCounters : Prop := ∀ s t : State, CountersOk s → step s = .next t → CountersOk t

/-- Every step keeps a live call's parties on different links, each UP, and an OFFERED or CLEARING call without parties; and it keeps
an OFFERED, RINGING, LINE LOST or CLEARING call without a line channel and without a channel request. -/
def Obligations.stepKeepsParties : Prop :=
  (∀ s t : State, PartiesOk s → step s = .next t → PartiesOk t)
  ∧ ∀ s t : State, CallLinesOk s → step s = .next t → CallLinesOk t

/-- Every step keeps the memberships and the member outcomes in ascending order of slot, no slot twice. -/
def Obligations.stepKeepsGroups : Prop := ∀ s t : State, GroupsOk s → step s = .next t → GroupsOk t

/-- While the load runs, every step leaves the blocks behind the links at their power-on values. -/
def Obligations.stepKeepsStarting : Prop := ∀ s t : State, StartingOk s → step s = .next t → StartingOk t

/-! ## Computed values -/

/-- The Location Unit by R14 and R65. The chainage of a cable position is the anchor plus or minus floor(p × 1000 / lay ratio), held at
999,999 and at 0; it never moves against the direction of the segment and lies between the chainages of positions 0 and L. A name
block built without an override, and the fault record of every result taken, carry the chainage that the segment record of the
working copy gives at that moment. The distance of a fault is floor(T × S / 200), at most 19,659, and its record carries it. -/
def Obligations.locationArithmetic : Prop :=
  (∀ (r : SegRecord) (p : Nat), r.anchor ≤ 999999 →
      (p ≤ 12000 → 1000 ≤ r.layRatio → p * 1000 / r.layRatio ≤ 12000)
      ∧ (r.direction = .increasing → chainageOf r p = min 999999 (r.anchor + p * 1000 / r.layRatio))
      ∧ (r.direction = .decreasing → (chainageOf r p : Int) = max 0 ((r.anchor : Int) - (p * 1000 / r.layRatio : Nat)))
      ∧ chainageOf r p ≤ 999999
      ∧ (∀ q, p ≤ q → match r.direction with
          | .increasing => chainageOf r p ≤ chainageOf r q
          | .decreasing => chainageOf r q ≤ chainageOf r p)
      ∧ (p ≤ r.cableLength →
          min (chainageOf r 0) (chainageOf r r.cableLength) ≤ chainageOf r p
            ∧ chainageOf r p ≤ max (chainageOf r 0) (chainageOf r r.cableLength)))
  ∧ (∀ (s : State) (i : Slot), (s.entry i).place.present = true → (s.entry i).name.marker = none →
      (nameBlock s i).chainage = chainageOf (s.segment (s.entry i).place.seg) (s.entry i).place.position
        ∧ (nameBlock s i).source = .computed)
  ∧ (∀ (e : EndId) (kind : MeasKind) (delay : Nat) (coupled : Option SegId) (s : State), s.powered = true →
      (s.endRec e).state = .testing → (s.endRec e).measurement = .running → measurementWf e kind delay coupled = true →
      ¬ (kind = .busy ∧ (s.endRec e).busyCount < 3) →
      ∃ t f, exec (.measurementResult e kind delay coupled) s = .next t ∧ (t.endRec e).fault = some f
        ∧ f.chainage = f.position.map (chainageOf (s.segment e.seg))
        ∧ (hasDistance kind = true → f.distance = delay * (s.segment e.seg).speed / 200))
  ∧ (∀ (r : SegRecord) (delay : Nat), faultDistance r delay = delay * r.speed / 200
      ∧ (delay ≤ 16383 → r.speed ≤ 240 → faultDistance r delay ≤ 19659))

/-- What a result taken gives an end by R58, R66 and R67, for the kinds with a distance: in the feeder FAULTED; at or beyond the
far terminal SERVING FULL; inside, SERVING LIMIT x when the reach includes some post position from 1 to L − 1, and FAULTED when it
does not. -/
def Obligations.resultGivesReach : Prop :=
  ∀ (r : SegRecord) (side : Side) (kind : MeasKind) (delay : Nat), hasDistance kind = true →
    let d := delay * r.speed / 200
    let feeder := match side with | .a => r.feederA | .b => r.feederB
    (d < feeder → resultState r side kind delay = (.faulted, .none))
    ∧ (feeder + r.cableLength ≤ d → resultState r side kind delay = (.serving, .full))
    ∧ (feeder ≤ d → d < feeder + r.cableLength → ∃ x, x ≤ r.cableLength
        ∧ (match side with | .a => x = d - feeder | .b => x + (d - feeder) = r.cableLength)
        ∧ ((∃ p, 1 ≤ p ∧ p + 1 ≤ r.cableLength ∧ reaches side (.limit x) p = true) →
            resultState r side kind delay = (.serving, .limit x))
        ∧ ((∀ p, 1 ≤ p → p + 1 ≤ r.cableLength → reaches side (.limit x) p = false) →
            resultState r side kind delay = (.faulted, .none))
        ∧ (faultRecordOf r side kind delay none).position = some x
        ∧ (faultRecordOf r side kind delay none).chainage = some (chainageOf r x))

/-- The order of stamps of R47, across the wrap: b is later than a when b − a lies between 1 and 2^31 − 1, and then a is not later than
b. The stamp counter advances only at a good reply of a post: by one for a RING of a RINGING call refused OFF-HOOK and by one for a
call event, which the reply to a scan poll passes while its post has not moved, and the reply to a test frame in any case. It is 0
after power-on, and after loss of power (the model's reading, log 7). -/
def Obligations.stampsCountAndOrderEvents : Prop :=
  (∀ (a b : Stamp) (n : Nat),
      (earlier a b = true ↔ 1 ≤ (b - a).toNat ∧ (b - a).toNat ≤ 2147483647)
      ∧ (earlier a b = true → earlier b a = false)
      ∧ (1 ≤ n → n ≤ 2147483647 → earlier a (a + BitVec.ofNat 32 n) = true))
  ∧ (∀ (c : Instr) (s t : State), exec c s = .next t →
      t.line.stampCounter = s.line.stampCounter
        ∨ (∃ e os i hop carried r, c = .pollReply e os ∧ (s.port e).transaction = some (.poll i hop carried)
            ∧ pollReplyOf carried.isSome os = some r ∧ (answersRing s i carried r = true ∨ tellsCallEvent s i r = true))
        ∨ (∃ e os i hop n p counted r, c = .testFrameReply e os ∧ (s.port e).transaction = some (.test i hop n p counted)
            ∧ testReplyOf os = some r ∧ tellsCallEvent s i r = true)
        ∨ ((∃ n, c = .powerOnReset n ∨ c = .powerLoss n) ∧ t.line.stampCounter = 0))
  ∧ (∀ (e : EndId) (os : List Byte) (s : State) (i : Slot) (hop : Nat) (carried : Option (Command × Nat)) (r : Reply),
      s.powered = true → (s.port e).transaction = some (.poll i hop carried) → pollReplyOf carried.isSome os = some r →
      ∃ t, exec (.pollReply e os) s = .next t ∧ t.line.stampCounter =
        if (s.post i).reach = .served e ∧ (s.post i).hop = hop
          then s.line.stampCounter + (if answersRing s i carried r then 1 else 0) + (if tellsCallEvent s i r then 1 else 0)
          else s.line.stampCounter)
  ∧ (∀ (e : EndId) (os : List Byte) (s : State) (i : Slot) (hop : Nat) (n : BitVec 16) (p : Pattern) (counted : Bool) (r : Reply),
      s.powered = true → (s.port e).transaction = some (.test i hop n p counted) → testReplyOf os = some r →
      ∃ t, exec (.testFrameReply e os) s = .next t
        ∧ t.line.stampCounter = s.line.stampCounter + if tellsCallEvent s i r then 1 else 0)

/-- The hop map by R16: the present entries of the segment by ascending position; with n of them, place k has hop k from the A end and
n + 1 − k from the B end. -/
def Obligations.hopMapGivesHops : Prop :=
  ∀ (s : State) (seg : SegId),
    (∀ i, i ∈ hopMapOf s seg ↔ (s.entry i).place.present = true ∧ (s.entry i).place.seg = seg)
    ∧ (hopMapOf s seg).Nodup
    ∧ (hopMapOf s seg).Pairwise (fun i j => (s.entry i).place.position ≤ (s.entry j).place.position)
    ∧ ∀ (k : Nat) (i : Slot), (s.hopMap seg).Nodup → (s.hopMap seg)[k]? = some i →
        hopFrom s ⟨seg, .a⟩ i = k + 1 ∧ hopFrom s ⟨seg, .b⟩ i + k = (s.hopMap seg).length

/-- The serving assignment by R69: a present post of a fitted segment is assigned an end that is available to it when one of the
two is, its primary end when that one is available and its call does not hold it to another, and ISOLATED when neither is; any
other post is UNSERVED. A post that it changes: the row is set afresh at its hop, for one that becomes ISOLATED or UNSERVED too
(the model's choice for UNSERVED, log 29); ISOLATED or UNSERVED, its call is LINE LOST and its members are UNREACHABLE; served
again, from UNSERVED as from ISOLATED (the model's choice, log 40), a LINE LOST call is OFFERED, with an OFFER to each UP link
that it is due to, RINGING or PARKED, and a PARKED one asks for a channel of the end; on its other end, its call, in its one place
on the old end alone, asks for a channel there and its member is commanded, NO CHANNEL, PREEMPTED or PENDING by R126. A call whose
post takes a new hop on the same end parks and asks anew. -/
def Obligations.servingAssignment : Prop :=
  (∀ (s : State) (i : Slot),
    let p := (s.entry i).place
    let e := primaryEnd s i
    (e.seg = p.seg ∧ (e.side = .a ↔ p.position < (s.segment p.seg).split))
    ∧ (p.present = false ∨ (s.segment p.seg).fitted = false → assignedReach s i = .unserved)
    ∧ (p.present = true → (s.segment p.seg).fitted = true →
        (∀ d, assignedReach s i = .served d → d.seg = p.seg ∧ available s d p.position = true)
        ∧ assignedReach s i ≠ .unserved
        ∧ (assignedReach s i = .isolated ↔
            available s e p.position = false ∧ available s (otherEnd e) p.position = false)
        ∧ ((∀ c st d, s.callOf i = some c → s.callState c = some st → (st = .connecting ∨ st = .connected ∨ st = .parked) →
              (s.post i).reach = .served d → d.seg = p.seg → available s d p.position = false) →
            available s e p.position = true → assignedReach s i = .served e)
        ∧ ∀ c st d, s.callOf i = some c → s.callState c = some st → (st = .connecting ∨ st = .connected ∨ st = .parked) →
            (s.post i).reach = .served d → d.seg = p.seg → available s d p.position = true →
            assignedReach s i = .served d))
  ∧ (∀ (s : State) (i : Slot), assignedReach s i ≠ (s.post i).reach →
      let t := reassign i s
      let new := assignedReach s i
      ((t.post i).reach = new ∧ (t.post i).hop = hopFor s new i ∧ (t.post i).reply = .unproven ∧ (t.post i).failures = 0)
      ∧ (∀ j, j ≠ i → (t.post j).reach = (s.post j).reach ∧ (t.post j).hop = (s.post j).hop)
      ∧ (∀ c k, s.callOf i = some c → s.liveCall c = some k →
          (servingEnd t i = none → k.state ≠ .clearing → ∃ l, t.liveCall c = some l ∧ l.state = .lineLost
            ∧ l.parties = k.parties ∧ l.stamp = k.stamp ∧ (k.state = .offered → l.offered = .empty)
            ∧ (k.state ≠ .offered → k.state ≠ .lineLost → l.channel = none ∧ l.request = none))
          ∧ (∀ f, new = .served f → servingEnd s i = none → k.state = .lineLost →
            (k.direction = .inbound → k.parties = [] →
              ∃ l, t.liveCall c = some l
                ∧ { l with offered := .empty, timer := k.timer, flags := { l.flags with overflowed := k.flags.overflowed } }
                    = { k with state := .offered, offered := .empty, resuming := false }
                ∧ ∀ y, l.offered.has y = ((s.link y).up && dueTo s k y)
                  ∧ (l.offered.has y = true → (t.link y).queue.length < 64 → ∃ gap rank flags name, name.slot = i
                      ∧ QueueEntry.report gap (.offer (s.refOfRecord c) k.cls rank k.stamp flags name) ∈ (t.link y).queue))
            ∧ (k.direction = .outbound → k.stamp = none → t.liveCall c = some { k with state := .ringing })
            ∧ ((k.direction = .inbound ∧ k.parties ≠ []) ∨ (k.direction = .outbound ∧ k.stamp ≠ none) →
                ∃ l, t.liveCall c = some l ∧ l.parties = k.parties ∧ (l.state = .parked ∨ l.state = .connecting)
                  ∧ ((∃ ch, l.channel = some (f, ch)) ∨ ∃ kind, l.request = some (f, kind))))
          ∧ (∀ e f, (s.post i).reach = .served e → new = .served f → placesMatch s e i (s.refOfRecord c) = true →
            (k.state = .parked ∧ channelOfPost s e i = none ∨ (k.state = .connected ∨ k.state = .connecting) ∧
              (channelOfPost s e i).isSome = true ∧ entryOfPost i (s.chan e).waiting = none) →
            ∃ l, t.liveCall c = some l ∧ l.parties = k.parties ∧ (l.state = .parked ∨ l.state = .connecting)
              ∧ ((∃ ch, l.channel = some (f, ch)) ∨ ∃ kind, l.request = some (f, kind))))
      ∧ (∀ g, takingPart s g i = true →
          (servingEnd t i = none → outcomeOf t g i = some .unreachable)
          ∧ (∀ e f, (s.post i).reach = .served e → new = .served f → s.callOf i = none →
              (∀ h, h ≠ g → takingPart s h i = false) →
              match heldOnEnd (s.group g) f, (s.group g).readySent with
              | some _, _ => outcomeOf t g i = some (.pending .commanded)
              | none, true => outcomeOf t g i = some .noChannel
              | none, false => outcomeOf t g i = some .preempted ∨ ∃ phase, outcomeOf t g i = some (.pending phase))))
  ∧ (∀ (s : State) (i : Slot) (c : CallIdx) (k : LiveCall) (e : EndId), s.callOf i = some c → s.liveCall c = some k →
      (s.post i).reach = .served e → holdsChannels (s.endRec e).state = true →
      (k.state = .connected ∨ k.state = .parked ∨ (k.state = .connecting ∧ k.channel.isSome = true)) →
      ∃ l, (callHopMoved i s).liveCall c = some l ∧ l.parties = k.parties ∧ (l.state = .parked ∨ l.state = .connecting)
        ∧ ((∃ ch, l.channel = some (e, ch)) ∨ ∃ kind, l.request = some (e, kind)))

/-! ## Calls -/

/-- ANSWER of an OFFERED call by a link it is offered to, with a free trunk slot: the link is the sole party, the call is
CONNECTING, OFFER is withdrawn from the other link, and a channel is asked for on the post's serving end: granted when one is
free, taken from a group by a P3 or P2 call, else waited for. In service an OFFERED call uses no end. -/
def Obligations.answerConnectsTheCall : Prop :=
  ∀ (x : LinkId) (tag : Byte) (index generation slot : Nat) (s : State) (ref : CallRef) (k : LiveCall) (tr : Trunk),
    Takes s x tag (.answer index generation slot) → refOf index generation = some ref → liveRef s ref = some k →
    k.state = .offered → k.offered.has x = true → trunkOf slot = some tr → trunkFree s x tr = true →
    (∀ e, usesEnd s ref e = false) →
    let u := (taken x tag (.answer index generation slot) .ok .empty s).modLink x fun l =>
      { l with trunks := modNth l.trunks tr fun _ => .call ref }
    let u := if k.offered.has (otherLink x) then report (otherLink x) (.offerWithdrawn ref (.answered x)) u else u
    let u := u.modCall ref.index fun k =>
      { k with parties := [⟨x, tr⟩], timer := none, offered := .empty, state := .connecting, resuming := false }
    ∃ t, exec (.answer x tag index generation slot) s = .next t
      ∧ (∀ e, servingEnd s k.slot = some e → holdsChannels (s.endRec e).state = true →
          (∀ c, lowestFree s e = some c →
            Agree t (placeCommand k.slot (.connect c)
              ((u.modCall ref.index fun k => { k with channel := some (e, c), request := none }).modChan e fun r =>
                { r with channels := modNth r.channels c fun _ => .call ref k.slot })))
          ∧ (lowestFree s e = none → k.cls.rank < 2 ∨ preemptable s e = none →
            Agree t ((u.modCall ref.index fun k => { k with request := some (e, .connect) }).modChan e fun r =>
                { r with waiting := insertWaiter (.call .connect ref k.slot k.cls) r.waiting }))
          ∧ ∀ c g, lowestFree s e = none → 2 ≤ k.cls.rank → preemptable s e = some (c, g) →
              t.liveCall ref.index = (u.liveCall ref.index).map (fun k => { k with channel := some (e, c), request := none })
                ∧ nth (t.chan e).channels c = .call ref k.slot ∧ (∃ r, preemptedBy t e g = some r)
                ∧ (∀ i m, memberOf (t.group g) i = some m → servedFrom s e i = true → unsettled m.outcome = false)
                ∧ heldOnEnd (t.group g) e = none)
      ∧ (∀ d, (servingEnd s k.slot = none ∨ (servingEnd s k.slot = some d ∧ holdsChannels (s.endRec d).state = false)) → Agree t u)

/-- JOIN by a link that is no party yet: it becomes a second party with its slot, and CALL STATE PARTY JOINED goes to the party
there was. LEAVE by one of two parties: it is no party any more, its slot becomes FREE, and CALL STATE PARTY LEFT with the reason
LEAVE goes to the party that remains. The state of the call is not changed. -/
def Obligations.joinAndLeaveChangeTheParties : Prop :=
  (∀ (x : LinkId) (tag : Byte) (index generation slot : Nat) (s : State) (ref : CallRef) (k : LiveCall) (tr : Trunk),
      Takes s x tag (.join index generation slot) → refOf index generation = some ref → liveRef s ref = some k →
      (k.state = .connecting ∨ k.state = .connected ∨ k.state = .parked ∨ k.state = .lineLost) → isParty x k = false →
      trunkOf slot = some tr → trunkFree s x tr = true →
      ∃ t, exec (.join x tag index generation slot) s = .next t
        ∧ Agree t (reportCall ref.index .partyJoined .none false (k.parties.map Party.link)
            (((taken x tag (.join index generation slot) .ok .empty s).modLink x fun l =>
              { l with trunks := modNth l.trunks tr fun _ => .call ref }).modCall ref.index fun k =>
              { k with parties := k.parties ++ [⟨x, tr⟩] })))
  ∧ (∀ (x : LinkId) (tag : Byte) (index generation : Nat) (s : State) (ref : CallRef) (k : LiveCall) (p q : Party),
      Takes s x tag (.leave index generation) → refOf index generation = some ref → liveRef s ref = some k →
      (k.parties = [p, q] ∨ k.parties = [q, p]) → p.link = x → q.link ≠ x →
      ∃ t, exec (.leave x tag index generation) s = .next t
        ∧ Agree t (reportCall ref.index .partyLeft .leave false [q.link]
            (((taken x tag (.leave index generation) .ok .empty s).modLink x fun l =>
              { l with trunks := modNth l.trunks p.trunk fun v => if v = .call ref then .free else v }).modCall ref.index fun k =>
              { k with parties := [q] })))

/-- CLEAR by a party, and LEAVE by the sole party: the call is CLEARING with no party, no channel and no request, its parties'
slots are FREE, its channel and its waiting entry are given up, the clear confirm timer runs, and RELEASE waits for the post while
it is not UNSERVED and has no second record. A second party is told CALL STATE CLEARED BY PARTY, naming the link, before any other
report; it shows no party and no channel (the model's choice, log 19). Ends, store and groups' membership stay. -/
def Obligations.clearByPartyStartsClearing : Prop :=
  ∀ (x : LinkId) (tag : Byte) (index generation : Nat) (s : State) (ref : CallRef) (k : LiveCall) (c : Instr) (r : Request),
    (c = .clear x tag index generation ∧ r = .clear index generation
      ∨ c = .leave x tag index generation ∧ r = .leave index generation ∧ k.parties.length ≤ 1) →
    Takes s x tag r → refOf index generation = some ref → liveRef s ref = some k → isParty x k = true →
    k.state ≠ .offered → k.state ≠ .clearing →
    ∃ t, exec c s = .next t
      ∧ t.record ref.index = { generation := ref.generation
                               live := some { k with parties := [], channel := none, request := none, state := .clearing,
                                                     timer := some (.clearConfirm, s.now + 2000) } }
      ∧ (∀ p ∈ k.parties, nth (t.link p.link).trunks p.trunk ≠ .call ref)
      ∧ (∀ e ch, k.channel = some (e, ch) → nth (t.chan e).channels ch ≠ .call ref k.slot)
      ∧ (∀ e kd, k.request = some (e, kd) → (t.chan e).waiting.any (waitsFor ref) = false)
      ∧ ((s.post k.slot).reach ≠ .unserved → (∀ j d, s.liveCall j = some d → d.slot = k.slot → j = ref.index) →
          ∃ e y, y ∈ (t.endRec e).commands ∧ y.slot = k.slot ∧ y.command = .release)
      ∧ (∀ p ∈ k.parties, p.link ≠ x → (s.link p.link).up = true → (s.link p.link).queue.length < 64 →
          OnlyReports ((s.link p.link).queue ++ [.report (s.link p.link).gap (.callState
            { ref := ref, direction := k.direction, cls := k.cls, state := some .clearing, event := .clearedByParty, reason := .byLink x,
              parties := [], channel := none, name := nameBlock s k.slot })]) (t.link p.link).queue)
      ∧ t.store = s.store ∧ t.now = s.now ∧ (∀ e, (t.endRec e).core = (s.endRec e).core)
      ∧ ∀ g, memberSlots t g = memberSlots s g

/-- CLEAR of a call with no party, OFFERED to the link or LINE LOST, dismisses it: CALL UNANSWERED with the reason DISMISSED is
the first report on each UP link with room, the record is freed and its generation advances; with nothing deferred and an empty
overflow list it stays free and a CALLING post is IDLE. -/
def Obligations.clearWithoutPartyDismisses : Prop :=
  ∀ (x : LinkId) (tag : Byte) (index generation : Nat) (s : State) (ref : CallRef) (k : LiveCall),
    Takes s x tag (.clear index generation) → refOf index generation = some ref → liveRef s ref = some k →
    (k.state = .offered ∧ k.offered.has x = true ∨ k.state = .lineLost ∧ k.parties = []) →
    ∃ t, exec (.clear x tag index generation) s = .next t
      ∧ (t.record ref.index).generation = ref.generation + 1
      ∧ (k.deferred = none → s.calls.overflow = [] →
          t.liveCall ref.index = none ∧ ((s.post k.slot).activity = .calling → (t.post k.slot).activity = .idle))
      ∧ (∀ y, (s.link y).up = true → (s.link y).queue.length < 63 →
          OnlyReports ((s.link y).queue ++ (if y = x then [.response tag 0x23 .ok .empty] else []) ++
              [.report (s.link y).gap (.callUnanswered (nameBlock s k.slot) k.cls (.dismissed ref x))]) (t.link y).queue)
      ∧ t.store = s.store ∧ t.now = s.now ∧ ∀ e, (t.endRec e).core = (s.endRec e).core

/-- CALL POST of an IDLE, SERVED post with no record and no overflow entry, with a record and the trunk slot free: the lowest free
record is an outbound call, RINGING, class P0, with no stamp and the link as sole party; the post is RINGING, RING waits for it
and the ring timer runs. When the post takes part in no announcement, nothing else changes. How a command such as RING joins a
list: that of the serving end, or of an ISOLATED post's entries or primary end; it replaces the waiting one of its family and post
at that one's age, and else joins at the tail with the next number of the placing sequence; for an UNSERVED post it is discarded.
-/
def Obligations.callPostRings : Prop :=
  (∀ (x : LinkId) (tag : Byte) (post slot : Nat) (s : State) (p : Slot) (tr : Trunk) (i : CallIdx),
    Takes s x tag (.callPost post slot) → slotOf post = some p → trunkOf slot = some tr →
    (s.post p).activity = .idle → s.callOf p = none → s.onOverflow p = false → (servingEnd s p).isSome = true →
    s.freeRecord? = some i → trunkFree s x tr = true →
    let k : LiveCall :=
      { slot := p, direction := .outbound, cls := .p0, state := .ringing, stamp := none, offered := .empty,
        flags := ⟨false, false, false, (s.post p).unverified⟩, parties := [⟨x, tr⟩], channel := none, request := none,
        timer := some (.ring, s.now + 1000 * s.store.site.global.ring), deferred := none, resuming := false }
    ∃ t, exec (.callPost x tag post slot) s = .next t
      ∧ t.record i = { generation := (s.record i).generation, live := some k }
      ∧ nth (t.link x).trunks tr = .call ⟨i, (s.record i).generation⟩
      ∧ (t.post p).activity = .ringing
      ∧ (∀ g o, (s.group g).active = true → outcomeOf t g p = some o → unsettled o = false)
      ∧ ((∀ g, takingPart s g p = false) →
          Agree t (placeCommand p .ring
            ((((taken x tag (.callPost post slot) .ok .empty s).modRecord i fun r => { r with live := some k }).modLink x fun l =>
              { l with trunks := modNth l.trunks tr fun _ => .call ⟨i, (s.record i).generation⟩ }).modPost p fun r =>
              { r with activity := .ringing, stamp := none })))
      ∧ t.store = s.store ∧ t.now = s.now ∧ ∀ e, (t.endRec e).core = (s.endRec e).core)
  ∧ (∀ (i : Slot) (c : Command) (s : State),
      ((s.post i).reach = .unserved → placeCommand i c s = s)
      ∧ ∀ e, (s.post i).reach = .served e
          ∨ ((s.post i).reach = .isolated ∧ ((∃ y ∈ (s.endRec e).commands, y.slot = i)
              ∧ (∀ d, (∃ y ∈ (s.endRec d).commands, y.slot = i) → d = e)
            ∨ (∀ d, ∀ y ∈ (s.endRec d).commands, y.slot ≠ i) ∧ e = primaryEnd s i)) →
        let same (y : CommandEntry) : Prop := y.slot = i ∧ y.command.family = c.family
        ((∃ y ∈ (s.endRec e).commands, same y) → placeCommand i c s = s.modEnd e fun r =>
            { r with commands := r.commands.map fun y => if y.slot = i ∧ y.command.family = c.family then { y with command := c } else y })
        ∧ ((∀ y ∈ (s.endRec e).commands, ¬ same y) → placeCommand i c s =
            ({ s with line := { s.line with placings := s.line.placings + 1 } } : State).modEnd e fun r =>
              { r with commands := r.commands ++ [{ slot := i, command := c, age := s.line.placings + 1 }] }))

/-- The order of the call queue by R90: the OFFERED records, each once, higher class first and earlier stamp first within a class,
while the stamps lie within half the counter's range; the rank is the place. -/
def Obligations.callQueueOrder : Prop :=
  ∀ s : State, (∃ b : Stamp, ∀ i k, s.liveCall i = some k → k.state = .offered →
      ∃ a, k.stamp = some a ∧ (a - b).toNat < 2147483648) →
    (∀ i k, (i, k) ∈ callQueue s ↔ s.liveCall i = some k ∧ k.state = .offered)
    ∧ ((callQueue s).map Prod.fst).Nodup
    ∧ (callQueue s).Pairwise (fun p q => q.2.cls.rank ≤ p.2.cls.rank
        ∧ (p.2.cls.rank = q.2.cls.rank → ∀ a b, p.2.stamp = some a → q.2.stamp = some b → earlier b a = false))
    ∧ ((callQueue s).Pairwise (fun p q => p.2.stamp ≠ q.2.stamp) →
        ∀ n i k, (callQueue s)[n]? = some (i, k) → queueRank s i = n + 1)

/-- The queries and DIRECTORY READ are answered OK with what the state holds, field by field, and change nothing else. The model's
choices: the index of the global record is not looked at (log 38), QUERY POST shows the lowest-numbered ACTIVE group in which the
post is PENDING or HEARING (log 37), and GROUP RESULT names an end for a PENDING member alone (log 34). -/
def Obligations.queriesReadTheState : Prop :=
  ∀ (x : LinkId) (tag : Byte) (s : State),
    (∀ start, Takes s x tag (.queryCalls start) → exec (.queryCalls x tag start) s =
      .next (taken x tag (.queryCalls start) .ok (.calls ((allFin 48).filter fun i => (s.liveCall i).isSome).length
        ((allFin 48).filter fun i => s.callState i == some .offered).length s.calls.overflow.length start
        ((((callQueue s).map Prod.fst ++ (allFin 48).filter fun i => (s.liveCall i).isSome && s.callState i != some .offered).drop
          start).take 8 |>.filterMap fun i => (s.liveCall i).map fun k =>
            { ref := ⟨i, (s.record i).generation⟩, slot := k.slot, direction := k.direction, cls := k.cls, state := k.state
              flags := k.flags, rank := queueRank s i, stamp := k.stamp, offered := k.offered, parties := k.parties
              channel := k.channel, request := k.request, timer := k.timer.map fun t => (t.1, t.2 - s.now) })) s))
    ∧ (∀ code e, endOf code = some e → Takes s x tag (.queryEnd code) → exec (.queryEnd x tag code) s =
      .next (taken x tag (.queryEnd code) .ok (.endRecord
        { state := { endId := e, state := (s.endRec e).state, reach := (s.endRec e).reach, previous := (s.endRec e).previous
                     cause := (s.endRec e).cause, fault := (s.endRec e).fault, suppressed := (s.endRec e).suppressed
                     postsServed := ((allFin 256).filter fun i => decide ((s.post i).reach = .served e)).length }
          measurement := (s.endRec e).measurement, busyCount := (s.endRec e).busyCount
          retryRemaining := (s.endRec e).retryWait.map fun n => n - s.now
          retestRemaining := (s.endRec e).retest.map fun n => n - s.now
          mode := match (s.endRec e).state with
            | .serving => if (s.endRec (otherEnd e)).measurement = .running then .held else .scanning
            | .testing => .measuring
            | .unfitted | .faulted | .off => .quiet
          reading := (s.port e).reading, scanPosition := (s.endRec e).scanPosition, commands := (s.endRec e).commands.length
          channels := (s.chan e).channels, waiting := (s.chan e).waiting, preempted := (s.chan e).preempted.map Prod.fst }) s))
    ∧ (∀ post i, slotOf post = some i → Takes s x tag (.queryPost post) → exec (.queryPost x tag post) s =
      .next (taken x tag (.queryPost post) .ok (.post
        { name := nameBlock s i, row := s.post i
          call := (s.callOf i).bind fun c => (s.liveCall c).map fun k => (⟨c, (s.record c).generation⟩, k.state)
          overflowRank := match s.calls.overflow.findIdx? fun o => decide (o.slot = i) with | some n => n + 1 | none => 0
          group := ((allFin 16).find? fun g => (s.group g).active &&
              (s.group g).members.any fun m => decide (m.slot = i) && unsettled m.outcome).bind fun g =>
            ((s.group g).members.find? fun m => decide (m.slot = i)).map fun m => (g, m.outcome)
          target := allEnds.any fun e => match s.burst e with | .running b => decide (b.target = i) | _ => false
          commands := (allEnds.map fun e => ((s.endRec e).commands.filter fun y => decide (y.slot = i)).length).sum
          commandsEnd := allEnds.find? fun e => (s.endRec e).commands.any fun y => decide (y.slot = i) }) s))
    ∧ (∀ group g first, groupOf group = some g → Takes s x tag (.groupResult group first) →
      exec (.groupResult x tag group first) s =
      .next (taken x tag (.groupResult group first) .ok (.group g (s.group g).active (s.group g).source (s.group g).start
        (s.group g).readySent (s.group g).reason (s.group g).members.length (countOutcomes (s.group g).members) first
        ((((s.group g).members.drop first).take 64).map fun m => ⟨m.slot, m.outcome,
          match m.outcome with | .pending _ => servingEnd s m.slot | _ => none⟩)) s))
    ∧ (∀ index first i, slotOf index = some i → Takes s x tag (.directoryRead 0 index first) →
      exec (.directoryRead x tag 0 index first) s = .next (taken x tag (.directoryRead 0 index first) .ok
        (.readEntry i (decide (RecordId.entry i ∈ s.store.damaged)) (s.entry i)) s))
    ∧ (∀ index first g, segOf index = some g → Takes s x tag (.directoryRead 1 index first) →
      exec (.directoryRead x tag 1 index first) s = .next (taken x tag (.directoryRead 1 index first) .ok
        (.readSegment g (decide (RecordId.segment g ∈ s.store.damaged)) (s.segment g)) s))
    ∧ (∀ index first, Takes s x tag (.directoryRead 2 index first) →
      exec (.directoryRead x tag 2 index first) s = .next (taken x tag (.directoryRead 2 index first) .ok
        (.readGlobal (decide (RecordId.global ∈ s.store.damaged)) s.store.site.global) s))
    ∧ (∀ index first g, groupOf index = some g → Takes s x tag (.directoryRead 3 index first) →
      exec (.directoryRead x tag 3 index first) s = .next (taken x tag (.directoryRead 3 index first) .ok
        (.readGroup g (decide (RecordId.group g ∈ s.store.damaged)) (s.membership g).length first
          (((s.membership g).drop first).take 64)) s))

/-- OVERFLOW_TIMER_EXPIRY of an OFFERED call: the overflowed flag is set, the timer stops, and the call is offered to every UP
link that it was not offered to, by an OFFER of the record as it then stands. The model's choice, log 3: an expiry sets the
Timebase to its own time at least. RING_TIMER_EXPIRY and CLEAR_CONFIRM_TIMER_EXPIRY free the record: its generation advances, and
its trunk slots and channel are given up; with nothing deferred and an empty overflow list it stays free, and a deferred event
becomes a new call, whose class the stored kind gives (for an absent entry the model's choice, log 58). At the ring timer's expiry
CALL STATE NO ANSWER, with the former parties and channel and state none (the model's reading, log 18), goes to each party, and
RELEASE is placed for the post, unless it is UNSERVED, when no other record is its. -/
def Obligations.callTimersExpire : Prop :=
  (∀ (i : CallIdx) (s : State) (k : LiveCall) (n : Nat), s.powered = true → s.liveCall i = some k → k.state = .offered →
      k.timer = some (.overflow, n) →
      ∃ t, exec (.overflowTimerExpiry i) s = .next t
        ∧ t.liveCall i = some { k with timer := none, flags := { k.flags with overflowed := true }
                                       offered := ⟨k.offered.a || s.linkA.up, k.offered.b || s.linkB.up⟩ }
        ∧ (∀ j, j ≠ i → t.record j = s.record j) ∧ (t.record i).generation = (s.record i).generation
        ∧ (∀ y, if (s.link y).up = true ∧ k.offered.has y = false ∧ (s.link y).queue.length < 64
                then t.link y = { s.link y with
                  gap := false
                  queue := (s.link y).queue ++ [.report (s.link y).gap (.offer ⟨i, (s.record i).generation⟩ k.cls (queueRank s i)
                    k.stamp { k.flags with overflowed := true } (nameBlock s k.slot))] }
                else (t.link y).queue = (s.link y).queue)
        ∧ t = { s with now := max s.now n, calls := { s.calls with records := t.calls.records }, linkA := t.linkA, linkB := t.linkB })
  ∧ (∀ (i : CallIdx) (s : State) (k : LiveCall) (n : Nat) (c : Instr), s.powered = true → s.liveCall i = some k →
      (c = .ringTimerExpiry i ∧ k.timer = some (.ring, n) ∧ (k.state = .ringing ∨ k.state = .lineLost)
        ∨ c = .clearConfirmTimerExpiry i ∧ k.timer = some (.clearConfirm, n) ∧ k.state = .clearing) →
      ∃ t, exec c s = .next t ∧ t.now = max s.now n
        ∧ (t.record i).generation = (s.record i).generation + 1
        ∧ (c = .ringTimerExpiry i →
            (∀ p ∈ k.parties, (s.link p.link).up = true → (s.link p.link).queue.length < 64 → ∃ gap, QueueEntry.report gap (.callState
              { ref := s.refOfRecord i, direction := k.direction, cls := k.cls, state := none, event := .noAnswer, reason := .none
                parties := k.parties, channel := k.channel, name := nameBlock s k.slot }) ∈ (t.link p.link).queue)
            ∧ ((s.post k.slot).reach ≠ .unserved → (∀ j d, s.liveCall j = some d → d.slot = k.slot → j = i) →
                ∃ e y, y ∈ (t.endRec e).commands ∧ y.slot = k.slot ∧ y.command = .release))
        ∧ (∀ p ∈ k.parties, nth (t.link p.link).trunks p.trunk ≠ .call (s.refOfRecord i))
        ∧ (∀ e ch, k.channel = some (e, ch) → nth (t.chan e).channels ch ≠ .call (s.refOfRecord i) k.slot)
        ∧ (s.calls.overflow = [] →
            match k.deferred with
            | none => t.liveCall i = none
            | some (b, stamp) => ∃ j d, t.liveCall j = some d ∧ d.slot = k.slot ∧ d.direction = .inbound
                ∧ d.stamp = some stamp ∧ d.cls = classOf b (s.entry k.slot).name.kind ∧ d.parties = [])
        ∧ t.store = s.store ∧ (∀ e, (t.endRec e).core = (s.endRec e).core) ∧ OnlyTold s.linkA t.linkA ∧ OnlyTold s.linkB t.linkB)

/-! ## Announcements -/

/-- ANNOUNCE START of an IDLE group with members and a free trunk slot: the group is ACTIVE with its source, its start time and
the acknowledge window running; its members are those of the working copy in slot order; a member that is not PENDING at START has
the first outcome of R118's table that applies; one that is PENDING is commanded, with ANNOUNCE of the lowest free channel in the
command list of its serving end, when a channel there is free and the end was never taken from the group, and else stays AWAITING
with the group in the end's waiting list at its place. -/
def Obligations.announceStartRuns : Prop :=
  ∀ (x : LinkId) (tag : Byte) (group slot : Nat) (s : State) (g : GroupId) (tr : Trunk),
    Takes s x tag (.announceStart group slot) → groupOf group = some g → (s.group g).active = false → s.membership g ≠ [] →
    trunkOf slot = some tr → trunkFree s x tr = true →
    let startsAs (i : Slot) : MemberOutcome :=
      if (s.entry i).place.present = false then .skippedAbsent
      else if (s.callOf i).isSome = true ∨ s.onOverflow i = true then .skippedInCall
      else if ∃ h : GroupId, h ≠ g ∧ takingPart s h i = true then .skippedBusy
      else match (s.post i).reach with
        | .served _ => .pending .awaiting
        | .isolated | .unserved => .unreachable
    ∃ t, exec (.announceStart x tag group slot) s = .next t
      ∧ (t.group g).active = true ∧ (t.group g).source = some ⟨x, tr⟩ ∧ (t.group g).start = some (BitVec.ofNat 32 s.now)
      ∧ (t.group g).timer = some (.window, s.now + 1000 * s.store.site.global.acknowledge) ∧ (t.group g).reason = none
      ∧ ((t.group g).readySent = true ↔ anyPending (t.group g) = false)
      ∧ nth (t.link x).trunks tr = .announce g ∧ memberSlots t g = s.membership g
      ∧ (∀ i ∈ s.membership g, startsAs i ≠ .pending .awaiting → outcomeOf t g i = some (startsAs i))
      ∧ (∀ i ∈ s.membership g, ∀ e c, startsAs i = .pending .awaiting → servingEnd s i = some e →
          holdsChannels (s.endRec e).state = true → preemptedBy s e g = none → heldByGroup s e g = none →
          (s.chan e).waiting.any (waitsForGroup g) = false → lowestFree s e = some c →
          outcomeOf t g i = some (.pending .commanded) ∧ nth (t.chan e).channels c = .group g ∧ (e, c) ∈ (t.group g).held
            ∧ ∃ y, y ∈ (t.endRec e).commands ∧ y.slot = i ∧ y.command = .announce c)
      ∧ (∀ i ∈ s.membership g, ∀ e, startsAs i = .pending .awaiting → servingEnd s i = some e →
          holdsChannels (s.endRec e).state = true → preemptedBy s e g = none → heldByGroup s e g = none →
          (s.chan e).waiting.any (waitsForGroup g) = false → lowestFree s e = none →
          outcomeOf t g i = some (.pending .awaiting) ∧ e ∈ (t.group g).waiting
            ∧ t.chan e = { s.chan e with waiting := insertWaiter (.announce g (BitVec.ofNat 32 s.now)) (s.chan e).waiting })
      ∧ (∀ h, h ≠ g → t.group h = s.group h) ∧ t.calls = s.calls ∧ t.store = s.store ∧ t.now = s.now
      ∧ (∀ e, (t.endRec e).core = (s.endRec e).core) ∧ ∀ i, t.post i = s.post i

/-- ANNOUNCE STOP of an ACTIVE group from either link: it is IDLE with the reason STOPPED and the link, holds and waits for no
channel, in its own record as in those of the ends, is in no preempted set, and its source slot is FREE; a COMMANDED member is NO
ANSWER, an AWAITING one NO CHANNEL, every other keeps its outcome. -/
def Obligations.announceStopEnds : Prop :=
  ∀ (x : LinkId) (tag : Byte) (group : Nat) (s : State) (g : GroupId), Takes s x tag (.announceStop group) →
    groupOf group = some g → (s.group g).active = true → GroupsOk s →
    ∃ t, exec (.announceStop x tag group) s = .next t
      ∧ t.group g = { s.group g with
          active := false, timer := none, reason := some (.stopped x), held := [], waiting := []
          members := (s.group g).members.map fun m => match m.outcome with
            | .pending .commanded => { m with outcome := .noAnswer, leaving := false }
            | .pending .awaiting => { m with outcome := .noChannel, leaving := false }
            | _ => m }
      ∧ (∀ p, (s.group g).source = some p → nth (t.link p.link).trunks p.trunk ≠ .announce g)
      ∧ (∀ e, preemptedBy t e g = none)
      ∧ (∀ e c, heldOnEnd (s.group g) e = some c → nth (t.chan e).channels c ≠ .group g)
      ∧ (∀ e ∈ (s.group g).waiting, ((s.chan e).waiting.filter (waitsForGroup g)).length ≤ 1 →
          (t.chan e).waiting.any (waitsForGroup g) = false)
      ∧ (∀ i, outcomeOf s g i = some .hearing → (s.post i).activity = .hearing → (t.post i).activity = .idle)
      ∧ (∀ h, h ≠ g → memberSlots t h = memberSlots s h ∧ (t.group h).active = (s.group h).active)
      ∧ t.store = s.store ∧ t.now = s.now ∧ (∀ e, (t.endRec e).core = (s.endRec e).core)
      ∧ OnlyTold (s.link (otherLink x)) (t.link (otherLink x))

/-- The acknowledge timer in phase WINDOW: at its expiry every AWAITING member is NO CHANNEL and every COMMANDED member NO ANSWER,
the group waits for no channel, and the timer stops. In phase LATE: every COMMANDED member is NO ANSWER, and the timer stops. The
group stays ACTIVE. The changes are reported to each UP link in slot order, and after them READY if it was not sent yet, as many of
these reports as find a place; where one finds none, the gap flag is set. The model's choice: an expiry sets the Timebase to its
own time at least (log 3). -/
def Obligations.acknowledgeTimerSettles : Prop :=
  ∀ (g : GroupId) (s : State) (n : Nat), s.powered = true → (s.group g).active = true → GroupsOk s →
    let expired (m : Member) (o : MemberOutcome) : Report :=
      .announceException g m.slot o (s.group g).readySent (servingEnd s m.slot) none (nameBlock s m.slot)
    ((s.group g).timer = some (.window, n) → ∃ t, exec (.acknowledgeWindowExpiry g) s = .next t
      ∧ (t.group g).timer = none ∧ (t.group g).waiting = [] ∧ (t.group g).active = true ∧ (t.group g).readySent = true
      ∧ (t.group g).members = (s.group g).members.map (fun m => match m.outcome with
            | .pending .commanded => { m with outcome := .noAnswer, leaving := false }
            | .pending .awaiting => { m with outcome := .noChannel, leaving := false }
            | _ => m)
      ∧ (let told := (s.group g).members.filterMap (fun m => match m.outcome with
            | .pending .commanded => some (expired m .noAnswer)
            | .pending .awaiting => some (expired m .noChannel)
            | _ => none) ++ if (s.group g).readySent then [] else
              [.announceReady g (s.group g).source (s.group g).start (s.group g).members.length (countOutcomes (t.group g).members)]
          ∀ y, (s.link y).up = true → (s.link y).queue.length ≤ 64 →
            OnlyReports ((s.link y).queue ++ (placedReports (s.link y).gap told).take (64 - (s.link y).queue.length)) (t.link y).queue
              ∧ (64 < (s.link y).queue.length + told.length → (t.link y).gap = true))
      ∧ t.now = max s.now n ∧ t.store = s.store ∧ (∀ e, (t.endRec e).core = (s.endRec e).core)
      ∧ OnlyTold s.linkA t.linkA ∧ OnlyTold s.linkB t.linkB)
    ∧ ((s.group g).timer = some (.late, n) → ∃ t, exec (.acknowledgeLateExpiry g) s = .next t
      ∧ (t.group g).timer = none ∧ (t.group g).active = true
      ∧ (t.group g).members = (s.group g).members.map (fun m =>
            if m.outcome = .pending .commanded then { m with outcome := .noAnswer, leaving := false } else m)
      ∧ (let told := ((s.group g).members.filter fun m => decide (m.outcome = .pending .commanded)).map fun m => expired m .noAnswer
          ∀ y, (s.link y).up = true → (s.link y).queue.length ≤ 64 →
            OnlyReports ((s.link y).queue ++ (placedReports (s.link y).gap told).take (64 - (s.link y).queue.length)) (t.link y).queue
              ∧ (64 < (s.link y).queue.length + told.length → (t.link y).gap = true))
      ∧ t.now = max s.now n ∧ t.store = s.store ∧ (∀ e, (t.endRec e).core = (s.endRec e).core)
      ∧ OnlyTold s.linkA t.linkA ∧ OnlyTold s.linkB t.linkB)

/-! ## Ends and posts -/

/-- END SERVICE OFF of a SERVING, TESTING or FAULTED end: OFF with reach NONE, no suppressed post, no measurement and no timer,
its fault record kept; its channels are FREE, its waiting list and preempted set empty; it serves no present post of its segment.
-/
def Obligations.endServiceOffStopsTheEnd : Prop :=
  ∀ (x : LinkId) (tag : Byte) (code : Nat) (s : State) (e : EndId), Takes s x tag (.endService code 0) → endOf code = some e →
    ((s.endRec e).state = .serving ∨ (s.endRec e).state = .testing ∨ (s.endRec e).state = .faulted) →
    ∃ t, exec (.endServiceOff x tag code 0) s = .next t
      ∧ (t.endRec e).core = { (s.endRec e).core with
          state := .off, reach := .none, busyCount := 0, retryWait := none, retest := none, measurement := .none
          previous := some (s.endRec e).state, cause := some .serviceOff }
      ∧ (t.endRec e).suppressed = none ∧ t.chan e = .powerOn
      ∧ (∀ i, (s.entry i).place.present = true → (s.entry i).place.seg = e.seg → (t.post i).reach ≠ .served e)
      ∧ burstRuns t e = false
      ∧ (∀ d, d ≠ e → (t.endRec d).core = (s.endRec d).core) ∧ t.store = s.store ∧ t.now = s.now
      ∧ OnlyTold (s.link (otherLink x)) (t.link (otherLink x))

/-- END SERVICE ON of an OFF end, and LINE TEST of a FAULTED or OFF end, put it TESTING with its reach and fault record kept, a
measurement WAITING and its timers stopped; a burst on it ends ABORTED END TESTING; END STATE goes to both UP links. -/
def Obligations.testRequestsPutTheEndTesting : Prop :=
  ∀ (x : LinkId) (tag : Byte) (code : Nat) (s : State) (e : EndId) (c : Instr) (r : Request) (cause : EndCause),
    (c = .endServiceOn x tag code ∧ r = .endService code 1 ∧ cause = .serviceOn ∧ (s.endRec e).state = .off
      ∨ c = .lineTest x tag code ∧ r = .lineTest code ∧ cause = .lineTest
          ∧ ((s.endRec e).state = .faulted ∨ (s.endRec e).state = .off)) →
    Takes s x tag r → endOf code = some e →
    let u := endBurst e (.aborted .endTesting) ((taken x tag r .ok .empty s).modEnd e fun v =>
      { v with state := .testing, busyCount := 0, retryWait := none, retest := none, measurement := .waiting
               previous := some v.state, cause := some cause })
    ∃ t, exec c s = .next t ∧ Agree t (reportBoth (.endState (endStateOf u e)) u)

/-- LINE STATS: the response carries the six counters and the burst record as they stand; with the clear flag set the six counters
are then 0, and otherwise nothing changes. An end code outside 0A to 7B is refused OUT OF RANGE. -/
def Obligations.lineStatsReadsAndClears : Prop :=
  ∀ (x : LinkId) (tag : Byte) (code flag : Nat) (s : State), Takes s x tag (.lineStats code flag) →
    (∀ e, endOf code = some e →
      let u := taken x tag (.lineStats code flag) .ok (.stats e (s.counters e) (s.burst e)) s
      exec (.lineStats x tag code flag) s = .next (if flag = 0 then u else u.modCounters e fun _ => ⟨0, 0, 0, 0, 0, 0⟩))
    ∧ (endOf code = none → exec (.lineStats x tag code flag) s = .next (taken x tag (.lineStats code flag) .outOfRange .empty s))
    ∧ (endOf code = none ↔ 16 ≤ code)

/-- POST TEST, checked in the order of R137: OUT OF RANGE, POST BUSY, WRONG END STATE, TEST BUSY, else OK: the serving end runs a
burst of the post with its counters at 0 and its last transaction POLL, and the post is TESTED. POST TEST STOP from either UP link
is answered OK with whether a burst was RUNNING. If one was, it ends STOPPED naming the link, its target is IDLE if it was TESTED,
and TEST DONE goes to the requesting link; otherwise nothing changes. -/
def Obligations.postTestAndStop : Prop :=
  (∀ (x : LinkId) (tag : Byte) (post count pattern : Nat) (s : State), Takes s x tag (.postTest post count pattern) →
      ∃ t, exec (.postTest x tag post count pattern) s = .next t ∧
        let refuse (r : Result) := t = taken x tag (.postTest post count pattern) r .empty s
        if 255 < post ∨ 3 < pattern then refuse .outOfRange
        else ∃ (i : Slot) (p : Pattern), i.val = post ∧ patternCode p = pattern ∧
          match (s.post i).reach with
          | .served e =>
            if (s.post i).reply ≠ .answering ∨ (s.post i).activity ≠ .idle then refuse .postBusy
            else if (s.endRec e).state ≠ .serving then refuse .wrongEndState
            else if burstRuns s e = true then refuse .testBusy
            else Agree t (((taken x tag (.postTest post count pattern) .ok .empty s).modBurst e fun _ =>
                .running { target := i, requester := x, tag := tag, count := count, pattern := p, frameNumber := 0, last := .poll,
                           sent := 0, echoedGood := 0, echoedBad := 0, noEcho := 0 }).modPost i fun r =>
                { r with activity := .tested, stamp := none })
          | _ => refuse .postBusy)
  ∧ (∀ (x : LinkId) (tag : Byte) (code : Nat) (s : State) (e : EndId), Takes s x tag (.postTestStop code) → endOf code = some e →
      ∃ t, exec (.postTestStop x tag code) s = .next t ∧
        match s.burst e with
        | .running b =>
          let u := (taken x tag (.postTestStop code) .ok (.burstRunning true) s).modBurst e fun _ => .ended b (.stopped x)
          let u := if (s.post b.target).activity = .tested
            then u.modPost b.target fun r => { r with activity := .idle, stamp := none } else u
          Agree t (report b.requester (.testDone b.tag e (nameBlock s b.target) b.count b.pattern (.stopped x) b.sent b.echoedGood
            b.echoedBad b.noEcho) u)
        | _ => Agree t (taken x tag (.postTestStop code) .ok (.burstRunning false) s))

/-! ## The store -/

/-- An accepted write of each kind: OK with the values as they will be stored, BUSY with the operation record filled, and nothing
else; the working copy keeps the old content. A centre's latch, or both latches for an erase, must be set and the Store Controller
READY. -/
def Obligations.acceptedWritesFillTheOperation : Prop :=
  ∀ (x : LinkId) (tag : Byte) (s : State), s.store.state = .ready →
    let begun (r : Request) (w : StoreWrite) (body : ResponseBody) : Host.Outcome State Fault Refusal :=
      .next { taken x tag r .ok body s with store := { s.store with state := .busy { write := w, writer := x, tag := tag } } }
    (∀ post f i k c d m, Takes s x tag (.writeName post f) → (s.link x).latch = true → slotOf post = some i →
      1 ≤ f.labelLength → f.labelLength ≤ 12 → postKindOf f.kind = some k → carriagewayOf f.carriageway = some c →
      roadSideOf f.side = some d → markerOf f.marker = some m →
      let label := (f.label.take f.labelLength).map fun o => if labelChar o then o else 0x20
      exec (.directoryWriteName x tag post f) s = begun (.writeName post f)
        (.name i { s.entry i with name := { label := label, kind := k, carriageway := c, side := d, marker := m } }) (.label label))
    ∧ (∀ post f i g, Takes s x tag (.writePlace post f) → (s.link x).latch = true → slotOf post = some i → f.present = 1 →
      segOf f.seg = some g → 1 ≤ f.serial → f.serial ≤ 16777215 → 1 ≤ f.position → f.position + 1 ≤ (s.segment g).cableLength →
      postInUse s i = false →
      (∀ j, j ≠ i → (s.entry j).place.present = true → (s.entry j).place.serial ≠ f.serial
        ∧ ((s.entry j).place.seg = g → (s.entry j).place.position ≠ f.position)) →
      ((presentOn s g).filter fun j => decide (j ≠ i)).length < 32 →
      exec (.directoryWritePlace x tag post f) s = begun (.writePlace post f)
        (.place i { s.entry i with place := { present := true, seg := g, position := f.position, serial := f.serial } }) .empty)
    ∧ (∀ post f i, Takes s x tag (.writePlace post f) → (s.link x).latch = true → slotOf post = some i → f.present = 0 →
      postInUse s i = false →
      exec (.directoryWritePlace x tag post f) s = begun (.writePlace post f)
        (.place i { s.entry i with place := { (s.entry i).place with present := false } }) .empty)
    ∧ (∀ seg f g, Takes s x tag (.writeSegment seg f) → (s.link x).latch = true → segOf seg = some g → f.fitted ≤ 1 →
      100 ≤ f.cableLength → f.cableLength ≤ 12000 → f.feederA ≤ 2000 → f.feederB ≤ 2000 → f.anchor ≤ 999999 → f.direction ≤ 1 →
      f.homeLink ≤ 1 → f.route ≤ 4095 → (∀ i ∈ presentOn s g, (s.entry i).place.position < f.cableLength) →
      segmentInUse s g = false →
      let r : SegRecord :=
        { fitted := decide (f.fitted = 1), cableLength := f.cableLength, feederA := f.feederA, feederB := f.feederB
          speed := max 120 (min 240 f.speed), layRatio := max 1000 (min 1300 f.layRatio), anchor := f.anchor
          direction := if f.direction = 0 then .increasing else .decreasing, split := min f.cableLength f.split
          homeLink := if f.homeLink = 0 then .a else .b, route := f.route }
      exec (.siteWriteSegment x tag seg f) s = begun (.writeSegment seg f) (.segment g r) (.segment g r))
    ∧ (∀ f, Takes s x tag (.writeGlobal f) → (s.link x).latch = true →
      let r : GlobalRecord :=
        { offerOverflow := max 5 (min 60 f.offerOverflow), threshold := max 2 (min 8 f.threshold), ring := max 10 (min 120 f.ring)
          acknowledge := max 1 (min 10 f.acknowledge), silence := max 1 (min 10 f.silence), retest := max 10 (min 600 f.retest) }
      exec (.siteWriteGlobal x tag f) s = begun (.writeGlobal f) (.global r) (.global r))
    ∧ (∀ group op slots g, Takes s x tag (.groupEdit group op slots) → (s.link x).latch = true → groupOf group = some g →
      (s.group g).active = false → ∃ m, Ascending m
        ∧ (∀ i, i ∈ m ↔ if op = 0 then i ∈ s.membership g ∨ i.val ∈ slots else i ∈ s.membership g ∧ i.val ∉ slots)
        ∧ exec (.groupEdit x tag group op slots) s = begun (.groupEdit group op slots) (.group g m) (.memberCount m.length))
    ∧ (∀ scope c, Takes s x tag (.storeErase scope) → s.linkA.latch = true → s.linkB.latch = true → scopeOf scope = some c →
      (∀ i, s.liveCall i = none) → (∀ g, (s.group g).active = false) →
      exec (.storeErase x tag scope) s = begun (.storeErase scope) (.erase c) .empty)

/-- Steps 2 and 3 of R19 for the writes, and GROUP ACTIVE: with the latch clear WRITE DISABLED, whatever the fields; with it set and an
operation in flight STORE BUSY; STORE ERASE needs both latches. The fields are checked after these, for a PLACE write in the order of
R3: OUT OF RANGE, IN USE, DUPLICATE, SEGMENT FULL. The model's choice, log 22: a post slot above 255 is refused OUT OF RANGE in the
first of these. -/
def Obligations.writesAreCheckedInOrder : Prop :=
  (∀ (c : Instr) (x : LinkId) (tag : Byte) (r : Request) (s : State), c.sender = some (x, tag) → c.request = some r →
      Takes s x tag r → requestType r = 0x32 ∨ (0x52 ≤ (requestType r).toNat ∧ (requestType r).toNat ≤ 0x55) →
      let latched := if requestType r = 0x55 then s.linkA.latch && s.linkB.latch else (s.link x).latch
      (latched = false → exec c s = .next (taken x tag r .writeDisabled .empty s))
      ∧ (latched = true → (inFlight s).isSome = true → exec c s = .next (taken x tag r .storeBusy .empty s))
      ∧ ∀ group op slots g, c = .groupEdit x tag group op slots → latched = true → s.store.state = .ready →
          groupOf group = some g → (s.group g).active = true → exec c s = .next (taken x tag r .groupActive .empty s))
  ∧ (∀ (x : LinkId) (tag : Byte) (post : Nat) (f : RawPlace) (s : State), Takes s x tag (.writePlace post f) →
      (s.link x).latch = true → s.store.state = .ready →
      let refused (r : Result) := exec (.directoryWritePlace x tag post f) s = .next (taken x tag (.writePlace post f) r .empty s)
      (255 < post ∨ 1 < f.present ∨ (f.present = 1 ∧ (7 < f.seg ∨ f.serial = 0 ∨ 16777215 < f.serial ∨ f.position = 0
          ∨ ∃ g, segOf f.seg = some g ∧ (s.segment g).cableLength ≤ f.position)) → refused .outOfRange)
      ∧ ∀ i, slotOf post = some i →
        (∀ g, f.present = 1 → segOf f.seg = some g → 1 ≤ f.serial → f.serial ≤ 16777215 → 1 ≤ f.position →
          f.position < (s.segment g).cableLength →
          (postInUse s i = true → refused .inUse)
          ∧ (postInUse s i = false →
            (∃ j, j ≠ i ∧ (s.entry j).place.present = true ∧ ((s.entry j).place.serial = f.serial
              ∨ (s.entry j).place.seg = g ∧ (s.entry j).place.position = f.position)) → refused .duplicate)
          ∧ (postInUse s i = false →
            (∀ j, j ≠ i → (s.entry j).place.present = true → (s.entry j).place.serial ≠ f.serial
              ∧ ((s.entry j).place.seg = g → (s.entry j).place.position ≠ f.position)) →
            32 ≤ ((presentOn s g).filter fun j => decide (j ≠ i)).length → refused .segmentFull))
        ∧ (f.present = 0 → postInUse s i = true → refused .inUse))

/-- WRITE ENABLE sets the latch of the link that sends it and WRITE DISABLE clears it, answered OK whatever it was; nothing else
changes. The latch of a link changes by these requests of its own link, by power-on and power loss, and by its own link going
DOWN, which clear it (power loss by the model's reading, log 7), and by no other command: no request of the other link, no write
and no completion changes it. -/
def Obligations.latchesFollowTheirLink : Prop :=
  (∀ (x : LinkId) (tag : Byte) (s : State),
      (Takes s x tag .writeEnable → exec (.writeEnable x tag) s =
        .next ((taken x tag .writeEnable .ok .empty s).modLink x fun l => { l with latch := true }))
      ∧ (Takes s x tag .writeDisable → exec (.writeDisable x tag) s =
        .next ((taken x tag .writeDisable .ok .empty s).modLink x fun l => { l with latch := false }))
      ∧ ∀ c r, (c = .writeEnable x tag ∧ r = .writeEnable ∨ c = .writeDisable x tag ∧ r = .writeDisable) → Ready s x tag r →
        s.store.state = .starting → exec c s = .next (taken x tag r .notReady .empty s))
  ∧ (∀ (c : Instr) (x : LinkId) (s t : State), exec c s = .next t →
      ((s.link x).up = true → (t.link x).up = false → (t.link x).latch = false)
      ∧ ((∃ n, c = .powerOnReset n) → (t.link x).latch = false))
  ∧ (∀ (c : Instr) (x : LinkId) (s t : State), exec c s = .next t →
      (t.link x).latch = (s.link x).latch
        ∨ (∃ tag, c = .writeEnable x tag ∧ Takes s x tag .writeEnable ∧ (t.link x).latch = true)
        ∨ (∃ tag, c = .writeDisable x tag ∧ Takes s x tag .writeDisable ∧ (t.link x).latch = false)
        ∨ ((c = .lossOfFraming x ∨ c = .silenceTimerExpiry x) ∧ (t.link x).up = false ∧ (t.link x).latch = false)
        ∨ ((∃ n, c = .powerOnReset n ∨ c = .powerLoss n) ∧ (t.link x).latch = false))

/-- The completions of NAME, global and group writes: the record is programmed and takes its new content in the working copy, its
damaged mark is cleared, STORE DONE goes to the writing link and DIRECTORY CHANGED to the other, and the Store Controller is
READY. A global record lowers the failure counts above its threshold; nothing else changes. -/
def Obligations.simpleCompletions : Prop :=
  ∀ (s : State) (o : StoreOperation), s.powered = true → s.store.state = .busy o →
    let told (s : State) (store : StoreBlock) : State :=
      report (otherLink o.writer) (.directoryChanged o.write.named)
        (report o.writer (.storeDone o.tag o.write.named) { s with store := store })
    (∀ i v, o.write = .name i v → exec .nameWriteCompletion s = .next (told s
      { stored := { s.store.stored with entries := modNth s.store.stored.entries i fun _ => .valid v }
        site := { s.store.site with entries := modNth s.store.site.entries i fun _ => v }
        damaged := s.store.damaged.filter fun r => decide (r ≠ .entry i), state := .ready }))
    ∧ (∀ v, o.write = .global v → exec .globalWriteCompletion s = .next (told
      { s with line := { s.line with posts := s.line.posts.map fun r => { r with failures := min r.failures v.threshold } } }
      { stored := { s.store.stored with global := .valid v }, site := { s.store.site with global := v }
        damaged := s.store.damaged.filter fun r => decide (r ≠ .global), state := .ready }))
    ∧ (∀ g m, o.write = .group g m → exec .groupEditCompletion s = .next (told s
      { stored := { s.store.stored with groups := modNth s.store.stored.groups g fun _ => .valid m }
        site := { s.store.site with groups := modNth s.store.site.groups g fun _ => m }
        damaged := s.store.damaged.filter fun r => decide (r ≠ .group g), state := .ready }))

/-- PLACE completion: the entry takes its new content and is valid in the store; the hop maps of the touched segments are those of
the working copy; the placed post's row is set afresh; every other present post of a touched segment has its hop by the new map,
and is UNPROVEN with count 0 if that changed and else as it was; the two store reports stand first on each link with room; no end
changes state. -/
def Obligations.placeCompletionSetsThePost : Prop :=
  ∀ (s : State) (o : StoreOperation) (i : Slot) (v : DirEntry), s.powered = true → s.store.state = .busy o → o.write = .place i v →
    ∃ t, exec .placeCompletion s = .next t
      ∧ t.store =
        { stored := { s.store.stored with entries := modNth s.store.stored.entries i fun _ => .valid v }
          site := { s.store.site with entries := modNth s.store.site.entries i fun _ => v }
          damaged := s.store.damaged.filter fun r => decide (r ≠ .entry i), state := .ready }
      ∧ (∀ seg, t.hopMap seg =
          if ((s.entry i).place.present = true ∧ (s.entry i).place.seg = seg) ∨ (v.place.present = true ∧ v.place.seg = seg)
          then hopMapOf t seg else s.hopMap seg)
      ∧ (t.post i).hop = hopFor t (t.post i).reach i ∧ (t.post i).reply = .unproven ∧ (t.post i).failures = 0
      ∧ (t.post i).hook = .on ∧ (t.post i).button = .none ∧ (t.post i).sensors = (s.post i).sensors
      ∧ (t.post i).unverified = (s.post i).unverified ∧ (t.post i).silenceReported = (s.post i).silenceReported
      ∧ (v.place.present = false ∨ (s.segment v.place.seg).fitted = false → (t.post i).reach = .unserved ∧ (t.post i).hop = 0)
      ∧ (v.place.present = true → (s.segment v.place.seg).fitted = true → (t.post i).reach ≠ .unserved
          ∧ ∀ d, (t.post i).reach = .served d → d.seg = v.place.seg ∧ available t d v.place.position = true)
      ∧ (∀ j, j ≠ i → (t.post j).reach = (s.post j).reach)
      ∧ (∀ j e, j ≠ i → (s.post j).reach = .served e → (s.entry j).place.present = true → (s.entry j).place.seg = e.seg →
          let touched := (s.entry i).place.present = true ∧ (s.entry i).place.seg = e.seg ∨ v.place.present = true ∧ v.place.seg = e.seg
          let kept := { s.post j with activity := (t.post j).activity, stamp := (t.post j).stamp }
          t.post j = if touched ∧ hopFrom t e j ≠ (s.post j).hop
            then { kept with hop := hopFrom t e j, reply := .unproven, failures := 0 } else kept)
      ∧ (∀ y, (s.link y).up = true → (s.link y).queue.length < 64 → OnlyReports ((s.link y).queue ++ [.report (s.link y).gap
          (if y = o.writer then .storeDone o.tag (.place i) else .directoryChanged (.place i))]) (t.link y).queue)
      ∧ (∀ e, (t.endRec e).core = (s.endRec e).core) ∧ t.now = s.now ∧ ∀ g, memberSlots t g = memberSlots s g

/-- Segment completion, in a state whose ends meet the conditions that every step keeps (`EndsOk`): the record takes its new
content and is valid in the store; each end of the segment takes the state of R8 with its fault record, timers, measurement and
BUSY count cleared; an unfitted segment's ends hold no channel, no waiting entry and no command, and its posts are UNSERVED. Other
ends keep their records. -/
def Obligations.segmentCompletionSetsTheEnds : Prop :=
  ∀ (s : State) (o : StoreOperation) (seg : SegId) (v : SegRecord), s.powered = true → s.store.state = .busy o →
    o.write = .segment seg v → EndsOk s →
    ∃ t, exec .segmentWriteCompletion s = .next t
      ∧ t.store =
        { stored := { s.store.stored with segments := modNth s.store.stored.segments seg fun _ => .valid v }
          site := { s.store.site with segments := modNth s.store.site.segments seg fun _ => v }
          damaged := s.store.damaged.filter fun r => decide (r ≠ .segment seg), state := .ready }
      ∧ (∀ e, e.seg ≠ seg → (t.endRec e).core = (s.endRec e).core)
      ∧ (∀ e, e.seg = seg →
          (t.endRec e).state = (if v.fitted then (if (s.endRec e).state = .off then .off else .serving) else .unfitted)
          ∧ (t.endRec e).reach = (if v.fitted then (if (s.endRec e).state = .off then .none else .full) else .none)
          ∧ (t.endRec e).fault = none ∧ (t.endRec e).suppressed = none ∧ (t.endRec e).busyCount = 0
          ∧ (t.endRec e).retryWait = none ∧ (t.endRec e).retest = none ∧ (t.endRec e).measurement = .none
          ∧ (v.fitted = false → t.chan e = .powerOn ∧ (t.endRec e).commands = []))
      ∧ (∀ d, t.hopMap d = if d = seg then hopMapOf t seg else s.hopMap d)
      ∧ (∀ i, (s.entry i).place.present = true → (s.entry i).place.seg = seg →
          ((t.post i).reach = .unserved ↔ v.fitted = false))
      ∧ (∀ y, (s.link y).up = true → (s.link y).queue.length < 64 → OnlyReports ((s.link y).queue ++ [.report (s.link y).gap
          (if y = o.writer then .storeDone o.tag (.segment seg) else .directoryChanged (.segment seg))]) (t.link y).queue)
      ∧ t.now = s.now ∧ ∀ g, memberSlots t g = memberSlots s g

/-- Erase completion: the records of the scope are valid and blank, in the store and in the working copy, and leave the damaged
list, which keeps every other record; GROUPS does no more; DIRECTORY and ALL leave every post UNSERVED, every hop map empty and no
suppressed post; ALL leaves every end UNFITTED with its record cleared but for the state it left and the cause, no channel held
and no command waiting, and no failure count above the default threshold. -/
def Obligations.eraseCompletionBlanksTheScope : Prop :=
  ∀ (s : State) (o : StoreOperation) (c : EraseScope), s.powered = true → s.store.state = .busy o → o.write = .erase c →
    ∃ t, exec .eraseCompletion s = .next t
      ∧ t.store.state = .ready
      ∧ (if c = .groups then t.store.site.entries = s.store.site.entries ∧ t.store.stored.entries = s.store.stored.entries
          else ∀ i, t.entry i = .blank ∧ nth t.store.stored.entries i = .valid .blank)
      ∧ (if c = .directory then t.store.site.groups = s.store.site.groups ∧ t.store.stored.groups = s.store.stored.groups
          else ∀ g, t.membership g = [] ∧ nth t.store.stored.groups g = .valid [])
      ∧ (if c = .all then (∀ g, t.segment g = .blank ∧ nth t.store.stored.segments g = .valid .blank)
            ∧ t.store.site.global = .default ∧ t.store.stored.global = .valid .default
          else t.store.site.segments = s.store.site.segments ∧ t.store.stored.segments = s.store.stored.segments
            ∧ t.store.site.global = s.store.site.global ∧ t.store.stored.global = s.store.stored.global)
      ∧ t.store.damaged = s.store.damaged.filter (fun r => match c, r with
          | .directory, .entry _ => false
          | .directory, _ => true
          | .groups, .group _ => false
          | .groups, _ => true
          | .all, _ => false)
      ∧ (c = .groups → Agree t { s with store := t.store, linkA := t.linkA, linkB := t.linkB })
      ∧ (c ≠ .groups → (∀ i, (t.post i).reach = .unserved) ∧ (∀ seg, t.hopMap seg = []) ∧ ∀ e, burstRuns t e = false
          ∧ (t.endRec e).suppressed = none)
      ∧ (c ≠ .all → ∀ e, (t.endRec e).core = (s.endRec e).core)
      ∧ (c = .all → (∀ i, (t.post i).failures ≤ GlobalRecord.default.threshold) ∧ ∀ e, (t.endRec e).commands = []
          ∧ (EndsOk s → t.chan e = .powerOn)
          ∧ ((s.endRec e).state = .unfitted → (t.endRec e).core = (s.endRec e).core)
          ∧ ((s.endRec e).state ≠ .unfitted → (t.endRec e).core =
              { state := .unfitted, reach := .none, fault := none, suppressed := none, busyCount := 0, retryWait := none, retest := none
                measurement := .none, scanPosition := 0, commands := [], previous := some (s.endRec e).state, cause := some .erase }))
      ∧ t.now = s.now ∧ ∀ g, memberSlots t g = memberSlots s g

/-! ## The line -/

/-- The ending of a scan poll: the transaction is over, its outcome is counted once in the end's counters, a good reply with
another serial than the directory's counts as a mismatch, and a running burst's last transaction is POLL; then the next
transactions are chosen (`finish`). An outcome for a post that has moved on does no more; the mismatch is read against the working
copy (the model's reading, log 46), and a serial is compared with a present entry alone (log 57). -/
def Obligations.pollOutcomesAreCounted : Prop :=
  ∀ (e : EndId) (s : State) (i : Slot) (hop : Nat) (carried : Option (Command × Nat)), s.powered = true →
    (s.port e).transaction = some (.poll i hop carried) →
    let closed := modRunning e (fun b => { b with last := .poll }) (s.modPort e fun p => { p with transaction := none })
    let ends (c : Instr) (count : Counters → Counters) : Prop := ∃ u, exec c s = .next (finish u)
      ∧ (u.port e).transaction = none ∧ u.counters e = count (s.counters e)
      ∧ (∀ b, s.burst e = .running b → u.burst e = .running { b with last := .poll }
          ∨ ∃ ending, u.burst e = .ended { b with last := .poll } ending)
      ∧ ((s.post i).reach ≠ .served e ∨ (s.post i).hop ≠ hop → u = closed.modCounters e count)
    ends (.pollWindowExpiry e) (fun c => { c with noReplies := satInc c.noReplies })
    ∧ (∀ os, pollReplyOf carried.isSome os = none →
        ends (.pollReply e os) (fun c => { c with corruptReplies := satInc c.corruptReplies }))
    ∧ ∀ os r, pollReplyOf carried.isSome os = some r → ends (.pollReply e os) (fun c =>
        { c with goodReplies := satInc c.goodReplies
                 mismatches := if (s.entry i).place.present = true ∧ r.serial ≠ (s.entry i).place.serial then satInc c.mismatches
                   else c.mismatches })

/-- A failure of a post that is still there, by no reply or a corrupt one: the count rises to M at most; at M the post is NO
REPLY, reported SILENT once; a SERVING end whose farthest served post so fails goes TESTING, unless that post is its suppressed
post. A failure of a poll that is still in flight when its end is SERVING no more counts too (the model's reading, log 45). -/
def Obligations.failedPollsCountAndSuspect : Prop :=
  ∀ (e : EndId) (s : State) (i : Slot) (hop : Nat) (carried : Option (Command × Nat)) (c : Instr), s.powered = true →
    (s.port e).transaction = some (.poll i hop carried) → (s.post i).reach = .served e → (s.post i).hop = hop →
    (c = .pollWindowExpiry e ∨ ∃ os, c = .pollReply e os ∧ pollReplyOf carried.isSome os = none) →
    let m := s.store.site.global.threshold
    let n := if (s.post i).failures < m then (s.post i).failures + 1 else (s.post i).failures
    let suspect := (s.endRec e).state = .serving ∧ farthest s e = some i ∧ n = m ∧ (s.endRec e).suppressed ≠ some i
    ∃ t, exec c s = .next t
      ∧ (t.post i).failures = n ∧ (t.post i).reply = (if n = m then .noReply else (s.post i).reply)
      ∧ (t.post i).silenceReported = ((s.post i).silenceReported || decide (n = m ∧ (s.post i).reply ≠ .noReply))
      ∧ (suspect → (t.endRec e).core = { (s.endRec e).core with
          state := .testing, busyCount := 0, retryWait := none, retest := none, measurement := .waiting
          previous := some .serving, cause := some .suspectFailure } ∧ burstRuns t e = false)
      ∧ (¬ suspect → (t.endRec e).core = (s.endRec e).core
          ∧ (n ≠ m ∨ (s.post i).reply = .noReply → t.linkA = s.linkA ∧ t.linkB = s.linkB))
      ∧ (∀ y, n = m → (s.post i).reply ≠ .noReply → (s.post i).silenceReported = false → (s.link y).up = true →
          (s.link y).queue.length < 64 → OnlyReports ((s.link y).queue ++
            [.report (s.link y).gap (.alarmSilent (nameBlock s i) n)]) (t.link y).queue)
      ∧ (∀ j, j ≠ i → { t.post j with activity := .idle, stamp := none } = { s.post j with activity := .idle, stamp := none })
      ∧ t.store = s.store ∧ t.calls = s.calls ∧ t.groups = s.groups ∧ t.arbiter = s.arbiter ∧ t.now = s.now

/-- A good reply of an on-hook post to a poll that carried nothing, in the order of R48: ANSWERING with count 0, the suppression
released, identity, sensors, hook and button (a serial is compared with a present entry alone, log 57); each change of the alarms
is reported to both UP links in that order, and nothing else changes. An on-hook event, by call: OFFERED, reported ABANDONED and
freed with LAMP OFF placed; CONNECTING, CONNECTED, PARKED or LINE LOST, its parties told CLEARED BY POST with the former parties
and state none (the model's choice, log 18), freed with RELEASE placed; CLEARING, its deferred event dropped; RINGING, ignored
(the model's choice, log 20); on the overflow list, reported MISSED and IDLE. -/
def Obligations.goodReplyUpdatesTheRow : Prop :=
  (∀ (e : EndId) (os : List Byte) (s : State) (i : Slot) (hop : Nat) (r : Reply), s.powered = true →
    (s.port e).transaction = some (.poll i hop none) → (s.post i).reach = .served e → (s.post i).hop = hop →
    pollReplyOf false os = some r → r.hook = .on → (s.post i).hook = .on →
    let row := s.post i
    let present := (s.entry i).place.present
    let differs := present && decide (r.serial ≠ (s.entry i).place.serial)
    let back := row.silenceReported && decide (row.reply ≠ .answering)
    let u := (modRunning e (fun b => { b with last := .poll }) s).modCounters e fun c =>
      { c with goodReplies := satInc c.goodReplies, mismatches := if differs then satInc c.mismatches else c.mismatches }
    let u := u.modPost i fun v => { v with failures := 0, reply := .answering, silenceReported := v.silenceReported && !back }
    let u := if back then reportBoth (.alarmAnswering (nameBlock u i) 0) u else u
    let u := u.modEnd e fun v => { v with suppressed := if v.suppressed = some i then none else v.suppressed }
    let u := u.modPost i fun v => { v with unverified := if present then differs else v.unverified }
    let u := if present = false ∨ row.unverified = differs then u
      else reportBoth (.alarmIdentity (nameBlock u i) (s.entry i).place.serial r.serial) u
    let u := u.modPost i fun v => { v with sensors := r.sensors }
    let u := if r.sensors = row.sensors then u
      else reportBoth (.alarmSensor (nameBlock u i) r.sensors
        ⟨row.sensors.door != r.sensors.door, row.sensors.battery != r.sensors.battery, row.sensors.speaker != r.sensors.speaker⟩) u
    ∃ t, exec (.pollReply e os) s = .next t ∧ Agree t (u.modPost i fun v => { v with button := .none }))
  ∧ (∀ (e : EndId) (os : List Byte) (s : State) (i : Slot) (hop : Nat) (r : Reply), s.powered = true →
      (s.port e).transaction = some (.poll i hop none) → (s.post i).reach = .served e → (s.post i).hop = hop →
      pollReplyOf false os = some r → r.hook = .on → (s.post i).hook = .off →
      ∃ t, exec (.pollReply e os) s = .next t ∧ (t.post i).hook = .on ∧ (t.post i).button = .none
        ∧ t.store = s.store ∧ t.now = s.now ∧ t.line.stampCounter = s.line.stampCounter
        ∧ (∀ c k, s.callOf i = some c → s.liveCall c = some k →
            (k.state = .clearing → t.calls = (s.modCall c fun k => { k with deferred := none }).calls)
            ∧ (k.state = .ringing → t.calls = s.calls)
            ∧ (k.state ≠ .clearing → k.state ≠ .ringing →
                (t.record c).generation = (s.record c).generation + 1
                ∧ (∀ p ∈ k.parties, nth (t.link p.link).trunks p.trunk ≠ .call (s.refOfRecord c))
                ∧ (k.deferred = none → s.calls.overflow = [] → t.liveCall c = none
                    ∧ ((∀ j d, s.liveCall j = some d → d.slot = i → j = c) → ∃ d y, y ∈ (t.endRec d).commands ∧ y.slot = i
                        ∧ y.command = if k.state = .offered then .lampOff else .release))
                ∧ (∀ y, k.state = .offered → (s.link y).up = true → (s.link y).queue.length < 60 →
                    ∃ gap, QueueEntry.report gap (.callUnanswered (nameBlock t i) k.cls (.abandoned (s.refOfRecord c)))
                      ∈ (t.link y).queue)
                ∧ (∀ p ∈ k.parties, k.state ≠ .offered → (s.link p.link).up = true → (s.link p.link).queue.length < 60 →
                    ∃ gap body, body.event = .clearedByPost ∧ body.ref = s.refOfRecord c ∧ body.state = none
                      ∧ body.parties = k.parties ∧ QueueEntry.report gap (.callState body) ∈ (t.link p.link).queue)))
        ∧ (∀ o, s.callOf i = none → s.onOverflow i = true → (s.calls.overflow.find? fun o => decide (o.slot = i)) = some o →
            t.calls = { s.calls with overflow := s.calls.overflow.filter fun o => decide (o.slot ≠ i) }
            ∧ (t.post i).activity ≠ .calling
            ∧ ∀ y, (s.link y).up = true → (s.link y).queue.length < 60 → ∃ gap, QueueEntry.report gap (.callUnanswered
                (nameBlock t i) (classOf o.button (s.entry i).name.kind) (.missed i o.stamp)) ∈ (t.link y).queue)
        ∧ (s.callOf i = none → s.onOverflow i = false → t.calls = s.calls))

/-- The first off-hook reply of a post with no record and no overflow entry: a new stamp is taken, and the lowest free record
becomes an OFFERED inbound call with the class of the button and the kind; the post is CALLING with the stamp, LAMP ON waits for
it, and a burst of the post ends. Each link that joins the offered set gets an OFFER of the record as it then stands. With no
record free the post joins the overflow list with the stamp. A call event of a post with a call takes a new stamp: an OFFERED call
takes a higher class, UPGRADED and offered again to its offered set; a RINGING call, which uses no end, is answered by its post,
CONNECTING with the stamp, and asks for a channel; a CLEARING call holds the event deferred, of two the higher button; any other
call is left as it is. -/
def Obligations.offHookReplyStartsACall : Prop :=
  (∀ (e : EndId) (os : List Byte) (s : State) (i : Slot) (hop : Nat) (r : Reply), s.powered = true →
    (s.port e).transaction = some (.poll i hop none) → (s.post i).reach = .served e → (s.post i).hop = hop →
    pollReplyOf false os = some r → r.hook = .off → (s.post i).hook = .on → s.callOf i = none → s.onOverflow i = false →
    let stamp := s.line.stampCounter + 1
    ∃ t, exec (.pollReply e os) s = .next t
      ∧ t.line.stampCounter = stamp ∧ (t.post i).hook = .off ∧ (t.post i).button = r.button ∧ (t.post i).reply = .answering
      ∧ (t.post i).activity = .calling ∧ (t.post i).stamp = some stamp
      ∧ (∃ y, y ∈ (t.endRec e).commands ∧ y.slot = i ∧ y.command = .lampOn)
      ∧ (∀ d b, t.burst d = .running b → b.target ≠ i)
      ∧ (∀ g o, (s.group g).active = true → outcomeOf t g i = some o → unsettled o = false)
      ∧ (∀ c, s.freeRecord? = some c → ∃ k, t.record c = { generation := (s.record c).generation, live := some k }
          ∧ k.slot = i ∧ k.direction = .inbound ∧ k.state = .offered ∧ k.stamp = some stamp ∧ k.parties = []
          ∧ k.cls = classOf r.button (s.entry i).name.kind
          ∧ (∀ y, k.offered.has y = true ↔ (s.link y).up = true ∧ (y = homeLinkOf s i ∨ (s.link (homeLinkOf s i)).up = false))
          ∧ k.timer = (if (s.link (homeLinkOf s i)).up then some (.overflow, s.now + 1000 * s.store.site.global.offerOverflow) else none)
          ∧ t.calls.overflow = s.calls.overflow
          ∧ ((∀ g, takingPart s g i = false) → ∀ y, k.offered.has y = true → (s.link y).queue.length < 60 →
              ∃ gap, QueueEntry.report gap (offerOf t c k) ∈ (t.link y).queue))
      ∧ (s.freeRecord? = none → t.calls.overflow = insertOverflow ⟨i, stamp, r.button⟩ s.calls.overflow
          ∧ ∀ c, (t.liveCall c).isSome = true ∧ (t.record c).generation = (s.record c).generation)
      ∧ t.store = s.store ∧ t.now = s.now ∧ ∀ d, (t.endRec d).core = (s.endRec d).core)
  ∧ (∀ (e : EndId) (os : List Byte) (s : State) (i : Slot) (hop : Nat) (r : Reply) (c : CallIdx) (k : LiveCall), s.powered = true →
      (s.port e).transaction = some (.poll i hop none) → (s.post i).reach = .served e → (s.post i).hop = hop →
      pollReplyOf false os = some r → r.hook = .off → ((s.post i).hook = .on ∨ r.button ≠ (s.post i).button) →
      s.callOf i = some c → s.liveCall c = some k →
      let stamp := s.line.stampCounter + 1
      let cls := classOf r.button (s.entry i).name.kind
      ∃ t, exec (.pollReply e os) s = .next t
        ∧ t.line.stampCounter = stamp ∧ (t.post i).hook = .off ∧ (t.post i).button = r.button
        ∧ (∀ d b, t.burst d = .running b → b.target ≠ i)
        ∧ (k.state = .offered → ¬ k.cls.rank < cls.rank → t.calls = s.calls)
        ∧ (k.state = .offered → k.cls.rank < cls.rank →
            let l := { k with cls := cls, flags := { k.flags with upgraded := true } }
            t.calls = (s.modCall c fun _ => l).calls
            ∧ ∀ y, k.offered.has y = true → (s.link y).up = true → (s.link y).queue.length < 60 →
                ∃ gap, QueueEntry.report gap (offerOf t c l) ∈ (t.link y).queue)
        ∧ (k.state = .ringing → holdsChannels (s.endRec e).state = true → (∀ d, usesEnd s (s.refOfRecord c) d = false) →
            ∃ l, t.liveCall c = some l ∧ l.state = .connecting ∧ l.stamp = some stamp ∧ l.timer = none ∧ l.parties = k.parties
            ∧ ((∃ ch, l.channel = some (e, ch)) ∨ ∃ kind, l.request = some (e, kind))
            ∧ (t.post i).activity = .calling ∧ (t.post i).stamp = some stamp)
        ∧ (k.state = .clearing → t.calls = (s.modCall c fun k => { k with deferred := some (match k.deferred with
            | some (held, first) => (if held.rank < r.button.rank then r.button else held, first)
            | none => (r.button, stamp)) }).calls)
        ∧ (k.state = .connecting ∨ k.state = .connected ∨ k.state = .parked ∨ k.state = .lineLost → t.calls = s.calls)
        ∧ t.store = s.store ∧ t.now = s.now ∧ ∀ d, (t.endRec d).core = (s.endRec d).core)

/-- A DONE reply for a CONNECT on the channel that a CONNECTING call holds makes it CONNECTED, reported CONNECTED, or RESUMED if
it was PARKED before; the entry leaves the list. A RELEASE reply frees the CLEARING call of the post. A RING refused OFF-HOOK
answers a RINGING call, which uses no end, with a new stamp. ANNOUNCE, for a member COMMANDED on its channel: DONE makes it
HEARING, a speaker fault FAILED, OFF-HOOK LEFT FOR CALL, reported by R122 ahead of READY; (with room for the TEST DONE of every
end, which come first); with no such member a DONE places ANNOUNCE END unless the post takes part in some announcement. The
model's choices: the entry that leaves is the one of the same slot, age and command (log 12), and a note in the record says
whether CONNECTED reads RESUMED (log 17). -/
def Obligations.commandRepliesReachTheCall : Prop :=
  (∀ (e : EndId) (os : List Byte) (s : State) (i : Slot) (hop : Nat) (cmd : Command) (age : Nat) (r : Reply) (c : CallIdx)
    (k : LiveCall), s.powered = true →
    (s.port e).transaction = some (.poll i hop (some (cmd, age))) → (s.post i).reach = .served e → (s.post i).hop = hop →
    pollReplyOf true os = some r → r.result = some .done → r.hook = (s.post i).hook → r.button = (s.post i).button →
    s.callOf i = some c → s.liveCall c = some k →
    ∃ t, exec (.pollReply e os) s = .next t
      ∧ t.store = s.store ∧ t.now = s.now ∧ (∀ d, (t.endRec d).core = (s.endRec d).core)
      ∧ (∀ ch x, cmd = .connect ch → k.state = .connecting → k.channel = some (x, ch) →
          t.calls = (s.modCall c fun k => { k with state := .connected, resuming := false }).calls
          ∧ t.arbiter = s.arbiter ∧ t.groups = s.groups
          ∧ (∀ y, y ∈ (t.endRec e).commands ↔ y ∈ (s.endRec e).commands ∧ ¬ (y.slot = i ∧ y.age = age ∧ y.command = cmd))
          ∧ ∀ p ∈ k.parties, (s.link p.link).up = true → (s.link p.link).queue.length < 60 →
              ∃ gap body, body.event = (if k.resuming then .resumed else .connected) ∧ body.ref = s.refOfRecord c
                ∧ body.state = some .connected ∧ QueueEntry.report gap (.callState body) ∈ (t.link p.link).queue)
      ∧ (cmd = .release → k.state = .clearing → k.deferred = none → s.calls.overflow = [] →
          t.record c = { generation := (s.record c).generation + 1, live := none })
      ∧ (cmd = .release → k.state ≠ .clearing → t.calls = s.calls))
  ∧ (∀ (e : EndId) (os : List Byte) (s : State) (i : Slot) (hop : Nat) (cmd : Command) (age : Nat) (r : Reply) (result : CommandResult),
      s.powered = true → (s.port e).transaction = some (.poll i hop (some (cmd, age))) → (s.post i).reach = .served e →
      (s.post i).hop = hop → pollReplyOf true os = some r → r.result = some result → r.hook = (s.post i).hook →
      r.button = (s.post i).button →
      ∃ t, exec (.pollReply e os) s = .next t
        ∧ t.store = s.store ∧ t.now = s.now ∧ (∀ d, (t.endRec d).core = (s.endRec d).core)
        ∧ (∀ c k, cmd = .ring → result = .offHook → s.callOf i = some c → s.liveCall c = some k → k.state = .ringing →
            holdsChannels (s.endRec e).state = true → (∀ d, usesEnd s (s.refOfRecord c) d = false) →
            t.line.stampCounter = s.line.stampCounter + 1 ∧ ∃ l, t.liveCall c = some l ∧ l.state = .connecting
              ∧ l.stamp = some (s.line.stampCounter + 1) ∧ l.timer = none ∧ l.parties = k.parties
              ∧ ((∃ ch, l.channel = some (e, ch)) ∨ ∃ kind, l.request = some (e, kind)))
        ∧ (cmd = .ring → result ≠ .offHook → t.calls = s.calls ∧ t.groups = s.groups)
        ∧ (∀ ch g, cmd = .announce ch → commandedGroup s i ch = some g →
            let o : MemberOutcome := match result with | .done => .hearing | .speakerFault => .failed | .offHook => .leftForCall
            (t.group g).members.map (fun m => (m.slot, m.outcome)) =
                (s.group g).members.map (fun m => (m.slot, if m.slot = i then o else m.outcome))
            ∧ (result = .done → (t.post i).activity = .hearing ∧ ∀ d b, t.burst d = .running b → b.target ≠ i)
            ∧ (t.group g).readySent = ((s.group g).readySent || !anyPending (t.group g))
            ∧ ∀ y, result ≠ .done ∨ (s.group g).readySent = true → (s.link y).up = true →
                (s.link y).queue.length < (if result = .done then 44 else 59) → ∃ gap, QueueEntry.report gap
                  (.announceException g i o (s.group g).readySent (some e) none (nameBlock t i)) ∈ (t.link y).queue)
        ∧ (∀ ch, cmd = .announce ch → commandedGroup s i ch = none → t.groups = s.groups ∧ t.calls = s.calls
            ∧ (result = .done → (∀ g, takingPart s g i = false) →
                ∃ y, y ∈ (t.endRec e).commands ∧ y.slot = i ∧ y.command = .announceEnd)))

/-- The ending of a test frame of a running burst: the transaction is over, the outcome is counted and the last transaction is
TEST FRAME; then the next transactions are chosen (`finish`). Below the count the burst goes on; the frame that brings sent to the
count ends it DONE, with TEST DONE to the requester and a TESTED target IDLE. No reply and a corrupt reply touch nothing else. A
good reply with an echo equal to the pattern sent is counted good, with any other echo bad; when it carries nothing new of its
post it releases the suppression and touches nothing else: failure count and reply status stay. A test frame whose burst has ended
counts nothing, and a good reply to it is handled as any other; of a burst that runs by then its last transaction is TEST FRAME
(the model's reading, log 13). -/
def Obligations.testFramesAreCounted : Prop :=
  (∀ (e : EndId) (s : State) (i : Slot) (hop : Nat) (n : BitVec 16) (p : Pattern) (b : Burst) (c : Instr) (bad : Bool),
      s.powered = true → (s.port e).transaction = some (.test i hop n p true) → s.burst e = .running b →
      (c = .testFrameWindowExpiry e ∧ bad = false ∨ ∃ os, c = .testFrameReply e os ∧ testReplyOf os = none ∧ bad = true) →
      let b' : Burst := if bad then { b with last := .testFrame, echoedBad := satInc b.echoedBad }
        else { b with last := .testFrame, noEcho := satInc b.noEcho }
      let closed := s.modPort e fun p => { p with transaction := none }
      (b.count = 0 ∨ b.sent < b.count → exec c s = .next (finish (closed.modBurst e fun _ => .running b')))
        ∧ (b.count ≠ 0 → b.count ≤ b.sent →
            let u := closed.modBurst e fun _ => .ended b' .done
            let u := if (s.post b.target).activity = .tested
              then u.modPost b.target fun r => { r with activity := .idle, stamp := none } else u
            exec c s = .next (finish (report b.requester (.testDone b.tag e (nameBlock s b.target) b.count b.pattern .done b'.sent
              b'.echoedGood b'.echoedBad b'.noEcho) u))))
  ∧ (∀ (e : EndId) (s : State) (i : Slot) (hop : Nat) (n : BitVec 16) (p : Pattern) (b : Burst) (os : List Byte) (r : Reply),
      s.powered = true → (s.port e).transaction = some (.test i hop n p true) → s.burst e = .running b →
      testReplyOf os = some r → r.serial = (s.entry i).place.serial → (s.post i).unverified = false →
      r.sensors = (s.post i).sensors → r.hook = (s.post i).hook → r.button = (s.post i).button →
      ((s.post i).hook = .on → (s.post i).button = .none) → (b.count = 0 ∨ b.sent < b.count) →
      exec (.testFrameReply e os) s = .next (finish
        (((s.modPort e fun p => { p with transaction := none }).modBurst e fun _ => .running (if r.echo = patternField p n
              then { b with last := .testFrame, echoedGood := satInc b.echoedGood }
              else { b with last := .testFrame, echoedBad := satInc b.echoedBad })).modEnd e fun v =>
            { v with suppressed := if v.suppressed = some i then none else v.suppressed })))
  ∧ (∀ (e : EndId) (s : State) (i : Slot) (hop : Nat) (n : BitVec 16) (p : Pattern), s.powered = true →
      (s.port e).transaction = some (.test i hop n p false) →
      let closed := modRunning e (fun b => { b with last := .testFrame }) (s.modPort e fun p => { p with transaction := none })
      (∀ c, (c = .testFrameWindowExpiry e ∨ ∃ os, c = .testFrameReply e os ∧ testReplyOf os = none) → exec c s = .next (finish closed))
      ∧ ∀ os r, testReplyOf os = some r → r.serial = (s.entry i).place.serial → (s.post i).unverified = false →
          r.sensors = (s.post i).sensors → r.hook = (s.post i).hook → r.button = (s.post i).button →
          ((s.post i).hook = .on → (s.post i).button = .none) →
          exec (.testFrameReply e os) s = .next (finish (closed.modEnd e fun v =>
            { v with suppressed := if v.suppressed = some i then none else v.suppressed })))

/-- The next transaction of an idle end in SCANNING by R41: a test frame when a burst runs and its last transaction is POLL; else
a poll with the oldest eligible command; else the cyclic poll of the lowest hop above the scan position, or of the lowest hop. A
busy port keeps its transaction, and an idle end begins none while the other end may begin its measurement (log 11) or is
measuring, or it is not SERVING. -/
def Obligations.nextTransactionChosen : Prop :=
  ∀ (s : State) (e : EndId),
    ((s.port e).transaction ≠ none ∨ portMode s e ≠ .scanning ∨ mayMeasure s (otherEnd e) = true →
      (finish s).port e = s.port e ∧ (finish s).burst e = s.burst e ∧ (finish s).endRec e = s.endRec e
        ∧ (finish s).counters e = s.counters e)
    ∧ ((s.port e).transaction = none → portMode s e = .scanning → mayMeasure s (otherEnd e) = false →
      (∀ b, s.burst e = .running b → b.last = .poll →
        ((finish s).port e).transaction = some (.test b.target (s.post b.target).hop (b.frameNumber + 1) b.pattern true)
          ∧ (finish s).burst e = .running { b with frameNumber := b.frameNumber + 1, sent := satInc b.sent }
          ∧ (finish s).endRec e = s.endRec e ∧ (finish s).counters e = s.counters e)
      ∧ ((∀ b, s.burst e = .running b → b.last ≠ .poll) →
        (finish s).burst e = s.burst e ∧
        (∀ before c after, (s.endRec e).commands = before ++ c :: after →
          (∀ d ∈ before, (s.post d.slot).reach ≠ .served e ∨ (s.post d.slot).reply = .noReply) →
          (s.post c.slot).reach = .served e → (s.post c.slot).reply ≠ .noReply →
          ((finish s).port e).transaction = some (.poll c.slot (s.post c.slot).hop
              ((oldestOf s e c.slot).map fun y => (y.command, y.age)))
            ∧ (finish s).endRec e = s.endRec e
            ∧ (finish s).counters e = { s.counters e with pollsSent := satInc (s.counters e).pollsSent })
        ∧ ((∀ d ∈ (s.endRec e).commands, (s.post d.slot).reach ≠ .served e ∨ (s.post d.slot).reply = .noReply) →
          ((∀ i, (s.post i).reach ≠ .served e) → (finish s).port e = s.port e ∧ (finish s).endRec e = s.endRec e)
          ∧ ((∃ i, (s.post i).reach = .served e) → ∃ i, (s.post i).reach = .served e
              ∧ ((finish s).port e).transaction = some (.poll i (s.post i).hop
                  ((oldestOf s e i).map fun y => (y.command, y.age)))
              ∧ (finish s).endRec e = { s.endRec e with scanPosition := (s.post i).hop }
              ∧ (finish s).counters e = { s.counters e with pollsSent := satInc (s.counters e).pollsSent }
              ∧ ∀ j, (s.post j).reach = .served e →
                  if (s.endRec e).scanPosition < (s.post i).hop
                  then (s.endRec e).scanPosition < (s.post j).hop → (s.post i).hop ≤ (s.post j).hop
                  else (s.post j).hop ≤ (s.endRec e).scanPosition ∧ (s.post i).hop ≤ (s.post j).hop))))

/-- The loop current of a port: while the sense is active a failure turns the reading from PRESENT to LOST, which takes a SERVING
end TESTING, and a return turns it to PRESENT, told to no block; while it is inactive the reading is kept. The current itself is
an input (log 9). -/
def Obligations.loopCurrentIsSensed : Prop :=
  ∀ (e : EndId) (s : State), s.powered = true →
    exec (.loopCurrentRestored e) s = .next (s.modPort e fun p =>
      { p with current := true, reading := if senseActive s e then .present else p.reading })
    ∧ (senseActive s e = false → exec (.loopLossEvent e) s = .next (s.modPort e fun p => { p with current := false }))
    ∧ (senseActive s e = true → (s.port e).reading = .lost →
        exec (.loopLossEvent e) s = .next (s.modPort e fun p => { p with current := false }))
    ∧ (senseActive s e = true → (s.port e).reading = .present →
        let u := endBurst e (.aborted .endTesting) ((s.modPort e fun p => { p with current := false, reading := .lost }).modEnd e
          fun v => { v with state := .testing, busyCount := 0, retryWait := none, retest := none, measurement := .waiting
                            previous := some v.state, cause := some .loopLoss })
        ∃ t, exec (.loopLossEvent e) s = .next t ∧ Agree t (reportBoth (.endState (endStateOf u e)) u))
    ∧ (senseActive s e = true ↔ (s.endRec e).state = .serving)

/-- A WAITING measurement of a TESTING end begins when both ports of the segment are idle and no measurement runs on the other
end: it is RUNNING and the measurement counter rises; the end that met the conditions first begins (log 11). The retry wait of a
TESTING end expires: its measurement is WAITING. The retest timer expires: a FAULTED end, and a SERVING end that holds no channel,
goes TESTING with the cause RETEST; a SERVING end that holds a channel starts the timer again. The model's choices:
MEASUREMENT_BEGIN where the conditions fail changes nothing (log 1), and an expiry sets the Timebase to its own time at least (log
3). -/
def Obligations.measurementsWaitAndReturn : Prop :=
  (∀ (e : EndId) (s : State), s.powered = true →
      ((s.endRec e).state = .testing → (s.endRec e).measurement = .waiting → (s.port e).transaction = none →
        (s.port (otherEnd e)).transaction = none → (s.endRec (otherEnd e)).measurement ≠ .running →
        nth s.line.first e.seg = some e.side →
        ∃ t, exec (.measurementBegin e) s = .next t
          ∧ Agree t ((s.modEnd e fun r => { r with measurement := .running }).modCounters e fun c =>
              { c with measurements := satInc c.measurements }))
      ∧ ((s.endRec e).measurement ≠ .waiting ∨ (s.port e).transaction ≠ none ∨ (s.port (otherEnd e)).transaction ≠ none
          ∨ (s.endRec (otherEnd e)).measurement = .running → exec (.measurementBegin e) s = .next s))
  ∧ (∀ (e : EndId) (s : State) (n : Nat), s.powered = true →
      ((s.endRec e).retryWait = some n → ∃ t, exec (.retryWaitExpiry e) s = .next t
        ∧ Agree t ({ s with now := max s.now n }.modEnd e fun r => { r with retryWait := none, measurement := .waiting }))
      ∧ ((s.endRec e).retest = some n → (s.endRec e).state = .serving → holdsChannel s e = true →
        ∃ t, exec (.retestTimerExpiry e) s = .next t
          ∧ Agree t ({ s with now := max s.now n }.modEnd e fun r =>
              { r with retest := some (max s.now n + 1000 * s.store.site.global.retest) }))
      ∧ ((s.endRec e).retest = some n →
        (s.endRec e).state = .faulted ∨ ((s.endRec e).state = .serving ∧ holdsChannel s e = false) →
        let u := endBurst e (.aborted .endTesting) ({ s with now := max s.now n }.modEnd e fun v =>
          { v with state := .testing, busyCount := 0, retryWait := none, retest := none, measurement := .waiting
                   previous := some v.state, cause := some .retest })
        ∃ t, exec (.retestTimerExpiry e) s = .next t ∧ Agree t (reportBoth (.endState (endStateOf u e)) u)))

/-- A BUSY result below the third retry is not taken: the count rises, the measurement is none and the retry wait of 1 s starts.
Any other result is taken: the end has the state, reach and fault record of R56 to R58, BUSY count 0 and no measurement, and the
retest timer runs in FAULTED and SERVING LIMIT; for GOOD the farthest served post is the suppressed post if its count is M and it
stays the farthest, else there is none; a FAULTED end holds no channel; no present post of the segment is served by the end beyond
its reach. -/
def Obligations.measurementResultIsTaken : Prop :=
  ∀ (e : EndId) (kind : MeasKind) (delay : Nat) (coupled : Option SegId) (s : State), s.powered = true →
    (s.endRec e).state = .testing → (s.endRec e).measurement = .running → measurementWf e kind delay coupled = true →
    (kind = .busy → (s.endRec e).busyCount < 3 → ∃ t, exec (.measurementResult e kind delay coupled) s = .next t
      ∧ Agree t (s.modEnd e fun r =>
          { r with busyCount := r.busyCount + 1, measurement := .none, retryWait := some (s.now + 1000) }))
    ∧ (¬ (kind = .busy ∧ (s.endRec e).busyCount < 3) →
      let seg := s.segment e.seg
      let st := resultState seg e.side kind delay
      ∃ t, exec (.measurementResult e kind delay coupled) s = .next t
        ∧ (t.endRec e).core = { (s.endRec e).core with
            state := st.1, reach := st.2, busyCount := 0, measurement := .none
            fault := some (faultRecordOf seg e.side kind delay coupled)
            retest := if st.1 = .serving ∧ st.2 = .full then none else some (s.now + 1000 * s.store.site.global.retest)
            previous := some .testing, cause := some .result }
        ∧ ((kind = .good → st = (.serving, .full)) ∧ (kind = .crossed ∨ kind = .unknown ∨ kind = .busy → st = (.faulted, .none)))
        ∧ (t.endRec e).suppressed = (match if kind = .good then farthest s e else none with
            | some i => if (s.post i).failures = s.store.site.global.threshold ∧ farthest t e = some i then some i else none
            | none => none)
        ∧ (st.1 = .faulted → t.chan e = .powerOn)
        ∧ (∀ i, (s.entry i).place.present = true → (s.entry i).place.seg = e.seg → (t.post i).reach = .served e →
            reaches e.side st.2 (s.entry i).place.position = true)
        ∧ (∀ d, d ≠ e → (t.endRec d).core = (s.endRec d).core)
        ∧ t.store = s.store ∧ t.now = s.now ∧ OnlyTold s.linkA t.linkA ∧ OnlyTold s.linkB t.linkB)

/-- A channel given up by its holder goes to the head of the waiting list: to a call that still wants it, which goes CONNECTING
with CONNECT placed; with an empty list it becomes FREE; to a group that still awaits it, whose AWAITING members there are
COMMANDED with ANNOUNCE placed. A release by another holder has no effect; a withdrawal frees no channel. CHANNEL LOST parks a
CONNECTED or CONNECTING call, told to its parties with the reason, and takes the channel of any other; ENTRY REMOVED takes its
request; for a reference that names no live record neither has an effect. CHANNEL LOST of a stopped end puts a group's members
there back to AWAITING with no report. -/
def Obligations.releasedChannelsAreHandedOver : Prop :=
  (∀ (e : EndId) (c : Chan) (h : Holder) (s : State),
    (nth (s.chan e).channels c ≠ h ∨ h = .free → release e c h s = s)
    ∧ (h ≠ .free → nth (s.chan e).channels c = h → (s.chan e).waiting = [] →
        release e c h s = s.modChan e fun r => { r with channels := modNth r.channels c fun _ => .free })
    ∧ (∀ kind ref slot cls rest k, h ≠ .free → nth (s.chan e).channels c = h →
        (s.chan e).waiting = .call kind ref slot cls :: rest → liveRef s ref = some k → k.state = .parked ∨ k.state = .connecting →
        ((release e c h s).chan e).waiting = rest ∧ nth ((release e c h s).chan e).channels c = .call ref slot
          ∧ (release e c h s).liveCall ref.index = some { k with
              channel := some (e, c), request := none, state := .connecting, resuming := k.resuming || k.state == .parked }
          ∧ ((s.post k.slot).reach = .served e → ∃ y, y ∈ ((release e c h s).endRec e).commands ∧ y.slot = k.slot
              ∧ y.command = .connect c))
    ∧ (∀ g st rest, h ≠ .free → nth (s.chan e).channels c = h → (s.chan e).waiting = .announce g st :: rest →
        Ascending (memberSlots s g) → (s.group g).active = true →
        (∃ m ∈ (s.group g).members, m.outcome = .pending .awaiting ∧ (s.post m.slot).reach = .served e) →
        let t := release e c h s
        let moves (m : Member) : Prop := m.outcome = .pending .awaiting ∧ (s.post m.slot).reach = .served e
        (t.chan e).waiting = rest ∧ nth (t.chan e).channels c = .group g ∧ (t.group g).held = (s.group g).held ++ [(e, c)]
          ∧ (t.group g).waiting = (s.group g).waiting.filter (fun d => decide (d ≠ e))
          ∧ (t.group g).members.map (fun m => (m.slot, m.outcome)) = (s.group g).members.map (fun m =>
              (m.slot, if m.outcome = .pending .awaiting ∧ (s.post m.slot).reach = .served e then .pending .commanded else m.outcome))
          ∧ ∀ m ∈ (s.group g).members, moves m →
              ∃ y, y ∈ (t.endRec e).commands ∧ y.slot = m.slot ∧ y.command = .announce c)
    ∧ ∀ ref, (withdrawCall e ref s).arbiter = (s.modChan e fun r => { r with waiting := r.waiting.filter fun w => !waitsFor ref w }).arbiter
        ∧ ((withdrawCall e ref s).chan e).channels = (s.chan e).channels)
  ∧ (∀ (ref : CallRef) (reason : CallReason) (s : State),
      (liveRef s ref = none → callLosesChannel ref reason s = s ∧ callLosesEntry ref s = s)
      ∧ ∀ k, liveRef s ref = some k →
        callLosesEntry ref s = (s.modCall ref.index fun _ => { k with request := none })
        ∧ (k.state ≠ .connected → k.state ≠ .connecting →
            callLosesChannel ref reason s = (s.modCall ref.index fun _ => { k with channel := none }))
        ∧ (k.state = .connected ∨ k.state = .connecting →
            callLosesChannel ref reason s = forEach (k.parties.map Party.link)
              (fun x => report x (.callState { ref := ref, direction := k.direction, cls := k.cls, state := some .parked, event := .parked
                                               reason := reason, parties := k.parties, channel := none, name := nameBlock s k.slot }))
              (s.modCall ref.index fun _ => { k with state := .parked, channel := none, request := none })))
  ∧ (∀ (g : GroupId) (e : EndId) (s : State), Ascending (memberSlots s g) →
      let t := groupEndStopped g e s
      (t.group g).held = (s.group g).held.filter (fun h => decide (h.1 ≠ e))
      ∧ (t.group g).members.map (fun m => (m.slot, m.outcome)) = (s.group g).members.map (fun m =>
          (m.slot, if unsettled m.outcome = true ∧ (s.post m.slot).reach = .served e then .pending .awaiting else m.outcome))
      ∧ (∀ m ∈ (s.group g).members, m.outcome = .hearing → (s.post m.slot).reach = .served e →
          (t.post m.slot).activity ≠ .hearing)
      ∧ (∀ d, (t.endRec d).commands = (s.endRec d).commands) ∧ t.linkA = s.linkA ∧ t.linkB = s.linkB ∧ t.calls = s.calls)

end
end

