-- ==== Sys2Proof/Laws/Order.lean ====
section
/-! SUPPORT. What the order of one event's reports does to a queue: it keeps its length and its reports, puts the exceptions in ascending
member slot order, and leaves a queue as it is where no later report goes ahead of an earlier one. -/

namespace Sys2Proof.Machine

/-- The report of a queue entry. -/
def QueueEntry.report? : QueueEntry → Option Report
  | .report _ r => some r
  | .response _ _ _ _ => none

/-- The entries are reports. -/
def AllReports (l : List QueueEntry) : Prop := ∃ m : List (Bool × Report), l = m.map fun p => .report p.1 p.2

theorem allReports_iff {l : List QueueEntry} : AllReports l ↔ ∀ q ∈ l, q.report?.isSome = true := by
  constructor
  · rintro ⟨m, rfl⟩ q hq
    obtain ⟨p, _, rfl⟩ := List.mem_map.mp hq
    rfl
  · intro h
    induction l with
    | nil => exact ⟨[], rfl⟩
    | cons q l ih =>
      obtain ⟨m, rfl⟩ := ih fun y hy => h y (List.mem_cons_of_mem _ hy)
      cases q with
      | report gap r => exact ⟨(gap, r) :: m, rfl⟩
      | response _ _ _ _ => cases h _ List.mem_cons_self

/-! ## Length and contents -/

theorem putReport_length (gap : Bool) (r : Report) (l : List QueueEntry) : (putReport gap r l).length = l.length + 1 := by
  induction l with
  | nil => rfl
  | cons q l ih => cases q <;> simp only [putReport] <;> (try split) <;> simp [ih]

theorem putEntry_length (l : List QueueEntry) (q : QueueEntry) : (putEntry l q).length = l.length + 1 := by
  cases q <;> simp [putEntry, putReport_length]

theorem inOrder_length (l : List QueueEntry) : (inOrder l).length = l.length := by
  suffices h : ∀ out : List QueueEntry, (l.foldl putEntry out).length = out.length + l.length by simp [inOrder, h]
  induction l with
  | nil => exact fun out => rfl
  | cons a l ih => intro out; simp only [List.foldl_cons, ih, putEntry_length, List.length_cons]; omega

theorem putReport_perm (gap : Bool) (r : Report) (l : List QueueEntry) :
    ((putReport gap r l).map QueueEntry.report?).Perm (l.map QueueEntry.report? ++ [some r]) := by
  induction l with
  | nil => exact .refl _
  | cons q l ih =>
    cases q with
    | response _ _ _ _ => simpa [putReport] using ih
    | report g x =>
      simp only [putReport]
      split
      · simpa [QueueEntry.report?] using (List.perm_append_singleton (some r) (some x :: l.map QueueEntry.report?)).symm
      · simpa [QueueEntry.report?] using ih

theorem putEntry_perm (l : List QueueEntry) (q : QueueEntry) :
    ((putEntry l q).map QueueEntry.report?).Perm (l.map QueueEntry.report? ++ [q.report?]) := by
  cases q with
  | report gap r => exact putReport_perm gap r l
  | response _ _ _ _ => simp [putEntry]

/-- The order keeps every report, and how often it stands in the queue. -/
theorem inOrder_perm (l : List QueueEntry) : ((inOrder l).map QueueEntry.report?).Perm (l.map QueueEntry.report?) := by
  suffices h : ∀ out : List QueueEntry,
      ((l.foldl putEntry out).map QueueEntry.report?).Perm (out.map QueueEntry.report? ++ l.map QueueEntry.report?) by
    simpa [inOrder] using h []
  induction l with
  | nil => exact fun out => by simp
  | cons q l ih =>
    intro out
    simpa using (ih (putEntry out q)).trans ((putEntry_perm out q).append_right _)

/-- Entries that are reports are reports in order. -/
theorem inOrder_reports {l : List QueueEntry} (h : AllReports l) : AllReports (inOrder l) := by
  rw [allReports_iff] at h ⊢
  intro q hq
  obtain ⟨y, hy, e⟩ := List.mem_map.mp ((inOrder_perm l).mem_iff.mp (List.mem_map_of_mem (f := QueueEntry.report?) hq))
  rw [← e]
  exact h y hy

theorem mem_inOrder {l : List QueueEntry} {r : Report} : (∃ gap, QueueEntry.report gap r ∈ inOrder l) ↔ ∃ gap, QueueEntry.report gap r ∈ l := by
  have h : ∀ l : List QueueEntry, (∃ gap, QueueEntry.report gap r ∈ l) ↔ some r ∈ l.map QueueEntry.report? := fun l => by
    simp only [List.mem_map]
    constructor
    · rintro ⟨gap, m⟩; exact ⟨_, m, rfl⟩
    · rintro ⟨q, m, e⟩
      cases q with
      | report gap x => cases e; exact ⟨gap, m⟩
      | response _ _ _ _ => cases e
  rw [h, h]
  exact (inOrder_perm l).mem_iff

/-! ## The order -/

/-- The member slot of an ANNOUNCE EXCEPTION. -/
def exceptionSlot : Report → Option Slot
  | .announceException _ i _ _ _ _ _ => some i
  | _ => none

/-- The member slots of the exceptions in a queue. -/
def exceptionSlots (l : List QueueEntry) : List Slot := l.filterMap fun q => q.report?.bind exceptionSlot

theorem ahead_of_exception {r x : Report} {i j : Slot} (hr : exceptionSlot r = some i) (hx : exceptionSlot x = some j) :
    ahead r x = decide (i < j) := by
  cases r <;> simp only [exceptionSlot, Option.some.injEq, reduceCtorEq] at hr
  cases x <;> simp only [exceptionSlot, Option.some.injEq, reduceCtorEq] at hx
  subst hr hx
  rfl

theorem ahead_of_other {r x : Report} (h : exceptionSlot r = none ↔ exceptionSlot x ≠ none) : ahead r x = false := by
  cases r <;> cases x <;> first | rfl | simp [exceptionSlot] at h

theorem exceptionSlots_putReport (gap : Bool) (r : Report) (l : List QueueEntry) (h : (exceptionSlots l).Pairwise (· ≤ ·)) :
    (exceptionSlots (putReport gap r l)).Pairwise (· ≤ ·)
      ∧ ∀ j, j ∈ exceptionSlots (putReport gap r l) ↔ exceptionSlot r = some j ∨ j ∈ exceptionSlots l := by
  induction l with
  | nil => cases hr : exceptionSlot r <;> simp [putReport, exceptionSlots, QueueEntry.report?, hr, eq_comm]
  | cons q l ih =>
    cases q with
    | response t ty rs b =>
      have := ih (by simpa [exceptionSlots, QueueEntry.report?] using h)
      simpa [putReport, exceptionSlots, QueueEntry.report?] using this
    | report g x =>
      cases hx : exceptionSlot x with
      | none =>
        cases hr : exceptionSlot r with
        | none =>
          have e : exceptionSlots (putReport gap r (.report g x :: l)) = exceptionSlots (putReport gap r l) := by
            have k : exceptionSlots (putReport gap r l) = exceptionSlots l := by
              clear ih h
              induction l with
              | nil => simp [putReport, exceptionSlots, QueueEntry.report?, hr]
              | cons q l ih =>
                cases q with
                | response _ _ _ _ => simpa [putReport, exceptionSlots, QueueEntry.report?] using ih
                | report g y =>
                  simp only [putReport]
                  split
                  · rename_i ha
                    cases hy : exceptionSlot y with
                    | none => simp [exceptionSlots, QueueEntry.report?, hr, hy]
                    | some j => rw [ahead_of_other (by simp [hr, hy])] at ha; cases ha
                  · cases hy : exceptionSlot y <;> simpa [exceptionSlots, QueueEntry.report?, hy] using ih
            simp only [putReport]
            split
            · rw [k]; simp [exceptionSlots, QueueEntry.report?, hr, hx]
            · simp [exceptionSlots, QueueEntry.report?, hx] at k ⊢
          rw [e]
          have := ih (by simpa [exceptionSlots, QueueEntry.report?, hx] using h)
          simpa [exceptionSlots, QueueEntry.report?, hx, hr] using this
        | some i =>
          have ha : ahead r x = false := ahead_of_other (by simp [hr, hx])
          have := ih (by simpa [exceptionSlots, QueueEntry.report?, hx] using h)
          simpa [putReport, exceptionSlots, QueueEntry.report?, hx, ha, hr] using this
      | some j =>
        have hs : exceptionSlots (.report g x :: l) = j :: exceptionSlots l := by simp [exceptionSlots, QueueEntry.report?, hx]
        rw [hs, List.pairwise_cons] at h
        obtain ⟨a, b⟩ := ih h.2
        by_cases ha : ahead r x = true
        · obtain ⟨i, hr⟩ : ∃ i, exceptionSlot r = some i := by
            cases hr : exceptionSlot r with
            | none => rw [ahead_of_other (by simp [hr, hx])] at ha; cases ha
            | some i => exact ⟨i, rfl⟩
          have hij : i < j := by simpa [ahead_of_exception hr hx] using ha
          have e : exceptionSlots (putReport gap r (.report g x :: l)) = i :: j :: exceptionSlots l := by
            simp [putReport, exceptionSlots, QueueEntry.report?, hx, ha, hr]
          rw [e, hs, hr]
          refine ⟨?_, fun k => by simp [eq_comm]⟩
          rw [List.pairwise_cons, List.pairwise_cons]
          refine ⟨fun k hk => ?_, h⟩
          rcases List.mem_cons.mp hk with rfl | hk
          · exact hij.le
          · exact hij.le.trans (h.1 k hk)
        · have e : exceptionSlots (putReport gap r (.report g x :: l)) = j :: exceptionSlots (putReport gap r l) := by
            simp [putReport, exceptionSlots, QueueEntry.report?, hx, ha]
          rw [e, hs]
          refine ⟨?_, fun k => by simp only [List.mem_cons, b]; tauto⟩
          rw [List.pairwise_cons]
          refine ⟨fun k hk => ?_, a⟩
          rcases (b k).mp hk with hr | hk
          · rw [ahead_of_exception hr hx] at ha
            simpa using ha
          · exact h.1 k hk

/-- The exceptions of one event stand in ascending order of member slot (R122). -/
theorem inOrder_exceptions (l : List QueueEntry) : (exceptionSlots (inOrder l)).Pairwise (· ≤ ·) := by
  suffices h : ∀ out : List QueueEntry, (exceptionSlots out).Pairwise (· ≤ ·) → (exceptionSlots (l.foldl putEntry out)).Pairwise (· ≤ ·) by
    exact h [] .nil
  induction l with
  | nil => exact fun out h => h
  | cons q l ih =>
    refine fun out h => ih _ ?_
    cases q with
    | response _ _ _ _ => simpa [putEntry, exceptionSlots, QueueEntry.report?] using h
    | report gap r => exact (exceptionSlots_putReport gap r out h).1

/-- The report of one entry goes ahead of that of another. -/
def aheadEntry (p q : QueueEntry) : Bool :=
  match p, q with
  | .report _ r, .report _ x => ahead r x
  | _, _ => false

theorem putReport_eq (gap : Bool) (r : Report) (l : List QueueEntry) (h : ∀ q ∈ l, aheadEntry (.report gap r) q = false) :
    putReport gap r l = l ++ [.report gap r] := by
  induction l with
  | nil => rfl
  | cons q l ih =>
    have hl := ih fun y hy => h y (List.mem_cons_of_mem _ hy)
    cases q with
    | response _ _ _ _ => simp [putReport, hl]
    | report g x =>
      have : ahead r x = false := h _ List.mem_cons_self
      simp [putReport, this, hl]

/-- Where no later report goes ahead of an earlier one, the entries stay as they were placed. -/
theorem inOrder_eq (l : List QueueEntry) (h : l.Pairwise fun p q => aheadEntry q p = false) : inOrder l = l := by
  suffices k : ∀ out : List QueueEntry, (out ++ l).Pairwise (fun p q => aheadEntry q p = false) → l.foldl putEntry out = out ++ l by
    simpa [inOrder] using k [] (by simpa using h)
  clear h
  induction l with
  | nil => simp
  | cons q l ih =>
    intro out h
    have e : putEntry out q = out ++ [q] := by
      cases q with
      | report gap r => exact putReport_eq gap r out fun y hy => (List.pairwise_append.mp h).2.2 y hy _ List.mem_cons_self
      | response _ _ _ _ => rfl
    rw [List.foldl_cons, e, ih _ (by simpa using h)]
    simp

/-! ## A link at the end of an event -/

theorem report?_refreshRank (s : State) (q : QueueEntry) : (refreshRank s q).report?.isSome = q.report?.isSome := by
  unfold refreshRank
  split <;> rfl

@[simp] theorem orderLink_length (f : QueueEntry → QueueEntry) (l m : LinkRecord) :
    (orderLink f l m).queue.length = m.queue.length := by
  simp [orderLink, inOrder_length]; omega

@[simp] theorem orderLink_overrun (f : QueueEntry → QueueEntry) (l m : LinkRecord) : (orderLink f l m).overrun = l.overrun := rfl

/-- A link that was only told is one still at the end of the event, and keeps no report. -/
theorem orderLink_told (s : State) {l m : LinkRecord} (h : OnlyTold { l with overrun := [] } { m with overrun := [] }) :
    OnlyTold l (orderLink (refreshRank s) l m) := by
  obtain ⟨⟨n, hn⟩, ht, hr⟩ := h
  simp only at hn
  have k : AllReports (((inOrder (m.queue.drop l.queue.length ++ (m.overrun.drop l.overrun.length).map (.report false))).take
      (m.queue.drop l.queue.length).length).map (refreshRank s)) := by
    have a : AllReports (m.queue.drop l.queue.length ++ (m.overrun.drop l.overrun.length).map (.report false)) := by
      rw [hn, List.drop_left, allReports_iff]
      intro q hq
      rcases List.mem_append.mp hq with hq | hq
      · obtain ⟨p, _, rfl⟩ := List.mem_map.mp hq; rfl
      · obtain ⟨p, _, rfl⟩ := List.mem_map.mp hq; rfl
    have b := allReports_iff.mp (inOrder_reports a)
    rw [allReports_iff]
    intro q hq
    obtain ⟨p, hp, rfl⟩ := List.mem_map.mp hq
    rw [report?_refreshRank]
    exact b p (List.mem_of_mem_take hp)
  obtain ⟨o, ho⟩ := k
  refine ⟨⟨o, ?_⟩, ht, ?_⟩
  · simp only [orderLink, ho]
    rw [hn, List.take_left]
  · simp only [LinkRecord.mk.injEq, orderLink] at hr ⊢
    simp_all

/-! ## The state at the end of an event: the links alone change -/

@[simp] theorem orderReports_powered (before s : State) : (orderReports before s).powered = s.powered := rfl
@[simp] theorem orderReports_now (before s : State) : (orderReports before s).now = s.now := rfl
@[simp] theorem orderReports_store (before s : State) : (orderReports before s).store = s.store := rfl
@[simp] theorem orderReports_line (before s : State) : (orderReports before s).line = s.line := rfl
@[simp] theorem orderReports_arbiter (before s : State) : (orderReports before s).arbiter = s.arbiter := rfl
@[simp] theorem orderReports_calls (before s : State) : (orderReports before s).calls = s.calls := rfl
@[simp] theorem orderReports_groups (before s : State) : (orderReports before s).groups = s.groups := rfl
@[simp] theorem orderReports_pending (before s : State) : (orderReports before s).pending = s.pending := rfl

theorem orderReports_link (before s : State) (x : LinkId) :
    (orderReports before s).link x = orderLink (refreshRank s) (before.link x) (s.link x) := by cases x <;> rfl

end Sys2Proof.Machine
end

