-- ==== Sys2Proof/Laws/PerInstr.lean ====
section
/-! SUPPORT. The per-command family RequestOf: a command is the row of a request exactly when it has a sender, and a well-formed row
carries a request that its frame can carry. -/

/-- A command with a request has a sender, and the request of a well-formed command is well formed. -/
def Sys2Proof.Laws.RequestOf.Statement (i : Sys2Proof.Instr) : Prop :=
  i.sender.isSome = i.request.isSome ∧ ∀ r, i.request = some r → i.wf = true → r.wf = true

theorem Sys2Proof.Laws.RequestOf.powerOnReset (reached : Nat) :
    Sys2Proof.Laws.RequestOf.Statement (Sys2Proof.Instr.powerOnReset reached) := ⟨rfl, fun r h _ => by cases h⟩

theorem Sys2Proof.Laws.RequestOf.powerLoss (reached : Nat) :
    Sys2Proof.Laws.RequestOf.Statement (Sys2Proof.Instr.powerLoss reached) := ⟨rfl, fun r h _ => by cases h⟩

theorem Sys2Proof.Laws.RequestOf.startUpLoadEnd :
    Sys2Proof.Laws.RequestOf.Statement Sys2Proof.Instr.startUpLoadEnd := ⟨rfl, fun r h _ => by cases h⟩

theorem Sys2Proof.Laws.RequestOf.frameReceived (x : Sys2Proof.LinkId) (octets : List Sys2Proof.Byte) :
    Sys2Proof.Laws.RequestOf.Statement (Sys2Proof.Instr.frameReceived x octets) := ⟨rfl, fun r h _ => by cases h⟩

theorem Sys2Proof.Laws.RequestOf.lossOfFraming (x : Sys2Proof.LinkId) :
    Sys2Proof.Laws.RequestOf.Statement (Sys2Proof.Instr.lossOfFraming x) := ⟨rfl, fun r h _ => by cases h⟩

theorem Sys2Proof.Laws.RequestOf.silenceTimerExpiry (x : Sys2Proof.LinkId) :
    Sys2Proof.Laws.RequestOf.Statement (Sys2Proof.Instr.silenceTimerExpiry x) := ⟨rfl, fun r h _ => by cases h⟩

theorem Sys2Proof.Laws.RequestOf.reportFrameSent (x : Sys2Proof.LinkId) :
    Sys2Proof.Laws.RequestOf.Statement (Sys2Proof.Instr.reportFrameSent x) := ⟨rfl, fun r h _ => by cases h⟩

theorem Sys2Proof.Laws.RequestOf.badRequestFrame (x : Sys2Proof.LinkId) (tag typ : Sys2Proof.Byte) :
    Sys2Proof.Laws.RequestOf.Statement (Sys2Proof.Instr.badRequestFrame x tag typ) := ⟨rfl, fun r h _ => by cases h⟩

theorem Sys2Proof.Laws.RequestOf.answer (x : Sys2Proof.LinkId) (tag : Sys2Proof.Byte) (index generation slot : Nat) :
    Sys2Proof.Laws.RequestOf.Statement (Sys2Proof.Instr.answer x tag index generation slot) := ⟨rfl, fun r h w => by cases h; exact w⟩

theorem Sys2Proof.Laws.RequestOf.join (x : Sys2Proof.LinkId) (tag : Sys2Proof.Byte) (index generation slot : Nat) :
    Sys2Proof.Laws.RequestOf.Statement (Sys2Proof.Instr.join x tag index generation slot) := ⟨rfl, fun r h w => by cases h; exact w⟩

theorem Sys2Proof.Laws.RequestOf.leave (x : Sys2Proof.LinkId) (tag : Sys2Proof.Byte) (index generation : Nat) :
    Sys2Proof.Laws.RequestOf.Statement (Sys2Proof.Instr.leave x tag index generation) := ⟨rfl, fun r h w => by cases h; exact w⟩

theorem Sys2Proof.Laws.RequestOf.clear (x : Sys2Proof.LinkId) (tag : Sys2Proof.Byte) (index generation : Nat) :
    Sys2Proof.Laws.RequestOf.Statement (Sys2Proof.Instr.clear x tag index generation) := ⟨rfl, fun r h w => by cases h; exact w⟩

theorem Sys2Proof.Laws.RequestOf.callPost (x : Sys2Proof.LinkId) (tag : Sys2Proof.Byte) (post slot : Nat) :
    Sys2Proof.Laws.RequestOf.Statement (Sys2Proof.Instr.callPost x tag post slot) := ⟨rfl, fun r h w => by cases h; exact w⟩

theorem Sys2Proof.Laws.RequestOf.queryCalls (x : Sys2Proof.LinkId) (tag : Sys2Proof.Byte) (start : Nat) :
    Sys2Proof.Laws.RequestOf.Statement (Sys2Proof.Instr.queryCalls x tag start) := ⟨rfl, fun r h w => by cases h; exact w⟩

theorem Sys2Proof.Laws.RequestOf.announceStart (x : Sys2Proof.LinkId) (tag : Sys2Proof.Byte) (group slot : Nat) :
    Sys2Proof.Laws.RequestOf.Statement (Sys2Proof.Instr.announceStart x tag group slot) := ⟨rfl, fun r h w => by cases h; exact w⟩

theorem Sys2Proof.Laws.RequestOf.announceStop (x : Sys2Proof.LinkId) (tag : Sys2Proof.Byte) (group : Nat) :
    Sys2Proof.Laws.RequestOf.Statement (Sys2Proof.Instr.announceStop x tag group) := ⟨rfl, fun r h w => by cases h; exact w⟩

theorem Sys2Proof.Laws.RequestOf.groupEdit (x : Sys2Proof.LinkId) (tag : Sys2Proof.Byte) (group operation : Nat) (slots : List Nat) :
    Sys2Proof.Laws.RequestOf.Statement (Sys2Proof.Instr.groupEdit x tag group operation slots) := ⟨rfl, fun r h w => by cases h; exact w⟩

theorem Sys2Proof.Laws.RequestOf.groupResult (x : Sys2Proof.LinkId) (tag : Sys2Proof.Byte) (group first : Nat) :
    Sys2Proof.Laws.RequestOf.Statement (Sys2Proof.Instr.groupResult x tag group first) := ⟨rfl, fun r h w => by cases h; exact w⟩

theorem Sys2Proof.Laws.RequestOf.endServiceOff (x : Sys2Proof.LinkId) (tag : Sys2Proof.Byte) (endCode setting : Nat) :
    Sys2Proof.Laws.RequestOf.Statement (Sys2Proof.Instr.endServiceOff x tag endCode setting) := ⟨rfl, fun r h w => by
    cases h
    simp only [Sys2Proof.Instr.wf, Bool.and_eq_true] at w
    simpa [Sys2Proof.Request.wf] using w.1⟩

theorem Sys2Proof.Laws.RequestOf.endServiceOn (x : Sys2Proof.LinkId) (tag : Sys2Proof.Byte) (endCode : Nat) :
    Sys2Proof.Laws.RequestOf.Statement (Sys2Proof.Instr.endServiceOn x tag endCode) := ⟨rfl, fun r h w => by cases h; exact w⟩

theorem Sys2Proof.Laws.RequestOf.lineTest (x : Sys2Proof.LinkId) (tag : Sys2Proof.Byte) (endCode : Nat) :
    Sys2Proof.Laws.RequestOf.Statement (Sys2Proof.Instr.lineTest x tag endCode) := ⟨rfl, fun r h w => by cases h; exact w⟩

theorem Sys2Proof.Laws.RequestOf.lineStats (x : Sys2Proof.LinkId) (tag : Sys2Proof.Byte) (endCode clearFlag : Nat) :
    Sys2Proof.Laws.RequestOf.Statement (Sys2Proof.Instr.lineStats x tag endCode clearFlag) := ⟨rfl, fun r h w => by cases h; exact w⟩

theorem Sys2Proof.Laws.RequestOf.postTest (x : Sys2Proof.LinkId) (tag : Sys2Proof.Byte) (post count pattern : Nat) :
    Sys2Proof.Laws.RequestOf.Statement (Sys2Proof.Instr.postTest x tag post count pattern) := ⟨rfl, fun r h w => by cases h; exact w⟩

theorem Sys2Proof.Laws.RequestOf.postTestStop (x : Sys2Proof.LinkId) (tag : Sys2Proof.Byte) (endCode : Nat) :
    Sys2Proof.Laws.RequestOf.Statement (Sys2Proof.Instr.postTestStop x tag endCode) := ⟨rfl, fun r h w => by cases h; exact w⟩

theorem Sys2Proof.Laws.RequestOf.queryPost (x : Sys2Proof.LinkId) (tag : Sys2Proof.Byte) (post : Nat) :
    Sys2Proof.Laws.RequestOf.Statement (Sys2Proof.Instr.queryPost x tag post) := ⟨rfl, fun r h w => by cases h; exact w⟩

theorem Sys2Proof.Laws.RequestOf.queryEnd (x : Sys2Proof.LinkId) (tag : Sys2Proof.Byte) (endCode : Nat) :
    Sys2Proof.Laws.RequestOf.Statement (Sys2Proof.Instr.queryEnd x tag endCode) := ⟨rfl, fun r h w => by cases h; exact w⟩

theorem Sys2Proof.Laws.RequestOf.writeEnable (x : Sys2Proof.LinkId) (tag : Sys2Proof.Byte) :
    Sys2Proof.Laws.RequestOf.Statement (Sys2Proof.Instr.writeEnable x tag) := ⟨rfl, fun r h w => by cases h; exact w⟩

theorem Sys2Proof.Laws.RequestOf.writeDisable (x : Sys2Proof.LinkId) (tag : Sys2Proof.Byte) :
    Sys2Proof.Laws.RequestOf.Statement (Sys2Proof.Instr.writeDisable x tag) := ⟨rfl, fun r h w => by cases h; exact w⟩

theorem Sys2Proof.Laws.RequestOf.directoryWriteName (x : Sys2Proof.LinkId) (tag : Sys2Proof.Byte) (post : Nat) (fields : Sys2Proof.RawName) :
    Sys2Proof.Laws.RequestOf.Statement (Sys2Proof.Instr.directoryWriteName x tag post fields) := ⟨rfl, fun r h w => by cases h; exact w⟩

theorem Sys2Proof.Laws.RequestOf.directoryWritePlace (x : Sys2Proof.LinkId) (tag : Sys2Proof.Byte) (post : Nat) (fields : Sys2Proof.RawPlace) :
    Sys2Proof.Laws.RequestOf.Statement (Sys2Proof.Instr.directoryWritePlace x tag post fields) := ⟨rfl, fun r h w => by cases h; exact w⟩

theorem Sys2Proof.Laws.RequestOf.siteWriteSegment (x : Sys2Proof.LinkId) (tag : Sys2Proof.Byte) (seg : Nat) (fields : Sys2Proof.RawSegment) :
    Sys2Proof.Laws.RequestOf.Statement (Sys2Proof.Instr.siteWriteSegment x tag seg fields) := ⟨rfl, fun r h w => by cases h; exact w⟩

theorem Sys2Proof.Laws.RequestOf.siteWriteGlobal (x : Sys2Proof.LinkId) (tag : Sys2Proof.Byte) (fields : Sys2Proof.RawGlobal) :
    Sys2Proof.Laws.RequestOf.Statement (Sys2Proof.Instr.siteWriteGlobal x tag fields) := ⟨rfl, fun r h w => by cases h; exact w⟩

theorem Sys2Proof.Laws.RequestOf.storeErase (x : Sys2Proof.LinkId) (tag : Sys2Proof.Byte) (scope : Nat) :
    Sys2Proof.Laws.RequestOf.Statement (Sys2Proof.Instr.storeErase x tag scope) := ⟨rfl, fun r h w => by cases h; exact w⟩

theorem Sys2Proof.Laws.RequestOf.directoryRead (x : Sys2Proof.LinkId) (tag : Sys2Proof.Byte) (kind index first : Nat) :
    Sys2Proof.Laws.RequestOf.Statement (Sys2Proof.Instr.directoryRead x tag kind index first) := ⟨rfl, fun r h w => by cases h; exact w⟩

theorem Sys2Proof.Laws.RequestOf.nameWriteCompletion :
    Sys2Proof.Laws.RequestOf.Statement Sys2Proof.Instr.nameWriteCompletion := ⟨rfl, fun r h _ => by cases h⟩

theorem Sys2Proof.Laws.RequestOf.placeCompletion :
    Sys2Proof.Laws.RequestOf.Statement Sys2Proof.Instr.placeCompletion := ⟨rfl, fun r h _ => by cases h⟩

theorem Sys2Proof.Laws.RequestOf.segmentWriteCompletion :
    Sys2Proof.Laws.RequestOf.Statement Sys2Proof.Instr.segmentWriteCompletion := ⟨rfl, fun r h _ => by cases h⟩

theorem Sys2Proof.Laws.RequestOf.globalWriteCompletion :
    Sys2Proof.Laws.RequestOf.Statement Sys2Proof.Instr.globalWriteCompletion := ⟨rfl, fun r h _ => by cases h⟩

theorem Sys2Proof.Laws.RequestOf.groupEditCompletion :
    Sys2Proof.Laws.RequestOf.Statement Sys2Proof.Instr.groupEditCompletion := ⟨rfl, fun r h _ => by cases h⟩

theorem Sys2Proof.Laws.RequestOf.eraseCompletion :
    Sys2Proof.Laws.RequestOf.Statement Sys2Proof.Instr.eraseCompletion := ⟨rfl, fun r h _ => by cases h⟩

theorem Sys2Proof.Laws.RequestOf.pollReply (e : Sys2Proof.EndId) (octets : List Sys2Proof.Byte) :
    Sys2Proof.Laws.RequestOf.Statement (Sys2Proof.Instr.pollReply e octets) := ⟨rfl, fun r h _ => by cases h⟩

theorem Sys2Proof.Laws.RequestOf.pollWindowExpiry (e : Sys2Proof.EndId) :
    Sys2Proof.Laws.RequestOf.Statement (Sys2Proof.Instr.pollWindowExpiry e) := ⟨rfl, fun r h _ => by cases h⟩

theorem Sys2Proof.Laws.RequestOf.testFrameReply (e : Sys2Proof.EndId) (octets : List Sys2Proof.Byte) :
    Sys2Proof.Laws.RequestOf.Statement (Sys2Proof.Instr.testFrameReply e octets) := ⟨rfl, fun r h _ => by cases h⟩

theorem Sys2Proof.Laws.RequestOf.testFrameWindowExpiry (e : Sys2Proof.EndId) :
    Sys2Proof.Laws.RequestOf.Statement (Sys2Proof.Instr.testFrameWindowExpiry e) := ⟨rfl, fun r h _ => by cases h⟩

theorem Sys2Proof.Laws.RequestOf.loopLossEvent (e : Sys2Proof.EndId) :
    Sys2Proof.Laws.RequestOf.Statement (Sys2Proof.Instr.loopLossEvent e) := ⟨rfl, fun r h _ => by cases h⟩

theorem Sys2Proof.Laws.RequestOf.loopCurrentRestored (e : Sys2Proof.EndId) :
    Sys2Proof.Laws.RequestOf.Statement (Sys2Proof.Instr.loopCurrentRestored e) := ⟨rfl, fun r h _ => by cases h⟩

theorem Sys2Proof.Laws.RequestOf.measurementBegin (e : Sys2Proof.EndId) :
    Sys2Proof.Laws.RequestOf.Statement (Sys2Proof.Instr.measurementBegin e) := ⟨rfl, fun r h _ => by cases h⟩

theorem Sys2Proof.Laws.RequestOf.measurementResult (e : Sys2Proof.EndId) (kind : Sys2Proof.MeasKind) (delay : Nat) (coupled : Option Sys2Proof.SegId) :
    Sys2Proof.Laws.RequestOf.Statement (Sys2Proof.Instr.measurementResult e kind delay coupled) := ⟨rfl, fun r h _ => by cases h⟩

theorem Sys2Proof.Laws.RequestOf.retryWaitExpiry (e : Sys2Proof.EndId) :
    Sys2Proof.Laws.RequestOf.Statement (Sys2Proof.Instr.retryWaitExpiry e) := ⟨rfl, fun r h _ => by cases h⟩

theorem Sys2Proof.Laws.RequestOf.retestTimerExpiry (e : Sys2Proof.EndId) :
    Sys2Proof.Laws.RequestOf.Statement (Sys2Proof.Instr.retestTimerExpiry e) := ⟨rfl, fun r h _ => by cases h⟩

theorem Sys2Proof.Laws.RequestOf.overflowTimerExpiry (i : Sys2Proof.CallIdx) :
    Sys2Proof.Laws.RequestOf.Statement (Sys2Proof.Instr.overflowTimerExpiry i) := ⟨rfl, fun r h _ => by cases h⟩

theorem Sys2Proof.Laws.RequestOf.ringTimerExpiry (i : Sys2Proof.CallIdx) :
    Sys2Proof.Laws.RequestOf.Statement (Sys2Proof.Instr.ringTimerExpiry i) := ⟨rfl, fun r h _ => by cases h⟩

theorem Sys2Proof.Laws.RequestOf.clearConfirmTimerExpiry (i : Sys2Proof.CallIdx) :
    Sys2Proof.Laws.RequestOf.Statement (Sys2Proof.Instr.clearConfirmTimerExpiry i) := ⟨rfl, fun r h _ => by cases h⟩

theorem Sys2Proof.Laws.RequestOf.acknowledgeWindowExpiry (g : Sys2Proof.GroupId) :
    Sys2Proof.Laws.RequestOf.Statement (Sys2Proof.Instr.acknowledgeWindowExpiry g) := ⟨rfl, fun r h _ => by cases h⟩

theorem Sys2Proof.Laws.RequestOf.acknowledgeLateExpiry (g : Sys2Proof.GroupId) :
    Sys2Proof.Laws.RequestOf.Statement (Sys2Proof.Instr.acknowledgeLateExpiry g) := ⟨rfl, fun r h _ => by cases h⟩
end

