-- ==== Sys2Proof/Laws/State.lean ====
section
/-! SUPPORT. One lemma for each field of the state under each named update, so that no proof unfolds a record update. -/

namespace Sys2Proof.Machine

variable (s : State)

/-! ## Tables -/

@[simp] theorem nth_modNth_same {α : Type} {n : Nat} (t : Vector α n) (i : Fin n) (f : α → α) :
    nth (modNth t i f) i = f (nth t i) := by
  simp [nth, modNth]

@[simp] theorem nth_modNth_ne {α : Type} {n : Nat} (t : Vector α n) {i j : Fin n} (f : α → α) (h : i ≠ j) :
    nth (modNth t i f) j = nth t j := by
  simp [nth, modNth, Vector.getElem_set_ne, Fin.val_ne_of_ne h]

theorem nth_modNth {α : Type} {n : Nat} (t : Vector α n) (i j : Fin n) (f : α → α) :
    nth (modNth t i f) j = if i = j then f (nth t j) else nth t j := by
  split
  · subst_vars; simp
  · simp [*]

@[simp] theorem nth_replicate {α : Type} {n : Nat} (a : α) (i : Fin n) : nth (Vector.replicate n a) i = a := by
  simp [nth]

@[simp] theorem nth_map {α β : Type} {n : Nat} (t : Vector α n) (f : α → β) (i : Fin n) : nth (t.map f) i = f (nth t i) := by
  simp [nth]

theorem endIdx_injective {e f : EndId} (h : endIdx e = endIdx f) : e = f := by
  obtain ⟨a, sa⟩ := e; obtain ⟨b, sb⟩ := f
  cases sa <;> cases sb <;> simp [endIdx, Fin.ext_iff] at h ⊢ <;> omega

@[simp] theorem endIdx_inj {e f : EndId} : endIdx e = endIdx f ↔ e = f := ⟨endIdx_injective, fun h => h ▸ rfl⟩

/-! ## Fields under updates -/

@[simp] theorem onLine_powered (f : LineBlock → LineBlock) : (s.onLine f).powered = s.powered := rfl
@[simp] theorem onLine_now (f : LineBlock → LineBlock) : (s.onLine f).now = s.now := rfl
@[simp] theorem onLine_store (f : LineBlock → LineBlock) : (s.onLine f).store = s.store := rfl
@[simp] theorem onLine_line (f : LineBlock → LineBlock) : (s.onLine f).line = f s.line := rfl
@[simp] theorem onLine_arbiter (f : LineBlock → LineBlock) : (s.onLine f).arbiter = s.arbiter := rfl
@[simp] theorem onLine_calls (f : LineBlock → LineBlock) : (s.onLine f).calls = s.calls := rfl
@[simp] theorem onLine_groups (f : LineBlock → LineBlock) : (s.onLine f).groups = s.groups := rfl
@[simp] theorem onLine_linkA (f : LineBlock → LineBlock) : (s.onLine f).linkA = s.linkA := rfl
@[simp] theorem onLine_linkB (f : LineBlock → LineBlock) : (s.onLine f).linkB = s.linkB := rfl
@[simp] theorem onLine_pending (f : LineBlock → LineBlock) : (s.onLine f).pending = s.pending := rfl

@[simp] theorem modPost_powered (i : Slot) (f : PostRow → PostRow) : (s.modPost i f).powered = s.powered := rfl
@[simp] theorem modPost_now (i : Slot) (f : PostRow → PostRow) : (s.modPost i f).now = s.now := rfl
@[simp] theorem modPost_store (i : Slot) (f : PostRow → PostRow) : (s.modPost i f).store = s.store := rfl
@[simp] theorem modPost_line (i : Slot) (f : PostRow → PostRow) : (s.modPost i f).line = { s.line with posts := modNth s.line.posts i f } := rfl
@[simp] theorem modPost_arbiter (i : Slot) (f : PostRow → PostRow) : (s.modPost i f).arbiter = s.arbiter := rfl
@[simp] theorem modPost_calls (i : Slot) (f : PostRow → PostRow) : (s.modPost i f).calls = s.calls := rfl
@[simp] theorem modPost_groups (i : Slot) (f : PostRow → PostRow) : (s.modPost i f).groups = s.groups := rfl
@[simp] theorem modPost_linkA (i : Slot) (f : PostRow → PostRow) : (s.modPost i f).linkA = s.linkA := rfl
@[simp] theorem modPost_linkB (i : Slot) (f : PostRow → PostRow) : (s.modPost i f).linkB = s.linkB := rfl
@[simp] theorem modPost_pending (i : Slot) (f : PostRow → PostRow) : (s.modPost i f).pending = s.pending := rfl

@[simp] theorem modEnd_powered (e : EndId) (f : EndRecord → EndRecord) : (s.modEnd e f).powered = s.powered := rfl
@[simp] theorem modEnd_now (e : EndId) (f : EndRecord → EndRecord) : (s.modEnd e f).now = s.now := rfl
@[simp] theorem modEnd_store (e : EndId) (f : EndRecord → EndRecord) : (s.modEnd e f).store = s.store := rfl
@[simp] theorem modEnd_line (e : EndId) (f : EndRecord → EndRecord) : (s.modEnd e f).line = { s.line with ends := modNth s.line.ends (endIdx e) f } := rfl
@[simp] theorem modEnd_arbiter (e : EndId) (f : EndRecord → EndRecord) : (s.modEnd e f).arbiter = s.arbiter := rfl
@[simp] theorem modEnd_calls (e : EndId) (f : EndRecord → EndRecord) : (s.modEnd e f).calls = s.calls := rfl
@[simp] theorem modEnd_groups (e : EndId) (f : EndRecord → EndRecord) : (s.modEnd e f).groups = s.groups := rfl
@[simp] theorem modEnd_linkA (e : EndId) (f : EndRecord → EndRecord) : (s.modEnd e f).linkA = s.linkA := rfl
@[simp] theorem modEnd_linkB (e : EndId) (f : EndRecord → EndRecord) : (s.modEnd e f).linkB = s.linkB := rfl
@[simp] theorem modEnd_pending (e : EndId) (f : EndRecord → EndRecord) : (s.modEnd e f).pending = s.pending := rfl

@[simp] theorem modPort_powered (e : EndId) (f : Port → Port) : (s.modPort e f).powered = s.powered := rfl
@[simp] theorem modPort_now (e : EndId) (f : Port → Port) : (s.modPort e f).now = s.now := rfl
@[simp] theorem modPort_store (e : EndId) (f : Port → Port) : (s.modPort e f).store = s.store := rfl
@[simp] theorem modPort_line (e : EndId) (f : Port → Port) : (s.modPort e f).line = { s.line with ports := modNth s.line.ports (endIdx e) f } := rfl
@[simp] theorem modPort_arbiter (e : EndId) (f : Port → Port) : (s.modPort e f).arbiter = s.arbiter := rfl
@[simp] theorem modPort_calls (e : EndId) (f : Port → Port) : (s.modPort e f).calls = s.calls := rfl
@[simp] theorem modPort_groups (e : EndId) (f : Port → Port) : (s.modPort e f).groups = s.groups := rfl
@[simp] theorem modPort_linkA (e : EndId) (f : Port → Port) : (s.modPort e f).linkA = s.linkA := rfl
@[simp] theorem modPort_linkB (e : EndId) (f : Port → Port) : (s.modPort e f).linkB = s.linkB := rfl
@[simp] theorem modPort_pending (e : EndId) (f : Port → Port) : (s.modPort e f).pending = s.pending := rfl

@[simp] theorem modCounters_powered (e : EndId) (f : Counters → Counters) : (s.modCounters e f).powered = s.powered := rfl
@[simp] theorem modCounters_now (e : EndId) (f : Counters → Counters) : (s.modCounters e f).now = s.now := rfl
@[simp] theorem modCounters_store (e : EndId) (f : Counters → Counters) : (s.modCounters e f).store = s.store := rfl
@[simp] theorem modCounters_line (e : EndId) (f : Counters → Counters) : (s.modCounters e f).line = { s.line with counters := modNth s.line.counters (endIdx e) f } := rfl
@[simp] theorem modCounters_arbiter (e : EndId) (f : Counters → Counters) : (s.modCounters e f).arbiter = s.arbiter := rfl
@[simp] theorem modCounters_calls (e : EndId) (f : Counters → Counters) : (s.modCounters e f).calls = s.calls := rfl
@[simp] theorem modCounters_groups (e : EndId) (f : Counters → Counters) : (s.modCounters e f).groups = s.groups := rfl
@[simp] theorem modCounters_linkA (e : EndId) (f : Counters → Counters) : (s.modCounters e f).linkA = s.linkA := rfl
@[simp] theorem modCounters_linkB (e : EndId) (f : Counters → Counters) : (s.modCounters e f).linkB = s.linkB := rfl
@[simp] theorem modCounters_pending (e : EndId) (f : Counters → Counters) : (s.modCounters e f).pending = s.pending := rfl

@[simp] theorem modBurst_powered (e : EndId) (f : BurstRecord → BurstRecord) : (s.modBurst e f).powered = s.powered := rfl
@[simp] theorem modBurst_now (e : EndId) (f : BurstRecord → BurstRecord) : (s.modBurst e f).now = s.now := rfl
@[simp] theorem modBurst_store (e : EndId) (f : BurstRecord → BurstRecord) : (s.modBurst e f).store = s.store := rfl
@[simp] theorem modBurst_line (e : EndId) (f : BurstRecord → BurstRecord) : (s.modBurst e f).line = { s.line with bursts := modNth s.line.bursts (endIdx e) f } := rfl
@[simp] theorem modBurst_arbiter (e : EndId) (f : BurstRecord → BurstRecord) : (s.modBurst e f).arbiter = s.arbiter := rfl
@[simp] theorem modBurst_calls (e : EndId) (f : BurstRecord → BurstRecord) : (s.modBurst e f).calls = s.calls := rfl
@[simp] theorem modBurst_groups (e : EndId) (f : BurstRecord → BurstRecord) : (s.modBurst e f).groups = s.groups := rfl
@[simp] theorem modBurst_linkA (e : EndId) (f : BurstRecord → BurstRecord) : (s.modBurst e f).linkA = s.linkA := rfl
@[simp] theorem modBurst_linkB (e : EndId) (f : BurstRecord → BurstRecord) : (s.modBurst e f).linkB = s.linkB := rfl
@[simp] theorem modBurst_pending (e : EndId) (f : BurstRecord → BurstRecord) : (s.modBurst e f).pending = s.pending := rfl

@[simp] theorem setHopMap_powered (g : SegId) (m : List Slot) : (s.setHopMap g m).powered = s.powered := rfl
@[simp] theorem setHopMap_now (g : SegId) (m : List Slot) : (s.setHopMap g m).now = s.now := rfl
@[simp] theorem setHopMap_store (g : SegId) (m : List Slot) : (s.setHopMap g m).store = s.store := rfl
@[simp] theorem setHopMap_line (g : SegId) (m : List Slot) : (s.setHopMap g m).line = { s.line with hopMaps := modNth s.line.hopMaps g fun _ => m } := rfl
@[simp] theorem setHopMap_arbiter (g : SegId) (m : List Slot) : (s.setHopMap g m).arbiter = s.arbiter := rfl
@[simp] theorem setHopMap_calls (g : SegId) (m : List Slot) : (s.setHopMap g m).calls = s.calls := rfl
@[simp] theorem setHopMap_groups (g : SegId) (m : List Slot) : (s.setHopMap g m).groups = s.groups := rfl
@[simp] theorem setHopMap_linkA (g : SegId) (m : List Slot) : (s.setHopMap g m).linkA = s.linkA := rfl
@[simp] theorem setHopMap_linkB (g : SegId) (m : List Slot) : (s.setHopMap g m).linkB = s.linkB := rfl
@[simp] theorem setHopMap_pending (g : SegId) (m : List Slot) : (s.setHopMap g m).pending = s.pending := rfl

@[simp] theorem modChan_powered (e : EndId) (f : ChannelEnd → ChannelEnd) : (s.modChan e f).powered = s.powered := rfl
@[simp] theorem modChan_now (e : EndId) (f : ChannelEnd → ChannelEnd) : (s.modChan e f).now = s.now := rfl
@[simp] theorem modChan_store (e : EndId) (f : ChannelEnd → ChannelEnd) : (s.modChan e f).store = s.store := rfl
@[simp] theorem modChan_line (e : EndId) (f : ChannelEnd → ChannelEnd) : (s.modChan e f).line = s.line := rfl
@[simp] theorem modChan_arbiter (e : EndId) (f : ChannelEnd → ChannelEnd) : (s.modChan e f).arbiter = modNth s.arbiter (endIdx e) f := rfl
@[simp] theorem modChan_calls (e : EndId) (f : ChannelEnd → ChannelEnd) : (s.modChan e f).calls = s.calls := rfl
@[simp] theorem modChan_groups (e : EndId) (f : ChannelEnd → ChannelEnd) : (s.modChan e f).groups = s.groups := rfl
@[simp] theorem modChan_linkA (e : EndId) (f : ChannelEnd → ChannelEnd) : (s.modChan e f).linkA = s.linkA := rfl
@[simp] theorem modChan_linkB (e : EndId) (f : ChannelEnd → ChannelEnd) : (s.modChan e f).linkB = s.linkB := rfl
@[simp] theorem modChan_pending (e : EndId) (f : ChannelEnd → ChannelEnd) : (s.modChan e f).pending = s.pending := rfl

@[simp] theorem setRecords_powered (r : Vector CallRecord 48) : (s.setRecords r).powered = s.powered := rfl
@[simp] theorem setRecords_now (r : Vector CallRecord 48) : (s.setRecords r).now = s.now := rfl
@[simp] theorem setRecords_store (r : Vector CallRecord 48) : (s.setRecords r).store = s.store := rfl
@[simp] theorem setRecords_line (r : Vector CallRecord 48) : (s.setRecords r).line = s.line := rfl
@[simp] theorem setRecords_arbiter (r : Vector CallRecord 48) : (s.setRecords r).arbiter = s.arbiter := rfl
@[simp] theorem setRecords_calls (r : Vector CallRecord 48) : (s.setRecords r).calls = { s.calls with records := r } := rfl
@[simp] theorem setRecords_groups (r : Vector CallRecord 48) : (s.setRecords r).groups = s.groups := rfl
@[simp] theorem setRecords_linkA (r : Vector CallRecord 48) : (s.setRecords r).linkA = s.linkA := rfl
@[simp] theorem setRecords_linkB (r : Vector CallRecord 48) : (s.setRecords r).linkB = s.linkB := rfl
@[simp] theorem setRecords_pending (r : Vector CallRecord 48) : (s.setRecords r).pending = s.pending := rfl

@[simp] theorem modRecord_powered (i : CallIdx) (f : CallRecord → CallRecord) : (s.modRecord i f).powered = s.powered := rfl
@[simp] theorem modRecord_now (i : CallIdx) (f : CallRecord → CallRecord) : (s.modRecord i f).now = s.now := rfl
@[simp] theorem modRecord_store (i : CallIdx) (f : CallRecord → CallRecord) : (s.modRecord i f).store = s.store := rfl
@[simp] theorem modRecord_line (i : CallIdx) (f : CallRecord → CallRecord) : (s.modRecord i f).line = s.line := rfl
@[simp] theorem modRecord_arbiter (i : CallIdx) (f : CallRecord → CallRecord) : (s.modRecord i f).arbiter = s.arbiter := rfl
@[simp] theorem modRecord_calls (i : CallIdx) (f : CallRecord → CallRecord) : (s.modRecord i f).calls = { s.calls with records := modNth s.calls.records i f } := rfl
@[simp] theorem modRecord_groups (i : CallIdx) (f : CallRecord → CallRecord) : (s.modRecord i f).groups = s.groups := rfl
@[simp] theorem modRecord_linkA (i : CallIdx) (f : CallRecord → CallRecord) : (s.modRecord i f).linkA = s.linkA := rfl
@[simp] theorem modRecord_linkB (i : CallIdx) (f : CallRecord → CallRecord) : (s.modRecord i f).linkB = s.linkB := rfl
@[simp] theorem modRecord_pending (i : CallIdx) (f : CallRecord → CallRecord) : (s.modRecord i f).pending = s.pending := rfl

@[simp] theorem modCall_powered (i : CallIdx) (f : LiveCall → LiveCall) : (s.modCall i f).powered = s.powered := rfl
@[simp] theorem modCall_now (i : CallIdx) (f : LiveCall → LiveCall) : (s.modCall i f).now = s.now := rfl
@[simp] theorem modCall_store (i : CallIdx) (f : LiveCall → LiveCall) : (s.modCall i f).store = s.store := rfl
@[simp] theorem modCall_line (i : CallIdx) (f : LiveCall → LiveCall) : (s.modCall i f).line = s.line := rfl
@[simp] theorem modCall_arbiter (i : CallIdx) (f : LiveCall → LiveCall) : (s.modCall i f).arbiter = s.arbiter := rfl
@[simp] theorem modCall_calls (i : CallIdx) (f : LiveCall → LiveCall) : (s.modCall i f).calls = { s.calls with records := modNth s.calls.records i fun r => { r with live := r.live.map f } } := rfl
@[simp] theorem modCall_groups (i : CallIdx) (f : LiveCall → LiveCall) : (s.modCall i f).groups = s.groups := rfl
@[simp] theorem modCall_linkA (i : CallIdx) (f : LiveCall → LiveCall) : (s.modCall i f).linkA = s.linkA := rfl
@[simp] theorem modCall_linkB (i : CallIdx) (f : LiveCall → LiveCall) : (s.modCall i f).linkB = s.linkB := rfl
@[simp] theorem modCall_pending (i : CallIdx) (f : LiveCall → LiveCall) : (s.modCall i f).pending = s.pending := rfl

@[simp] theorem setOverflow_powered (l : List OverflowEntry) : (s.setOverflow l).powered = s.powered := rfl
@[simp] theorem setOverflow_now (l : List OverflowEntry) : (s.setOverflow l).now = s.now := rfl
@[simp] theorem setOverflow_store (l : List OverflowEntry) : (s.setOverflow l).store = s.store := rfl
@[simp] theorem setOverflow_line (l : List OverflowEntry) : (s.setOverflow l).line = s.line := rfl
@[simp] theorem setOverflow_arbiter (l : List OverflowEntry) : (s.setOverflow l).arbiter = s.arbiter := rfl
@[simp] theorem setOverflow_calls (l : List OverflowEntry) : (s.setOverflow l).calls = { s.calls with overflow := l } := rfl
@[simp] theorem setOverflow_groups (l : List OverflowEntry) : (s.setOverflow l).groups = s.groups := rfl
@[simp] theorem setOverflow_linkA (l : List OverflowEntry) : (s.setOverflow l).linkA = s.linkA := rfl
@[simp] theorem setOverflow_linkB (l : List OverflowEntry) : (s.setOverflow l).linkB = s.linkB := rfl
@[simp] theorem setOverflow_pending (l : List OverflowEntry) : (s.setOverflow l).pending = s.pending := rfl

@[simp] theorem modGroup_powered (g : GroupId) (f : GroupRun → GroupRun) : (s.modGroup g f).powered = s.powered := rfl
@[simp] theorem modGroup_now (g : GroupId) (f : GroupRun → GroupRun) : (s.modGroup g f).now = s.now := rfl
@[simp] theorem modGroup_store (g : GroupId) (f : GroupRun → GroupRun) : (s.modGroup g f).store = s.store := rfl
@[simp] theorem modGroup_line (g : GroupId) (f : GroupRun → GroupRun) : (s.modGroup g f).line = s.line := rfl
@[simp] theorem modGroup_arbiter (g : GroupId) (f : GroupRun → GroupRun) : (s.modGroup g f).arbiter = s.arbiter := rfl
@[simp] theorem modGroup_calls (g : GroupId) (f : GroupRun → GroupRun) : (s.modGroup g f).calls = s.calls := rfl
@[simp] theorem modGroup_groups (g : GroupId) (f : GroupRun → GroupRun) : (s.modGroup g f).groups = modNth s.groups g f := rfl
@[simp] theorem modGroup_linkA (g : GroupId) (f : GroupRun → GroupRun) : (s.modGroup g f).linkA = s.linkA := rfl
@[simp] theorem modGroup_linkB (g : GroupId) (f : GroupRun → GroupRun) : (s.modGroup g f).linkB = s.linkB := rfl
@[simp] theorem modGroup_pending (g : GroupId) (f : GroupRun → GroupRun) : (s.modGroup g f).pending = s.pending := rfl

@[simp] theorem setStore_powered (b : StoreBlock) : (s.setStore b).powered = s.powered := rfl
@[simp] theorem setStore_now (b : StoreBlock) : (s.setStore b).now = s.now := rfl
@[simp] theorem setStore_store (b : StoreBlock) : (s.setStore b).store = b := rfl
@[simp] theorem setStore_line (b : StoreBlock) : (s.setStore b).line = s.line := rfl
@[simp] theorem setStore_arbiter (b : StoreBlock) : (s.setStore b).arbiter = s.arbiter := rfl
@[simp] theorem setStore_calls (b : StoreBlock) : (s.setStore b).calls = s.calls := rfl
@[simp] theorem setStore_groups (b : StoreBlock) : (s.setStore b).groups = s.groups := rfl
@[simp] theorem setStore_linkA (b : StoreBlock) : (s.setStore b).linkA = s.linkA := rfl
@[simp] theorem setStore_linkB (b : StoreBlock) : (s.setStore b).linkB = s.linkB := rfl
@[simp] theorem setStore_pending (b : StoreBlock) : (s.setStore b).pending = s.pending := rfl

@[simp] theorem setSite_powered (w : Site) : (s.setSite w).powered = s.powered := rfl
@[simp] theorem setSite_now (w : Site) : (s.setSite w).now = s.now := rfl
@[simp] theorem setSite_store (w : Site) : (s.setSite w).store = { s.store with site := w } := rfl
@[simp] theorem setSite_line (w : Site) : (s.setSite w).line = s.line := rfl
@[simp] theorem setSite_arbiter (w : Site) : (s.setSite w).arbiter = s.arbiter := rfl
@[simp] theorem setSite_calls (w : Site) : (s.setSite w).calls = s.calls := rfl
@[simp] theorem setSite_groups (w : Site) : (s.setSite w).groups = s.groups := rfl
@[simp] theorem setSite_linkA (w : Site) : (s.setSite w).linkA = s.linkA := rfl
@[simp] theorem setSite_linkB (w : Site) : (s.setSite w).linkB = s.linkB := rfl
@[simp] theorem setSite_pending (w : Site) : (s.setSite w).pending = s.pending := rfl

@[simp] theorem reach_powered (t : Nat) : (s.reach t).powered = s.powered := rfl
@[simp] theorem reach_now (t : Nat) : (s.reach t).now = max s.now t := rfl
@[simp] theorem reach_store (t : Nat) : (s.reach t).store = s.store := rfl
@[simp] theorem reach_line (t : Nat) : (s.reach t).line = s.line := rfl
@[simp] theorem reach_arbiter (t : Nat) : (s.reach t).arbiter = s.arbiter := rfl
@[simp] theorem reach_calls (t : Nat) : (s.reach t).calls = s.calls := rfl
@[simp] theorem reach_groups (t : Nat) : (s.reach t).groups = s.groups := rfl
@[simp] theorem reach_linkA (t : Nat) : (s.reach t).linkA = s.linkA := rfl
@[simp] theorem reach_linkB (t : Nat) : (s.reach t).linkB = s.linkB := rfl
@[simp] theorem reach_pending (t : Nat) : (s.reach t).pending = s.pending := rfl

@[simp] theorem withPending_powered (l : List Instr) : (s.withPending l).powered = s.powered := rfl
@[simp] theorem withPending_now (l : List Instr) : (s.withPending l).now = s.now := rfl
@[simp] theorem withPending_store (l : List Instr) : (s.withPending l).store = s.store := rfl
@[simp] theorem withPending_line (l : List Instr) : (s.withPending l).line = s.line := rfl
@[simp] theorem withPending_arbiter (l : List Instr) : (s.withPending l).arbiter = s.arbiter := rfl
@[simp] theorem withPending_calls (l : List Instr) : (s.withPending l).calls = s.calls := rfl
@[simp] theorem withPending_groups (l : List Instr) : (s.withPending l).groups = s.groups := rfl
@[simp] theorem withPending_linkA (l : List Instr) : (s.withPending l).linkA = s.linkA := rfl
@[simp] theorem withPending_linkB (l : List Instr) : (s.withPending l).linkB = s.linkB := rfl
@[simp] theorem withPending_pending (l : List Instr) : (s.withPending l).pending = l := rfl

/-! ## A link record replaced -/

@[simp] theorem modLink_powered (x : LinkId) (f : LinkRecord → LinkRecord) : (s.modLink x f).powered = s.powered := by cases x <;> rfl
@[simp] theorem modLink_now (x : LinkId) (f : LinkRecord → LinkRecord) : (s.modLink x f).now = s.now := by cases x <;> rfl
@[simp] theorem modLink_store (x : LinkId) (f : LinkRecord → LinkRecord) : (s.modLink x f).store = s.store := by cases x <;> rfl
@[simp] theorem modLink_line (x : LinkId) (f : LinkRecord → LinkRecord) : (s.modLink x f).line = s.line := by cases x <;> rfl
@[simp] theorem modLink_arbiter (x : LinkId) (f : LinkRecord → LinkRecord) : (s.modLink x f).arbiter = s.arbiter := by cases x <;> rfl
@[simp] theorem modLink_calls (x : LinkId) (f : LinkRecord → LinkRecord) : (s.modLink x f).calls = s.calls := by cases x <;> rfl
@[simp] theorem modLink_groups (x : LinkId) (f : LinkRecord → LinkRecord) : (s.modLink x f).groups = s.groups := by cases x <;> rfl
@[simp] theorem modLink_pending (x : LinkId) (f : LinkRecord → LinkRecord) : (s.modLink x f).pending = s.pending := by cases x <;> rfl

@[simp] theorem modLink_link_same (x : LinkId) (f : LinkRecord → LinkRecord) : (s.modLink x f).link x = f (s.link x) := by
  cases x <;> rfl

@[simp] theorem modLink_link_ne {x y : LinkId} (f : LinkRecord → LinkRecord) (h : x ≠ y) :
    (s.modLink x f).link y = s.link y := by
  cases x <;> cases y <;> first | rfl | exact absurd rfl h

theorem link_modLink (x y : LinkId) (f : LinkRecord → LinkRecord) :
    (s.modLink x f).link y = if x = y then f (s.link y) else s.link y := by
  cases x <;> cases y <;> rfl

/-! ## Accessors under updates of their own table -/

@[simp] theorem modPost_post_same (i : Slot) (f : PostRow → PostRow) : (s.modPost i f).post i = f (s.post i) := by
  simp [State.post]

@[simp] theorem modPost_post_ne {i j : Slot} (f : PostRow → PostRow) (h : i ≠ j) : (s.modPost i f).post j = s.post j := by
  simp [State.post, h]

@[simp] theorem modEnd_endRec_same (e : EndId) (f : EndRecord → EndRecord) : (s.modEnd e f).endRec e = f (s.endRec e) := by
  simp [State.endRec]

@[simp] theorem modEnd_endRec_ne {e d : EndId} (f : EndRecord → EndRecord) (h : e ≠ d) : (s.modEnd e f).endRec d = s.endRec d := by
  simp [State.endRec, h]

@[simp] theorem modPort_port_same (e : EndId) (f : Port → Port) : (s.modPort e f).port e = f (s.port e) := by
  simp [State.port]

@[simp] theorem modPort_port_ne {e d : EndId} (f : Port → Port) (h : e ≠ d) : (s.modPort e f).port d = s.port d := by
  simp [State.port, h]

@[simp] theorem modCounters_counters_same (e : EndId) (f : Counters → Counters) : (s.modCounters e f).counters e = f (s.counters e) := by
  simp [State.counters]

@[simp] theorem modCounters_counters_ne {e d : EndId} (f : Counters → Counters) (h : e ≠ d) : (s.modCounters e f).counters d = s.counters d := by
  simp [State.counters, h]

@[simp] theorem modBurst_burst_same (e : EndId) (f : BurstRecord → BurstRecord) : (s.modBurst e f).burst e = f (s.burst e) := by
  simp [State.burst]

@[simp] theorem modBurst_burst_ne {e d : EndId} (f : BurstRecord → BurstRecord) (h : e ≠ d) : (s.modBurst e f).burst d = s.burst d := by
  simp [State.burst, h]

@[simp] theorem modChan_chan_same (e : EndId) (f : ChannelEnd → ChannelEnd) : (s.modChan e f).chan e = f (s.chan e) := by
  simp [State.chan]

@[simp] theorem modChan_chan_ne {e d : EndId} (f : ChannelEnd → ChannelEnd) (h : e ≠ d) : (s.modChan e f).chan d = s.chan d := by
  simp [State.chan, h]

@[simp] theorem modRecord_record_same (i : CallIdx) (f : CallRecord → CallRecord) : (s.modRecord i f).record i = f (s.record i) := by
  simp [State.record]

@[simp] theorem modRecord_record_ne {i j : CallIdx} (f : CallRecord → CallRecord) (h : i ≠ j) : (s.modRecord i f).record j = s.record j := by
  simp [State.record, h]

@[simp] theorem modGroup_group_same (g : GroupId) (f : GroupRun → GroupRun) : (s.modGroup g f).group g = f (s.group g) := by
  simp [State.group]

@[simp] theorem modGroup_group_ne {g k : GroupId} (f : GroupRun → GroupRun) (h : g ≠ k) : (s.modGroup g f).group k = s.group k := by
  simp [State.group, h]

/-! ## Accessors under updates of other tables -/

@[simp] theorem modPost_endRec (i : Slot) (f : PostRow → PostRow) (d : EndId) : (s.modPost i f).endRec d = s.endRec d := rfl
@[simp] theorem modPost_port (i : Slot) (f : PostRow → PostRow) (d : EndId) : (s.modPost i f).port d = s.port d := rfl
@[simp] theorem modPost_counters (i : Slot) (f : PostRow → PostRow) (d : EndId) : (s.modPost i f).counters d = s.counters d := rfl
@[simp] theorem modPost_burst (i : Slot) (f : PostRow → PostRow) (d : EndId) : (s.modPost i f).burst d = s.burst d := rfl
@[simp] theorem modPost_hopMap (i : Slot) (f : PostRow → PostRow) (h : SegId) : (s.modPost i f).hopMap h = s.hopMap h := rfl
@[simp] theorem modPost_chan (i : Slot) (f : PostRow → PostRow) (d : EndId) : (s.modPost i f).chan d = s.chan d := rfl
@[simp] theorem modPost_record (i : Slot) (f : PostRow → PostRow) (j : CallIdx) : (s.modPost i f).record j = s.record j := rfl
@[simp] theorem modPost_liveCall (i : Slot) (f : PostRow → PostRow) (j : CallIdx) : (s.modPost i f).liveCall j = s.liveCall j := rfl
@[simp] theorem modPost_refOfRecord (i : Slot) (f : PostRow → PostRow) (j : CallIdx) : (s.modPost i f).refOfRecord j = s.refOfRecord j := rfl
@[simp] theorem modPost_callState (i : Slot) (f : PostRow → PostRow) (j : CallIdx) : (s.modPost i f).callState j = s.callState j := rfl
@[simp] theorem modPost_callOf (i : Slot) (f : PostRow → PostRow) (j : Slot) : (s.modPost i f).callOf j = s.callOf j := rfl
@[simp] theorem modPost_onOverflow (i : Slot) (f : PostRow → PostRow) (j : Slot) : (s.modPost i f).onOverflow j = s.onOverflow j := rfl
@[simp] theorem modPost_freeRecord (i : Slot) (f : PostRow → PostRow) : (s.modPost i f).freeRecord? = s.freeRecord? := rfl
@[simp] theorem modPost_group (i : Slot) (f : PostRow → PostRow) (h : GroupId) : (s.modPost i f).group h = s.group h := rfl
@[simp] theorem modPost_entry (i : Slot) (f : PostRow → PostRow) (j : Slot) : (s.modPost i f).entry j = s.entry j := rfl
@[simp] theorem modPost_segment (i : Slot) (f : PostRow → PostRow) (h : SegId) : (s.modPost i f).segment h = s.segment h := rfl
@[simp] theorem modPost_membership (i : Slot) (f : PostRow → PostRow) (h : GroupId) : (s.modPost i f).membership h = s.membership h := rfl
@[simp] theorem modPost_link (i : Slot) (f : PostRow → PostRow) (y : LinkId) : (s.modPost i f).link y = s.link y := rfl
@[simp] theorem modEnd_post (e : EndId) (f : EndRecord → EndRecord) (j : Slot) : (s.modEnd e f).post j = s.post j := rfl
@[simp] theorem modEnd_port (e : EndId) (f : EndRecord → EndRecord) (d : EndId) : (s.modEnd e f).port d = s.port d := rfl
@[simp] theorem modEnd_counters (e : EndId) (f : EndRecord → EndRecord) (d : EndId) : (s.modEnd e f).counters d = s.counters d := rfl
@[simp] theorem modEnd_burst (e : EndId) (f : EndRecord → EndRecord) (d : EndId) : (s.modEnd e f).burst d = s.burst d := rfl
@[simp] theorem modEnd_hopMap (e : EndId) (f : EndRecord → EndRecord) (h : SegId) : (s.modEnd e f).hopMap h = s.hopMap h := rfl
@[simp] theorem modEnd_chan (e : EndId) (f : EndRecord → EndRecord) (d : EndId) : (s.modEnd e f).chan d = s.chan d := rfl
@[simp] theorem modEnd_record (e : EndId) (f : EndRecord → EndRecord) (j : CallIdx) : (s.modEnd e f).record j = s.record j := rfl
@[simp] theorem modEnd_liveCall (e : EndId) (f : EndRecord → EndRecord) (j : CallIdx) : (s.modEnd e f).liveCall j = s.liveCall j := rfl
@[simp] theorem modEnd_refOfRecord (e : EndId) (f : EndRecord → EndRecord) (j : CallIdx) : (s.modEnd e f).refOfRecord j = s.refOfRecord j := rfl
@[simp] theorem modEnd_callState (e : EndId) (f : EndRecord → EndRecord) (j : CallIdx) : (s.modEnd e f).callState j = s.callState j := rfl
@[simp] theorem modEnd_callOf (e : EndId) (f : EndRecord → EndRecord) (j : Slot) : (s.modEnd e f).callOf j = s.callOf j := rfl
@[simp] theorem modEnd_onOverflow (e : EndId) (f : EndRecord → EndRecord) (j : Slot) : (s.modEnd e f).onOverflow j = s.onOverflow j := rfl
@[simp] theorem modEnd_freeRecord (e : EndId) (f : EndRecord → EndRecord) : (s.modEnd e f).freeRecord? = s.freeRecord? := rfl
@[simp] theorem modEnd_group (e : EndId) (f : EndRecord → EndRecord) (h : GroupId) : (s.modEnd e f).group h = s.group h := rfl
@[simp] theorem modEnd_entry (e : EndId) (f : EndRecord → EndRecord) (j : Slot) : (s.modEnd e f).entry j = s.entry j := rfl
@[simp] theorem modEnd_segment (e : EndId) (f : EndRecord → EndRecord) (h : SegId) : (s.modEnd e f).segment h = s.segment h := rfl
@[simp] theorem modEnd_membership (e : EndId) (f : EndRecord → EndRecord) (h : GroupId) : (s.modEnd e f).membership h = s.membership h := rfl
@[simp] theorem modEnd_link (e : EndId) (f : EndRecord → EndRecord) (y : LinkId) : (s.modEnd e f).link y = s.link y := rfl
@[simp] theorem modPort_post (e : EndId) (f : Port → Port) (j : Slot) : (s.modPort e f).post j = s.post j := rfl
@[simp] theorem modPort_endRec (e : EndId) (f : Port → Port) (d : EndId) : (s.modPort e f).endRec d = s.endRec d := rfl
@[simp] theorem modPort_counters (e : EndId) (f : Port → Port) (d : EndId) : (s.modPort e f).counters d = s.counters d := rfl
@[simp] theorem modPort_burst (e : EndId) (f : Port → Port) (d : EndId) : (s.modPort e f).burst d = s.burst d := rfl
@[simp] theorem modPort_hopMap (e : EndId) (f : Port → Port) (h : SegId) : (s.modPort e f).hopMap h = s.hopMap h := rfl
@[simp] theorem modPort_chan (e : EndId) (f : Port → Port) (d : EndId) : (s.modPort e f).chan d = s.chan d := rfl
@[simp] theorem modPort_record (e : EndId) (f : Port → Port) (j : CallIdx) : (s.modPort e f).record j = s.record j := rfl
@[simp] theorem modPort_liveCall (e : EndId) (f : Port → Port) (j : CallIdx) : (s.modPort e f).liveCall j = s.liveCall j := rfl
@[simp] theorem modPort_refOfRecord (e : EndId) (f : Port → Port) (j : CallIdx) : (s.modPort e f).refOfRecord j = s.refOfRecord j := rfl
@[simp] theorem modPort_callState (e : EndId) (f : Port → Port) (j : CallIdx) : (s.modPort e f).callState j = s.callState j := rfl
@[simp] theorem modPort_callOf (e : EndId) (f : Port → Port) (j : Slot) : (s.modPort e f).callOf j = s.callOf j := rfl
@[simp] theorem modPort_onOverflow (e : EndId) (f : Port → Port) (j : Slot) : (s.modPort e f).onOverflow j = s.onOverflow j := rfl
@[simp] theorem modPort_freeRecord (e : EndId) (f : Port → Port) : (s.modPort e f).freeRecord? = s.freeRecord? := rfl
@[simp] theorem modPort_group (e : EndId) (f : Port → Port) (h : GroupId) : (s.modPort e f).group h = s.group h := rfl
@[simp] theorem modPort_entry (e : EndId) (f : Port → Port) (j : Slot) : (s.modPort e f).entry j = s.entry j := rfl
@[simp] theorem modPort_segment (e : EndId) (f : Port → Port) (h : SegId) : (s.modPort e f).segment h = s.segment h := rfl
@[simp] theorem modPort_membership (e : EndId) (f : Port → Port) (h : GroupId) : (s.modPort e f).membership h = s.membership h := rfl
@[simp] theorem modPort_link (e : EndId) (f : Port → Port) (y : LinkId) : (s.modPort e f).link y = s.link y := rfl
@[simp] theorem modCounters_post (e : EndId) (f : Counters → Counters) (j : Slot) : (s.modCounters e f).post j = s.post j := rfl
@[simp] theorem modCounters_endRec (e : EndId) (f : Counters → Counters) (d : EndId) : (s.modCounters e f).endRec d = s.endRec d := rfl
@[simp] theorem modCounters_port (e : EndId) (f : Counters → Counters) (d : EndId) : (s.modCounters e f).port d = s.port d := rfl
@[simp] theorem modCounters_burst (e : EndId) (f : Counters → Counters) (d : EndId) : (s.modCounters e f).burst d = s.burst d := rfl
@[simp] theorem modCounters_hopMap (e : EndId) (f : Counters → Counters) (h : SegId) : (s.modCounters e f).hopMap h = s.hopMap h := rfl
@[simp] theorem modCounters_chan (e : EndId) (f : Counters → Counters) (d : EndId) : (s.modCounters e f).chan d = s.chan d := rfl
@[simp] theorem modCounters_record (e : EndId) (f : Counters → Counters) (j : CallIdx) : (s.modCounters e f).record j = s.record j := rfl
@[simp] theorem modCounters_liveCall (e : EndId) (f : Counters → Counters) (j : CallIdx) : (s.modCounters e f).liveCall j = s.liveCall j := rfl
@[simp] theorem modCounters_refOfRecord (e : EndId) (f : Counters → Counters) (j : CallIdx) : (s.modCounters e f).refOfRecord j = s.refOfRecord j := rfl
@[simp] theorem modCounters_callState (e : EndId) (f : Counters → Counters) (j : CallIdx) : (s.modCounters e f).callState j = s.callState j := rfl
@[simp] theorem modCounters_callOf (e : EndId) (f : Counters → Counters) (j : Slot) : (s.modCounters e f).callOf j = s.callOf j := rfl
@[simp] theorem modCounters_onOverflow (e : EndId) (f : Counters → Counters) (j : Slot) : (s.modCounters e f).onOverflow j = s.onOverflow j := rfl
@[simp] theorem modCounters_freeRecord (e : EndId) (f : Counters → Counters) : (s.modCounters e f).freeRecord? = s.freeRecord? := rfl
@[simp] theorem modCounters_group (e : EndId) (f : Counters → Counters) (h : GroupId) : (s.modCounters e f).group h = s.group h := rfl
@[simp] theorem modCounters_entry (e : EndId) (f : Counters → Counters) (j : Slot) : (s.modCounters e f).entry j = s.entry j := rfl
@[simp] theorem modCounters_segment (e : EndId) (f : Counters → Counters) (h : SegId) : (s.modCounters e f).segment h = s.segment h := rfl
@[simp] theorem modCounters_membership (e : EndId) (f : Counters → Counters) (h : GroupId) : (s.modCounters e f).membership h = s.membership h := rfl
@[simp] theorem modCounters_link (e : EndId) (f : Counters → Counters) (y : LinkId) : (s.modCounters e f).link y = s.link y := rfl
@[simp] theorem modBurst_post (e : EndId) (f : BurstRecord → BurstRecord) (j : Slot) : (s.modBurst e f).post j = s.post j := rfl
@[simp] theorem modBurst_endRec (e : EndId) (f : BurstRecord → BurstRecord) (d : EndId) : (s.modBurst e f).endRec d = s.endRec d := rfl
@[simp] theorem modBurst_port (e : EndId) (f : BurstRecord → BurstRecord) (d : EndId) : (s.modBurst e f).port d = s.port d := rfl
@[simp] theorem modBurst_counters (e : EndId) (f : BurstRecord → BurstRecord) (d : EndId) : (s.modBurst e f).counters d = s.counters d := rfl
@[simp] theorem modBurst_hopMap (e : EndId) (f : BurstRecord → BurstRecord) (h : SegId) : (s.modBurst e f).hopMap h = s.hopMap h := rfl
@[simp] theorem modBurst_chan (e : EndId) (f : BurstRecord → BurstRecord) (d : EndId) : (s.modBurst e f).chan d = s.chan d := rfl
@[simp] theorem modBurst_record (e : EndId) (f : BurstRecord → BurstRecord) (j : CallIdx) : (s.modBurst e f).record j = s.record j := rfl
@[simp] theorem modBurst_liveCall (e : EndId) (f : BurstRecord → BurstRecord) (j : CallIdx) : (s.modBurst e f).liveCall j = s.liveCall j := rfl
@[simp] theorem modBurst_refOfRecord (e : EndId) (f : BurstRecord → BurstRecord) (j : CallIdx) : (s.modBurst e f).refOfRecord j = s.refOfRecord j := rfl
@[simp] theorem modBurst_callState (e : EndId) (f : BurstRecord → BurstRecord) (j : CallIdx) : (s.modBurst e f).callState j = s.callState j := rfl
@[simp] theorem modBurst_callOf (e : EndId) (f : BurstRecord → BurstRecord) (j : Slot) : (s.modBurst e f).callOf j = s.callOf j := rfl
@[simp] theorem modBurst_onOverflow (e : EndId) (f : BurstRecord → BurstRecord) (j : Slot) : (s.modBurst e f).onOverflow j = s.onOverflow j := rfl
@[simp] theorem modBurst_freeRecord (e : EndId) (f : BurstRecord → BurstRecord) : (s.modBurst e f).freeRecord? = s.freeRecord? := rfl
@[simp] theorem modBurst_group (e : EndId) (f : BurstRecord → BurstRecord) (h : GroupId) : (s.modBurst e f).group h = s.group h := rfl
@[simp] theorem modBurst_entry (e : EndId) (f : BurstRecord → BurstRecord) (j : Slot) : (s.modBurst e f).entry j = s.entry j := rfl
@[simp] theorem modBurst_segment (e : EndId) (f : BurstRecord → BurstRecord) (h : SegId) : (s.modBurst e f).segment h = s.segment h := rfl
@[simp] theorem modBurst_membership (e : EndId) (f : BurstRecord → BurstRecord) (h : GroupId) : (s.modBurst e f).membership h = s.membership h := rfl
@[simp] theorem modBurst_link (e : EndId) (f : BurstRecord → BurstRecord) (y : LinkId) : (s.modBurst e f).link y = s.link y := rfl
@[simp] theorem setHopMap_post (g : SegId) (m : List Slot) (j : Slot) : (s.setHopMap g m).post j = s.post j := rfl
@[simp] theorem setHopMap_endRec (g : SegId) (m : List Slot) (d : EndId) : (s.setHopMap g m).endRec d = s.endRec d := rfl
@[simp] theorem setHopMap_port (g : SegId) (m : List Slot) (d : EndId) : (s.setHopMap g m).port d = s.port d := rfl
@[simp] theorem setHopMap_counters (g : SegId) (m : List Slot) (d : EndId) : (s.setHopMap g m).counters d = s.counters d := rfl
@[simp] theorem setHopMap_burst (g : SegId) (m : List Slot) (d : EndId) : (s.setHopMap g m).burst d = s.burst d := rfl
@[simp] theorem setHopMap_chan (g : SegId) (m : List Slot) (d : EndId) : (s.setHopMap g m).chan d = s.chan d := rfl
@[simp] theorem setHopMap_record (g : SegId) (m : List Slot) (j : CallIdx) : (s.setHopMap g m).record j = s.record j := rfl
@[simp] theorem setHopMap_liveCall (g : SegId) (m : List Slot) (j : CallIdx) : (s.setHopMap g m).liveCall j = s.liveCall j := rfl
@[simp] theorem setHopMap_refOfRecord (g : SegId) (m : List Slot) (j : CallIdx) : (s.setHopMap g m).refOfRecord j = s.refOfRecord j := rfl
@[simp] theorem setHopMap_callState (g : SegId) (m : List Slot) (j : CallIdx) : (s.setHopMap g m).callState j = s.callState j := rfl
@[simp] theorem setHopMap_callOf (g : SegId) (m : List Slot) (j : Slot) : (s.setHopMap g m).callOf j = s.callOf j := rfl
@[simp] theorem setHopMap_onOverflow (g : SegId) (m : List Slot) (j : Slot) : (s.setHopMap g m).onOverflow j = s.onOverflow j := rfl
@[simp] theorem setHopMap_freeRecord (g : SegId) (m : List Slot) : (s.setHopMap g m).freeRecord? = s.freeRecord? := rfl
@[simp] theorem setHopMap_group (g : SegId) (m : List Slot) (h : GroupId) : (s.setHopMap g m).group h = s.group h := rfl
@[simp] theorem setHopMap_entry (g : SegId) (m : List Slot) (j : Slot) : (s.setHopMap g m).entry j = s.entry j := rfl
@[simp] theorem setHopMap_segment (g : SegId) (m : List Slot) (h : SegId) : (s.setHopMap g m).segment h = s.segment h := rfl
@[simp] theorem setHopMap_membership (g : SegId) (m : List Slot) (h : GroupId) : (s.setHopMap g m).membership h = s.membership h := rfl
@[simp] theorem setHopMap_link (g : SegId) (m : List Slot) (y : LinkId) : (s.setHopMap g m).link y = s.link y := rfl
@[simp] theorem modChan_post (e : EndId) (f : ChannelEnd → ChannelEnd) (j : Slot) : (s.modChan e f).post j = s.post j := rfl
@[simp] theorem modChan_endRec (e : EndId) (f : ChannelEnd → ChannelEnd) (d : EndId) : (s.modChan e f).endRec d = s.endRec d := rfl
@[simp] theorem modChan_port (e : EndId) (f : ChannelEnd → ChannelEnd) (d : EndId) : (s.modChan e f).port d = s.port d := rfl
@[simp] theorem modChan_counters (e : EndId) (f : ChannelEnd → ChannelEnd) (d : EndId) : (s.modChan e f).counters d = s.counters d := rfl
@[simp] theorem modChan_burst (e : EndId) (f : ChannelEnd → ChannelEnd) (d : EndId) : (s.modChan e f).burst d = s.burst d := rfl
@[simp] theorem modChan_hopMap (e : EndId) (f : ChannelEnd → ChannelEnd) (h : SegId) : (s.modChan e f).hopMap h = s.hopMap h := rfl
@[simp] theorem modChan_record (e : EndId) (f : ChannelEnd → ChannelEnd) (j : CallIdx) : (s.modChan e f).record j = s.record j := rfl
@[simp] theorem modChan_liveCall (e : EndId) (f : ChannelEnd → ChannelEnd) (j : CallIdx) : (s.modChan e f).liveCall j = s.liveCall j := rfl
@[simp] theorem modChan_refOfRecord (e : EndId) (f : ChannelEnd → ChannelEnd) (j : CallIdx) : (s.modChan e f).refOfRecord j = s.refOfRecord j := rfl
@[simp] theorem modChan_callState (e : EndId) (f : ChannelEnd → ChannelEnd) (j : CallIdx) : (s.modChan e f).callState j = s.callState j := rfl
@[simp] theorem modChan_callOf (e : EndId) (f : ChannelEnd → ChannelEnd) (j : Slot) : (s.modChan e f).callOf j = s.callOf j := rfl
@[simp] theorem modChan_onOverflow (e : EndId) (f : ChannelEnd → ChannelEnd) (j : Slot) : (s.modChan e f).onOverflow j = s.onOverflow j := rfl
@[simp] theorem modChan_freeRecord (e : EndId) (f : ChannelEnd → ChannelEnd) : (s.modChan e f).freeRecord? = s.freeRecord? := rfl
@[simp] theorem modChan_group (e : EndId) (f : ChannelEnd → ChannelEnd) (h : GroupId) : (s.modChan e f).group h = s.group h := rfl
@[simp] theorem modChan_entry (e : EndId) (f : ChannelEnd → ChannelEnd) (j : Slot) : (s.modChan e f).entry j = s.entry j := rfl
@[simp] theorem modChan_segment (e : EndId) (f : ChannelEnd → ChannelEnd) (h : SegId) : (s.modChan e f).segment h = s.segment h := rfl
@[simp] theorem modChan_membership (e : EndId) (f : ChannelEnd → ChannelEnd) (h : GroupId) : (s.modChan e f).membership h = s.membership h := rfl
@[simp] theorem modChan_link (e : EndId) (f : ChannelEnd → ChannelEnd) (y : LinkId) : (s.modChan e f).link y = s.link y := rfl
@[simp] theorem modRecord_post (i : CallIdx) (f : CallRecord → CallRecord) (j : Slot) : (s.modRecord i f).post j = s.post j := rfl
@[simp] theorem modRecord_endRec (i : CallIdx) (f : CallRecord → CallRecord) (d : EndId) : (s.modRecord i f).endRec d = s.endRec d := rfl
@[simp] theorem modRecord_port (i : CallIdx) (f : CallRecord → CallRecord) (d : EndId) : (s.modRecord i f).port d = s.port d := rfl
@[simp] theorem modRecord_counters (i : CallIdx) (f : CallRecord → CallRecord) (d : EndId) : (s.modRecord i f).counters d = s.counters d := rfl
@[simp] theorem modRecord_burst (i : CallIdx) (f : CallRecord → CallRecord) (d : EndId) : (s.modRecord i f).burst d = s.burst d := rfl
@[simp] theorem modRecord_hopMap (i : CallIdx) (f : CallRecord → CallRecord) (h : SegId) : (s.modRecord i f).hopMap h = s.hopMap h := rfl
@[simp] theorem modRecord_chan (i : CallIdx) (f : CallRecord → CallRecord) (d : EndId) : (s.modRecord i f).chan d = s.chan d := rfl
@[simp] theorem modRecord_group (i : CallIdx) (f : CallRecord → CallRecord) (h : GroupId) : (s.modRecord i f).group h = s.group h := rfl
@[simp] theorem modRecord_entry (i : CallIdx) (f : CallRecord → CallRecord) (j : Slot) : (s.modRecord i f).entry j = s.entry j := rfl
@[simp] theorem modRecord_segment (i : CallIdx) (f : CallRecord → CallRecord) (h : SegId) : (s.modRecord i f).segment h = s.segment h := rfl
@[simp] theorem modRecord_membership (i : CallIdx) (f : CallRecord → CallRecord) (h : GroupId) : (s.modRecord i f).membership h = s.membership h := rfl
@[simp] theorem modRecord_link (i : CallIdx) (f : CallRecord → CallRecord) (y : LinkId) : (s.modRecord i f).link y = s.link y := rfl
@[simp] theorem modCall_post (i : CallIdx) (f : LiveCall → LiveCall) (j : Slot) : (s.modCall i f).post j = s.post j := rfl
@[simp] theorem modCall_endRec (i : CallIdx) (f : LiveCall → LiveCall) (d : EndId) : (s.modCall i f).endRec d = s.endRec d := rfl
@[simp] theorem modCall_port (i : CallIdx) (f : LiveCall → LiveCall) (d : EndId) : (s.modCall i f).port d = s.port d := rfl
@[simp] theorem modCall_counters (i : CallIdx) (f : LiveCall → LiveCall) (d : EndId) : (s.modCall i f).counters d = s.counters d := rfl
@[simp] theorem modCall_burst (i : CallIdx) (f : LiveCall → LiveCall) (d : EndId) : (s.modCall i f).burst d = s.burst d := rfl
@[simp] theorem modCall_hopMap (i : CallIdx) (f : LiveCall → LiveCall) (h : SegId) : (s.modCall i f).hopMap h = s.hopMap h := rfl
@[simp] theorem modCall_chan (i : CallIdx) (f : LiveCall → LiveCall) (d : EndId) : (s.modCall i f).chan d = s.chan d := rfl
@[simp] theorem modCall_group (i : CallIdx) (f : LiveCall → LiveCall) (h : GroupId) : (s.modCall i f).group h = s.group h := rfl
@[simp] theorem modCall_entry (i : CallIdx) (f : LiveCall → LiveCall) (j : Slot) : (s.modCall i f).entry j = s.entry j := rfl
@[simp] theorem modCall_segment (i : CallIdx) (f : LiveCall → LiveCall) (h : SegId) : (s.modCall i f).segment h = s.segment h := rfl
@[simp] theorem modCall_membership (i : CallIdx) (f : LiveCall → LiveCall) (h : GroupId) : (s.modCall i f).membership h = s.membership h := rfl
@[simp] theorem modCall_link (i : CallIdx) (f : LiveCall → LiveCall) (y : LinkId) : (s.modCall i f).link y = s.link y := rfl
@[simp] theorem setOverflow_post (l : List OverflowEntry) (j : Slot) : (s.setOverflow l).post j = s.post j := rfl
@[simp] theorem setOverflow_endRec (l : List OverflowEntry) (d : EndId) : (s.setOverflow l).endRec d = s.endRec d := rfl
@[simp] theorem setOverflow_port (l : List OverflowEntry) (d : EndId) : (s.setOverflow l).port d = s.port d := rfl
@[simp] theorem setOverflow_counters (l : List OverflowEntry) (d : EndId) : (s.setOverflow l).counters d = s.counters d := rfl
@[simp] theorem setOverflow_burst (l : List OverflowEntry) (d : EndId) : (s.setOverflow l).burst d = s.burst d := rfl
@[simp] theorem setOverflow_hopMap (l : List OverflowEntry) (h : SegId) : (s.setOverflow l).hopMap h = s.hopMap h := rfl
@[simp] theorem setOverflow_chan (l : List OverflowEntry) (d : EndId) : (s.setOverflow l).chan d = s.chan d := rfl
@[simp] theorem setOverflow_group (l : List OverflowEntry) (h : GroupId) : (s.setOverflow l).group h = s.group h := rfl
@[simp] theorem setOverflow_entry (l : List OverflowEntry) (j : Slot) : (s.setOverflow l).entry j = s.entry j := rfl
@[simp] theorem setOverflow_segment (l : List OverflowEntry) (h : SegId) : (s.setOverflow l).segment h = s.segment h := rfl
@[simp] theorem setOverflow_membership (l : List OverflowEntry) (h : GroupId) : (s.setOverflow l).membership h = s.membership h := rfl
@[simp] theorem setOverflow_link (l : List OverflowEntry) (y : LinkId) : (s.setOverflow l).link y = s.link y := rfl
@[simp] theorem setRecords_post (r : Vector CallRecord 48) (j : Slot) : (s.setRecords r).post j = s.post j := rfl
@[simp] theorem setRecords_endRec (r : Vector CallRecord 48) (d : EndId) : (s.setRecords r).endRec d = s.endRec d := rfl
@[simp] theorem setRecords_port (r : Vector CallRecord 48) (d : EndId) : (s.setRecords r).port d = s.port d := rfl
@[simp] theorem setRecords_counters (r : Vector CallRecord 48) (d : EndId) : (s.setRecords r).counters d = s.counters d := rfl
@[simp] theorem setRecords_burst (r : Vector CallRecord 48) (d : EndId) : (s.setRecords r).burst d = s.burst d := rfl
@[simp] theorem setRecords_hopMap (r : Vector CallRecord 48) (h : SegId) : (s.setRecords r).hopMap h = s.hopMap h := rfl
@[simp] theorem setRecords_chan (r : Vector CallRecord 48) (d : EndId) : (s.setRecords r).chan d = s.chan d := rfl
@[simp] theorem setRecords_group (r : Vector CallRecord 48) (h : GroupId) : (s.setRecords r).group h = s.group h := rfl
@[simp] theorem setRecords_entry (r : Vector CallRecord 48) (j : Slot) : (s.setRecords r).entry j = s.entry j := rfl
@[simp] theorem setRecords_segment (r : Vector CallRecord 48) (h : SegId) : (s.setRecords r).segment h = s.segment h := rfl
@[simp] theorem setRecords_membership (r : Vector CallRecord 48) (h : GroupId) : (s.setRecords r).membership h = s.membership h := rfl
@[simp] theorem setRecords_link (r : Vector CallRecord 48) (y : LinkId) : (s.setRecords r).link y = s.link y := rfl
@[simp] theorem modGroup_post (g : GroupId) (f : GroupRun → GroupRun) (j : Slot) : (s.modGroup g f).post j = s.post j := rfl
@[simp] theorem modGroup_endRec (g : GroupId) (f : GroupRun → GroupRun) (d : EndId) : (s.modGroup g f).endRec d = s.endRec d := rfl
@[simp] theorem modGroup_port (g : GroupId) (f : GroupRun → GroupRun) (d : EndId) : (s.modGroup g f).port d = s.port d := rfl
@[simp] theorem modGroup_counters (g : GroupId) (f : GroupRun → GroupRun) (d : EndId) : (s.modGroup g f).counters d = s.counters d := rfl
@[simp] theorem modGroup_burst (g : GroupId) (f : GroupRun → GroupRun) (d : EndId) : (s.modGroup g f).burst d = s.burst d := rfl
@[simp] theorem modGroup_hopMap (g : GroupId) (f : GroupRun → GroupRun) (h : SegId) : (s.modGroup g f).hopMap h = s.hopMap h := rfl
@[simp] theorem modGroup_chan (g : GroupId) (f : GroupRun → GroupRun) (d : EndId) : (s.modGroup g f).chan d = s.chan d := rfl
@[simp] theorem modGroup_record (g : GroupId) (f : GroupRun → GroupRun) (j : CallIdx) : (s.modGroup g f).record j = s.record j := rfl
@[simp] theorem modGroup_liveCall (g : GroupId) (f : GroupRun → GroupRun) (j : CallIdx) : (s.modGroup g f).liveCall j = s.liveCall j := rfl
@[simp] theorem modGroup_refOfRecord (g : GroupId) (f : GroupRun → GroupRun) (j : CallIdx) : (s.modGroup g f).refOfRecord j = s.refOfRecord j := rfl
@[simp] theorem modGroup_callState (g : GroupId) (f : GroupRun → GroupRun) (j : CallIdx) : (s.modGroup g f).callState j = s.callState j := rfl
@[simp] theorem modGroup_callOf (g : GroupId) (f : GroupRun → GroupRun) (j : Slot) : (s.modGroup g f).callOf j = s.callOf j := rfl
@[simp] theorem modGroup_onOverflow (g : GroupId) (f : GroupRun → GroupRun) (j : Slot) : (s.modGroup g f).onOverflow j = s.onOverflow j := rfl
@[simp] theorem modGroup_freeRecord (g : GroupId) (f : GroupRun → GroupRun) : (s.modGroup g f).freeRecord? = s.freeRecord? := rfl
@[simp] theorem modGroup_entry (g : GroupId) (f : GroupRun → GroupRun) (j : Slot) : (s.modGroup g f).entry j = s.entry j := rfl
@[simp] theorem modGroup_segment (g : GroupId) (f : GroupRun → GroupRun) (h : SegId) : (s.modGroup g f).segment h = s.segment h := rfl
@[simp] theorem modGroup_membership (g : GroupId) (f : GroupRun → GroupRun) (h : GroupId) : (s.modGroup g f).membership h = s.membership h := rfl
@[simp] theorem modGroup_link (g : GroupId) (f : GroupRun → GroupRun) (y : LinkId) : (s.modGroup g f).link y = s.link y := rfl
@[simp] theorem setStore_post (b : StoreBlock) (j : Slot) : (s.setStore b).post j = s.post j := rfl
@[simp] theorem setStore_endRec (b : StoreBlock) (d : EndId) : (s.setStore b).endRec d = s.endRec d := rfl
@[simp] theorem setStore_port (b : StoreBlock) (d : EndId) : (s.setStore b).port d = s.port d := rfl
@[simp] theorem setStore_counters (b : StoreBlock) (d : EndId) : (s.setStore b).counters d = s.counters d := rfl
@[simp] theorem setStore_burst (b : StoreBlock) (d : EndId) : (s.setStore b).burst d = s.burst d := rfl
@[simp] theorem setStore_hopMap (b : StoreBlock) (h : SegId) : (s.setStore b).hopMap h = s.hopMap h := rfl
@[simp] theorem setStore_chan (b : StoreBlock) (d : EndId) : (s.setStore b).chan d = s.chan d := rfl
@[simp] theorem setStore_record (b : StoreBlock) (j : CallIdx) : (s.setStore b).record j = s.record j := rfl
@[simp] theorem setStore_liveCall (b : StoreBlock) (j : CallIdx) : (s.setStore b).liveCall j = s.liveCall j := rfl
@[simp] theorem setStore_refOfRecord (b : StoreBlock) (j : CallIdx) : (s.setStore b).refOfRecord j = s.refOfRecord j := rfl
@[simp] theorem setStore_callState (b : StoreBlock) (j : CallIdx) : (s.setStore b).callState j = s.callState j := rfl
@[simp] theorem setStore_callOf (b : StoreBlock) (j : Slot) : (s.setStore b).callOf j = s.callOf j := rfl
@[simp] theorem setStore_onOverflow (b : StoreBlock) (j : Slot) : (s.setStore b).onOverflow j = s.onOverflow j := rfl
@[simp] theorem setStore_freeRecord (b : StoreBlock) : (s.setStore b).freeRecord? = s.freeRecord? := rfl
@[simp] theorem setStore_group (b : StoreBlock) (h : GroupId) : (s.setStore b).group h = s.group h := rfl
@[simp] theorem setStore_link (b : StoreBlock) (y : LinkId) : (s.setStore b).link y = s.link y := rfl
@[simp] theorem setSite_post (w : Site) (j : Slot) : (s.setSite w).post j = s.post j := rfl
@[simp] theorem setSite_endRec (w : Site) (d : EndId) : (s.setSite w).endRec d = s.endRec d := rfl
@[simp] theorem setSite_port (w : Site) (d : EndId) : (s.setSite w).port d = s.port d := rfl
@[simp] theorem setSite_counters (w : Site) (d : EndId) : (s.setSite w).counters d = s.counters d := rfl
@[simp] theorem setSite_burst (w : Site) (d : EndId) : (s.setSite w).burst d = s.burst d := rfl
@[simp] theorem setSite_hopMap (w : Site) (h : SegId) : (s.setSite w).hopMap h = s.hopMap h := rfl
@[simp] theorem setSite_chan (w : Site) (d : EndId) : (s.setSite w).chan d = s.chan d := rfl
@[simp] theorem setSite_record (w : Site) (j : CallIdx) : (s.setSite w).record j = s.record j := rfl
@[simp] theorem setSite_liveCall (w : Site) (j : CallIdx) : (s.setSite w).liveCall j = s.liveCall j := rfl
@[simp] theorem setSite_refOfRecord (w : Site) (j : CallIdx) : (s.setSite w).refOfRecord j = s.refOfRecord j := rfl
@[simp] theorem setSite_callState (w : Site) (j : CallIdx) : (s.setSite w).callState j = s.callState j := rfl
@[simp] theorem setSite_callOf (w : Site) (j : Slot) : (s.setSite w).callOf j = s.callOf j := rfl
@[simp] theorem setSite_onOverflow (w : Site) (j : Slot) : (s.setSite w).onOverflow j = s.onOverflow j := rfl
@[simp] theorem setSite_freeRecord (w : Site) : (s.setSite w).freeRecord? = s.freeRecord? := rfl
@[simp] theorem setSite_group (w : Site) (h : GroupId) : (s.setSite w).group h = s.group h := rfl
@[simp] theorem setSite_link (w : Site) (y : LinkId) : (s.setSite w).link y = s.link y := rfl
@[simp] theorem reach_post (t : Nat) (j : Slot) : (s.reach t).post j = s.post j := rfl
@[simp] theorem reach_endRec (t : Nat) (d : EndId) : (s.reach t).endRec d = s.endRec d := rfl
@[simp] theorem reach_port (t : Nat) (d : EndId) : (s.reach t).port d = s.port d := rfl
@[simp] theorem reach_counters (t : Nat) (d : EndId) : (s.reach t).counters d = s.counters d := rfl
@[simp] theorem reach_burst (t : Nat) (d : EndId) : (s.reach t).burst d = s.burst d := rfl
@[simp] theorem reach_hopMap (t : Nat) (h : SegId) : (s.reach t).hopMap h = s.hopMap h := rfl
@[simp] theorem reach_chan (t : Nat) (d : EndId) : (s.reach t).chan d = s.chan d := rfl
@[simp] theorem reach_record (t : Nat) (j : CallIdx) : (s.reach t).record j = s.record j := rfl
@[simp] theorem reach_liveCall (t : Nat) (j : CallIdx) : (s.reach t).liveCall j = s.liveCall j := rfl
@[simp] theorem reach_refOfRecord (t : Nat) (j : CallIdx) : (s.reach t).refOfRecord j = s.refOfRecord j := rfl
@[simp] theorem reach_callState (t : Nat) (j : CallIdx) : (s.reach t).callState j = s.callState j := rfl
@[simp] theorem reach_callOf (t : Nat) (j : Slot) : (s.reach t).callOf j = s.callOf j := rfl
@[simp] theorem reach_onOverflow (t : Nat) (j : Slot) : (s.reach t).onOverflow j = s.onOverflow j := rfl
@[simp] theorem reach_freeRecord (t : Nat) : (s.reach t).freeRecord? = s.freeRecord? := rfl
@[simp] theorem reach_group (t : Nat) (h : GroupId) : (s.reach t).group h = s.group h := rfl
@[simp] theorem reach_entry (t : Nat) (j : Slot) : (s.reach t).entry j = s.entry j := rfl
@[simp] theorem reach_segment (t : Nat) (h : SegId) : (s.reach t).segment h = s.segment h := rfl
@[simp] theorem reach_membership (t : Nat) (h : GroupId) : (s.reach t).membership h = s.membership h := rfl
@[simp] theorem reach_link (t : Nat) (y : LinkId) : (s.reach t).link y = s.link y := rfl
@[simp] theorem withPending_post (l : List Instr) (j : Slot) : (s.withPending l).post j = s.post j := rfl
@[simp] theorem withPending_endRec (l : List Instr) (d : EndId) : (s.withPending l).endRec d = s.endRec d := rfl
@[simp] theorem withPending_port (l : List Instr) (d : EndId) : (s.withPending l).port d = s.port d := rfl
@[simp] theorem withPending_counters (l : List Instr) (d : EndId) : (s.withPending l).counters d = s.counters d := rfl
@[simp] theorem withPending_burst (l : List Instr) (d : EndId) : (s.withPending l).burst d = s.burst d := rfl
@[simp] theorem withPending_hopMap (l : List Instr) (h : SegId) : (s.withPending l).hopMap h = s.hopMap h := rfl
@[simp] theorem withPending_chan (l : List Instr) (d : EndId) : (s.withPending l).chan d = s.chan d := rfl
@[simp] theorem withPending_record (l : List Instr) (j : CallIdx) : (s.withPending l).record j = s.record j := rfl
@[simp] theorem withPending_liveCall (l : List Instr) (j : CallIdx) : (s.withPending l).liveCall j = s.liveCall j := rfl
@[simp] theorem withPending_refOfRecord (l : List Instr) (j : CallIdx) : (s.withPending l).refOfRecord j = s.refOfRecord j := rfl
@[simp] theorem withPending_callState (l : List Instr) (j : CallIdx) : (s.withPending l).callState j = s.callState j := rfl
@[simp] theorem withPending_callOf (l : List Instr) (j : Slot) : (s.withPending l).callOf j = s.callOf j := rfl
@[simp] theorem withPending_onOverflow (l : List Instr) (j : Slot) : (s.withPending l).onOverflow j = s.onOverflow j := rfl
@[simp] theorem withPending_freeRecord (l : List Instr) : (s.withPending l).freeRecord? = s.freeRecord? := rfl
@[simp] theorem withPending_group (l : List Instr) (h : GroupId) : (s.withPending l).group h = s.group h := rfl
@[simp] theorem withPending_entry (l : List Instr) (j : Slot) : (s.withPending l).entry j = s.entry j := rfl
@[simp] theorem withPending_segment (l : List Instr) (h : SegId) : (s.withPending l).segment h = s.segment h := rfl
@[simp] theorem withPending_membership (l : List Instr) (h : GroupId) : (s.withPending l).membership h = s.membership h := rfl
@[simp] theorem withPending_link (l : List Instr) (y : LinkId) : (s.withPending l).link y = s.link y := rfl
@[simp] theorem modLink_post (x : LinkId) (f : LinkRecord → LinkRecord) (j : Slot) : (s.modLink x f).post j = s.post j := by cases x <;> rfl
@[simp] theorem modLink_endRec (x : LinkId) (f : LinkRecord → LinkRecord) (d : EndId) : (s.modLink x f).endRec d = s.endRec d := by cases x <;> rfl
@[simp] theorem modLink_port (x : LinkId) (f : LinkRecord → LinkRecord) (d : EndId) : (s.modLink x f).port d = s.port d := by cases x <;> rfl
@[simp] theorem modLink_counters (x : LinkId) (f : LinkRecord → LinkRecord) (d : EndId) : (s.modLink x f).counters d = s.counters d := by cases x <;> rfl
@[simp] theorem modLink_burst (x : LinkId) (f : LinkRecord → LinkRecord) (d : EndId) : (s.modLink x f).burst d = s.burst d := by cases x <;> rfl
@[simp] theorem modLink_hopMap (x : LinkId) (f : LinkRecord → LinkRecord) (h : SegId) : (s.modLink x f).hopMap h = s.hopMap h := by cases x <;> rfl
@[simp] theorem modLink_chan (x : LinkId) (f : LinkRecord → LinkRecord) (d : EndId) : (s.modLink x f).chan d = s.chan d := by cases x <;> rfl
@[simp] theorem modLink_record (x : LinkId) (f : LinkRecord → LinkRecord) (j : CallIdx) : (s.modLink x f).record j = s.record j := by cases x <;> rfl
@[simp] theorem modLink_liveCall (x : LinkId) (f : LinkRecord → LinkRecord) (j : CallIdx) : (s.modLink x f).liveCall j = s.liveCall j := by cases x <;> rfl
@[simp] theorem modLink_refOfRecord (x : LinkId) (f : LinkRecord → LinkRecord) (j : CallIdx) : (s.modLink x f).refOfRecord j = s.refOfRecord j := by cases x <;> rfl
@[simp] theorem modLink_callState (x : LinkId) (f : LinkRecord → LinkRecord) (j : CallIdx) : (s.modLink x f).callState j = s.callState j := by cases x <;> rfl
@[simp] theorem modLink_callOf (x : LinkId) (f : LinkRecord → LinkRecord) (j : Slot) : (s.modLink x f).callOf j = s.callOf j := by cases x <;> rfl
@[simp] theorem modLink_onOverflow (x : LinkId) (f : LinkRecord → LinkRecord) (j : Slot) : (s.modLink x f).onOverflow j = s.onOverflow j := by cases x <;> rfl
@[simp] theorem modLink_freeRecord (x : LinkId) (f : LinkRecord → LinkRecord) : (s.modLink x f).freeRecord? = s.freeRecord? := by cases x <;> rfl
@[simp] theorem modLink_group (x : LinkId) (f : LinkRecord → LinkRecord) (h : GroupId) : (s.modLink x f).group h = s.group h := by cases x <;> rfl
@[simp] theorem modLink_entry (x : LinkId) (f : LinkRecord → LinkRecord) (j : Slot) : (s.modLink x f).entry j = s.entry j := by cases x <;> rfl
@[simp] theorem modLink_segment (x : LinkId) (f : LinkRecord → LinkRecord) (h : SegId) : (s.modLink x f).segment h = s.segment h := by cases x <;> rfl
@[simp] theorem modLink_membership (x : LinkId) (f : LinkRecord → LinkRecord) (h : GroupId) : (s.modLink x f).membership h = s.membership h := by cases x <;> rfl

@[simp] theorem modCall_liveCall_same (i : CallIdx) (f : LiveCall → LiveCall) : (s.modCall i f).liveCall i = (s.liveCall i).map f := by
  simp [State.liveCall, State.record]

@[simp] theorem modCall_liveCall_ne {i j : CallIdx} (f : LiveCall → LiveCall) (h : i ≠ j) : (s.modCall i f).liveCall j = s.liveCall j := by
  simp [State.liveCall, State.record, h]

@[simp] theorem modCall_refOfRecord (i j : CallIdx) (f : LiveCall → LiveCall) : (s.modCall i f).refOfRecord j = s.refOfRecord j := by
  by_cases h : i = j
  · subst h; simp [State.refOfRecord, State.record]
  · simp [State.refOfRecord, State.record, h]

@[simp] theorem modCall_record_ne {i j : CallIdx} (f : LiveCall → LiveCall) (h : i ≠ j) : (s.modCall i f).record j = s.record j := by
  simp [State.record, h]

end Sys2Proof.Machine
end

