-- ==== Sys2Proof/Laws/Requests.lean ====
section
/-! SUPPORT. What the taking of a request, the placing of a report and the end of a step do: one lemma for each way each of them can go. -/

namespace Sys2Proof.Machine

/-! ## Placing a report -/

theorem enqueue_of_down {l : LinkRecord} (r : Report) (h : l.up = false) : enqueue r l = l := by simp [enqueue, h]

theorem enqueue_of_room {l : LinkRecord} (r : Report) (h : l.up = true) (hr : l.queue.length < 64) :
    enqueue r l = { l with queue := l.queue ++ [.report l.gap r], gap := false } := by
  simp [enqueue, h, Config.queuePlaces, hr]

theorem enqueue_of_full {l : LinkRecord} (r : Report) (h : l.up = true) (hr : 64 ≤ l.queue.length) :
    enqueue r l = { l with gap := true } := by
  simp [enqueue, h, Config.queuePlaces, Nat.not_lt.mpr hr]

/-! ## Taking a request -/

/-- A request that is not at the head of an UP link with room for its response waits (R148). -/
theorem takeRequest_of_not_ready {s : State} {x : LinkId} {tag : Byte} {r : Request}
    (act : (Result → ResponseBody → State → State) → State → State) (h : ¬ Ready s x tag r) : takeRequest x tag r act s = s := by
  have h' : ¬ ((canTake s x && headIs tag r (s.link x)) = true) := by simpa [Ready] using h
  simp only [takeRequest, if_neg h']

/-- In STARTING the request is answered NOT READY (R29). -/
theorem takeRequest_of_starting {s : State} {x : LinkId} {tag : Byte} {r : Request}
    (act : (Result → ResponseBody → State → State) → State → State) (h : Ready s x tag r) (hs : s.store.state = .starting) :
    takeRequest x tag r act s = taken x tag r .notReady .empty s := by
  simp [takeRequest, h.1, h.2, starting, popIntake, hs, taken]

/-- Out of STARTING the block that owns the request takes it (R148). -/
theorem takeRequest_of_takes {s : State} {x : LinkId} {tag : Byte} {r : Request}
    (act : (Result → ResponseBody → State → State) → State → State) (h : Takes s x tag r) :
    takeRequest x tag r act s = act (respond x tag (requestType r)) (popIntake x s) := by
  simp [takeRequest, h.1.1, h.1.2, starting, popIntake, h.2]

/-! ## The end of a step -/

theorem Agree.refl (s : State) : Agree s s := rfl
theorem Agree.symm {s t : State} (h : Agree s t) : Agree t s := Eq.symm h
theorem Agree.trans {s t u : State} (h : Agree s t) (k : Agree t u) : Agree s u := Eq.trans h k

theorem map_modNth {α β : Type} {n : Nat} (t : Vector α n) (i : Fin n) (f : α → α) (g : α → β) (h : ∀ a, g (f a) = g a) :
    (modNth t i f).map g = t.map g := by
  ext k hk
  simp only [modNth, Vector.getElem_map, Vector.getElem_set]
  split
  · next hik => subst hik; simp [nth, h]
  · rfl

theorem agree_modPort (s : State) (e : EndId) (f : Port → Port) (h : ∀ p, { f p with transaction := none } = { p with transaction := none }) :
    Agree (s.modPort e f) s := by
  have := map_modNth s.line.ports (endIdx e) f (fun p => { p with transaction := none }) h
  simp only [Agree, State.modPort, State.onLine, LineBlock.settled, this]

theorem agree_modEnd (s : State) (e : EndId) (f : EndRecord → EndRecord) (h : ∀ r, { f r with scanPosition := 0 } = { r with scanPosition := 0 }) :
    Agree (s.modEnd e f) s := by
  have := map_modNth s.line.ends (endIdx e) f (fun r => { r with scanPosition := 0 }) h
  simp only [Agree, State.modEnd, State.onLine, LineBlock.settled, this]

theorem agree_modCounters (s : State) (e : EndId) (f : Counters → Counters) (h : ∀ c, { f c with pollsSent := 0 } = { c with pollsSent := 0 }) :
    Agree (s.modCounters e f) s := by
  have := map_modNth s.line.counters (endIdx e) f (fun c => { c with pollsSent := 0 }) h
  simp only [Agree, State.modCounters, State.onLine, LineBlock.settled, this]

theorem agree_modBurst (s : State) (e : EndId) (f : BurstRecord → BurstRecord) (h : ∀ b, (f b).settled = b.settled) :
    Agree (s.modBurst e f) s := by
  have := map_modNth s.line.bursts (endIdx e) f (BurstRecord.settled) h
  simp only [Agree, State.modBurst, State.onLine, LineBlock.settled, this]

theorem agree_sendPoll (e : EndId) (i : Slot) (s : State) : Agree (sendPoll e i s) s := by
  unfold sendPoll
  refine (agree_modCounters _ _ _ ?_).trans (agree_modPort _ _ _ ?_) <;> exact fun _ => rfl

theorem agree_sendTest (e : EndId) (b : Burst) (s : State) : Agree (sendTest e b s) s := by
  unfold sendTest modRunning
  refine (agree_modPort _ _ _ ?_).trans (agree_modBurst _ _ _ ?_)
  · exact fun _ => rfl
  · exact fun b => by cases b <;> rfl

theorem agree_nextTransaction (e : EndId) (s : State) : Agree (nextTransaction e s) s := by
  unfold nextTransaction
  split
  · exact agree_sendTest _ _ _
  · split
    · exact agree_sendPoll _ _ _
    · split
      · refine (agree_modEnd _ _ _ ?_).trans (agree_sendPoll _ _ _)
        exact fun _ => rfl
      · exact .refl _

theorem agree_pumpEnd (e : EndId) (s : State) : Agree (pumpEnd e s) s := by
  unfold pumpEnd
  split
  · exact agree_nextTransaction _ _
  · exact .refl _

theorem agree_noteFirst (g : SegId) (s : State) : Agree (noteFirst g s) s := by
  have h (b : Bool) (d : Option Side) :
      Agree (if b then s else s.onLine fun l => { l with first := modNth l.first g fun _ => d }) s := by cases b <;> rfl
  exact h _ _

theorem agree_forEach {α : Type} {l : List α} {f : α → State → State} (h : ∀ a s, Agree (f a s) s) (s : State) : Agree (forEach l f s) s := by
  induction l generalizing s with
  | nil => exact .refl s
  | cons a l ih => exact (ih (f a s)).trans (h a s)

/-- The end of a step begins transactions and notes the ends that may measure, and does no more (R41, R55). -/
theorem agree_finish (s : State) : Agree (finish s) s := (agree_forEach agree_noteFirst _).trans (agree_forEach agree_pumpEnd _)

/-- A step that ends with `finish` agrees with the state before it. -/
theorem agree_of_finish {s t : State} (h : t = finish s) : Agree t s := h ▸ agree_finish s

end Sys2Proof.Machine
end

