-- ==== Sys2Proof/Laws/Soft.lean ====
section
/-! SUPPORT. What the inner operations of a step can do. `Soft s t` says that t comes from s by a chain of small updates, none of which
touches the store, the Timebase, the stamp counter, or the state, reach, fault record, measurement or timers of an end. One lemma for each
operation says that it is such a chain; a condition that the small updates keep is then kept by every operation. -/

namespace Sys2Proof.Machine

/-- What the image of a live record keeps to: it gains no party, is OFFERED or CLEARING without parties if the record was, and has no line in
the states of R106 and R110 if the record had none there. Where `on` is set, a call that may have a line may have one after. -/
structure CallKeeps (on : Bool) (k new : LiveCall) : Prop where
  parties : new.parties.Sublist k.parties
  bare : (k.state = .offered ∨ k.state = .clearing → k.parties = []) → new.state = .offered ∨ new.state = .clearing → new.parties = []
  line : (needsItsEnd k.state = false → k.channel = none ∧ k.request = none) → needsItsEnd new.state = false →
    new.channel = none ∧ new.request = none
  stays : on = true → needsItsEnd k.state = true → needsItsEnd new.state = true

/-- A change of the line block that touches no post, end, port, counter, burst or stamp. -/
def LineKeeps (f : LineBlock → LineBlock) : Prop :=
  ∀ l, (f l).posts = l.posts ∧ (f l).ends = l.ends ∧ (f l).ports = l.ports ∧ (f l).counters = l.counters
    ∧ (f l).bursts = l.bursts ∧ (f l).stampCounter = l.stampCounter

/-- The small updates and their chains. In a chain whose first mark is `true` an event is under way, whose reports may be kept and are not yet
in order; its end makes it one marked `false`, which keeps no report. In a chain whose second mark is `true` no live call that may have
a line leaves the states for one, and no record is made live. -/
inductive Soft : Bool → Bool → State → State → Prop
  | refl {ev on : Bool} (s : State) : Soft ev on s s
  | trans {ev on : Bool} {s t u : State} : Soft ev on s t → Soft ev on t u → Soft ev on s u
  | post {ev on : Bool} (s : State) (i : Slot) (f : PostRow → PostRow) (h : ∀ r, (f r).failures ≤ r.failures) : Soft ev on s (s.modPost i f)
  | endRec {ev on : Bool} (s : State) (e : EndId) (f : EndRecord → EndRecord) (h : ∀ r, (f r).core = r.core) : Soft ev on s (s.modEnd e f)
  | port {ev on : Bool} (s : State) (e : EndId) (f : Port → Port) (h : ∀ p, (f p).current = p.current ∧ (f p).reading = p.reading) :
      Soft ev on s (s.modPort e f)
  | counters {ev on : Bool} (s : State) (e : EndId) (f : Counters → Counters) (h : ∀ c, c.ok → (f c).ok) : Soft ev on s (s.modCounters e f)
  | burst {ev on : Bool} (s : State) (e : EndId) (f : BurstRecord → BurstRecord) (h : ∀ b, b.ok → (f b).ok) : Soft ev on s (s.modBurst e f)
  | line {ev on : Bool} (s : State) (f : LineBlock → LineBlock) (h : LineKeeps f) : Soft ev on s (s.onLine f)
  | chan {ev on : Bool} (s : State) (e : EndId) (f : ChannelEnd → ChannelEnd)
      (h : holdsChannels (s.endRec e).state = true ∨ f .powerOn = .powerOn ∨ s.chan e ≠ .powerOn) : Soft ev on s (s.modChan e f)
  | call {ev on : Bool} (s : State) (i : CallIdx) (f : LiveCall → LiveCall) (h : ∀ k, s.liveCall i = some k → CallKeeps on k (f k)) :
      Soft ev on s (s.modCall i f)
  | makeLive {ev : Bool} (s : State) (i : CallIdx) (k : LiveCall) (h : k.parties = [] ∧ k.channel = none ∧ k.request = none) :
      Soft ev false s (s.modRecord i fun r => { r with live := some k })
  | retire {ev on : Bool} (s : State) (i : CallIdx) : Soft ev on s (s.modRecord i fun r => { generation := r.generation + 1, live := none })
  | overflow {ev on : Bool} (s : State) (l : List OverflowEntry) : Soft ev on s (s.setOverflow l)
  | group {ev on : Bool} (s : State) (g : GroupId) (f : GroupRun → GroupRun)
      (h : ∀ r, (f r).members.map Member.slot = r.members.map Member.slot ∧ (f r).source = r.source) : Soft ev on s (s.modGroup g f)
  | report {ev on : Bool} (s : State) (x : LinkId) (r : Report) : Soft ev on s (report x r s)
  | freeTrunk {ev on : Bool} (s : State) (p : Party) (u : TrunkUse) : Soft ev on s (freeTrunk p u s)
  | inTurn {on : Bool} (s : State) (x : LinkId) (r : Report) : Soft true on s (reportInTurn x r s)
  | ordered {ev on : Bool} {s t : State} : Soft true on s t → Soft ev on s (orderReports s t)

namespace Soft

variable {ev on : Bool}

theorem forEach {α : Type} {f : α → State → State} (h : ∀ a s, Soft ev on s (f a s)) :
    ∀ (l : List α) (s : State), Soft ev on s (Machine.forEach l f s)
  | [], s => .refl s
  | a :: l, s => .trans (h a s) (Soft.forEach h l (f a s))

/-- A loop whose steps are soft while a fact that soft steps keep holds. -/
theorem forEach_of {α : Type} {P : State → Prop} {f : α → State → State} (hp : ∀ s t, Soft ev on s t → P s → P t)
    (h : ∀ a s, P s → Soft ev on s (f a s)) : ∀ (l : List α) (s : State), P s → Soft ev on s (Machine.forEach l f s)
  | [], s, _ => .refl s
  | a :: l, s, w => .trans (h a s w) (Soft.forEach_of hp h l (f a s) (hp _ _ (h a s w) w))

end Soft

/-- A condition on a live record that its images keep, and that fresh records meet, is kept by a chain of small updates. -/
theorem Soft.keepsCall {ev on : Bool} {s t : State} (h : Soft ev on s t) {P : LiveCall → Prop}
    (hk : ∀ k new, CallKeeps on k new → P k → P new)
    (hm : on = false → ∀ k, k.parties = [] ∧ k.channel = none ∧ k.request = none → P k) {i : CallIdx}
    (hs : ∀ k, s.liveCall i = some k → P k) : ∀ k, t.liveCall i = some k → P k := by
  induction h with
  | trans _ _ a b => exact b hk hm (a hk hm hs)
  | ordered _ a => exact a hk hm hs
  | call s j f h =>
    by_cases hj : j = i
    · subst hj
      intro k e
      rw [modCall_liveCall_same, Option.map_eq_some_iff] at e
      obtain ⟨c, hc, rfl⟩ := e
      exact hk c _ (h c hc) (hs c hc)
    · simpa [hj] using hs
  | makeLive s j k h =>
    by_cases hj : j = i
    · subst hj
      intro c e
      simp only [State.liveCall, modRecord_record_same, Option.some.injEq] at e
      exact e ▸ hm rfl k h
    · simpa [State.liveCall, hj] using hs
  | retire s j =>
    by_cases hj : j = i
    · subst hj
      intro c e
      simp [State.liveCall] at e
    · simpa [State.liveCall, hj] using hs
  | report s x r => simpa [Machine.report] using hs
  | freeTrunk s p u => simpa [Machine.freeTrunk] using hs
  | inTurn s x r => simpa [Machine.reportInTurn] using hs
  | _ => exact hs

/-- The record, if live, is in a state in which a call may have a line: CONNECTING, CONNECTED or PARKED. -/
def OnLine (s : State) (i : CallIdx) : Prop := ∀ k, s.liveCall i = some k → needsItsEnd k.state = true

theorem Soft.onLine {ev : Bool} {s t : State} (h : Soft ev true s t) {i : CallIdx} (hi : OnLine s i) : OnLine t i :=
  h.keepsCall (fun _ _ w => w.stays rfl) nofun hi

/-- A record just put into such a state. -/
theorem onLine_modCall (s : State) (i : CallIdx) (f : LiveCall → LiveCall) (h : ∀ k, needsItsEnd (f k).state = true) :
    OnLine (s.modCall i f) i := by
  intro k e
  rw [modCall_liveCall_same, Option.map_eq_some_iff] at e
  obtain ⟨c, _, rfl⟩ := e
  exact h c

theorem onLine_of {s : State} {i : CallIdx} {k : LiveCall} (h : s.liveCall i = some k) (hk : needsItsEnd k.state = true) : OnLine s i :=
  fun c e => by rw [h] at e; cases e; exact hk

/-- A chain of small updates gives no line to a call in the states of R106 and R110. -/
theorem Soft.keepsCallLines {ev on : Bool} {s t : State} (h : Soft ev on s t) (hs : CallLinesOk s) : CallLinesOk t := fun i =>
  h.keepsCall (P := fun k => needsItsEnd k.state = false → k.channel = none ∧ k.request = none) (fun _ _ w => w.line)
    (fun _ _ w _ => w.2) (hs i)

/-- What a chain of small updates leaves as it was. A link is only told; at the end of an event no report is kept of it. -/
structure SoftFrame (ev : Bool) (s t : State) : Prop where
  powered : t.powered = s.powered
  now : t.now = s.now
  store : t.store = s.store
  pending : t.pending = s.pending
  stamps : t.line.stampCounter = s.line.stampCounter
  core : ∀ e, (t.endRec e).core = (s.endRec e).core
  current : ∀ e, (t.port e).current = (s.port e).current ∧ (t.port e).reading = (s.port e).reading
  told : ∀ x, OnlyTold { s.link x with overrun := [] } { t.link x with overrun := [] }
  kept : ev = false → ∀ x, (t.link x).overrun = (s.link x).overrun
  slots : ∀ g, memberSlots t g = memberSlots s g
  source : ∀ g, (t.group g).source = (s.group g).source

theorem OnlyReports.refl (l : List QueueEntry) : OnlyReports l l := ⟨[], by simp⟩

theorem OnlyReports.trans {a b c : List QueueEntry} (h : OnlyReports a b) (k : OnlyReports b c) : OnlyReports a c := by
  obtain ⟨l, rfl⟩ := h
  obtain ⟨m, rfl⟩ := k
  exact ⟨l ++ m, by simp⟩

theorem OnlyTold.refl (l : LinkRecord) : OnlyTold l l := ⟨.refl _, fun _ => .inl rfl, rfl⟩

theorem OnlyTold.trans {a b c : LinkRecord} (h : OnlyTold a b) (k : OnlyTold b c) : OnlyTold a c := by
  refine ⟨h.1.trans k.1, fun t => ?_, ?_⟩
  · rcases k.2.1 t with e | e
    · rw [e]; exact h.2.1 t
    · exact .inr e
  · have h3 := h.2.2
    have k3 := k.2.2
    simp only [LinkRecord.mk.injEq] at h3 k3 ⊢
    simp_all

/-- A link that was only told is one where what is kept of the event is left out of account. -/
theorem OnlyTold.forget {l m : LinkRecord} (h : OnlyTold l m) : OnlyTold { l with overrun := [] } { m with overrun := [] } := by
  refine ⟨h.1, h.2.1, ?_⟩
  have h3 := h.2.2
  simp only [LinkRecord.mk.injEq] at h3 ⊢
  simp_all

theorem enqueue_told (r : Report) (l : LinkRecord) : OnlyTold l (enqueue r l) := by
  unfold enqueue
  split
  · split
    · exact ⟨⟨[(l.gap, r)], rfl⟩, fun _ => .inl rfl, rfl⟩
    · exact ⟨.refl _, fun _ => .inl rfl, rfl⟩
  · exact .refl _

theorem enqueueInTurn_told (r : Report) (l : LinkRecord) :
    OnlyTold { l with overrun := [] } { enqueueInTurn r l with overrun := [] } := by
  unfold enqueueInTurn
  split
  · exact ⟨.refl _, fun _ => .inl rfl, rfl⟩
  · exact (enqueue_told r l).forget

theorem freeTrunk_told (t : Trunk) (u : TrunkUse) (l : LinkRecord) :
    OnlyTold l { l with trunks := modNth l.trunks t fun v => if v = u then .free else v } := by
  refine ⟨.refl _, fun k => ?_, rfl⟩
  by_cases hk : t = k
  · subst hk
    by_cases hv : nth l.trunks t = u <;> simp [hv]
  · simp [hk]

variable {ev on : Bool}

/-- At the end of an event each link has only been told. -/
theorem SoftFrame.onlyTold {s t : State} (h : SoftFrame false s t) (x : LinkId) : OnlyTold (s.link x) (t.link x) := by
  obtain ⟨a, b, c⟩ := h.told x
  have k := h.kept rfl x
  refine ⟨a, b, ?_⟩
  simp only [LinkRecord.mk.injEq] at c ⊢
  simp_all

/-- An update that leaves the links as they are. -/
theorem SoftFrame.quiet {s t : State} (hp : t.powered = s.powered) (hn : t.now = s.now) (hs : t.store = s.store)
    (hq : t.pending = s.pending) (ht : t.line.stampCounter = s.line.stampCounter) (ha : t.linkA = s.linkA) (hb : t.linkB = s.linkB)
    (hc : ∀ e, (t.endRec e).core = (s.endRec e).core)
    (hr : ∀ e, (t.port e).current = (s.port e).current ∧ (t.port e).reading = (s.port e).reading)
    (hm : ∀ g, memberSlots t g = memberSlots s g) (ho : ∀ g, (t.group g).source = (s.group g).source) : SoftFrame ev s t := by
  have hl : ∀ x, t.link x = s.link x := fun x => by cases x <;> simp [State.link, ha, hb]
  exact ⟨hp, hn, hs, hq, ht, hc, hr, fun x => by rw [hl x]; exact .refl _, fun _ x => by rw [hl x], hm, ho⟩

/-- An update of one link alone. -/
theorem SoftFrame.onLink (s : State) (x : LinkId) (f : LinkRecord → LinkRecord)
    (h : ∀ l, OnlyTold { l with overrun := [] } { f l with overrun := [] }) (hk : ev = false → ∀ l, (f l).overrun = l.overrun) :
    SoftFrame ev s (s.modLink x f) := by
  refine ⟨by simp, by simp, by simp, by simp, by simp, fun e => by simp, fun e => by simp, fun y => ?_, fun he y => ?_,
    fun g => by simp [memberSlots], fun g => by simp⟩
  · rw [link_modLink]
    split
    · exact h _
    · exact .refl _
  · rw [link_modLink]
    split
    · exact hk he _
    · rfl

theorem SoftFrame.refl (s : State) : SoftFrame ev s s :=
  .quiet rfl rfl rfl rfl rfl rfl rfl (fun _ => rfl) (fun _ => ⟨rfl, rfl⟩) (fun _ => rfl) (fun _ => rfl)

theorem SoftFrame.trans {s t u : State} (h : SoftFrame ev s t) (k : SoftFrame ev t u) : SoftFrame ev s u :=
  ⟨k.powered.trans h.powered, k.now.trans h.now, k.store.trans h.store, k.pending.trans h.pending, k.stamps.trans h.stamps,
    fun e => (k.core e).trans (h.core e), fun e => ⟨(k.current e).1.trans (h.current e).1, (k.current e).2.trans (h.current e).2⟩,
    fun x => (h.told x).trans (k.told x), fun e x => (k.kept e x).trans (h.kept e x), fun g => (k.slots g).trans (h.slots g),
    fun g => (k.source g).trans (h.source g)⟩

/-- Everything a chain of small updates leaves as it was. -/
theorem Soft.frame {s t : State} (h : Soft ev on s t) : SoftFrame ev s t := by
  induction h with
  | refl s => exact .refl s
  | trans _ _ a b => exact a.trans b
  | post s i f _ => exact .quiet rfl rfl rfl rfl rfl rfl rfl (fun _ => rfl) (fun _ => ⟨rfl, rfl⟩) (fun _ => rfl) (fun _ => rfl)
  | endRec s e f h =>
    refine .quiet rfl rfl rfl rfl rfl rfl rfl (fun d => ?_) (fun _ => ⟨rfl, rfl⟩) (fun _ => rfl) (fun _ => rfl)
    by_cases hd : e = d
    · subst hd; simp [h]
    · simp [hd]
  | port s e f h =>
    refine .quiet rfl rfl rfl rfl rfl rfl rfl (fun _ => rfl) (fun d => ?_) (fun _ => rfl) (fun _ => rfl)
    by_cases hd : e = d
    · subst hd; simp [h]
    · simp [hd]
  | line s f h =>
    obtain ⟨_, h2, h3, _, _, h6⟩ := h s.line
    exact .quiet rfl rfl rfl rfl h6 rfl rfl (fun e => by simp [State.endRec, h2]) (fun e => by simp [State.port, h3]) (fun _ => rfl)
      (fun _ => rfl)
  | group s g f h =>
    refine .quiet rfl rfl rfl rfl rfl rfl rfl (fun _ => rfl) (fun _ => ⟨rfl, rfl⟩) (fun k => ?_) (fun k => ?_)
    · by_cases hk : g = k
      · subst hk; simp [memberSlots, (h _).1]
      · simp [memberSlots, hk]
    · by_cases hk : g = k
      · subst hk; simp [(h _).2]
      · simp [hk]
  | counters s e f _ => exact .quiet rfl rfl rfl rfl rfl rfl rfl (fun _ => rfl) (fun _ => ⟨rfl, rfl⟩) (fun _ => rfl) (fun _ => rfl)
  | burst s e f _ => exact .quiet rfl rfl rfl rfl rfl rfl rfl (fun _ => rfl) (fun _ => ⟨rfl, rfl⟩) (fun _ => rfl) (fun _ => rfl)
  | chan s e f _ => exact .quiet rfl rfl rfl rfl rfl rfl rfl (fun _ => rfl) (fun _ => ⟨rfl, rfl⟩) (fun _ => rfl) (fun _ => rfl)
  | call s i f _ => exact .quiet rfl rfl rfl rfl rfl rfl rfl (fun _ => rfl) (fun _ => ⟨rfl, rfl⟩) (fun _ => rfl) (fun _ => rfl)
  | makeLive s i k _ => exact .quiet rfl rfl rfl rfl rfl rfl rfl (fun _ => rfl) (fun _ => ⟨rfl, rfl⟩) (fun _ => rfl) (fun _ => rfl)
  | retire s i => exact .quiet rfl rfl rfl rfl rfl rfl rfl (fun _ => rfl) (fun _ => ⟨rfl, rfl⟩) (fun _ => rfl) (fun _ => rfl)
  | overflow s l => exact .quiet rfl rfl rfl rfl rfl rfl rfl (fun _ => rfl) (fun _ => ⟨rfl, rfl⟩) (fun _ => rfl) (fun _ => rfl)
  | report s x r =>
    exact .onLink s x _ (fun l => (enqueue_told r l).forget) fun _ l => by
      unfold enqueue
      split
      · split <;> rfl
      · rfl
  | freeTrunk s p u => exact .onLink s p.link _ (fun l => (freeTrunk_told p.trunk u l).forget) fun _ _ => rfl
  | inTurn s x r => exact .onLink s x _ (enqueueInTurn_told r) fun h => nomatch h
  | @ordered _ _ s t _ ih =>
    refine ⟨ih.powered, ih.now, ih.store, ih.pending, ih.stamps, ih.core, ih.current, fun y => ?_, fun _ y => ?_, ih.slots, ih.source⟩
    · cases y
      · exact (orderLink_told t (ih.told .a)).forget
      · exact (orderLink_told t (ih.told .b)).forget
    · cases y <;> rfl

end Sys2Proof.Machine
end

