-- ==== Sys2Proof/Laws/SoftLine.lean ====
section
/-! SUPPORT. The operations of Machine/Reports.lean, Lines.lean, Arbiter.lean and Announce.lean as chains of small updates. -/

namespace Sys2Proof.Machine

namespace Soft

variable {ev on : Bool}

/-- A soft update after a soft operation. -/
theorem andThen {s t u : State} (h : Soft ev on t u) (k : Soft ev on s t) : Soft ev on s u := .trans k h

theorem of_ite {c : Prop} [Decidable c] {s t u : State} (ht : Soft ev on s t) (hu : Soft ev on s u) : Soft ev on s (if c then t else u) := by
  split
  · exact ht
  · exact hu

theorem state {s t : State} (h : Soft ev on s t) (e : EndId) : (t.endRec e).state = (s.endRec e).state := by
  have := congrArg EndRecord.state (h.frame.core e)
  simpa [EndRecord.core] using this

/-! ## Reports -/

theorem reportBoth (r : Report) (s : State) : Soft ev on s (Machine.reportBoth r s) := (Soft.report s .a r).trans (.report _ .b r)

theorem reportBothInTurn (r : Report) (s : State) : Soft true on s (Machine.reportBothInTurn r s) :=
  (Soft.inTurn s .a r).trans (.inTurn _ .b r)

theorem reportCall (i : CallIdx) (v : CallEvent) (n : CallReason) (b : Bool) (l : List LinkId) (s : State) :
    Soft ev on s (Machine.reportCall i v n b l s) := by
  unfold Machine.reportCall
  split
  · exact Soft.forEach (fun x s => .report s x _) l s
  · exact .refl s

theorem reportParties (i : CallIdx) (v : CallEvent) (n : CallReason) (s : State) : Soft ev on s (Machine.reportParties i v n s) :=
  reportCall i v n false _ s

theorem reportEndState (e : EndId) (s : State) : Soft ev on s (Machine.reportEndState e s) := reportBoth _ s

/-! ## Command lists, activity, bursts -/

theorem placeCommand (i : Slot) (c : Command) (s : State) : Soft ev on s (Machine.placeCommand i c s) := by
  unfold Machine.placeCommand
  split
  · exact .refl s
  · split
    · exact .endRec s _ _ fun _ => rfl
    · dsimp only
      exact andThen (.endRec _ _ _ fun _ => rfl) (.line s _ fun _ => ⟨rfl, rfl, rfl, rfl, rfl, rfl⟩)

theorem dropCommands (i : Slot) (s : State) : Soft ev on s (Machine.dropCommands i s) := by
  unfold Machine.dropCommands
  refine Soft.forEach (fun _ s => ?_) _ s
  exact .endRec s _ _ fun _ => rfl

theorem moveCommands (i : Slot) (e : EndId) (s : State) : Soft ev on s (Machine.moveCommands i e s) := by
  unfold Machine.moveCommands
  dsimp only
  refine (dropCommands i s).trans ?_
  exact .endRec _ _ _ fun _ => rfl

theorem setActivity (i : Slot) (a : Activity) (t : Option Stamp) (s : State) : Soft ev on s (Machine.setActivity i a t s) :=
  .post s i _ fun _ => le_rfl

theorem setIdle (p : Activity → Bool) (i : Slot) (s : State) : Soft ev on s (Machine.setIdle p i s) :=
  .of_ite (setActivity i _ _ s) (.refl s)

theorem idleFromCall (i : Slot) (s : State) : Soft ev on s (Machine.idleFromCall i s) := setIdle _ i s
theorem idleFromAnnouncement (i : Slot) (s : State) : Soft ev on s (Machine.idleFromAnnouncement i s) := setIdle _ i s
theorem idleFromBurst (i : Slot) (s : State) : Soft ev on s (Machine.idleFromBurst i s) := setIdle _ i s

theorem endBurst (e : EndId) (x : BurstEnding) (s : State) : Soft ev on s (Machine.endBurst e x s) := by
  unfold Machine.endBurst
  split
  · rename_i b hb
    have h1 : Soft ev on s (s.modBurst e fun _ => .ended b x) := by
      have : s.modBurst e (fun _ => .ended b x) = s.modBurst e (fun v => if v = .running b then .ended b x else v) := by
        simp [State.modBurst, State.onLine, modNth, State.burst] at hb ⊢
        rw [hb]; simp
      rw [this]
      refine .burst s e _ fun v hv => ?_
      split
      · subst_vars; exact hv
      · exact hv
    dsimp only
    exact andThen (.report _ _ _) (andThen (idleFromBurst _ _) (andThen (.port _ e _ fun _ => ⟨rfl, rfl⟩) h1))
  · exact .refl s
  · exact .refl s

theorem abortTarget (i : Slot) (r : AbortReason) (s : State) : Soft ev on s (Machine.abortTarget i r s) :=
  Soft.forEach (fun e s => by
    split
    · exact .of_ite (endBurst e _ s) (.refl s)
    · exact .refl s
    · exact .refl s) _ s

/-! ## Transactions -/

theorem satInc_le {n : Nat} (h : n ≤ Config.counterTop) : satInc n ≤ Config.counterTop := by
  unfold satInc
  split <;> omega

theorem sendPoll (e : EndId) (i : Slot) (s : State) : Soft ev on s (Machine.sendPoll e i s) := by
  unfold Machine.sendPoll
  dsimp only
  refine andThen (.counters _ e _ fun c h => ?_) (.port s e _ fun _ => ⟨rfl, rfl⟩)
  exact ⟨satInc_le h.1, h.2⟩

theorem sendTest (e : EndId) (b : Burst) (s : State) : Soft ev on s (Machine.sendTest e b s) := by
  unfold Machine.sendTest
  dsimp only
  refine andThen (.port _ e _ fun _ => ⟨rfl, rfl⟩) (.burst s e _ fun v h => ?_)
  cases v with
  | none => exact h
  | ended _ _ => exact h
  | running b => exact ⟨satInc_le h.1, h.2⟩

theorem nextTransaction (e : EndId) (s : State) : Soft ev on s (Machine.nextTransaction e s) := by
  unfold Machine.nextTransaction
  split
  · exact sendTest _ _ s
  · split
    · exact sendPoll _ _ s
    · split
      · exact andThen (.endRec _ _ _ fun _ => rfl) (sendPoll _ _ s)
      · exact .refl s

theorem pumpEnd (e : EndId) (s : State) : Soft ev on s (Machine.pumpEnd e s) := .of_ite (nextTransaction e s) (.refl s)

theorem noteFirst (seg : SegId) (s : State) : Soft ev on s (Machine.noteFirst seg s) := by
  unfold Machine.noteFirst
  dsimp only
  refine .of_ite (.refl s) ?_
  exact .line s _ fun _ => ⟨rfl, rfl, rfl, rfl, rfl, rfl⟩

theorem finish (s : State) : Soft ev on s (Machine.finish s) :=
  (Soft.forEach pumpEnd _ s).trans (Soft.forEach noteFirst _ _)

/-! ## The Arbiter -/

theorem setWaiting (e : EndId) (l : List Waiter) (s : State) (h : holdsChannels (s.endRec e).state = true ∨ s.chan e ≠ .powerOn) :
    Soft ev on s (Machine.setWaiting e l s) := .chan s e _ (h.elim .inl fun k => .inr (.inr k))

theorem withdrawCall (e : EndId) (ref : CallRef) (s : State) : Soft ev on s (Machine.withdrawCall e ref s) :=
  .chan s e _ (.inr (.inl rfl))

theorem withdrawGroup (e : EndId) (g : GroupId) (s : State) : Soft ev on s (Machine.withdrawGroup e g s) :=
  .chan s e _ (.inr (.inl rfl))

/-- An update of a live record that keeps its parties and leaves it in a state in which a call may have a line. -/
theorem callOn (i : CallIdx) (f : LiveCall → LiveCall) (s : State)
    (h : ∀ k, s.liveCall i = some k → (f k).parties = k.parties ∧ needsItsEnd (f k).state = true) : Soft ev on s (s.modCall i f) := by
  refine .call s i f fun k hk => ?_
  obtain ⟨h1, h2⟩ := h k hk
  refine ⟨h1 ▸ List.Sublist.refl _, fun _ w => ?_, fun _ w => ?_, fun _ _ => h2⟩
  · rcases w with w | w <;> rw [w] at h2 <;> cases h2
  · rw [h2] at w; cases w

theorem callTakesChannel (i : CallIdx) (e : EndId) (c : Chan) (s : State) (h : OnLine s i) :
    Soft ev on s (Machine.callTakesChannel i e c s) := by
  unfold Machine.callTakesChannel
  split
  · rename_i k hk
    dsimp only
    refine andThen (placeCommand _ _ _) (andThen (.of_ite (reportParties _ _ _ _) (.refl _)) ?_)
    refine callOn i _ s fun v hv => ⟨rfl, ?_⟩
    dsimp only
    split
    · rfl
    · exact h v hv
  · exact .refl s

/-- A call that wants a grant is CONNECTING or PARKED. -/
theorem onLine_of_callWants {s : State} {ref : CallRef} (h : callWants s ref = true) : OnLine s ref.index := by
  intro k hk
  unfold callWants liveRef at h
  split at h
  · rename_i c hc
    split at hc
    · rw [hk] at hc
      cases hc
      revert h
      cases k.state <;> simp [needsItsEnd]
    · cases hc
  · cases h

theorem modMember (g : GroupId) (i : Slot) (f : Member → Member) (h : ∀ m, (f m).slot = m.slot) (s : State) :
    Soft ev on s (Machine.modMember g i f s) :=
  .group s g _ fun r => ⟨by
    simp only [List.map_map]
    refine List.map_congr_left fun m _ => ?_
    simp only [Function.comp]
    split
    · exact h m
    · rfl, rfl⟩

theorem setOutcome (g : GroupId) (i : Slot) (o : MemberOutcome) (b : Bool) (s : State) :
    Soft ev on s (Machine.modMember g i (fun m => { m with outcome := o, leaving := b }) s) := by
  refine modMember g i _ ?_ s
  exact fun _ => rfl

theorem startLate (g : GroupId) (s : State) : Soft ev on s (Machine.startLate g s) :=
  .group s g _ fun r => by split <;> exact ⟨rfl, rfl⟩

theorem commandMember (g : GroupId) (c : Chan) (i : Slot) (s : State) : Soft ev on s (Machine.commandMember g c i s) :=
  andThen (startLate g _) (andThen (setOutcome g i _ _ _) (placeCommand i _ s))

theorem groupTakesChannel (g : GroupId) (e : EndId) (c : Chan) (s : State) : Soft ev on s (Machine.groupTakesChannel g e c s) :=
  andThen (Soft.forEach (commandMember g c) _ _) (.group s g _ fun _ => ⟨rfl, rfl⟩)

/-- The hand-over of a channel that was in use, or on an end that holds channels. -/
theorem handOver (e : EndId) (c : Chan) : ∀ (l : List Waiter) (s : State),
    (holdsChannels (s.endRec e).state = true ∨ s.chan e ≠ .powerOn) → Soft ev on s (Machine.handOver e c l s)
  | [], s, _ => by
    have h : Machine.handOver e c [] s = s.modChan e (fun r => { r with waiting := [], channels := modNth r.channels c fun _ => .free }) := by
      simp [Machine.handOver, Machine.setHolder, Machine.setWaiting, State.modChan, modNth, nth]
    rw [h]
    refine .chan s e _ (.inr (.inl ?_))
    have : modNth ChannelEnd.powerOn.channels c (fun _ => Holder.free) = ChannelEnd.powerOn.channels := by
      apply Vector.ext
      intro i hi
      simp [modNth, ChannelEnd.powerOn]
    simp only [this]
    rfl
  | .call kind ref slot cls :: l, s, h => by
    unfold Machine.handOver
    split
    · rename_i hw
      have h1 : Machine.setHolder e c (.call ref slot) (Machine.setWaiting e l s)
          = s.modChan e (fun r => { r with waiting := l, channels := modNth r.channels c fun _ => .call ref slot }) := by
        simp [Machine.setHolder, Machine.setWaiting, State.modChan, modNth, nth]
      rw [h1]
      exact (Soft.chan s e _ (h.elim .inl fun k => .inr (.inr k))).trans (callTakesChannel _ _ _ _ (onLine_of_callWants hw))
    · exact handOver e c l s h
  | .announce g start :: l, s, h => by
    unfold Machine.handOver
    split
    · have h1 : Machine.setHolder e c (.group g) (Machine.setWaiting e l s)
          = s.modChan e (fun r => { r with waiting := l, channels := modNth r.channels c fun _ => .group g }) := by
        simp [Machine.setHolder, Machine.setWaiting, State.modChan, modNth, nth]
      rw [h1]
      exact (Soft.chan s e _ (h.elim .inl fun k => .inr (.inr k))).trans (groupTakesChannel _ _ _ _)
    · have k : Soft ev on s (s.modGroup g fun r => { r with waiting := r.waiting.filter fun x => decide (x ≠ e) }) :=
        .group s g _ fun _ => ⟨rfl, rfl⟩
      exact k.trans (handOver e c l _ h)

theorem release (e : EndId) (c : Chan) (h : Holder) (s : State) : Soft ev on s (Machine.release e c h s) := by
  unfold Machine.release
  split
  · rename_i k
    refine handOver e c _ s (.inr fun p => k.1 ?_)
    rw [← k.2, p]
    simp [ChannelEnd.powerOn]
  · exact .refl s

/-! ## Announcements -/

theorem reportMember (g : GroupId) (p : Option CallRef) (i : Slot) (s : State) : Soft true on s (Machine.reportMember g p i s) := by
  unfold Machine.reportMember
  dsimp only
  split
  · exact .of_ite (reportBothInTurn _ s) (.refl s)
  · exact .refl s

theorem changeMember (g : GroupId) (i : Slot) (o : MemberOutcome) (p : Option CallRef) (s : State) :
    Soft true on s (Machine.changeMember g i o p s) := andThen (reportMember g p i _) (setOutcome g i o _ s)

theorem testReady (g : GroupId) (s : State) : Soft ev on s (Machine.testReady g s) :=
  .of_ite (andThen (reportBoth _ _) (.group s g _ fun _ => ⟨rfl, rfl⟩)) (.refl s)

theorem settle {before s : State} (h : Soft true on before s) : Soft ev on before (Machine.settle before s) :=
  andThen (Soft.forEach testReady _ _) (.ordered h)

theorem later {before s : State} (h : Soft true on before s) : Soft true on before (Machine.later before s) := h

theorem dropHeld (g : GroupId) (e : EndId) (s : State) : Soft ev on s (Machine.dropHeld g e s) := .group s g _ fun _ => ⟨rfl, rfl⟩
theorem dropWaiting (g : GroupId) (e : EndId) (s : State) : Soft ev on s (Machine.dropWaiting g e s) := .group s g _ fun _ => ⟨rfl, rfl⟩

theorem joinWaiting (g : GroupId) (e : EndId) (s : State) : Soft ev on s (Machine.joinWaiting g e s) :=
  .group s g _ fun r => by split <;> exact ⟨rfl, rfl⟩

theorem releaseIfDone (g : GroupId) (e : EndId) (s : State) : Soft ev on s (Machine.releaseIfDone g e s) := by
  unfold Machine.releaseIfDone
  split
  · exact .of_ite ((dropHeld g e s).trans (release _ _ _ _)) (.refl s)
  · exact .refl s

theorem releases (g : GroupId) (s : State) : Soft ev on s (Machine.releases g s) := Soft.forEach (releaseIfDone g) _ _

theorem requestForGroup (g : GroupId) (e : EndId) (s : State) : Soft true on s (Machine.requestForGroup g e s) := by
  unfold Machine.requestForGroup
  split
  · rename_i hh
    split
    · exact Soft.forEach (fun i s => changeMember g i _ _ s) _ s
    · split
      · exact Soft.forEach (commandMember g _) _ s
      · split
        · exact joinWaiting g e s
        · split
          · exact (Soft.chan s e _ (.inl hh)).trans (groupTakesChannel _ _ _ _)
          · exact (setWaiting e _ s (.inl hh)).trans (joinWaiting g e _)
  · exact .refl s

theorem forGroupsOf (i : Slot) (f : GroupId → State → State) (h : ∀ g s, Soft ev on s (f g s)) (s : State) :
    Soft ev on s (Machine.forGroupsOf i f s) :=
  Soft.forEach (fun g s => .of_ite ((h g s).trans (releases g _)) (.refl s)) _ s

theorem memberLeftForCall {tell : Telling} (ht : ∀ {b s}, Soft true on b s → Soft ev on b (tell b s)) (i : Slot) (s : State) :
    Soft ev on s (Machine.memberLeftForCall tell i s) :=
  andThen (Soft.forEach releases _ _) (ht (Soft.forEach (fun g s => (placeCommand i _ s).trans (changeMember g i _ _ _)) _ s))

theorem quitChannel (g : GroupId) (i : Slot) (s : State) : Soft ev on s (Machine.quitChannel g i s) := by
  unfold Machine.quitChannel
  have h : Soft ev on s (if hasCommand s g i then Machine.placeCommand i .announceEnd s else s) :=
    .of_ite (placeCommand i _ s) (.refl s)
  exact h.trans (.of_ite (idleFromAnnouncement i _) (.refl _))

theorem moveMember (i : Slot) (e : EndId) (g : GroupId) (s : State) : Soft true on s (Machine.moveMember i e g s) := by
  unfold Machine.moveMember
  split
  · exact (commandMember g _ i s).trans (.of_ite (idleFromAnnouncement i _) (.refl _))
  · split
    · exact (quitChannel g i s).trans (changeMember g i _ _ _)
    · exact ((quitChannel g i s).trans (changeMember g i _ _ _)).trans (.of_ite (.refl _) (requestForGroup g e _))

theorem memberMoved (i : Slot) (s : State) : Soft true on s (Machine.memberMoved i s) := by
  unfold Machine.memberMoved
  split
  · exact forGroupsOf i _ (moveMember i _) s
  · exact .refl s

theorem dropMember (g : GroupId) (o : MemberOutcome) (p : Option CallRef) (i : Slot) (s : State) :
    Soft true on s (Machine.dropMember g o p i s) :=
  andThen (changeMember g i _ _ _) (.trans (placeCommand i _ s) (.of_ite (idleFromAnnouncement i _) (.refl _)))

theorem memberLost (i : Slot) (s : State) : Soft true on s (Machine.memberLost i s) :=
  forGroupsOf i _ (fun g s => dropMember g _ _ i s) s

theorem groupPreempted (g : GroupId) (e : EndId) (ref : CallRef) (s : State) : Soft true on s (Machine.groupPreempted g e ref s) :=
  andThen (releases g _) (andThen (Soft.forEach (dropMember g _ _) _ _) (dropHeld g e s))

theorem groupEndStopped (g : GroupId) (e : EndId) (s : State) : Soft ev on s (Machine.groupEndStopped g e s) :=
  (dropHeld g e s).trans (Soft.forEach (fun i s => .trans (modMember g i (fun m =>
    { m with outcome := .pending .awaiting, leaving := hasCommand s g i }) (fun _ => rfl) s)
    (.of_ite (idleFromAnnouncement i _) (.refl _))) _ _)

theorem expireMember (g : GroupId) (i : Slot) (s : State) : Soft true on s (Machine.expireMember g i s) := by
  unfold Machine.expireMember
  split
  · exact changeMember g i _ _ s
  · exact (placeCommand i _ s).trans (changeMember g i _ _ _)
  · exact .refl s

theorem withdrawAll (g : GroupId) (s : State) : Soft ev on s (Machine.withdrawAll g s) :=
  andThen (.group _ g _ fun _ => ⟨rfl, rfl⟩) (Soft.forEach (fun e s => .of_ite (withdrawGroup e g s) (.refl s)) _ s)

theorem windowExpires (g : GroupId) (s : State) : Soft ev on s (Machine.windowExpires g s) :=
  andThen (.group _ g _ fun _ => ⟨rfl, rfl⟩) (andThen (releases g _) (andThen (testReady g _)
    (settle (andThen (Soft.forEach (expireMember g) _ _) (withdrawAll g s)))))

theorem lateExpires (g : GroupId) (s : State) : Soft ev on s (Machine.lateExpires g s) :=
  andThen (.group _ g _ fun _ => ⟨rfl, rfl⟩) (andThen (releases g _) (settle
    (Soft.forEach (fun i s => .of_ite (expireMember g i s) (.refl s)) _ s)))

theorem announceResult (i : Slot) (c : Chan) (r : CommandResult) (s : State) : Soft ev on s (Machine.announceResult i c r s) := by
  unfold Machine.announceResult
  split
  · exact andThen (releases _ _) (settle (andThen (changeMember _ i _ _ _) (andThen (abortTarget i _ _) (setActivity i _ _ s))))
  · exact andThen (releases _ _) (settle (changeMember _ i _ _ s))
  · exact andThen (releases _ _) (settle (changeMember _ i _ _ s))
  · exact .of_ite (.refl s) (placeCommand i _ s)
  · exact .refl s
  · exact .refl s

theorem groupEndNotice (g : GroupId) (s : State) : Soft ev on s (Machine.groupEndNotice g s) :=
  Soft.forEach (fun e s => .chan s e _ (.inr (.inl rfl))) _ s

theorem endMember (g : GroupId) (i : Slot) (s : State) : Soft ev on s (Machine.endMember g i s) := by
  unfold Machine.endMember
  split
  · exact andThen (placeCommand i _ _) (setOutcome g i _ _ s)
  · exact .group s g _ fun r => by
      constructor
      · simp only [List.map_map]
        exact List.map_congr_left fun m _ => by simp only [Function.comp]; split <;> rfl
      · rfl
  · exact (placeCommand i _ s).trans (idleFromAnnouncement i _)
  · exact .refl s

theorem releaseHeld (g : GroupId) (e : EndId) (s : State) : Soft ev on s (Machine.releaseHeld g e s) := by
  unfold Machine.releaseHeld
  split
  · exact (dropHeld g e s).trans (release _ _ _ _)
  · exact .refl s

theorem freeSource (g : GroupId) (s : State) : Soft ev on s (Machine.freeSource g s) := by
  unfold Machine.freeSource
  split
  · exact .freeTrunk s _ _
  · exact .refl s

theorem endGroup (g : GroupId) (r : EndReason) (s : State) : Soft ev on s (Machine.endGroup g r s) := by
  unfold Machine.endGroup
  dsimp only
  refine andThen (reportBoth _ _) (andThen (.group _ g _ fun _ => ⟨rfl, rfl⟩) (andThen (freeSource g _) ?_))
  refine andThen (groupEndNotice g _) (andThen (withdrawAll g _) (andThen (Soft.forEach (releaseHeld g) _ _) ?_))
  exact andThen (Soft.forEach (endMember g) _ _) (.group s g _ fun _ => ⟨rfl, rfl⟩)

end Soft

end Sys2Proof.Machine
end

