-- ==== Sys2Proof/Laws/SoftCalls.lean ====
section
/-! SUPPORT. The operations of Machine/Channels.lean, Calls.lean, Supervisor.lean and Events.lean as chains of small updates. -/

namespace Sys2Proof.Machine

namespace Soft

variable {ev on : Bool}

/-- An update of a live record that keeps its parties and its state, and gives it no line. -/
theorem callSame (i : CallIdx) (f : LiveCall → LiveCall) (s : State)
    (h : ∀ k, (f k).parties = k.parties ∧ (f k).state = k.state ∧ ((f k).channel = k.channel ∨ (f k).channel = none)
      ∧ ((f k).request = k.request ∨ (f k).request = none)) : Soft ev on s (s.modCall i f) := by
  refine .call s i f fun k _ => ?_
  obtain ⟨h1, h2, h3, h4⟩ := h k
  refine ⟨h1 ▸ List.Sublist.refl _, fun w => h2 ▸ h1 ▸ w, fun w v => ?_, fun _ w => h2 ▸ w⟩
  obtain ⟨wc, wr⟩ := w (h2 ▸ v)
  exact ⟨h3.elim (·.trans wc) id, h4.elim (·.trans wr) id⟩

/-- The line of a record after an update: none, or what it had in a state without one. -/
def LineOff (k new : LiveCall) : Prop :=
  new.channel = none ∧ new.request = none ∨ needsItsEnd k.state = false ∧ new.channel = k.channel ∧ new.request = k.request

theorem LineOff.keeps {k new : LiveCall} (h : LineOff k new) (w : needsItsEnd k.state = false → k.channel = none ∧ k.request = none) :
    new.channel = none ∧ new.request = none := by
  rcases h with h | ⟨h, hc, hr⟩
  · exact h
  · rw [hc, hr]; exact w h

/-- An update of a live record that keeps its parties and leaves it LINE LOST or RINGING, without a line. -/
theorem callOff (i : CallIdx) (f : LiveCall → LiveCall) (s : State)
    (h : ∀ k, s.liveCall i = some k → (f k).parties = k.parties ∧ (f k).state ≠ .offered ∧ (f k).state ≠ .clearing ∧ LineOff k (f k)) :
    Soft ev false s (s.modCall i f) := by
  refine .call s i f fun k hk => ?_
  obtain ⟨h1, h2, h3, h4⟩ := h k hk
  exact ⟨h1 ▸ List.Sublist.refl _, fun _ w => (w.elim h2 h3).elim, fun w _ => h4.keeps w, nofun⟩

/-- A record without parties and without a line may take any state. -/
theorem callBare (i : CallIdx) (f : LiveCall → LiveCall) (s : State)
    (h : ∀ k, s.liveCall i = some k → (f k).parties = [] ∧ LineOff k (f k)) : Soft ev false s (s.modCall i f) :=
  .call s i f fun k hk => ⟨(h k hk).1 ▸ List.nil_sublist _, fun _ _ => (h k hk).1, fun w _ => (h k hk).2.keeps w, nofun⟩

/-! ## Channels -/

theorem callLosesChannel (ref : CallRef) (r : CallReason) (s : State) : Soft ev on s (Machine.callLosesChannel ref r s) := by
  unfold Machine.callLosesChannel
  split
  · split
    · refine andThen (reportParties _ _ _ _) ?_
      exact callOn _ _ s fun _ _ => ⟨rfl, rfl⟩
    · exact callSame _ _ s fun _ => ⟨rfl, rfl, .inr rfl, .inl rfl⟩
  · exact .refl s

theorem callLosesEntry (ref : CallRef) (s : State) : Soft ev on s (Machine.callLosesEntry ref s) := by
  unfold Machine.callLosesEntry
  split
  · exact callSame _ _ s fun _ => ⟨rfl, rfl, .inl rfl, .inr rfl⟩
  · exact .refl s

theorem postLeft (i : Slot) (e : EndId) (r : CallReason) (s : State) : Soft ev on s (Machine.postLeft i e r s) := by
  unfold Machine.postLeft
  have h1 : Soft ev on s (match channelOfPost s e i with
      | some (c, ref) => Machine.callLosesChannel ref r (Machine.release e c (.call ref i) s)
      | none => s) := by
    split
    · exact (release _ _ _ s).trans (callLosesChannel _ _ _)
    · exact .refl s
  have h2 : ∀ t, Soft ev on t (match entryOfPost i (t.chan e).waiting with
      | some ref => Machine.callLosesEntry ref (Machine.withdrawCall e ref t)
      | none => t) := fun t => by
    split
    · exact (withdrawCall _ _ _).trans (callLosesEntry _ _)
    · exact .refl _
  exact h1.trans (h2 _)

theorem callWaits (i : CallIdx) (e : EndId) (kd : RequestKind) (s : State) (hi : OnLine s i) :
    Soft ev on s (Machine.callWaits i e kd s) := callOn _ _ s fun k hk => ⟨rfl, hi k hk⟩

theorem preempt (i : CallIdx) (slot : Slot) (e : EndId) (c : Chan) (g : GroupId) (s : State)
    (h : holdsChannels (s.endRec e).state = true) (hi : OnLine s i) : Soft true on s (Machine.preempt i slot e c g s) := by
  have taken {on : Bool} : Soft true on s (Machine.groupPreempted g e (s.refOfRecord i)
      (addPreempted e g (s.refOfRecord i) (setHolder e c (.call (s.refOfRecord i) slot) s))) := by
    refine andThen (groupPreempted _ _ _ _) (andThen (.chan _ e _ (.inl ?_)) (.chan s e _ (.inl h)))
    exact h
  unfold Machine.preempt
  dsimp only
  exact andThen (callTakesChannel i e c _ (taken.onLine hi)) taken

theorem grantOrWait (i : CallIdx) (k : LiveCall) (kd : RequestKind) (e : EndId) (s : State)
    (h : holdsChannels (s.endRec e).state = true) (hi : OnLine s i) : Soft true on s (Machine.grantOrWait i k kd e s) := by
  unfold Machine.grantOrWait
  dsimp only
  split
  · exact andThen (callTakesChannel _ _ _ _ hi) (.chan s e _ (.inl h))
  · split
    · exact preempt _ _ _ _ _ _ h hi
    · exact andThen (callWaits _ _ _ _ hi) (setWaiting e _ s (.inl h))

/-- A request is made for a call that may have a line alone (R100). -/
theorem requestForCall (i : CallIdx) (kd : RequestKind) (e : EndId) (s : State) (hi : OnLine s i) :
    Soft true on s (Machine.requestForCall i kd e s) := by
  unfold Machine.requestForCall
  split
  · exact .refl s
  · rename_i k _
    dsimp only
    split
    · exact .refl s
    · rename_i hh
      split
      · exact callTakesChannel _ _ _ s hi
      · split
        · exact callWaits _ _ _ s hi
        · have h1 {on : Bool} := Soft.forEach (ev := true) (on := on) (f := fun x t => if x ≠ e ∧ usesEnd t (s.refOfRecord i) x then
              Machine.postLeft k.slot x .postMoved t else t) (fun x t => .of_ite (postLeft _ x _ t) (.refl t)) allEnds s
          refine h1.trans (grantOrWait _ _ _ _ _ ?_ (h1.onLine hi))
          rw [state (h1 (on := on)) e]
          simpa using hh

theorem requestOnServing (i : CallIdx) (kd : RequestKind) (s : State) (hi : OnLine s i) :
    Soft true on s (Machine.requestOnServing i kd s) := by
  unfold Machine.requestOnServing
  split
  · split
    · exact requestForCall _ _ _ s hi
    · exact .refl s
  · exact .refl s

theorem freeHolder (e : EndId) (c : Chan) (s : State) : Soft ev on s (setHolder e c .free s) := by
  refine .chan s e _ (.inr (.inl ?_))
  have : modNth ChannelEnd.powerOn.channels c (fun _ => Holder.free) = ChannelEnd.powerOn.channels := by
    apply Vector.ext
    intro i hi
    simp [modNth, ChannelEnd.powerOn]
  simp only [this]

theorem stopEnd (e : EndId) (s : State) : Soft ev on s (Machine.stopEnd e s) := by
  unfold Machine.stopEnd
  dsimp only
  refine andThen (.chan _ e _ (.inr (.inl rfl))) (andThen (Soft.forEach (fun w s => ?_) _ _) (andThen
    (.chan _ e _ (.inr (.inl rfl))) (Soft.forEach (fun c s => ?_) _ s)))
  · unfold stopEntry
    split
    · exact callLosesEntry _ s
    · exact dropWaiting _ _ s
  · unfold stopChannel
    split
    · exact .refl s
    · exact (freeHolder e c s).trans (callLosesChannel _ _ _)
    · exact (freeHolder e c s).trans (groupEndStopped _ _ _)

/-! ## Calls -/

theorem sendOffer {place : Placing} (hp : ∀ x r s, Soft ev on s (place x r s)) (i : CallIdx) (x : LinkId) (s : State) :
    Soft ev on s (Machine.sendOffer place i x s) := by
  unfold Machine.sendOffer
  split
  · exact hp _ _ s
  · exact .refl s

theorem offerTo {place : Placing} (hp : ∀ x r s, Soft ev on s (place x r s)) (i : CallIdx) (x : LinkId) (s : State) :
    Soft ev on s (Machine.offerTo place i x s) := by
  unfold Machine.offerTo
  split
  · refine .of_ite (andThen (sendOffer hp _ _ _) ?_) (.refl s)
    refine callSame i _ s fun k => ?_
    unfold joinOffered
    split <;> exact ⟨rfl, rfl, .inl rfl, .inl rfl⟩
  · exact .refl s

theorem offerBy {place : Placing} (hp : ∀ x r s, Soft ev on s (place x r s)) (i : CallIdx) (s : State) :
    Soft ev on s (Machine.offerBy place i s) := by
  unfold Machine.offerBy
  split
  · exact andThen (offerTo hp _ _ _) (offerTo hp _ _ s)
  · exact .refl s

theorem offer (i : CallIdx) (s : State) : Soft ev on s (Machine.offer i s) := offerBy (fun x r s => .report s x r) i s

theorem offerInTurn (i : CallIdx) (s : State) : Soft true on s (Machine.offerInTurn i s) := offerBy (fun x r s => .inTurn s x r) i s

theorem offerAllTo (x : LinkId) (s : State) : Soft ev on s (Machine.offerAllTo x s) :=
  Soft.forEach (fun i s => offerTo (fun x r s => .report s x r) i x s) _ s

theorem withdrawOffers (i : CallIdx) (r : WithdrawReason) (l : LinkSet) (s : State) : Soft ev on s (Machine.withdrawOffers i r l s) := by
  unfold Machine.withdrawOffers
  dsimp only
  have h1 : ∀ r, Soft ev on s (if l.a then Machine.report LinkId.a r s else s) := fun r => .of_ite (.report s _ _) (.refl s)
  exact (h1 _).trans (.of_ite (.report _ _ _) (.refl _))

theorem reportUnanswered (i : Slot) (c : CallClass) (r : UnansweredReason) (s : State) :
    Soft ev on s (Machine.reportUnanswered i c r s) := reportBoth _ s

theorem takeFromOverflow (i : CallIdx) (o : OverflowEntry) (s : State) : Soft true false s (Machine.takeFromOverflow i o s) := by
  unfold Machine.takeFromOverflow
  exact andThen (offerInTurn _ _) (andThen (memberLeftForCall later _ _) (.makeLive s i _ ⟨rfl, rfl, rfl⟩))

theorem beginCalling {tell : Telling} (ht : ∀ {b s}, Soft true on b s → Soft ev on b (tell b s)) (i : Slot) (t : Stamp) (s : State) :
    Soft ev on s (Machine.beginCalling tell i t s) :=
  andThen (memberLeftForCall ht _ _) (andThen (placeCommand _ _ _) (setActivity i _ _ s))

theorem newCall {tell : Telling} (ht : ∀ {b s}, Soft true false b s → Soft ev false b (tell b s)) (i : CallIdx) (slot : Slot) (b : Button) (t : Stamp) (s : State) :
    Soft ev false s (Machine.newCall tell i slot b t s) := by
  unfold Machine.newCall
  exact andThen (beginCalling ht _ _ _) (.makeLive s i _ ⟨rfl, rfl, rfl⟩)

theorem joinOverflow {tell : Telling} (ht : ∀ {b s}, Soft true on b s → Soft ev on b (tell b s)) (slot : Slot) (b : Button) (t : Stamp) (s : State) :
    Soft ev on s (Machine.joinOverflow tell slot b t s) := andThen (beginCalling ht _ _ _) (.overflow s _)

theorem updateOverflow (slot : Slot) (b : Button) (s : State) : Soft ev on s (Machine.updateOverflow slot b s) := .overflow s _

theorem missOverflow (slot : Slot) (s : State) : Soft ev on s (Machine.missOverflow slot s) := by
  unfold Machine.missOverflow
  split
  · exact andThen (reportUnanswered _ _ _ _) (.overflow s _)
  · exact .refl s

theorem upgrade (i : CallIdx) (k : LiveCall) (b : Button) (s : State) : Soft ev on s (Machine.upgrade i k b s) := by
  unfold Machine.upgrade
  dsimp only
  refine .of_ite ?_ (.refl s)
  have h1 : Soft ev on s (s.modCall i fun v => { v with cls := classOf b (s.entry k.slot).name.kind, flags := { v.flags with upgraded := true } }) :=
    callSame i _ s fun _ => ⟨rfl, rfl, .inl rfl, .inl rfl⟩
  have h2 : ∀ t, Soft ev on t (if k.offered.a then Machine.sendOffer Machine.report i .a t else t) := fun t =>
    .of_ite (sendOffer (fun x r s => .report s x r) _ _ t) (.refl t)
  have h3 : ∀ t, Soft ev on t (if k.offered.b then Machine.sendOffer Machine.report i .b t else t) := fun t =>
    .of_ite (sendOffer (fun x r s => .report s x r) _ _ t) (.refl t)
  exact (h1.trans (h2 _)).trans (h3 _)

theorem holdDeferred (i : CallIdx) (b : Button) (t : Stamp) (s : State) : Soft ev on s (Machine.holdDeferred i b t s) :=
  callSame i _ s fun _ => ⟨rfl, rfl, .inl rfl, .inl rfl⟩

theorem answeredByPost (i : CallIdx) (t : Stamp) (s : State) : Soft ev on s (Machine.answeredByPost i t s) := by
  unfold Machine.answeredByPost
  split
  · dsimp only
    refine andThen (reportParties _ _ _ _) (settle (andThen (requestOnServing _ _ _ ?_) (andThen (setActivity _ _ _ _) ?_)))
    · exact (setActivity (ev := true) _ _ _ _).onLine (onLine_modCall s i _ fun _ => rfl)
    · exact callOn i _ s fun _ _ => ⟨rfl, rfl⟩
  · exact .refl s

theorem callEvent (slot : Slot) (b : Button) (t : Stamp) (s : State) : Soft ev false s (Machine.callEvent slot b t s) := by
  unfold Machine.callEvent
  split
  · split
    · split
      · exact upgrade _ _ _ s
      · exact answeredByPost _ _ s
      · exact holdDeferred _ _ _ s
      all_goals exact .refl s
    · exact .refl s
  · refine .of_ite (updateOverflow _ _ s) ?_
    split
    · exact andThen (offer _ _) (newCall settle _ _ _ _ s)
    · exact joinOverflow settle _ _ _ s

theorem callPostMoved (slot : Slot) (s : State) : Soft true on s (Machine.callPostMoved slot s) := by
  unfold Machine.callPostMoved
  split
  · split
    · rename_i k hk
      split
      · rename_i h
        exact requestOnServing _ _ s (onLine_of hk (by rw [h]; rfl))
      · split
        · rename_i h
          exact requestOnServing _ _ s (onLine_of hk (by rw [h.1]; rfl))
        · exact .refl s
    · exact .refl s
  · exact .refl s

theorem callPostLost (slot : Slot) (s : State) : Soft ev false s (Machine.callPostLost slot s) := by
  unfold Machine.callPostLost
  split
  · split
    · rename_i k hk
      split
      · exact .refl s
      · split
        · rename_i h
          refine andThen (withdrawOffers _ _ _ _) (callOff _ _ s fun c hc => ⟨rfl, nofun, nofun, .inr ⟨?_, rfl, rfl⟩⟩)
          rw [hk] at hc
          cases hc
          rw [h]
          rfl
        · refine andThen (reportParties _ _ _ _) ?_
          exact callOff _ _ s fun _ _ => ⟨rfl, nofun, nofun, .inl ⟨rfl, rfl⟩⟩
    · exact .refl s
  · exact .refl s

theorem parkServed (i : CallIdx) (s : State) : Soft true on s (Machine.parkServed i s) := by
  unfold Machine.parkServed
  refine andThen (requestOnServing _ _ _ ?_) (andThen (reportParties _ _ _ _) ?_)
  · exact (reportParties (ev := true) _ _ _ _).onLine (onLine_modCall s i _ fun _ => rfl)
  · exact callOn i _ s fun _ _ => ⟨rfl, rfl⟩

theorem callPostServed (slot : Slot) (s : State) : Soft true false s (Machine.callPostServed slot s) := by
  unfold Machine.callPostServed
  split
  · rename_i i _
    split
    · rename_i k hk
      split
      · rename_i hl
        have lost {c : LiveCall} (hc : s.liveCall i = some c) : needsItsEnd c.state = false := by
          rw [hk] at hc
          cases hc
          rw [hl]
          rfl
        split
        · refine andThen (offerInTurn _ _) (callBare i _ s fun c hc => ⟨?_, .inr ⟨lost hc, rfl, rfl⟩⟩)
          rw [hk] at hc
          cases hc
          assumption
        · exact parkServed _ s
        · refine andThen (reportParties _ _ _ _) ?_
          exact callOff _ _ s fun _ hc => ⟨rfl, nofun, nofun, .inr ⟨lost hc, rfl, rfl⟩⟩
        · exact parkServed _ s
      · exact .refl s
    · exact .refl s
  · exact .refl s

theorem releaseCallChannel (i : CallIdx) (s : State) : Soft ev on s (Machine.releaseCallChannel i s) := by
  unfold Machine.releaseCallChannel
  split
  · split
    · refine andThen (release _ _ _ _) ?_
      exact callSame _ _ s fun _ => ⟨rfl, rfl, .inr rfl, .inl rfl⟩
    · exact .refl s
  · exact .refl s

theorem withdrawCallRequest (i : CallIdx) (s : State) : Soft ev on s (Machine.withdrawCallRequest i s) := by
  unfold Machine.withdrawCallRequest
  split
  · split
    · refine andThen (withdrawCall _ _ _) ?_
      exact callSame _ _ s fun _ => ⟨rfl, rfl, .inl rfl, .inr rfl⟩
    · exact .refl s
  · exact .refl s

theorem callHopMoved (slot : Slot) (s : State) : Soft true on s (Machine.callHopMoved slot s) := by
  unfold Machine.callHopMoved
  split
  · split
    · rename_i i _ _ k hk
      dsimp only
      have given {on : Bool} := (releaseCallChannel (ev := true) (on := on) i s).trans (withdrawCallRequest i _)
      cases hb : decide (k.state = .connected) || (decide (k.state = .connecting) && k.channel.isSome)
      · refine given.trans ?_
        simp only [Bool.false_or, Bool.false_eq_true, if_false]
        have moved (kd : RequestKind) (h : needsItsEnd k.state = true) := requestOnServing (on := on) i kd _ (given.onLine (onLine_of hk h))
        split
        · rename_i h
          exact moved _ (by rw [of_decide_eq_true h]; rfl)
        · split
          · rename_i h
            exact moved _ (by rw [h]; rfl)
          · exact .refl _
      · simp only [Bool.true_or, if_true]
        refine given.trans (andThen (requestOnServing _ _ _ ?_) (andThen (reportParties _ _ _ _) ?_))
        · exact (reportParties (ev := true) _ _ _ _).onLine (onLine_modCall _ i _ fun _ => rfl)
        · exact callOn i _ _ fun _ _ => ⟨rfl, rfl⟩
    · exact .refl s
  · exact .refl s

/-! ## Posts and their ends -/

theorem setReach (i : Slot) (r : PostReach) (s : State) : Soft ev on s (Machine.setReach i r s) :=
  .post s i _ fun _ => Nat.zero_le _

theorem overflowUnserved (i : Slot) (s : State) : Soft ev on s (Machine.overflowUnserved i s) :=
  .of_ite ((missOverflow i s).trans (idleFromCall i _)) (.refl s)

theorem reachEffects (i : Slot) (old new : PostReach) (s : State) : Soft true false s (Machine.reachEffects i old new s) := by
  unfold Machine.reachEffects
  split
  · dsimp only
    exact andThen (memberMoved i _) (andThen (callPostMoved i _) (andThen (postLeft _ _ _ _) (andThen (abortTarget _ _ _)
      (moveCommands _ _ s))))
  · dsimp only
    exact andThen (memberLost i _) (andThen (callPostLost i _) (andThen (postLeft _ _ _ _) (abortTarget _ _ s)))
  · dsimp only
    exact andThen (memberLost i _) (andThen (callPostLost i _) (andThen (overflowUnserved i _) (andThen (postLeft _ _ _ _)
      (andThen (abortTarget _ _ _) (dropCommands i s)))))
  · exact andThen (callPostServed i _) (moveCommands _ _ s)
  · exact andThen (callPostServed i _) (moveCommands _ _ s)
  · exact andThen (memberLost i _) (andThen (callPostLost i _) (andThen (overflowUnserved i _) (dropCommands i s)))
  · exact andThen (memberLost i _) (callPostLost i s)
  · exact .refl s
  · exact .refl s

theorem reassign (i : Slot) (s : State) : Soft true false s (Machine.reassign i s) :=
  .of_ite (.refl s) (andThen (reachEffects _ _ _ _) (setReach _ _ s))

theorem fixSuppressed (e : EndId) (s : State) : Soft ev on s (Machine.fixSuppressed e s) := by
  unfold Machine.fixSuppressed
  split
  · refine .of_ite (.refl s) ?_
    exact .endRec s e _ fun _ => rfl
  · exact .refl s

theorem fixSegment (seg : SegId) (s : State) : Soft ev on s (Machine.fixSegment seg s) := Soft.forEach fixSuppressed _ s

theorem assignSegment (seg : SegId) (s : State) : Soft ev false s (Machine.assignSegment seg s) :=
  settle (andThen (fixSegment seg _) (Soft.forEach reassign _ s))

theorem isolationAlarms (before s : State) : Soft ev on s (Machine.isolationAlarms before s) := by
  unfold Machine.isolationAlarms
  refine Soft.forEach (fun i s => ?_) _ s
  split
  · exact .refl s
  · exact reportBoth _ s
  · exact reportBoth _ s
  · exact .refl s

theorem heldPostReleased (i : Slot) (s : State) : Soft true false s (Machine.heldPostReleased i s) := by
  unfold Machine.heldPostReleased
  split
  · exact .of_ite (andThen (fixSegment _ _) (andThen (reachEffects _ _ _ _) (setReach _ _ s))) (.refl s)
  · exact .refl s
  · exact .refl s

theorem rehop (seg : SegId) (i : Slot) (s : State) : Soft ev on s (Machine.rehop seg i s) := by
  unfold Machine.rehop
  split
  · refine .of_ite ?_ (.refl s)
    exact .post s i _ fun _ => Nat.zero_le _
  · exact .refl s
  · exact .refl s

theorem setHopMap (seg : SegId) (m : List Slot) (s : State) : Soft ev on s (s.setHopMap seg m) := by
  unfold State.setHopMap
  refine .line s _ ?_
  exact fun _ => ⟨rfl, rfl, rfl, rfl, rfl, rfl⟩

theorem rebuild (seg : SegId) (s : State) : Soft ev on s (Machine.rebuild seg s) :=
  andThen (Soft.forEach (rehop seg) _ _) (setHopMap seg _ s)

/-! ## Freeing -/

theorem freeParties (ref : CallRef) (l : List Party) (s : State) : Soft ev on s (Machine.freeParties ref l s) :=
  Soft.forEach (fun p s => .freeTrunk s p _) l s

theorem giveUpLine (ref : CallRef) (k : LiveCall) (s : State) : Soft ev on s (Machine.giveUpLine ref k s) := by
  unfold Machine.giveUpLine
  dsimp only
  have withdrawn : ∀ t : State, Soft ev on t (match k.request with
      | some (e, _) => Machine.withdrawCall e ref t
      | none => t) := fun t => by
    split
    · exact withdrawCall _ _ t
    · exact .refl t
  refine andThen (withdrawn _) ?_
  split
  · exact release _ _ _ s
  · exact .refl s

theorem giveUp (ref : CallRef) (k : LiveCall) (s : State) : Soft ev on s (Machine.giveUp ref k s) :=
  andThen (freeParties _ _ _) (giveUpLine ref k s)

theorem takeDeferred (slot : Slot) (b : Button) (t : Stamp) (s : State) : Soft true false s (Machine.takeDeferred slot b t s) := by
  unfold Machine.takeDeferred
  split
  · exact andThen (offerInTurn _ _) (newCall later _ _ _ _ s)
  · exact joinOverflow later _ _ _ s

theorem giveToOverflow (i : CallIdx) (s : State) : Soft true false s (Machine.giveToOverflow i s) := by
  unfold Machine.giveToOverflow
  split
  · exact andThen (takeFromOverflow _ _ _) (.overflow s _)
  · exact .refl s

theorem leftItsEnd (st : CallState) (slot : Slot) (s : State) : Soft true false s (Machine.leftItsEnd st slot s) :=
  .of_ite (heldPostReleased _ s) (.refl s)

theorem freeing (i : CallIdx) (s : State) : Soft true false s (Machine.freeing i s) := by
  unfold Machine.freeing
  split
  · rename_i k _
    dsimp only
    refine andThen (giveToOverflow _ _) ?_
    have h1 : ∀ k : LiveCall, Soft true false s (Machine.leftItsEnd k.state k.slot (Machine.idleFromCall k.slot
        (Machine.giveUp (s.refOfRecord i) k (Machine.retire i s)))) := fun k =>
      andThen (leftItsEnd _ _ _) (andThen (idleFromCall _ _) (andThen (giveUp _ k _) (.retire s i)))
    refine (h1 k).trans ?_
    split
    · exact takeDeferred _ _ _ _
    · exact .refl _
  · exact .refl s

theorem freeRecord (i : CallIdx) (s : State) : Soft ev false s (Machine.freeRecord i s) := settle (freeing i s)

theorem lampOffInbound (k : LiveCall) (s : State) : Soft ev on s (Machine.lampOffInbound k s) := by
  unfold Machine.lampOffInbound
  split
  · exact placeCommand _ _ s
  · exact .refl s

theorem onHook (slot : Slot) (s : State) : Soft ev false s (Machine.onHook slot s) := by
  unfold Machine.onHook
  split
  · split
    · split
      · dsimp only
        exact andThen (freeRecord _ _) (andThen (placeCommand _ _ _) (reportUnanswered _ _ _ s))
      iterate 4
        · dsimp only
          exact andThen (freeRecord _ _) (andThen (lampOffInbound _ _) (andThen (placeCommand _ _ _) (reportCall _ _ _ _ _ s)))
      · exact callSame _ _ s fun _ => ⟨rfl, rfl, .inl rfl, .inl rfl⟩
      · exact .refl s
    · exact .refl s
  · exact .of_ite (andThen (idleFromCall _ _) (andThen (placeCommand _ _ _) (missOverflow _ s))) (.refl s)

theorem clearing (i : CallIdx) (k : LiveCall) (l : List LinkId) (x : LinkId) (s : State) : Soft true false s (Machine.clearing i k l x s) := by
  unfold Machine.clearing
  dsimp only
  refine andThen (leftItsEnd _ _ _) (andThen (callSame i _ _ fun _ => ⟨rfl, rfl, .inl rfl, .inl rfl⟩) ?_)
  refine andThen (lampOffInbound _ _) (andThen (placeCommand _ _ _) (andThen (giveUpLine _ _ _) ?_))
  exact andThen (reportCall _ _ _ _ _ _) (andThen (callBare i _ _ fun _ _ => ⟨rfl, .inl ⟨rfl, rfl⟩⟩) (freeParties _ _ s))

theorem dismiss (i : CallIdx) (k : LiveCall) (x : LinkId) (s : State) : Soft ev false s (Machine.dismiss i k x s) :=
  andThen (freeRecord _ _) (andThen (placeCommand _ _ _) (reportUnanswered _ _ _ s))

theorem ringExpires (i : CallIdx) (k : LiveCall) (s : State) : Soft ev false s (Machine.ringExpires i k s) :=
  andThen (freeRecord _ _) (andThen (placeCommand _ _ _) (reportCall _ _ _ _ _ s))

theorem reoffer (i : CallIdx) (k : LiveCall) (s : State) : Soft true false s (Machine.reoffer i k s) := by
  unfold Machine.reoffer
  dsimp only
  exact andThen (leftItsEnd _ _ _) (andThen (offerInTurn _ _) (andThen (placeCommand _ _ _) (andThen (giveUpLine _ _ _)
    (andThen (callBare i _ _ fun _ _ => ⟨rfl, .inl ⟨rfl, rfl⟩⟩) (freeParties _ _ s)))))

theorem removeParty (i : CallIdx) (x : LinkId) (s : State) : Soft ev on s (Machine.removeParty i x s) := by
  unfold Machine.removeParty
  split
  · dsimp only
    refine andThen (.call _ i _ fun k _ => ⟨List.filter_sublist, fun h w => ?_, fun h => h, fun _ h => h⟩) (freeParties _ _ s)
    simp only at w
    rw [h w]
    rfl
  · exact .refl s

theorem solePartyLost (i : CallIdx) (k : LiveCall) (x : LinkId) (s : State) : Soft true false s (Machine.solePartyLost i k x s) := by
  unfold Machine.solePartyLost
  split
  · exact andThen (callSame i _ _ fun _ => ⟨rfl, rfl, .inl rfl, .inl rfl⟩) (removeParty i x s)
  · exact reoffer _ _ s
  · exact .of_ite (andThen (freeing _ _) (placeCommand _ _ s)) (clearing _ _ _ _ s)

theorem callLinkLost (x : LinkId) (i : CallIdx) (s : State) : Soft true false s (Machine.callLinkLost x i s) := by
  unfold Machine.callLinkLost
  split
  · split
    · exact .refl s
    · dsimp only
      split
      · exact andThen (offerInTurn _ _) (callSame i _ s fun _ => ⟨rfl, rfl, .inl rfl, .inl rfl⟩)
      · exact callSame i _ s fun _ => ⟨rfl, rfl, .inl rfl, .inl rfl⟩
    all_goals exact .of_ite (.of_ite (solePartyLost _ _ _ s) (andThen (reportParties _ _ _ _) (removeParty i x s))) (.refl s)
  · exact .refl s

theorem callsLoseLink (x : LinkId) (s : State) : Soft ev false s (Machine.callsLoseLink x s) :=
  settle (Soft.forEach (callLinkLost x) _ s)

theorem sourceLost (x : LinkId) (g : GroupId) (s : State) : Soft ev on s (Machine.sourceLost x g s) := by
  unfold Machine.sourceLost
  split
  · exact .of_ite (endGroup _ _ s) (.refl s)
  · exact .refl s

end Soft

end Sys2Proof.Machine
end

