-- ==== Sys2Proof/Tests/Slice0.lean ====
section
/-! SUPPORT. Tests: the well-formedness checks refuse ill-formed terms, the table spells no word, worked figures of the spec, steps on one small
state, and for each obligation with hypotheses a state and operands that meet them all (`test_meets_<obligation>`). The expected
values are the spec's worked figures (chapter 11, R14, R65) or are computed by hand from its rules. -/

namespace Sys2Proof.Tests
open Sys2Proof Sys2Proof.Machine

-- One kernel evaluation at a time: each takes a thread with a large stack.
set_option Elab.async false

/-! ## Well-formedness: one ill-formed term for each check -/

theorem test_wf_refuses_erase_place_above_280 : Instr.wf (.powerOnReset 281) = false ∧ Instr.wf (.powerLoss 281) = false := by decide
theorem test_wf_refuses_idle_frame_as_request : Instr.wf (.badRequestFrame .a 1 0) = false := by decide
theorem test_wf_refuses_on_as_end_service_off : Instr.wf (.endServiceOff .a 1 6 1) = false := by decide
theorem test_wf_refuses_wide_end_service : Instr.wf (.endServiceOff .a 1 256 0) = false ∧ Instr.wf (.endServiceOff .a 1 6 256) = false := by decide
theorem test_wf_refuses_wide_end_codes :
    Instr.wf (.endServiceOn .a 1 256) = false ∧ Instr.wf (.lineTest .a 1 256) = false ∧ Instr.wf (.lineStats .a 1 256 0) = false
      ∧ Instr.wf (.lineStats .a 1 6 256) = false ∧ Instr.wf (.postTestStop .a 1 256) = false ∧ Instr.wf (.queryEnd .a 1 256) = false := by
  decide
theorem test_wf_refuses_wide_call_fields :
    Instr.wf (.answer .a 1 256 0 1) = false ∧ Instr.wf (.answer .a 1 0 65536 1) = false ∧ Instr.wf (.answer .a 1 0 0 256) = false
      ∧ Instr.wf (.join .a 1 256 0 1) = false ∧ Instr.wf (.join .a 1 0 65536 1) = false ∧ Instr.wf (.join .a 1 0 0 256) = false
      ∧ Instr.wf (.leave .a 1 256 0) = false ∧ Instr.wf (.leave .a 1 0 65536) = false
      ∧ Instr.wf (.clear .a 1 256 0) = false ∧ Instr.wf (.clear .a 1 0 65536) = false
      ∧ Instr.wf (.callPost .a 1 65536 1) = false ∧ Instr.wf (.callPost .a 1 0 256) = false ∧ Instr.wf (.queryCalls .a 1 256) = false := by
  decide
theorem test_wf_refuses_wide_group_fields :
    Instr.wf (.announceStart .a 1 256 1) = false ∧ Instr.wf (.announceStart .a 1 0 256) = false ∧ Instr.wf (.announceStop .a 1 256) = false
      ∧ Instr.wf (.groupResult .a 1 256 0) = false ∧ Instr.wf (.groupResult .a 1 0 65536) = false := by decide
theorem test_wf_refuses_group_edits :
    Instr.wf (.groupEdit .a 1 256 0 [1]) = false ∧ Instr.wf (.groupEdit .a 1 0 2 [1]) = false ∧ Instr.wf (.groupEdit .a 1 0 0 []) = false
      ∧ Instr.wf (.groupEdit .a 1 0 0 (List.replicate 33 1)) = false ∧ Instr.wf (.groupEdit .a 1 0 0 [256]) = false := by decide
theorem test_wf_refuses_wide_test_and_read_fields :
    Instr.wf (.postTest .a 1 65536 0 0) = false ∧ Instr.wf (.postTest .a 1 0 65536 0) = false ∧ Instr.wf (.postTest .a 1 0 0 256) = false
      ∧ Instr.wf (.queryPost .a 1 65536) = false ∧ Instr.wf (.storeErase .a 1 256) = false ∧ Instr.wf (.directoryRead .a 1 256 0 0) = false
      ∧ Instr.wf (.directoryRead .a 1 0 65536 0) = false ∧ Instr.wf (.directoryRead .a 1 0 0 65536) = false := by decide

/-- NAME, PLACE, segment and global fields that fit their octets. -/
def rawName : RawName := ⟨5, List.replicate 12 0x41, 1, 0, 0, 0xFFFFFF⟩
def rawPlace : RawPlace := ⟨1, 3, 2000, 410233⟩
def rawSegment : RawSegment := ⟨1, 4800, 350, 1250, 198, 1040, 47200, 0, 2400, 0, 112⟩
def rawGlobal : RawGlobal := ⟨0, 15, 3, 45, 3, 3, 60⟩

theorem test_wf_accepts_fields : rawName.wf && rawPlace.wf && rawSegment.wf && rawGlobal.wf = true := by decide
theorem test_wf_refuses_wide_name :
    Instr.wf (.directoryWriteName .a 1 65536 rawName) = false ∧ RawName.wf { rawName with labelLength := 256 } = false
      ∧ RawName.wf { rawName with label := [] } = false ∧ RawName.wf { rawName with kind := 256 } = false
      ∧ RawName.wf { rawName with carriageway := 256 } = false ∧ RawName.wf { rawName with side := 256 } = false
      ∧ RawName.wf { rawName with marker := 0x1000000 } = false := by decide
theorem test_wf_refuses_wide_place :
    Instr.wf (.directoryWritePlace .a 1 65536 rawPlace) = false ∧ RawPlace.wf { rawPlace with present := 256 } = false
      ∧ RawPlace.wf { rawPlace with seg := 256 } = false ∧ RawPlace.wf { rawPlace with position := 65536 } = false
      ∧ RawPlace.wf { rawPlace with serial := 0x1000000 } = false := by decide
theorem test_wf_refuses_wide_segment :
    Instr.wf (.siteWriteSegment .a 1 256 rawSegment) = false ∧ RawSegment.wf { rawSegment with fitted := 256 } = false
      ∧ RawSegment.wf { rawSegment with cableLength := 65536 } = false ∧ RawSegment.wf { rawSegment with feederA := 65536 } = false
      ∧ RawSegment.wf { rawSegment with feederB := 65536 } = false ∧ RawSegment.wf { rawSegment with speed := 256 } = false
      ∧ RawSegment.wf { rawSegment with layRatio := 65536 } = false ∧ RawSegment.wf { rawSegment with anchor := 0x1000000 } = false
      ∧ RawSegment.wf { rawSegment with direction := 256 } = false ∧ RawSegment.wf { rawSegment with split := 65536 } = false
      ∧ RawSegment.wf { rawSegment with homeLink := 256 } = false ∧ RawSegment.wf { rawSegment with route := 65536 } = false := by decide
theorem test_wf_refuses_wide_global :
    RawGlobal.wf { rawGlobal with ignored := 256 } = false ∧ RawGlobal.wf { rawGlobal with offerOverflow := 256 } = false
      ∧ RawGlobal.wf { rawGlobal with threshold := 256 } = false ∧ RawGlobal.wf { rawGlobal with ring := 256 } = false
      ∧ RawGlobal.wf { rawGlobal with acknowledge := 256 } = false ∧ RawGlobal.wf { rawGlobal with silence := 256 } = false
      ∧ RawGlobal.wf { rawGlobal with retest := 65536 } = false := by decide
theorem test_wf_refuses_measurement_results :
    Instr.wf (.measurementResult ⟨3, .a⟩ .openPair 16384 none) = false ∧ Instr.wf (.measurementResult ⟨3, .a⟩ .crossed 0 none) = false
      ∧ Instr.wf (.measurementResult ⟨3, .a⟩ .crossed 0 (some 3)) = false ∧ Instr.wf (.measurementResult ⟨3, .a⟩ .good 0 (some 4)) = false := by
  decide

/-- The table has no bits, so no word spells a command and `withFetchWord` changes nothing (log 4). -/
theorem test_no_word_spells_a_command :
    decodeTableWord 8 0 = none ∧ decodeTableWord 16 0xFFFF = none ∧ ∀ s : State, s.withFetchWord 8 0x20 = s :=
  ⟨rfl, rfl, fun _ => rfl⟩

/-! ## Worked figures -/

/-- Segment 3 of the worked examples. -/
def seg3 : SegRecord :=
  { fitted := true, cableLength := 4800, feederA := 350, feederB := 1250, speed := 198, layRatio := 1040, anchor := 47200,
    direction := .increasing, split := 2400, homeLink := .a, route := 112 }

/-- R14: position 1150 has the chainage 48,305; a decreasing segment stops at 0 and an increasing one at 999,999. -/
theorem test_chainage :
    chainageOf seg3 1150 = 48305 ∧ chainageOf { seg3 with direction := .decreasing, anchor := 100 } 1150 = 0
      ∧ chainageOf { seg3 with anchor := 999999 } 1150 = 999999 := by decide

/-- R65 to R67 at 3A: 350 m of feeder, so a delay of 353 (349 m) lies in it, 354 gives x = 0, 355 x = 1, 356 LIMIT 2; 1516 gives
1500 m, x = 1150 and chainage 48,305; 5202 gives 5149 m, LIMIT 4799; 5203 lies beyond. -/
theorem test_results_at_3A :
    resultState seg3 .a .openPair 353 = (.faulted, .none) ∧ resultState seg3 .a .openPair 354 = (.faulted, .none)
      ∧ resultState seg3 .a .openPair 355 = (.faulted, .none) ∧ resultState seg3 .a .openPair 356 = (.serving, .limit 2)
      ∧ resultState seg3 .a .openPair 1516 = (.serving, .limit 1150) ∧ resultState seg3 .a .short 5202 = (.serving, .limit 4799)
      ∧ resultState seg3 .a .short 5203 = (.serving, .full)
      ∧ faultRecordOf seg3 .a .openPair 1516 none = ⟨.openPair, 1516, 1500, some 1150, some 48305, false, false, none⟩ := by decide +kernel

/-- The same at 3B, with 1250 m of feeder: 4950 gives x = 1150; 1263 gives x = 4800, which reaches no post; 1273 LIMIT 4790. -/
theorem test_results_at_3B :
    resultState seg3 .b .mismatch 4950 = (.serving, .limit 1150) ∧ resultState seg3 .b .mismatch 1263 = (.faulted, .none)
      ∧ resultState seg3 .b .mismatch 1273 = (.serving, .limit 4790) ∧ resultState seg3 .b .mismatch 1262 = (.faulted, .none) := by decide +kernel

/-- R47: the order of stamps goes through the wrap. -/
theorem test_stamp_order : earlier 0xFFFFFFFF 0 = true ∧ earlier 0 0x80000000 = false ∧ earlier 0 0x7FFFFFFF = true ∧ earlier 5 5 = false := by
  decide

/-- R89: the class of a call. -/
theorem test_class :
    classOf .emergency .tunnel = .p3 ∧ classOf .emergency .layBy = .p2 ∧ classOf .none .tunnel = .p1 ∧ classOf .assist .ramp = .p0 := by decide

/-- R156: the check value of the nine octets "123456789" with this generator and preset is 29B1h (a published value). -/
theorem test_check_value : checkValue [0x31, 0x32, 0x33, 0x34, 0x35, 0x36, 0x37, 0x38, 0x39] = 0x29B1 := by decide +kernel

/-! ## A small state -/

def endA : EndId := ⟨3, .a⟩
def endB : EndId := ⟨3, .b⟩

/-- The posts of segment 3 in the worked examples: slot and position. -/
def places : List (Slot × Nat) := [(96, 120), (97, 640), (98, 1150), (99, 1830), (100, 2520), (101, 3210), (102, 3900), (103, 4590)]

def entryAt (i : Slot) (p : Nat) : DirEntry :=
  { place := { present := true, seg := 3, position := p, serial := 1000 + i.val }, name := { NameForm.blank with kind := .tunnel } }

/-- The working copy: segment 3 with its posts, and group 2 of slots 96, 97 and 140, of which 140 is absent. -/
def site : Site :=
  { Site.blank with
    entries := places.foldl (fun v p => v.set p.1.val (entryAt p.1 p.2)) Site.blank.entries
    segments := Site.blank.segments.set 3 seg3
    groups := Site.blank.groups.set 2 [96, 97, 140] }

/-- A post served by an end at a hop, ANSWERING. -/
def rowAt (e : EndId) (hop : Nat) : PostRow := { PostRow.powerOn with reach := .served e, hop := hop, reply := .answering }

def endServing : EndRecord := { EndRecord.powerOn with state := .serving, reach := .full, previous := some .unfitted, cause := some .startUp }

/-- A poll in progress to slot 98 on 3A and to slot 101 on 3B. -/
def line : LineBlock :=
  { LineBlock.powerOn with
    hopMaps := LineBlock.powerOn.hopMaps.set 3 (places.map Prod.fst)
    posts := ((((((((LineBlock.powerOn.posts.set 96 (rowAt endA 1)).set 97 (rowAt endA 2)).set 98 (rowAt endA 3)).set 99
      (rowAt endA 4)).set 100 (rowAt endB 4)).set 101 (rowAt endB 3)).set 102 (rowAt endB 2)).set 103 (rowAt endB 1))
    ends := (LineBlock.powerOn.ends.set 6 endServing).set 7 endServing
    ports := (LineBlock.powerOn.ports.set 6 ⟨.present, true, some (.poll 98 3 none)⟩).set 7 ⟨.present, true, some (.poll 101 3 none)⟩ }

def linkUp : LinkRecord := { LinkRecord.powerOn with up := true, silence := some 3000, firstUp := false }

/-- READY, both links UP, segment 3 in service, no call and no ACTIVE group; 100 ms on the Timebase. -/
def base : State :=
  { State.reset with
    now := 100, store := { stored := .blank, site := site, damaged := [], state := .ready }, line := line, linkA := linkUp, linkB := linkUp }

/-- A member with its outcome, and what a test compares. -/
def member (i : Slot) (o : MemberOutcome) : Member := ⟨i, o, false⟩
def outcomes (l : List Member) : List (Slot × MemberOutcome) := l.map fun m => (m.slot, m.outcome)

/-- `base` with a request at the head of a link's intake buffer. -/
def asked (x : LinkId) (r : Request) (s : State) : State := s.modLink x fun l => { l with intake := [requestFrame 7 r] }

/-- The next state, where there is one. -/
def after (i : Instr) (s : State) : State :=
  match exec i s with
  | .next t => t
  | _ => s

/-- An inbound call of a post. -/
def callOfPost (i : Slot) (st : CallState) : LiveCall :=
  { slot := i, direction := .inbound, cls := .p1, state := st, stamp := some 1, offered := .empty, flags := ⟨false, false, false, false⟩,
    parties := [], channel := none, request := none, timer := none, deferred := none, resuming := false }

theorem test_meets_stepRunsFrontCommand : base.pending = [] ∧ base.powered = true := ⟨rfl, rfl⟩

def withCallAt (i : CallIdx) (k : LiveCall) (s : State) : State := s.modRecord i fun r => { r with live := some k }

theorem forall_end {P : EndId → Prop} (h : ∀ g : SegId, P ⟨g, .a⟩ ∧ P ⟨g, .b⟩) : ∀ e, P e := by
  rintro ⟨g, s⟩
  cases s
  · exact (h g).1
  · exact (h g).2

theorem forall_link {P : LinkId → Prop} (h : P .a ∧ P .b) : ∀ x, P x := fun x => by cases x; exacts [h.1, h.2]

/-- The first OFFERED call of the tests: slot 98, offered to link A. -/
def offered98 : LiveCall := { callOfPost 98 .offered with offered := ⟨true, false⟩, timer := some (.overflow, 15000) }

/-- A call with a party, of each link of a list. -/
def partyCall (l : List Party) : LiveCall := { callOfPost 98 .connected with parties := l, channel := some (endA, 0) }

/-- Group 2 ACTIVE: slot 96 COMMANDED on a channel of 3A, slot 97 HEARING, slot 140 absent. -/
def announcing (t : AckPhase × Nat) : State :=
  ((base.modGroup 2 fun _ =>
    { active := true, source := some ⟨.b, 15⟩, start := some 0, readySent := false, timer := some t, held := [(endA, 0)], waiting := [],
      members := [member 96 (.pending .commanded), member 97 .hearing, member 140 .skippedAbsent], reason := none }).modChan endA
    fun r => { r with channels := r.channels.set 0 (.group 2) }).modPost 97 fun r => { r with activity := .hearing }

/-! ## States that meet the hypotheses of the obligations: power and links -/

def busyWith (w : StoreWrite) : State := { base with store := { base.store with state := .busy ⟨w, .a, 9⟩ } }

theorem test_meets_powerLossDamagesTheRecordInFlight :
    base.powered = true ∧ inFlight base = none
      ∧ ∀ w ∈ [StoreWrite.name 0 .blank, .place 255 .blank, .segment 7 .blank, .global .default, .group 15 [], .erase .directory, .erase .groups,
          .erase .all], (busyWith w).powered = true ∧ inFlight (busyWith w) = some ⟨w, .a, 9⟩ := by
  refine ⟨rfl, rfl, fun w _ => ⟨rfl, rfl⟩⟩

/-- STARTING with segment 3 fitted, link A UP with a held LINK START and 47 entries in its queue. -/
def loading : State :=
  { State.reset with
    store := { stored := .blank, site := site, damaged := [.entry 5], state := .starting }
    linkA := { linkUp with heldStart := some ⟨.a, true, 0, 0, 0, 0, 0, []⟩,
                           queue := List.replicate 47 (.response 1 0x46 .notReady .empty) } }

theorem loading_blocks : BlocksAtPowerOn loading := by
  have h : (LineBlock.powerOn.ports.map fun p => { Port.powerOn with current := p.current }) = LineBlock.powerOn.ports := by
    decide +kernel
  exact ⟨congrArg (fun v => { LineBlock.powerOn with ports := v }) h.symm, rfl, rfl, rfl⟩

theorem test_meets_startUpLoadEndStartsService :
    loading.powered = true ∧ loading.store.state = .starting ∧ BlocksAtPowerOn loading ∧ (loading.link .a).up = true
      ∧ (loading.link .a).queue.length ≤ 47 ∧ (loading.link .a).heldStart = some ⟨.a, true, 0, 0, 0, 0, 0, []⟩ :=
  ⟨rfl, rfl, loading_blocks, rfl, by decide, rfl⟩

/-- An idle frame and a WRITE ENABLE, as octets. -/
def idleOctets : List Byte := enframe { typ := 0, tag := 0, body := [] }
def enableOctets : List Byte := enframe (requestFrame 7 .writeEnable)
def enableFrame : Frame := { typ := 0x50, tag := 7, body := [] }

/-- A bad check value, an idle frame, and a request frame with room for it and without. -/
theorem test_meets_frameReceivedIsClassed :
    base.powered = true ∧ deframe [0xA5, 0x50, 7, 0, 0, 0] = none ∧ deframe idleOctets = some { typ := 0, tag := 0, body := [] }
      ∧ deframe enableOctets = some enableFrame ∧ (base.link .a).up = true ∧ (base.link .a).intake.length < 8
      ∧ ((base.modLink .a fun l => { l with intake := List.replicate 7 enableFrame }).link .a).intake.length < 8
      ∧ ¬ ((base.modLink .a fun l => { l with intake := List.replicate 8 enableFrame }).link .a).intake.length < 8 := by decide +kernel

/-- Link A DOWN, and the call of slot 98 offered to no link. -/
def linkADown : State :=
  withCallAt 0 { offered98 with offered := .empty, timer := none } { base with linkA := { LinkRecord.powerOn with firstUp := false } }

theorem linkOk_up (b : Bool) : LinkOk b linkUp := by unfold LinkOk; revert b; decide +kernel
theorem linkOk_down (b : Bool) : LinkOk b { LinkRecord.powerOn with firstUp := false } := by unfold LinkOk; revert b; decide +kernel

theorem test_meets_validFrameBringsLinkUp :
    linkADown.powered = true ∧ LinksOk linkADown ∧ (linkADown.link .a).up = false ∧ deframe enableOctets = some enableFrame
      ∧ deframe idleOctets = some { typ := 0, tag := 0, body := [] } :=
  ⟨rfl, ⟨linkOk_down _, linkOk_up _⟩, rfl, by decide +kernel, by decide +kernel⟩

/-- Link A is a party of the CONNECTED call of slot 98 and the source of group 2; slot 101's call is offered to both links. -/
def linkInUse : State :=
  (withCallAt 1 { callOfPost 101 .offered with offered := ⟨true, true⟩ }
    (withCallAt 0 { callOfPost 98 .connected with parties := [⟨.a, 0⟩] } base)).modGroup 2 fun r =>
      { r with active := true, source := some ⟨.a, 1⟩, start := some 0 }

theorem partiesOk_of {s : State}
    (h : ∀ i : CallIdx, (match s.liveCall i with
      | some k => decide ((k.parties.map Party.link).Nodup ∧ (∀ p ∈ k.parties, (s.link p.link).up = true)
          ∧ (k.state = .offered ∨ k.state = .clearing → k.parties = []))
      | none => true) = true) : PartiesOk s := by
  intro i k hk
  have := h i
  rw [hk] at this
  exact of_decide_eq_true this

theorem linkInUse_partiesOk : PartiesOk linkInUse := partiesOk_of (by decide +kernel)

theorem callLinesOk_of {s : State}
    (h : ∀ i : CallIdx, (match s.liveCall i with
      | some k => decide (needsItsEnd k.state = false → k.channel = none ∧ k.request = none)
      | none => true) = true) : CallLinesOk s := by
  intro i k hk
  have := h i
  rw [hk] at this
  exact of_decide_eq_true this

theorem linkInUse_callLinesOk : CallLinesOk linkInUse := callLinesOk_of (by decide +kernel)

theorem test_meets_linkDownLeavesNothing :
    linkInUse.powered = true ∧ (linkInUse.link .a).up = true ∧ (linkInUse.link .a).silence.isSome = true ∧ PartiesOk linkInUse
      ∧ CallLinesOk linkInUse ∧ (linkADown.link .a).up = false ∧ (linkInUse.liveCall 0).isSome = true ∧ (linkInUse.group 2).active = true ∧ (linkInUse.group 2).source = some ⟨.a, 1⟩ :=
  ⟨rfl, rfl, rfl, linkInUse_partiesOk, linkInUse_callLinesOk, rfl, by decide +kernel, by decide +kernel, by decide +kernel⟩

/-- No other record than the one placed is live. -/
theorem sole_call (k : LiveCall) (j : CallIdx) (d : LiveCall) (h : (withCallAt 0 k base).liveCall j = some d) : j = 0 := by
  by_contra hj
  have e : base.liveCall j = none := (by decide +kernel : ∀ j : CallIdx, base.liveCall j = none) j
  have c : (withCallAt 0 k base).liveCall j = base.liveCall j := by simp [withCallAt, State.liveCall, State.record, Ne.symm hj]
  exact absurd (h.symm.trans (c.trans e)) nofun

/-- Link A is one of two parties, and the sole party of an inbound call with a channel, of one in LINE LOST, and of an outbound call before
and after the post has answered. -/
theorem test_meets_linkDownLeavesNothing_calls :
    let sole (st : CallState) := { callOfPost 98 st with parties := [⟨.a, 0⟩] }
    let outbound (b : Option Stamp) := { sole .ringing with direction := .outbound, stamp := b }
    let s (k : LiveCall) := withCallAt 0 k base
    (∀ k ∈ [partyCall [⟨.a, 0⟩, ⟨.b, 3⟩], partyCall [⟨.a, 0⟩], sole .parked, sole .lineLost, outbound none, outbound (some 4)],
        PartiesOk (s k) ∧ CallLinesOk (s k) ∧ (s k).liveCall 0 = some k ∧ ((s k).link .a).up = true ∧ ((s k).link .a).silence.isSome = true)
      ∧ ((s (sole .parked)).link .b).up = true ∧ ((s (sole .parked)).post 98).reach ≠ .unserved
      ∧ (∀ j d, (s (partyCall [⟨.a, 0⟩])).liveCall j = some d → d.slot = 98 → j = 0)
      ∧ ((after (.lossOfFraming .a) (s (sole .parked))).link .b).queue.length < 64
      ∧ ((after (.lossOfFraming .a) (s (partyCall [⟨.a, 0⟩, ⟨.b, 3⟩]))).link .b).queue.length < 64 := by
  refine ⟨fun k hk => ⟨partiesOk_of ?_, callLinesOk_of ?_, rfl, rfl, rfl⟩, rfl, by decide +kernel, ?_, by decide +kernel, by decide +kernel⟩
  · revert k; decide +kernel
  · revert k; decide +kernel
  · exact fun j d hd _ => sole_call _ j d hd

/-- One free place, none, a link that is DOWN; a queue to send from, and an empty one. -/
theorem test_meets_reportQueue :
    let q (n : Nat) := base.modLink .a fun l => { l with queue := List.replicate n (.response 1 0x46 .ok .empty) }
    ((q 63).link .a).up = true ∧ ((q 63).link .a).queue.length < 64 ∧ ((q 64).link .a).up = true ∧ 64 ≤ ((q 64).link .a).queue.length
      ∧ (linkADown.link .a).up = false ∧ (q 64).powered = true
      ∧ ((q 64).link .a).queue = .response 1 0x46 .ok .empty :: List.replicate 63 (.response 1 0x46 .ok .empty)
      ∧ ((q 0).link .a).queue = [] := by decide +kernel

/-- A QUERY END with no body. -/
theorem test_meets_malformedRequestIsAnsweredBadRequest :
    let f : Frame := { typ := 0x46, tag := 7, body := [] }
    let s := base.modLink .a fun l => { l with intake := [f] }
    canTake s .a = true ∧ (s.link .a).intake = f :: [] ∧ parseRequest f = none := by decide +kernel

/-! ## Requests -/

theorem test_meets_requestsInStartingAndWaiting_starting :
    let s := asked .a .writeEnable loading
    (Instr.writeEnable .a 7).sender = some (.a, 7) ∧ (Instr.writeEnable .a 7).request = some .writeEnable ∧ Ready s .a 7 .writeEnable
      ∧ s.store.state = .starting := by unfold Ready; decide +kernel

/-- A link DOWN, a queue without room, and another frame at the head. -/
theorem test_meets_requestsInStartingAndWaiting_waiting :
    ¬ Ready (asked .a .writeEnable linkADown) .a 7 .writeEnable
      ∧ ¬ Ready (asked .a .writeEnable (base.modLink .a fun l => { l with queue := List.replicate 64 (.response 1 0x46 .ok .empty) })) .a 7 .writeEnable
      ∧ ¬ Ready (asked .a .writeDisable base) .a 7 .writeEnable := by unfold Ready; decide +kernel

theorem test_meets_oneResponseForEachRequest :
    (Instr.queryEnd .a 7 6).sender = some (.a, 7) ∧ (Instr.queryEnd .a 7 6).request = some (.queryEnd 6)
      ∧ Ready (asked .a (.queryEnd 6) base) .a 7 (.queryEnd 6) := by unfold Ready; decide +kernel

/-- CLEAR of a free record is answered NO SUCH CALL. -/
theorem test_meets_refusedRequestChangesNothing :
    let s := asked .a (.clear 0 0) base
    (Instr.clear .a 7 0 0).sender = some (.a, 7) ∧ (Instr.clear .a 7 0 0).request = some (.clear 0 0) ∧ Ready s .a 7 (.clear 0 0)
      ∧ exec (.clear .a 7 0 0) s = .next (after (.clear .a 7 0 0) s)
      ∧ ((after (.clear .a 7 0 0) s).link .a).queue[(s.link .a).queue.length]? = some (.response 7 (requestType (.clear 0 0)) .noSuchCall .empty)
      ∧ Result.noSuchCall ≠ .ok := by
  refine ⟨rfl, rfl, by unfold Ready; decide +kernel, rfl, by decide +kernel, by decide⟩

theorem test_meets_requestFramesReadBack :
    (Request.answer 47 1023 16).wf = true ∧ (Request.groupEdit 15 1 (List.replicate 32 255)).wf = true
      ∧ (Request.writeName 255 rawName).wf = true ∧ (Request.writeSegment 7 rawSegment).wf = true ∧ (Request.writeGlobal rawGlobal).wf = true := by
  decide +kernel

/-! ## The whole part -/

theorem test_meets_storeChangesOnlyByWrites :
    exec .nameWriteCompletion (busyWith (.name 98 .blank)) = .next (after .nameWriteCompletion (busyWith (.name 98 .blank)))
      ∧ exec .startUpLoadEnd loading = .next (after .startUpLoadEnd loading)
      ∧ exec (.powerLoss 0) base = .next (after (.powerLoss 0) base) := ⟨rfl, rfl, rfl⟩

theorem test_meets_endsChangeOnlyByTheirCommands :
    exec (.loopLossEvent endA) base = .next (after (.loopLossEvent endA) base)
      ∧ (after (.loopLossEvent endA) base).endRec endA ≠ base.endRec endA := ⟨rfl, by decide +kernel⟩

theorem test_meets_stepKeepsLinks : LinksOk base ∧ step (base.withPending [.reportFrameSent .a]) = .next (after (.reportFrameSent .a) base) :=
  ⟨⟨linkOk_up _, linkOk_up _⟩, rfl⟩

theorem limit_iff (r : EndReach) : (∃ x, r = .limit x) ↔ (match r with | .limit _ => true | _ => false) = true := by
  cases r <;> simp

theorem base_endsOk : EndsOk base := by
  refine forall_end ?_
  simp only [EndOk, limit_iff]
  decide +kernel

theorem test_meets_stepKeepsEnds :
    EndsOk (base.withPending [.loopLossEvent endA])
      ∧ step (base.withPending [.loopLossEvent endA]) = .next (after (.loopLossEvent endA) base) := ⟨base_endsOk, rfl⟩

theorem base_countersOk : CountersOk base := by
  refine ⟨forall_end ?_, ?_⟩
  · refine fun g => ⟨⟨?_, ?_⟩, ⟨?_, ?_⟩⟩ <;> revert g
    · unfold Counters.ok; decide +kernel
    · intro g; exact (by decide +kernel : ∀ g : SegId, base.burst ⟨g, .a⟩ = .none) g ▸ trivial
    · unfold Counters.ok; decide +kernel
    · intro g; exact (by decide +kernel : ∀ g : SegId, base.burst ⟨g, .b⟩ = .none) g ▸ trivial
  · unfold LinkRecord.countersOk; decide +kernel

theorem test_meets_stepKeepsCounters :
    CountersOk (base.withPending [.pollWindowExpiry endA])
      ∧ step (base.withPending [.pollWindowExpiry endA]) = .next (after (.pollWindowExpiry endA) base) := ⟨base_countersOk, rfl⟩

theorem test_meets_stepKeepsParties :
    PartiesOk (linkInUse.withPending [.lossOfFraming .a]) ∧ CallLinesOk (linkInUse.withPending [.lossOfFraming .a])
      ∧ step (linkInUse.withPending [.lossOfFraming .a]) = .next (after (.lossOfFraming .a) linkInUse) :=
  ⟨linkInUse_partiesOk, linkInUse_callLinesOk, rfl⟩

/-- A GROUP EDIT of group 2 in flight. -/
theorem busyGroup_groupsOk : GroupsOk (busyWith (.group 2 [96, 140])) := by
  refine ⟨fun g l h => ?_, by unfold Ascending; decide +kernel, fun o g l h k => ?_, by unfold Ascending; decide +kernel⟩
  · exact absurd h (by
      have : nth (busyWith (.group 2 [96, 140])).store.stored.groups g = .blank := (by decide +kernel : ∀ g : GroupId, nth StoredRecords.blank.groups g = .blank) g
      rw [this]; exact nofun)
  · cases h; cases k; unfold Ascending; decide

theorem test_meets_stepKeepsGroups :
    GroupsOk ((busyWith (.group 2 [96, 140])).withPending [.groupEditCompletion])
      ∧ step ((busyWith (.group 2 [96, 140])).withPending [.groupEditCompletion])
          = .next (after .groupEditCompletion (busyWith (.group 2 [96, 140]))) := ⟨busyGroup_groupsOk, rfl⟩

theorem test_meets_stepKeepsStarting :
    StartingOk (loading.withPending [.lossOfFraming .a])
      ∧ step (loading.withPending [.lossOfFraming .a]) = .next (after (.lossOfFraming .a) loading) :=
  ⟨fun _ => loading_blocks, rfl⟩

/-! ## Computed values -/

/-- The terminals, the largest position with the least lay ratio, a post without override, and the longest delay. -/
theorem test_meets_locationArithmetic :
    seg3.anchor ≤ 999999 ∧ seg3.direction = .increasing ∧ { seg3 with direction := .decreasing }.direction = .decreasing ∧ 0 ≤ 4800
      ∧ 12000 ≤ 12000 ∧ 1000 ≤ { seg3 with layRatio := 1000 }.layRatio ∧ 4800 ≤ seg3.cableLength
      ∧ (base.entry 98).place.present = true ∧ (base.entry 98).name.marker = none
      ∧ 16383 ≤ 16383 ∧ { seg3 with speed := 240 }.speed ≤ 240 := by decide +kernel

/-- In the feeder, beyond, inside with a post position in reach (LIMIT 2, the least), and inside with none (x = 1). -/
theorem test_meets_resultGivesReach :
    hasDistance .openPair = true ∧ 353 * seg3.speed / 200 < seg3.feederA ∧ seg3.feederA + seg3.cableLength ≤ 5203 * seg3.speed / 200
      ∧ (seg3.feederA ≤ 356 * seg3.speed / 200 ∧ 356 * seg3.speed / 200 < seg3.feederA + seg3.cableLength
          ∧ 1 ≤ 1 ∧ 1 + 1 ≤ seg3.cableLength ∧ reaches .a (.limit 2) 1 = true)
      ∧ (seg3.feederA ≤ 355 * seg3.speed / 200 ∧ 355 * seg3.speed / 200 < seg3.feederA + seg3.cableLength
          ∧ ∀ p, 1 ≤ p → p + 1 ≤ seg3.cableLength → reaches .a (.limit 1) p = false) := by
  refine ⟨rfl, by decide, by decide, by decide, by decide, by decide, fun p h _ => ?_⟩
  simp only [reaches, decide_eq_false_iff_not]
  omega

theorem test_meets_stampsCountAndOrderEvents :
    1 ≤ 2147483647 ∧ earlier 0xFFFFFFFF 0 = true
      ∧ exec (.pollWindowExpiry endA) base = .next (after (.pollWindowExpiry endA) base) := ⟨by decide, by decide, rfl⟩

/-- The first and the last place of the map. -/
theorem test_meets_hopMapGivesHops :
    (base.hopMap 3).Nodup ∧ (base.hopMap 3)[0]? = some 96 ∧ (base.hopMap 3)[7]? = some 103 := by decide +kernel

/-- Slot 98 has a CONNECTED call on 3A, which serves it; slot 99 has none; slot 140 is absent, and slot 5 on an unfitted segment. -/
def connected98 : State := withCallAt 0 { callOfPost 98 .connected with parties := [⟨.a, 0⟩], channel := some (endA, 0) } base

theorem test_meets_servingAssignment :
    (connected98.entry 140).place.present = false ∧ (connected98.segment 5).fitted = false ∧ (connected98.entry 98).place.present = true
      ∧ (connected98.segment 3).fitted = true ∧ connected98.callOf 98 = some 0 ∧ connected98.callState 0 = some .connected
      ∧ (connected98.post 98).reach = .served endA ∧ available connected98 endA 1150 = true ∧ connected98.callOf 99 = none
      ∧ primaryEnd connected98 99 = endA ∧ available connected98 endA 1830 = true := by decide +kernel

/-- 3B OFF; both ends of segment 3 OFF, so that slot 98 is to become ISOLATED. -/
def bOff (s : State) : State := s.modEnd endB fun r => { r with state := .off, reach := .none }
def bothOff (s : State) : State := (bOff s).modEnd endA fun r => { r with state := .off, reach := .none }

/-- Slot 98 is served by 3B, and is to be served by 3A, its primary end; or it is ISOLATED, and is to be served again. -/
def onB (s : State) : State := s.modPost 98 fun r => { r with reach := .served endB, hop := 6 }
def isolated (s : State) : State := s.modPost 98 fun r => { r with reach := .isolated, hop := 0 }

/-- A post that loses its ends: its OFFERED or CONNECTED call, and its membership. -/
theorem test_meets_servingAssignment_lost :
    let s := bothOff (withCallAt 0 offered98 base)
    let u := bothOff connected98
    let v := bothOff (announcing (.window, 3000))
    (assignedReach s 98 = .isolated ∧ (s.post 98).reach = .served endA ∧ s.callOf 98 = some 0 ∧ s.liveCall 0 = some offered98
        ∧ servingEnd (reassign 98 s) 98 = none)
      ∧ (assignedReach u 98 = .isolated ∧ u.callOf 98 = some 0 ∧ (u.liveCall 0).map LiveCall.state = some .connected
        ∧ servingEnd (reassign 98 u) 98 = none)
      ∧ (assignedReach v 96 = .isolated ∧ (v.post 96).reach = .served endA ∧ takingPart v 2 96 = true
        ∧ servingEnd (reassign 96 v) 96 = none) := by decide +kernel

/-- A post served again: a LINE LOST call of each direction, without and with a party, a stamp. -/
theorem test_meets_servingAssignment_again :
    let s (k : LiveCall) := isolated (withCallAt 0 k base)
    let lost := callOfPost 98 .lineLost
    let ringing := { lost with direction := .outbound, stamp := none, parties := [⟨.b, 0⟩] }
    ∀ k ∈ [lost, { lost with parties := [⟨.a, 0⟩] }, ringing, { ringing with stamp := some 4 }],
      assignedReach (s k) 98 = .served endA ∧ (s k).callOf 98 = some 0 ∧ (s k).liveCall 0 = some k
        ∧ servingEnd (s k) 98 = none ∧ k.state = .lineLost := by decide +kernel

/-- A post that moves to its other end: its PARKED and its CONNECTED call, whose own end is available no longer, and its membership,
the group holding a channel of the new end or none, before READY and after. -/
theorem test_meets_servingAssignment_moved :
    let p := onB (bOff (withCallAt 0 { callOfPost 98 .parked with parties := [⟨.a, 0⟩] } base))
    let w := p.modChan endB fun r => { r with waiting := [.call .parked ⟨0, 0⟩ 98 .p1] }
    let c := (onB (bOff (withCallAt 0 { partyCall [⟨.a, 0⟩] with channel := some (endB, 2) } base))).modChan endB fun r =>
      { r with channels := r.channels.set 2 (.call ⟨0, 0⟩ 98) }
    let g := (announcing (.window, 3000)).modPost 96 fun r => { r with reach := .served endB, hop := 8 }
    let h := g.modGroup 2 fun r => { r with held := [] }
    let l := h.modGroup 2 fun r => { r with readySent := true }
    (assignedReach p 98 = .served endA ∧ (p.post 98).reach = .served endB ∧ p.callOf 98 = some 0
        ∧ (p.liveCall 0).map LiveCall.state = some .parked ∧ placesMatch p endB 98 (p.refOfRecord 0) = true ∧ channelOfPost p endB 98 = none)
      ∧ (assignedReach w 98 = .served endA ∧ placesMatch w endB 98 (w.refOfRecord 0) = true ∧ channelOfPost w endB 98 = none)
      ∧ (assignedReach c 98 = .served endA ∧ (c.post 98).reach = .served endB ∧ (c.liveCall 0).map LiveCall.state = some .connected
        ∧ placesMatch c endB 98 (c.refOfRecord 0) = true ∧ (channelOfPost c endB 98).isSome = true
        ∧ entryOfPost 98 (c.chan endB).waiting = none)
      ∧ (assignedReach g 96 = .served endA ∧ (g.post 96).reach = .served endB ∧ g.callOf 96 = none ∧ takingPart g 2 96 = true
        ∧ (∀ h, h ≠ 2 → takingPart g h 96 = false) ∧ heldOnEnd (g.group 2) endA = some 0)
      ∧ (heldOnEnd (h.group 2) endA = none ∧ (h.group 2).readySent = false ∧ takingPart h 2 96 = true)
      ∧ (heldOnEnd (l.group 2) endA = none ∧ (l.group 2).readySent = true ∧ takingPart l 2 96 = true) := by decide +kernel

/-- A hop map change under a CONNECTED call; a post with a RINGING call is free for its primary end. -/
theorem test_meets_servingAssignment_hop :
    connected98.callOf 98 = some 0 ∧ (connected98.liveCall 0).map LiveCall.state = some .connected
      ∧ (connected98.post 98).reach = .served endA ∧ holdsChannels (connected98.endRec endA).state = true
      ∧ (let r := onB (withCallAt 0 (callOfPost 98 .ringing) base)
        r.callOf 98 = some 0 ∧ r.callState 0 = some .ringing ∧ available r (primaryEnd r 98) 1150 = true) := by decide +kernel

/-! ## Calls -/

theorem usesNoEnd {s : State} {ref : CallRef} (h : ∀ g : SegId, usesEnd s ref ⟨g, .a⟩ = false ∧ usesEnd s ref ⟨g, .b⟩ = false) :
    ∀ e, usesEnd s ref e = false := forall_end h

/-- Slot 98's call is OFFERED to link A, which answers on trunk slot 16. -/
def answering : State := asked .a (.answer 0 0 16) (withCallAt 0 offered98 base)

theorem test_meets_answerConnectsTheCall_free :
    Takes answering .a 7 (.answer 0 0 16) ∧ refOf 0 0 = some ⟨0, 0⟩ ∧ liveRef answering ⟨0, 0⟩ = some offered98
      ∧ offered98.state = .offered ∧ offered98.offered.has .a = true ∧ trunkOf 16 = some 15 ∧ trunkFree answering .a 15 = true
      ∧ (∀ e, usesEnd answering ⟨0, 0⟩ e = false) ∧ servingEnd answering 98 = some endA
      ∧ holdsChannels (answering.endRec endA).state = true ∧ lowestFree answering endA = some 0 :=
  ⟨by unfold Takes Ready; decide +kernel, rfl, by decide +kernel, rfl, rfl, rfl, by decide +kernel, usesNoEnd (by decide +kernel),
    by decide +kernel, by decide +kernel, by decide +kernel⟩

/-- No channel is free and the call is of class P1: it waits. -/
def answerWaits : State :=
  answering.modChan endA fun r =>
    { r with channels := #v[.call ⟨1, 0⟩ 96, .call ⟨2, 0⟩ 97, .call ⟨3, 0⟩ 99, .call ⟨4, 0⟩ 100] }

theorem test_meets_answerConnectsTheCall_wait :
    Takes answerWaits .a 7 (.answer 0 0 16) ∧ liveRef answerWaits ⟨0, 0⟩ = some offered98 ∧ trunkFree answerWaits .a 15 = true
      ∧ (∀ e, usesEnd answerWaits ⟨0, 0⟩ e = false) ∧ servingEnd answerWaits 98 = some endA
      ∧ holdsChannels (answerWaits.endRec endA).state = true ∧ lowestFree answerWaits endA = none ∧ offered98.cls.rank < 2
      ∧ preemptable answerWaits endA = none :=
  ⟨by unfold Takes Ready; decide +kernel, by decide +kernel, by decide +kernel, usesNoEnd (by decide +kernel), by decide +kernel,
    by decide +kernel, by decide +kernel, by decide, by decide +kernel⟩

/-- No channel is free, group 2 holds one and the call is of class P2, the least that takes it. -/
def answerTakes : State :=
  ((withCallAt 0 { offered98 with cls := .p2 } answerWaits).modChan endA fun r => { r with channels := r.channels.set 3 (.group 2) }).modGroup 2
    fun r => { r with active := true, start := some 0, held := [(endA, 3)] }

theorem test_meets_answerConnectsTheCall_preempt :
    Takes answerTakes .a 7 (.answer 0 0 16) ∧ liveRef answerTakes ⟨0, 0⟩ = some { offered98 with cls := .p2 }
      ∧ trunkFree answerTakes .a 15 = true ∧ (∀ e, usesEnd answerTakes ⟨0, 0⟩ e = false) ∧ servingEnd answerTakes 98 = some endA
      ∧ holdsChannels (answerTakes.endRec endA).state = true ∧ lowestFree answerTakes endA = none ∧ 2 ≤ CallClass.p2.rank
      ∧ preemptable answerTakes endA = some (3, 2) :=
  ⟨by unfold Takes Ready; decide +kernel, by decide +kernel, by decide +kernel, usesNoEnd (by decide +kernel), by decide +kernel,
    by decide +kernel, by decide +kernel, by decide, by decide +kernel⟩

/-- A post that no end serves, and a post whose end is OFF. -/
theorem test_meets_answerConnectsTheCall_no_end :
    let s := answering.modPost 98 fun r => { r with reach := .isolated, hop := 0 }
    let u := answering.modEnd endA fun r => { r with state := .off }
    Takes s .a 7 (.answer 0 0 16) ∧ liveRef s ⟨0, 0⟩ = some offered98 ∧ trunkFree s .a 15 = true ∧ servingEnd s 98 = none
      ∧ Takes u .a 7 (.answer 0 0 16) ∧ liveRef u ⟨0, 0⟩ = some offered98 ∧ trunkFree u .a 15 = true ∧ servingEnd u 98 = some endA
      ∧ holdsChannels (u.endRec endA).state = false ∧ (∀ e, usesEnd s ⟨0, 0⟩ e = false) ∧ ∀ e, usesEnd u ⟨0, 0⟩ e = false :=
  ⟨by unfold Takes Ready; decide +kernel, by decide +kernel, by decide +kernel, by decide +kernel, by unfold Takes Ready; decide +kernel,
    by decide +kernel, by decide +kernel, by decide +kernel, by decide +kernel, usesNoEnd (by decide +kernel), usesNoEnd (by decide +kernel)⟩

theorem test_meets_joinAndLeaveChangeTheParties_join :
    let s := asked .a (.join 0 0 1) (withCallAt 0 (partyCall [⟨.b, 0⟩]) base)
    Takes s .a 7 (.join 0 0 1) ∧ refOf 0 0 = some ⟨0, 0⟩ ∧ liveRef s ⟨0, 0⟩ = some (partyCall [⟨.b, 0⟩])
      ∧ (partyCall [⟨.b, 0⟩]).state = .connected ∧ isParty .a (partyCall [⟨.b, 0⟩]) = false ∧ trunkOf 1 = some 0
      ∧ trunkFree s .a 0 = true := by
  unfold Takes Ready; decide +kernel

theorem test_meets_joinAndLeaveChangeTheParties_leave :
    let s := asked .a (.leave 0 0) (withCallAt 0 (partyCall [⟨.b, 0⟩, ⟨.a, 15⟩]) base)
    Takes s .a 7 (.leave 0 0) ∧ refOf 0 0 = some ⟨0, 0⟩ ∧ liveRef s ⟨0, 0⟩ = some (partyCall [⟨.b, 0⟩, ⟨.a, 15⟩])
      ∧ (partyCall [⟨.b, 0⟩, ⟨.a, 15⟩]).parties = [⟨.b, 0⟩, ⟨.a, 15⟩] := by
  unfold Takes Ready; decide +kernel

theorem test_meets_clearByPartyStartsClearing :
    let s := asked .a (.clear 0 0) (withCallAt 0 (partyCall [⟨.a, 0⟩]) base)
    let u := asked .a (.leave 0 0) (withCallAt 0 (partyCall [⟨.a, 0⟩]) base)
    Takes s .a 7 (.clear 0 0) ∧ Takes u .a 7 (.leave 0 0) ∧ refOf 0 0 = some ⟨0, 0⟩ ∧ liveRef s ⟨0, 0⟩ = some (partyCall [⟨.a, 0⟩])
      ∧ liveRef u ⟨0, 0⟩ = some (partyCall [⟨.a, 0⟩]) ∧ isParty .a (partyCall [⟨.a, 0⟩]) = true ∧ (partyCall [⟨.a, 0⟩]).parties.length ≤ 1
      ∧ (partyCall [⟨.a, 0⟩]).state = .connected ∧ (s.post 98).reach ≠ .unserved
      ∧ (∀ j, s.callOf 98 = some j → j = 0) := by
  unfold Takes Ready; decide +kernel

/-- A second party, on the other link. -/
theorem test_meets_clearByPartyStartsClearing_second :
    let k := partyCall [⟨.a, 0⟩, ⟨.b, 3⟩]
    let s := asked .a (.clear 0 0) (withCallAt 0 k base)
    Takes s .a 7 (.clear 0 0) ∧ liveRef s ⟨0, 0⟩ = some k ∧ isParty .a k = true ∧ ⟨.b, 3⟩ ∈ k.parties ∧ (s.link .b).up = true
      ∧ (s.link .b).queue.length < 64 := by
  unfold Takes Ready; decide +kernel

theorem test_meets_clearWithoutPartyDismisses :
    let s := asked .a (.clear 0 0) (withCallAt 0 offered98 base)
    let u := asked .a (.clear 0 0) (withCallAt 0 (callOfPost 98 .lineLost) base)
    Takes s .a 7 (.clear 0 0) ∧ Takes u .a 7 (.clear 0 0) ∧ refOf 0 0 = some ⟨0, 0⟩ ∧ liveRef s ⟨0, 0⟩ = some offered98
      ∧ offered98.state = .offered ∧ offered98.offered.has .a = true ∧ liveRef u ⟨0, 0⟩ = some (callOfPost 98 .lineLost)
      ∧ (callOfPost 98 .lineLost).parties = [] ∧ offered98.deferred = none ∧ s.calls.overflow = [] := by
  unfold Takes Ready; decide +kernel

theorem test_meets_callPostRings :
    let s := asked .a (.callPost 98 16) base
    Takes s .a 7 (.callPost 98 16) ∧ slotOf 98 = some 98 ∧ trunkOf 16 = some 15 ∧ (s.post 98).activity = .idle ∧ s.callOf 98 = none
      ∧ s.onOverflow 98 = false ∧ (servingEnd s 98).isSome = true ∧ s.freeRecord? = some 0 ∧ trunkFree s .a 15 = true
      ∧ ∀ g, takingPart s g 98 = false := by
  unfold Takes Ready; decide +kernel

/-- Where a command goes: slot 5 is UNSERVED; slot 98 is served, or ISOLATED with an entry on 3B, or ISOLATED with none. LAMP ON is of the
family of LAMP OFF and not of that of RELEASE. -/
theorem test_meets_callPostRings_places :
    let lists (l : List CommandEntry) := base.modEnd endA fun r => { r with commands := l }
    let held := isolated (base.modEnd endB fun r => { r with commands := [⟨98, .release, 2⟩] })
    let same (y : CommandEntry) : Prop := y.slot = 98 ∧ y.command.family = Command.lampOn.family
    (base.post 5).reach = .unserved ∧ (base.post 98).reach = .served endA ∧ (held.post 98).reach = .isolated
      ∧ ((∃ y ∈ (held.endRec endB).commands, y.slot = 98) ∧ ∀ d, (∃ y ∈ (held.endRec d).commands, y.slot = 98) → d = endB)
      ∧ (∀ d, ∀ y ∈ ((isolated base).endRec d).commands, y.slot ≠ 98) ∧ endA = primaryEnd (isolated base) 98
      ∧ (∃ y ∈ ((lists [⟨98, .lampOff, 2⟩]).endRec endA).commands, same y)
      ∧ ∀ y ∈ ((lists [⟨98, .release, 2⟩, ⟨99, .lampOn, 3⟩]).endRec endA).commands, ¬ same y := by
  refine ⟨by decide +kernel, by decide +kernel, by decide +kernel, ⟨by decide +kernel, forall_end (by decide +kernel)⟩,
    forall_end (by decide +kernel), by decide +kernel, by decide +kernel, by decide +kernel⟩

/-- Two OFFERED calls whose stamps lie at the two ends of half the counter's range. -/
def twoOffered : State :=
  withCallAt 1 { callOfPost 101 .offered with stamp := some 0x7FFFFFFF } (withCallAt 0 { offered98 with stamp := some 0 } base)

def stampLow (k : LiveCall) : Bool := (k.stamp.map fun a => decide (a.toNat < 2147483648)).getD false

theorem stampLow_spec {k : LiveCall} (h : stampLow k = true) : ∃ a, k.stamp = some a ∧ (a - 0).toNat < 2147483648 := by
  unfold stampLow at h
  cases hk : k.stamp with
  | none => simp [hk] at h
  | some a => exact ⟨a, rfl, by simpa [hk] using h⟩

theorem test_meets_callQueueOrder :
    ∃ b : Stamp, ∀ i k, twoOffered.liveCall i = some k → k.state = .offered → ∃ a, k.stamp = some a ∧ (a - b).toNat < 2147483648 := by
  refine ⟨0, fun i k hk _ => stampLow_spec ?_⟩
  have h : ∀ i : CallIdx, ((twoOffered.liveCall i).map stampLow).getD true = true := by decide +kernel
  simpa [hk] using h i

theorem test_meets_queriesReadTheState :
    Takes (asked .a (.queryCalls 255) base) .a 7 (.queryCalls 255)
      ∧ (endOf 15 = some ⟨7, .b⟩ ∧ Takes (asked .a (.queryEnd 15) base) .a 7 (.queryEnd 15))
      ∧ (slotOf 255 = some 255 ∧ Takes (asked .a (.queryPost 255) base) .a 7 (.queryPost 255))
      ∧ (groupOf 15 = some 15 ∧ Takes (asked .a (.groupResult 15 0) base) .a 7 (.groupResult 15 0))
      ∧ Takes (asked .a (.directoryRead 0 255 0) base) .a 7 (.directoryRead 0 255 0)
      ∧ (segOf 7 = some 7 ∧ Takes (asked .a (.directoryRead 1 7 0) base) .a 7 (.directoryRead 1 7 0))
      ∧ Takes (asked .a (.directoryRead 2 9 0) base) .a 7 (.directoryRead 2 9 0)
      ∧ Takes (asked .a (.directoryRead 3 15 64) base) .a 7 (.directoryRead 3 15 64) := by
  unfold Takes Ready; decide +kernel

theorem test_meets_callTimersExpire :
    let o := withCallAt 47 offered98 base
    let r := withCallAt 47 { callOfPost 98 .ringing with direction := .outbound, timer := some (.ring, 45000) } base
    let l := withCallAt 47 { callOfPost 98 .lineLost with direction := .outbound, timer := some (.ring, 45000) } base
    let c := withCallAt 47 { callOfPost 98 .clearing with timer := some (.clearConfirm, 2000), deferred := some (.none, 5) } base
    o.powered = true ∧ o.liveCall 47 = some offered98 ∧ offered98.state = .offered ∧ offered98.timer = some (.overflow, 15000)
      ∧ (r.liveCall 47).map LiveCall.state = some .ringing ∧ (r.liveCall 47).bind LiveCall.timer = some (.ring, 45000)
      ∧ (l.liveCall 47).map LiveCall.state = some .lineLost ∧ (l.liveCall 47).bind LiveCall.timer = some (.ring, 45000)
      ∧ (c.liveCall 47).map LiveCall.state = some .clearing ∧ (c.liveCall 47).bind LiveCall.timer = some (.clearConfirm, 2000)
      ∧ c.calls.overflow = [] := by decide +kernel

/-- The ring timer of the one call of slot 98 expires, with link B as its party. -/
theorem test_meets_callTimersExpire_party :
    let k := { callOfPost 98 .ringing with direction := .outbound, timer := some (.ring, 45000), parties := [⟨.b, 0⟩] }
    let s := withCallAt 0 k base
    s.liveCall 0 = some k ∧ (s.link .b).up = true ∧ (s.link .b).queue.length < 64 ∧ (s.post 98).reach ≠ .unserved
      ∧ ∀ j d, s.liveCall j = some d → d.slot = 98 → j = 0 := by
  exact ⟨rfl, rfl, by decide +kernel, by decide +kernel, fun j d hd _ => sole_call _ j d hd⟩

/-! ## Announcements -/

theorem test_meets_announceStartRuns :
    let s := asked .a (.announceStart 2 1) base
    Takes s .a 7 (.announceStart 2 1) ∧ groupOf 2 = some 2 ∧ (s.group 2).active = false ∧ s.membership 2 ≠ [] ∧ trunkOf 1 = some 0
      ∧ trunkFree s .a 0 = true
      ∧ (96 ∈ s.membership 2 ∧ (s.entry 96).place.present = true ∧ s.callOf 96 = none ∧ s.onOverflow 96 = false
          ∧ (∀ h, takingPart s h 96 = false) ∧ (s.post 96).reach = .served endA ∧ servingEnd s 96 = some endA
          ∧ holdsChannels (s.endRec endA).state = true ∧ preemptedBy s endA 2 = none ∧ heldByGroup s endA 2 = none
          ∧ (s.chan endA).waiting.any (waitsForGroup 2) = false ∧ lowestFree s endA = some 0)
      ∧ (140 ∈ s.membership 2 ∧ (s.entry 140).place.present = false) := by
  unfold Takes Ready; decide +kernel

/-- Every channel of 3A is held, so that group 2 has to wait there. -/
theorem test_meets_announceStartRuns_waits :
    let s := asked .a (.announceStart 2 1) (base.modChan endA fun r => { r with channels := Vector.replicate 4 (.group 5) })
    Takes s .a 7 (.announceStart 2 1) ∧ (s.group 2).active = false ∧ trunkFree s .a 0 = true ∧ 96 ∈ s.membership 2
      ∧ (s.entry 96).place.present = true ∧ s.callOf 96 = none ∧ s.onOverflow 96 = false ∧ (∀ h, takingPart s h 96 = false)
      ∧ (s.post 96).reach = .served endA ∧ servingEnd s 96 = some endA ∧ holdsChannels (s.endRec endA).state = true
      ∧ preemptedBy s endA 2 = none ∧ heldByGroup s endA 2 = none ∧ (s.chan endA).waiting.any (waitsForGroup 2) = false
      ∧ lowestFree s endA = none := by
  unfold Takes Ready; decide +kernel

theorem announcing_ascending : ∀ p ∈ [(AckPhase.window, 3000), (AckPhase.late, 0)], ∀ g : GroupId, Ascending (memberSlots (announcing p) g) := by
  unfold Ascending; decide +kernel

theorem announcing_groupsOk (t : AckPhase × Nat) (h : t ∈ [(AckPhase.window, 3000), (AckPhase.late, 0)]) : GroupsOk (announcing t) := by
  refine ⟨fun g l h => ?_, ?_, fun o g l h _ => (nomatch h), ?_⟩
  · have : nth (announcing t).store.stored.groups g = .blank :=
      (by decide +kernel : ∀ g : GroupId, nth StoredRecords.blank.groups g = .blank) g
    rw [this] at h; cases h
  · exact (by unfold Ascending; decide +kernel : ∀ g : GroupId, Ascending (base.membership g))
  · exact announcing_ascending t h

theorem test_meets_announceStopEnds :
    Takes (asked .a (.announceStop 2) (announcing (.window, 3000))) .a 7 (.announceStop 2) ∧ groupOf 2 = some 2
      ∧ ((asked .a (.announceStop 2) (announcing (.window, 3000))).group 2).active = true
      ∧ GroupsOk (asked .a (.announceStop 2) (announcing (.window, 3000)))
      ∧ heldOnEnd ((announcing (.window, 3000)).group 2) endA = some 0 :=
  ⟨by unfold Takes Ready; decide +kernel, rfl, by decide +kernel, announcing_groupsOk _ (by decide), by decide +kernel⟩

/-- The group waits at 3B, behind a call. -/
theorem test_meets_announceStopEnds_waits :
    let s := ((announcing (.window, 3000)).modGroup 2 fun r => { r with waiting := [endB] }).modChan endB fun r =>
      { r with waiting := [.call .parked ⟨0, 0⟩ 98 .p1, .announce 2 0] }
    (s.group 2).active = true ∧ endB ∈ (s.group 2).waiting ∧ ((s.chan endB).waiting.filter (waitsForGroup 2)).length ≤ 1
      ∧ (s.chan endB).waiting.any (waitsForGroup 2) = true := by decide +kernel

theorem test_meets_acknowledgeTimerSettles :
    (announcing (.window, 3000)).powered = true ∧ ((announcing (.window, 3000)).group 2).active = true ∧ GroupsOk (announcing (.window, 3000))
      ∧ ((announcing (.window, 3000)).group 2).timer = some (.window, 3000)
      ∧ ((announcing (.late, 0)).group 2).active = true ∧ GroupsOk (announcing (.late, 0))
      ∧ ((announcing (.late, 0)).group 2).timer = some (.late, 0)
      ∧ ((announcing (.window, 3000)).link .a).up = true ∧ ((announcing (.window, 3000)).link .a).queue.length ≤ 64
      ∧ (let full := (announcing (.window, 3000)).modLink .a fun l => { l with queue := List.replicate 63 (.response 1 0x46 .ok .empty) }
        (full.link .a).up = true ∧ (full.link .a).queue.length ≤ 64 ∧ 64 < (full.link .a).queue.length + 2) :=
  ⟨rfl, by decide +kernel, announcing_groupsOk _ (by decide), by decide +kernel, by decide +kernel, announcing_groupsOk _ (by decide),
    by decide +kernel, rfl, by decide +kernel, by decide +kernel⟩

/-! ## Ends and posts -/

def withEndState (st : EndState) (s : State) : State :=
  s.modEnd endA fun r => { r with state := st, reach := .none }

theorem test_meets_endServiceOffStopsTheEnd :
    let s := asked .a (.endService 6 0) base
    Takes s .a 7 (.endService 6 0) ∧ endOf 6 = some endA ∧ (s.endRec endA).state = .serving
      ∧ ((withEndState .testing s).endRec endA).state = .testing ∧ ((withEndState .faulted s).endRec endA).state = .faulted := by
  unfold Takes Ready; decide +kernel

theorem test_meets_testRequestsPutTheEndTesting :
    let s := asked .a (.endService 6 1) (withEndState .off base)
    let u := asked .a (.lineTest 6) (withEndState .faulted base)
    let v := asked .a (.lineTest 6) (withEndState .off base)
    Takes s .a 7 (.endService 6 1) ∧ (s.endRec endA).state = .off ∧ Takes u .a 7 (.lineTest 6) ∧ (u.endRec endA).state = .faulted
      ∧ Takes v .a 7 (.lineTest 6) ∧ (v.endRec endA).state = .off ∧ endOf 6 = some endA := by
  unfold Takes Ready; decide +kernel

/-- The last end code and the first above it. -/
theorem test_meets_lineStatsReadsAndClears :
    Takes (asked .a (.lineStats 15 0) base) .a 7 (.lineStats 15 0) ∧ endOf 15 = some ⟨7, .b⟩
      ∧ Takes (asked .a (.lineStats 16 1) base) .a 7 (.lineStats 16 1) ∧ endOf 16 = none := by
  unfold Takes Ready; decide +kernel

def burst98 : Burst :=
  { target := 98, requester := .b, tag := 9, count := 2, pattern := .count, frameNumber := 1, last := .poll, sent := 1, echoedGood := 0,
    echoedBad := 0, noEcho := 0 }

/-- A burst of slot 98 runs on 3A, its first test frame in progress. -/
def bursting (b : Burst) : State :=
  ((base.modBurst endA fun _ => .running b).modPort endA fun p => { p with transaction := some (.test 98 3 1 .count true) }).modPost 98
    fun r => { r with activity := .tested }

theorem test_meets_postTestAndStop :
    Takes (asked .a (.postTest 98 2 3) base) .a 7 (.postTest 98 2 3)
      ∧ (Takes (asked .a (.postTestStop 6) (bursting burst98)) .a 7 (.postTestStop 6) ∧ endOf 6 = some endA
          ∧ (asked .a (.postTestStop 6) (bursting burst98)).burst endA = .running burst98) := by
  unfold Takes Ready; decide +kernel

/-! ## The store -/

/-- Both write-enable latches set. -/
def latched : State := { base with linkA := { linkUp with latch := true }, linkB := { linkUp with latch := true } }

theorem test_meets_acceptedWritesFillTheOperation_name :
    let s := asked .a (.writeName 255 { rawName with labelLength := 12, marker := 999999 }) latched
    s.store.state = .ready ∧ Takes s .a 7 (.writeName 255 { rawName with labelLength := 12, marker := 999999 }) ∧ (s.link .a).latch = true
      ∧ slotOf 255 = some 255 ∧ postKindOf 1 = some .tunnel ∧ carriagewayOf 0 = some .none ∧ roadSideOf 0 = some .left
      ∧ markerOf 999999 = some (some 999999) := by
  unfold Takes Ready; decide +kernel

/-- Slot 103 is the only post. -/
def onePost : State :=
  { latched with store := { latched.store with site := { site with entries := Site.blank.entries.set 103 (entryAt 103 4590) } } }

/-- Slot 104 at the last position of segment 3, with the highest serial; slot 103 made absent. -/
theorem test_meets_acceptedWritesFillTheOperation_place :
    let f : RawPlace := ⟨1, 3, 4799, 16777215⟩
    let s := asked .a (.writePlace 104 f) onePost
    let u := asked .a (.writePlace 103 ⟨0, 0, 0, 0⟩) onePost
    Takes s .a 7 (.writePlace 104 f) ∧ (s.link .a).latch = true ∧ slotOf 104 = some 104 ∧ segOf 3 = some 3
      ∧ f.position + 1 ≤ (s.segment 3).cableLength ∧ postInUse s 104 = false
      ∧ (∀ j, j ≠ 104 → (s.entry j).place.present = true → (s.entry j).place.serial ≠ 16777215
          ∧ ((s.entry j).place.seg = 3 → (s.entry j).place.position ≠ 4799))
      ∧ ((presentOn s 3).filter fun j => decide (j ≠ 104)).length < 32
      ∧ (Takes u .a 7 (.writePlace 103 ⟨0, 0, 0, 0⟩) ∧ slotOf 103 = some 103 ∧ postInUse u 103 = false) := by
  unfold Takes Ready; decide +kernel

theorem test_meets_acceptedWritesFillTheOperation_site :
    let f : RawSegment := ⟨1, 12000, 2000, 2000, 255, 2000, 999999, 1, 65535, 1, 4095⟩
    let s := asked .a (.writeSegment 3 f) onePost
    let u := asked .a (.writeGlobal rawGlobal) onePost
    (Takes s .a 7 (.writeSegment 3 f) ∧ (s.link .a).latch = true ∧ segOf 3 = some 3
        ∧ (∀ i ∈ presentOn s 3, (s.entry i).place.position < 12000) ∧ segmentInUse s 3 = false)
      ∧ Takes u .a 7 (.writeGlobal rawGlobal) := by
  unfold Takes Ready; decide +kernel

theorem test_meets_acceptedWritesFillTheOperation_group_and_erase :
    let s := asked .a (.groupEdit 2 1 [96]) latched
    let u := asked .a (.storeErase 2) latched
    (Takes s .a 7 (.groupEdit 2 1 [96]) ∧ (s.link .a).latch = true ∧ groupOf 2 = some 2 ∧ (s.group 2).active = false)
      ∧ (Takes u .a 7 (.storeErase 2) ∧ u.linkA.latch = true ∧ u.linkB.latch = true ∧ scopeOf 2 = some .all
          ∧ (∀ i, u.liveCall i = none) ∧ ∀ g, (u.group g).active = false) := by
  unfold Takes Ready; decide +kernel

/-- The latch clear; an operation in flight; an ACTIVE group. -/
theorem test_meets_writesAreCheckedInOrder_latch :
    let s := asked .a (.groupEdit 2 1 [96]) base
    let u := asked .a (.groupEdit 2 1 [96]) { latched with store := (busyWith (.global .default)).store }
    let v := asked .a (.groupEdit 2 1 [96]) { announcing (.late, 0) with linkA := latched.linkA }
    let e := asked .a (.storeErase 0) { latched with linkB := linkUp }
    (Takes s .a 7 (.groupEdit 2 1 [96]) ∧ requestType (.groupEdit 2 1 [96]) = 0x32 ∧ (s.link .a).latch = false)
      ∧ (Takes u .a 7 (.groupEdit 2 1 [96]) ∧ (u.link .a).latch = true ∧ (inFlight u).isSome = true)
      ∧ (Takes v .a 7 (.groupEdit 2 1 [96]) ∧ (v.link .a).latch = true ∧ v.store.state = .ready ∧ (v.group 2).active = true)
      ∧ (Takes e .a 7 (.storeErase 0) ∧ requestType (.storeErase 0) = 0x55 ∧ (e.linkA.latch && e.linkB.latch) = false) := by
  unfold Takes Ready; decide +kernel

/-- Segment 3 with 32 present entries, those of slots 0 to 31. -/
def fullSite : Site :=
  { site with entries := Vector.ofFn fun i : Slot => if i.val < 32 then entryAt i (10 + i.val) else .blank }

/-- A post in use, another post's serial, and a full segment. -/
theorem test_meets_writesAreCheckedInOrder_place :
    let u := asked .a (.writePlace 98 rawPlace) (withCallAt 0 (partyCall [⟨.a, 0⟩]) latched)
    let d := asked .a (.writePlace 104 { rawPlace with serial := 1103 }) onePost
    let l := asked .a (.writePlace 104 rawPlace) { latched with store := { latched.store with site := fullSite } }
    (Takes u .a 7 (.writePlace 98 rawPlace) ∧ (u.link .a).latch = true ∧ u.store.state = .ready ∧ slotOf 98 = some 98
        ∧ segOf rawPlace.seg = some 3 ∧ rawPlace.position < (u.segment 3).cableLength ∧ postInUse u 98 = true)
      ∧ (Takes d .a 7 (.writePlace 104 { rawPlace with serial := 1103 }) ∧ postInUse d 104 = false ∧ (d.entry 103).place.present = true
        ∧ (d.entry 103).place.serial = 1103)
      ∧ (Takes l .a 7 (.writePlace 104 rawPlace) ∧ postInUse l 104 = false
        ∧ (∀ j, j ≠ 104 → (l.entry j).place.present = true → (l.entry j).place.serial ≠ rawPlace.serial
            ∧ ((l.entry j).place.seg = 3 → (l.entry j).place.position ≠ rawPlace.position))
        ∧ 32 ≤ ((presentOn l 3).filter fun j => decide (j ≠ 104)).length) := by
  unfold Takes Ready; decide +kernel

/-- Outside their ranges: the post, the present field, the segment, the serial, and the position at both limits. -/
theorem test_meets_writesAreCheckedInOrder_range :
    Takes (asked .a (.writePlace 256 rawPlace) latched) .a 7 (.writePlace 256 rawPlace)
      ∧ Takes (asked .a (.writePlace 104 { rawPlace with present := 2 }) latched) .a 7 (.writePlace 104 { rawPlace with present := 2 })
      ∧ Takes (asked .a (.writePlace 104 { rawPlace with seg := 8 }) latched) .a 7 (.writePlace 104 { rawPlace with seg := 8 })
      ∧ Takes (asked .a (.writePlace 104 { rawPlace with serial := 0 }) latched) .a 7 (.writePlace 104 { rawPlace with serial := 0 })
      ∧ Takes (asked .a (.writePlace 104 { rawPlace with position := 0 }) latched) .a 7 (.writePlace 104 { rawPlace with position := 0 })
      ∧ Takes (asked .a (.writePlace 104 { rawPlace with position := 4800 }) latched) .a 7 (.writePlace 104 { rawPlace with position := 4800 })
      ∧ (latched.segment 3).cableLength ≤ 4800 := by
  unfold Takes Ready; decide +kernel

theorem test_meets_latchesFollowTheirLink :
    Takes (asked .a .writeEnable base) .a 7 .writeEnable ∧ Takes (asked .b .writeDisable latched) .b 7 .writeDisable
      ∧ Ready (asked .a .writeEnable loading) .a 7 .writeEnable ∧ (asked .a .writeEnable loading).store.state = .starting
      ∧ exec (.lossOfFraming .a) latched = .next (after (.lossOfFraming .a) latched) ∧ (latched.link .a).up = true
      ∧ ((after (.lossOfFraming .a) latched).link .a).up = false :=
  ⟨by unfold Takes Ready; decide +kernel, by unfold Takes Ready; decide +kernel, by unfold Ready; decide +kernel, rfl, rfl, rfl,
    by decide +kernel⟩

theorem test_meets_simpleCompletions :
    ∀ w ∈ [StoreWrite.name 255 .blank, .global .default, .group 15 [0, 255]],
      (busyWith w).powered = true ∧ (busyWith w).store.state = .busy ⟨w, .a, 9⟩ := fun _ _ => ⟨rfl, rfl⟩

theorem test_meets_placeCompletionSetsThePost :
    (busyWith (.place 255 (entryAt 255 4799))).powered = true
      ∧ (busyWith (.place 255 (entryAt 255 4799))).store.state = .busy ⟨.place 255 (entryAt 255 4799), .a, 9⟩ := ⟨rfl, rfl⟩

/-- A post beyond slot 103 moves slot 103 to hop 2 of 3B and leaves slot 98 at hop 3 of 3A. -/
theorem test_meets_placeCompletionSetsThePost_others :
    let s := busyWith (.place 255 (entryAt 255 4799))
    let t := after .placeCompletion s
    (entryAt 255 4799).place.present = true ∧ (entryAt 255 4799).place.seg = 3
      ∧ ((s.post 103).reach = .served endB ∧ (s.entry 103).place.present = true ∧ (s.entry 103).place.seg = endB.seg
        ∧ (s.post 103).hop = 1 ∧ hopFrom t endB 103 = 2 ∧ (t.post 103).reply = .unproven)
      ∧ (s.post 98).reach = .served endA ∧ (s.entry 98).place.present = true ∧ (s.entry 98).place.seg = endA.seg
      ∧ (s.post 98).hop = 3 ∧ hopFrom t endA 98 = 3 ∧ (t.post 98).reply = .answering := by decide +kernel

theorem test_meets_segmentCompletionSetsTheEnds :
    (busyWith (.segment 3 .blank)).powered = true ∧ (busyWith (.segment 3 .blank)).store.state = .busy ⟨.segment 3 .blank, .a, 9⟩
      ∧ EndsOk (busyWith (.segment 3 .blank)) := ⟨rfl, rfl, base_endsOk⟩

theorem test_meets_eraseCompletionBlanksTheScope :
    (∀ c : EraseScope, (busyWith (.erase c)).powered = true ∧ (busyWith (.erase c)).store.state = .busy ⟨.erase c, .a, 9⟩)
      ∧ EndsOk (busyWith (.erase .all)) ∧ ((busyWith (.erase .all)).endRec endA).state ≠ .unfitted :=
  ⟨fun _ => ⟨rfl, rfl⟩, base_endsOk, by decide +kernel⟩

/-! ## The line -/

/-- A reply to a scan poll: serial, status and result octets with their check value (R162). -/
def reply (serial status result : Nat) : List Byte :=
  let inside := octets 1 9 ++ octets 3 serial ++ octets 1 status ++ octets 1 result
  inside ++ checkOctets inside

/-- A reply to a test frame that echoes a pattern field. -/
def echo (serial status : Nat) (field : List Byte) : List Byte :=
  let inside := octets 1 10 ++ octets 3 serial ++ octets 1 status ++ field
  inside ++ checkOctets inside

/-- What a reply of slot 98, on-hook, says. -/
def saysOnHook : Reply := ⟨1098, .on, .none, ⟨false, false, false⟩, none, []⟩

theorem test_meets_pollOutcomesAreCounted :
    let moved := base.modPost 98 fun r => { r with reach := .served endB, hop := 6 }
    base.powered = true ∧ (base.port endA).transaction = some (.poll 98 3 none) ∧ pollReplyOf false (reply 1098 6 0) = none
      ∧ pollReplyOf false (reply 1098 0 0) = some saysOnHook
      ∧ pollReplyOf false (reply 77 0 0) = some { saysOnHook with serial := 77 } ∧ 77 ≠ (base.entry 98).place.serial
      ∧ (moved.port endA).transaction = some (.poll 98 3 none) ∧ (moved.post 98).reach ≠ .served endA := by decide +kernel

/-- Slot 99, the farthest that 3A serves, one failure below M = 3, polled. -/
def failing : State :=
  (base.modPost 99 fun r => { r with failures := 2 }).modPort endA fun p => { p with transaction := some (.poll 99 4 none) }

theorem test_meets_failedPollsCountAndSuspect :
    (base.powered = true ∧ (base.port endA).transaction = some (.poll 98 3 none) ∧ (base.post 98).reach = .served endA
        ∧ (base.post 98).hop = 3 ∧ pollReplyOf false [] = none)
      ∧ ((failing.port endA).transaction = some (.poll 99 4 none) ∧ (failing.post 99).reach = .served endA ∧ (failing.post 99).hop = 4
        ∧ (failing.post 99).failures + 1 = failing.store.site.global.threshold ∧ (failing.endRec endA).state = .serving
        ∧ farthest failing endA = some 99 ∧ (failing.endRec endA).suppressed ≠ some 99) := by decide +kernel

theorem test_meets_goodReplyUpdatesTheRow :
    base.powered = true ∧ (base.port endA).transaction = some (.poll 98 3 none) ∧ (base.post 98).reach = .served endA
      ∧ (base.post 98).hop = 3 ∧ pollReplyOf false (reply 1098 0 0) = some saysOnHook ∧ saysOnHook.hook = .on ∧ (base.post 98).hook = .on := by
  decide +kernel

/-- Slot 98, off-hook until now. -/
def wasOffHook (s : State) : State := s.modPost 98 fun r => { r with hook := .off, activity := .calling }

/-- An on-hook reply of slot 98 with a call in each state, with the post on the overflow list, and with neither. -/
theorem test_meets_goodReplyUpdatesTheRow_on_hook :
    (∀ k ∈ [offered98, partyCall [⟨.b, 0⟩], callOfPost 98 .clearing, callOfPost 98 .ringing],
        let s := wasOffHook (withCallAt 0 k base)
        (s.port endA).transaction = some (.poll 98 3 none) ∧ (s.post 98).reach = .served endA ∧ (s.post 98).hop = 3 ∧ (s.post 98).hook = .off
          ∧ s.callOf 98 = some 0 ∧ s.liveCall 0 = some k ∧ k.deferred = none ∧ s.calls.overflow = [] ∧ (s.link .b).up = true
          ∧ (s.link .b).queue.length < 60)
      ∧ (let s := wasOffHook { base with calls := { base.calls with overflow := [⟨98, 1, .none⟩] } }
        s.callOf 98 = none ∧ s.onOverflow 98 = true ∧ (s.calls.overflow.find? fun o => decide (o.slot = 98)) = some ⟨98, 1, .none⟩)
      ∧ (wasOffHook base).callOf 98 = none ∧ (wasOffHook base).onOverflow 98 = false := by decide +kernel

/-- Every call record is in use. -/
def noRecordFree : State :=
  { base with calls := { base.calls with records := Vector.replicate 48 { generation := 0, live := some (callOfPost 101 .connected) } } }

theorem test_meets_offHookReplyStartsACall :
    (base.port endA).transaction = some (.poll 98 3 none) ∧ (base.post 98).reach = .served endA ∧ (base.post 98).hop = 3
      ∧ pollReplyOf false (reply 1098 5 0) = some { saysOnHook with hook := .off, button := .emergency } ∧ (base.post 98).hook = .on
      ∧ base.callOf 98 = none ∧ base.onOverflow 98 = false ∧ base.freeRecord? = some 0
      ∧ (noRecordFree.port endA).transaction = some (.poll 98 3 none) ∧ noRecordFree.callOf 98 = none ∧ noRecordFree.freeRecord? = none
      ∧ (∀ g, takingPart base g 98 = false) ∧ (base.link .a).queue.length < 60 := by decide +kernel

/-- A call event of slot 98 with a call in each state; the OFFERED one is upgraded to P3 from P1. -/
theorem test_meets_offHookReplyStartsACall_again :
    let s (k : LiveCall) := withCallAt 0 k base
    (∀ k ∈ [offered98, { offered98 with cls := .p3 }, callOfPost 98 .ringing, callOfPost 98 .clearing, partyCall [⟨.b, 0⟩]],
        (s k).callOf 98 = some 0 ∧ (s k).liveCall 0 = some k ∧ ((s k).port endA).transaction = some (.poll 98 3 none)
          ∧ ((s k).post 98).hook = .on)
      ∧ offered98.cls.rank < (classOf .emergency (base.entry 98).name.kind).rank ∧ offered98.offered.has .a = true
      ∧ holdsChannels (base.endRec endA).state = true
      ∧ (∀ d, usesEnd (s (callOfPost 98 .ringing)) ((s (callOfPost 98 .ringing)).refOfRecord 0) d = false) :=
  ⟨by decide +kernel, by decide +kernel, rfl, by decide +kernel, usesNoEnd (by decide +kernel)⟩

/-- A poll that carries a command to slot 98, which has the call. -/
def carrying (c : Command) (k : LiveCall) : State :=
  ((withCallAt 0 k base).modPort endA fun p => { p with transaction := some (.poll 98 3 (some (c, 4))) }).modEnd endA fun r =>
    { r with commands := [⟨98, c, 4⟩] }

theorem test_meets_commandRepliesReachTheCall :
    let connecting := { callOfPost 98 .connecting with channel := some (endA, 3), parties := [⟨.b, 0⟩] }
    let s := carrying (.connect 3) connecting
    let u := carrying .release (callOfPost 98 .clearing)
    let v := carrying .release connecting
    (s.powered = true ∧ (s.port endA).transaction = some (.poll 98 3 (some (.connect 3, 4))) ∧ (s.post 98).reach = .served endA
        ∧ (s.post 98).hop = 3 ∧ pollReplyOf true (reply 1098 0 1) = some { saysOnHook with result := some .done }
        ∧ saysOnHook.hook = (s.post 98).hook ∧ saysOnHook.button = (s.post 98).button ∧ s.callOf 98 = some 0 ∧ s.liveCall 0 = some connecting
        ∧ connecting.state = .connecting ∧ connecting.channel = some (endA, 3) ∧ (s.link .b).up = true ∧ (s.link .b).queue.length < 60)
      ∧ (u.callOf 98 = some 0 ∧ u.liveCall 0 = some (callOfPost 98 .clearing) ∧ (callOfPost 98 .clearing).deferred = none
        ∧ u.calls.overflow = [])
      ∧ (v.liveCall 0 = some connecting ∧ connecting.state ≠ .clearing) := by decide +kernel

/-- RING refused OFF-HOOK; ANNOUNCE for a member COMMANDED on its channel, and on another channel. -/
theorem test_meets_commandRepliesReachTheCall_ring_and_announce :
    let r := carrying .ring { callOfPost 98 .ringing with direction := .outbound, stamp := none }
    let s := (announcing (.window, 3000)).modPort endA fun p => { p with transaction := some (.poll 96 1 (some (.announce 0, 4))) }
    let v := base.modPort endA fun p => { p with transaction := some (.poll 96 1 (some (.announce 1, 4))) }
    (r.callOf 98 = some 0 ∧ (r.liveCall 0).map LiveCall.state = some .ringing ∧ holdsChannels (r.endRec endA).state = true
        ∧ (r.port endA).transaction = some (.poll 98 3 (some (.ring, 4))) ∧ (r.post 98).hop = 3
        ∧ pollReplyOf true (reply 1098 0 3) = some { saysOnHook with result := some .offHook }
        ∧ ∀ g : SegId, usesEnd r (r.refOfRecord 0) ⟨g, .a⟩ = false ∧ usesEnd r (r.refOfRecord 0) ⟨g, .b⟩ = false)
      ∧ (commandedGroup s 96 0 = some 2 ∧ (s.post 96).reach = .served endA ∧ (s.post 96).hop = 1
        ∧ pollReplyOf true (reply 1096 0 1) = some ⟨1096, .on, .none, ⟨false, false, false⟩, some .done, []⟩
        ∧ pollReplyOf true (reply 1096 0 2) = some ⟨1096, .on, .none, ⟨false, false, false⟩, some .speakerFault, []⟩
        ∧ (s.group 2).readySent = false ∧ (s.link .b).up = true ∧ (s.link .b).queue.length < 44)
      ∧ (commandedGroup v 96 1 = none ∧ ∀ g, takingPart v g 96 = false) := by decide +kernel

/-- A burst below its count, one at it, no reply, a corrupt reply, and a good reply that carries nothing new. -/
theorem test_meets_testFramesAreCounted :
    let seen : Reply := { saysOnHook with echo := patternField .count 1 }
    let s := bursting burst98
    let u := bursting { burst98 with sent := 2 }
    let v := bursting { burst98 with count := 0 }
    let old := s.modPort endA fun p => { p with transaction := some (.test 98 3 1 .count false) }
    (old.port endA).transaction = some (.test 98 3 1 .count false) ∧ (s.powered = true ∧ (s.port endA).transaction = some (.test 98 3 1 .count true) ∧ s.burst endA = .running burst98
        ∧ burst98.sent < burst98.count ∧ testReplyOf [] = none)
      ∧ (u.burst endA = .running { burst98 with sent := 2 } ∧ ({ burst98 with sent := 2 } : Burst).count ≤ 2)
      ∧ v.burst endA = .running { burst98 with count := 0 }
      ∧ (testReplyOf (echo 1098 0 (patternField .count 1)) = some seen ∧ (s.post 98).reach ≠ .unserved
        ∧ seen.serial = (s.entry 98).place.serial ∧ (s.post 98).unverified = false ∧ seen.sensors = (s.post 98).sensors
        ∧ seen.hook = (s.post 98).hook ∧ seen.button = (s.post 98).button ∧ ((s.post 98).hook = .on → (s.post 98).button = .none)) := by
  decide +kernel

/-- A reply that refuses a RING and tells of a lift, the same of a post that has moved, and a test frame's reply that tells of a lift. -/
theorem test_meets_stampsCountAndOrderEvents_replies :
    let r := carrying .ring { callOfPost 98 .ringing with direction := .outbound, stamp := none }
    let lifted : Reply := { saysOnHook with hook := .off, result := some .offHook }
    let s := bursting burst98
    (r.powered = true ∧ (r.port endA).transaction = some (.poll 98 3 (some (.ring, 4))) ∧ (r.post 98).reach = .served endA
        ∧ (r.post 98).hop = 3 ∧ pollReplyOf true (reply 1098 1 3) = some lifted
        ∧ answersRing r 98 (some (.ring, 4)) lifted = true ∧ tellsCallEvent r 98 lifted = true)
      ∧ ((onB r).port endA).transaction = some (.poll 98 3 (some (.ring, 4))) ∧ ((onB r).post 98).reach ≠ .served endA
      ∧ (s.port endA).transaction = some (.test 98 3 1 .count true)
      ∧ (testReplyOf (echo 1098 1 (patternField .count 1))).map Reply.hook = some .off ∧ (s.post 98).hook = .on := by decide +kernel

/-- 3A idle and SCANNING, scan position at its last hop. -/
def idleA : State := (base.modPort endA fun p => { p with transaction := none }).modEnd endA fun r => { r with scanPosition := 4 }

/-- A busy port; an idle one with a burst; with an eligible command behind one that is not; with no command and posts, and with none. -/
theorem test_meets_nextTransactionChosen :
    let b := idleA.modBurst endA fun _ => .running burst98
    let c := idleA.modEnd endA fun r => { r with commands := [⟨101, .lampOn, 1⟩, ⟨98, .lampOff, 2⟩, ⟨99, .ring, 3⟩] }
    (base.port endA).transaction ≠ none
      ∧ ((idleA.port endA).transaction = none ∧ portMode idleA endA = .scanning ∧ mayMeasure idleA (otherEnd endA) = false
        ∧ idleA.burst endA = .none ∧ (idleA.endRec endA).commands = [] ∧ (idleA.post 96).reach = .served endA)
      ∧ (b.burst endA = .running burst98 ∧ burst98.last = .poll)
      ∧ ((c.endRec endA).commands = [⟨101, .lampOn, 1⟩] ++ ⟨98, .lampOff, 2⟩ :: [⟨99, .ring, 3⟩] ∧ (c.post 101).reach ≠ .served endA
        ∧ (c.post 98).reach = .served endA ∧ (c.post 98).reply ≠ .noReply) := by decide +kernel

theorem test_meets_nextTransactionChosen_no_post :
    let s := { idleA with line := { idleA.line with posts := LineBlock.powerOn.posts } }
    (s.port endA).transaction = none ∧ portMode s endA = .scanning ∧ mayMeasure s (otherEnd endA) = false ∧ (s.endRec endA).commands = []
      ∧ ∀ i, (s.post i).reach ≠ .served endA := by decide +kernel

theorem test_meets_loopCurrentIsSensed :
    let off := withEndState .off base
    let lost := base.modPort endA fun p => { p with reading := .lost }
    base.powered = true ∧ senseActive base endA = true ∧ (base.port endA).reading = .present ∧ senseActive off endA = false
      ∧ senseActive lost endA = true ∧ (lost.port endA).reading = .lost := by decide +kernel

/-- 3A TESTING, with both ports of the segment idle. -/
def testingA (m : Measurement) : State :=
  let s := (base.modPort endA fun p => { p with transaction := none }).modPort endB fun p => { p with transaction := none }
  (s.modEnd endA fun r => { r with state := .testing, measurement := m }).onLine fun l => { l with first := l.first.set 3 (some .a) }

theorem test_meets_measurementsWaitAndReturn :
    let s := testingA .waiting
    let w := (testingA .none).modEnd endA fun r => { r with retryWait := some 1100 }
    let f := withEndState .faulted (base.modEnd endA fun r => { r with retest := some 60000 })
    let l := base.modEnd endA fun r => { r with reach := .limit 1150, retest := some 60000 }
    let h := l.modChan endA fun r => { r with channels := r.channels.set 3 (.call ⟨0, 0⟩ 98) }
    (s.powered = true ∧ (s.endRec endA).state = .testing ∧ (s.endRec endA).measurement = .waiting ∧ (s.port endA).transaction = none
        ∧ (s.port (otherEnd endA)).transaction = none ∧ (s.endRec (otherEnd endA)).measurement ≠ .running ∧ nth s.line.first 3 = some .a)
      ∧ (base.endRec endA).measurement ≠ .waiting ∧ (w.endRec endA).retryWait = some 1100
      ∧ ((f.endRec endA).retest = some 60000 ∧ (f.endRec endA).state = .faulted)
      ∧ ((l.endRec endA).retest = some 60000 ∧ (l.endRec endA).state = .serving ∧ holdsChannel l endA = false)
      ∧ ((h.endRec endA).retest = some 60000 ∧ (h.endRec endA).state = .serving ∧ holdsChannel h endA = true) := by decide +kernel

/-- A BUSY result at the counts 2, retried, and 3, taken; an OPEN result; the longest delay (for `locationArithmetic` too). -/
theorem test_meets_measurementResultIsTaken :
    let s := testingA .running
    let two := s.modEnd endA fun r => { r with busyCount := 2 }
    let three := s.modEnd endA fun r => { r with busyCount := 3 }
    s.powered = true ∧ (s.endRec endA).state = .testing ∧ (s.endRec endA).measurement = .running
      ∧ measurementWf endA .openPair 16383 none = true ∧ measurementWf endA .crossed 0 (some 4) = true ∧ measurementWf endA .busy 0 none = true
      ∧ (two.endRec endA).busyCount < 3 ∧ ¬ (three.endRec endA).busyCount < 3 := by decide +kernel

theorem test_meets_releasedChannelsAreHandedOver :
    let k := { callOfPost 98 .parked with request := some (endA, .parked), parties := [⟨.b, 0⟩] }
    let s := (withCallAt 0 k base).modChan endA fun r => { r with channels := r.channels.set 3 (.group 2) }
    let u := s.modChan endA fun r => { r with waiting := [.call .parked ⟨0, 0⟩ 98 .p1] }
    nth (s.chan endA).channels 0 ≠ .group 2 ∧ nth (s.chan endA).channels 3 = .group 2 ∧ (s.chan endA).waiting = []
      ∧ nth (u.chan endA).channels 3 = .group 2 ∧ (u.chan endA).waiting = .call .parked ⟨0, 0⟩ 98 .p1 :: [] ∧ liveRef u ⟨0, 0⟩ = some k
      ∧ k.state = .parked ∧ (u.post k.slot).reach = .served endA := by decide +kernel

/-- Group 2, whose member in slot 96 awaits a channel of 3A, is at the head of its waiting list. -/
theorem test_meets_releasedChannelsAreHandedOver_group :
    let s := ((announcing (.window, 3000)).modGroup 2 fun r =>
      { r with held := [], waiting := [endA], members := [member 96 (.pending .awaiting), member 140 .skippedAbsent] }).modChan endA
        fun r => { r with channels := r.channels.set 0 (.call ⟨7, 3⟩ 99), waiting := [.announce 2 0] }
    nth (s.chan endA).channels 0 = .call ⟨7, 3⟩ 99 ∧ (s.chan endA).waiting = .announce 2 0 :: [] ∧ Ascending (memberSlots s 2)
      ∧ (s.group 2).active = true
      ∧ ∃ m ∈ (s.group 2).members, m.outcome = .pending .awaiting ∧ (s.post m.slot).reach = .served endA := by
  unfold Ascending; decide +kernel

/-- CHANNEL LOST of a CONNECTED call, of an OFFERED one and of a record not live; of an end with members of a group. -/
theorem test_meets_releasedChannelsAreHandedOver_lost :
    liveRef connected98 ⟨0, 1⟩ = none ∧ (liveRef connected98 ⟨0, 0⟩).map LiveCall.state = some .connected
      ∧ liveRef (withCallAt 0 offered98 base) ⟨0, 0⟩ = some offered98
      ∧ Ascending (memberSlots (announcing (.window, 3000)) 2) ∧ member 97 .hearing ∈ ((announcing (.window, 3000)).group 2).members
      ∧ ((announcing (.window, 3000)).post 97).reach = .served endA := by unfold Ascending; decide +kernel

/-! ## Steps -/

/-- R92, R96: the emergency of slot 98 becomes a P3 call, offered to its home link A alone, and the next poll of slot 98 carries LAMP ON. -/
theorem test_step_off_hook :
    let t := after (.pollReply endA (reply 1098 5 0)) base
    (t.liveCall 0).map LiveCall.cls = some .p3 ∧ (t.liveCall 0).map LiveCall.offered = some ⟨true, false⟩
      ∧ (t.liveCall 0).bind LiveCall.timer = some (.overflow, 15100) ∧ t.linkA.queue.length = 1 ∧ t.linkB.queue = []
      ∧ ((t.port endA).transaction.map fun x => match x with
          | .poll i _ c => decide (i = 98) && decide (c.map Prod.fst = some .lampOn)
          | .test _ _ _ _ _ => false) = some true := by decide +kernel

/-- R47, R108: a RING refused OFF-HOOK takes a stamp, and the call event of the same reply the next one. -/
theorem test_step_ring_refused :
    let s := carrying .ring { callOfPost 98 .ringing with direction := .outbound, stamp := none, parties := [⟨.b, 0⟩], timer := some (.ring, 45000) }
    let t := after (.pollReply endA (reply 1098 1 3)) s
    t.line.stampCounter = 2 ∧ (t.liveCall 0).map LiveCall.state = some .connecting ∧ (t.liveCall 0).bind LiveCall.stamp = some 1
      ∧ (t.liveCall 0).bind LiveCall.channel = some (endA, 0) := by decide +kernel

/-- R98, R76: ANSWER takes the lowest channel, and CONNECT waits for the post. -/
theorem test_step_answer :
    let t := after (.answer .a 7 0 0 16) answering
    (t.liveCall 0).map LiveCall.state = some .connecting ∧ (t.liveCall 0).map LiveCall.parties = some [⟨.a, 15⟩]
      ∧ nth t.linkA.trunks 15 = .call ⟨0, 0⟩ ∧ nth (t.chan endA).channels 0 = .call ⟨0, 0⟩ 98
      ∧ ((t.endRec endA).commands.map fun c => (c.slot, c.command)) = [(98, .connect 0)]
      ∧ t.linkA.queue = [.response 7 0x20 .ok .empty] := by decide +kernel

/-- R98: ANSWER of a call that is no longer OFFERED is refused TAKEN. -/
theorem test_step_answer_taken :
    (after (.answer .a 7 0 0 16) (asked .a (.answer 0 0 16) connected98)).linkA.queue = [.response 7 0x20 .taken .empty] := by decide +kernel

/-- R77, R128: a P2 call takes the channel of group 2, and its member COMMANDED there is PREEMPTED. -/
theorem test_step_answer_preempts :
    let s := answerTakes.modGroup 2 fun r => { r with members := [member 96 (.pending .commanded)] }
    let t := after (.answer .a 7 0 0 16) s
    nth (t.chan endA).channels 3 = .call ⟨0, 0⟩ 98 ∧ outcomes (t.group 2).members = [(96, .preempted)] ∧ (t.group 2).held = []
      ∧ (t.chan endA).preempted = [(2, ⟨0, 0⟩)] := by decide +kernel

/-- R77 and the walk-through: the exception of the PREEMPTED member stands before CALL STATE CONNECTING of the PARKED call that takes the
channel. -/
theorem test_preempted_exception_first :
    let k := { callOfPost 98 .parked with cls := .p2, parties := [⟨.b, 0⟩] }
    let s := (withCallAt 0 k answerTakes).modGroup 2 fun r => { r with members := [member 96 (.pending .commanded)] }
    ((requestOnServing 0 .parked s).linkB.queue.map fun q => match q with
      | .report _ (.announceException _ i o _ _ _ _) => (some (i, o), none)
      | .report _ (.callState body) => (none, some body.event)
      | _ => (none, none)) = [(some (96, .preempted), none), (none, some .connecting)] := by decide +kernel

/-- R118, R119: slots 96 and 97 are commanded on channel 0 of 3A; slot 140 is absent. -/
theorem test_step_announce_start :
    let t := after (.announceStart .a 7 2 1) (asked .a (.announceStart 2 1) base)
    outcomes (t.group 2).members = [(96, .pending .commanded), (97, .pending .commanded), (140, .skippedAbsent)]
      ∧ (t.group 2).held = [(endA, 0)] ∧ (t.group 2).timer = some (.window, 3100)
      ∧ ((t.endRec endA).commands.map fun c => (c.slot, c.command)) = [(96, .announce 0), (97, .announce 0)] := by decide +kernel

/-- R130: at STOP a COMMANDED member is NO ANSWER, a HEARING one stays HEARING, and the channel is FREE. -/
theorem test_step_announce_stop :
    let t := after (.announceStop .a 7 2) (asked .a (.announceStop 2) (announcing (.window, 3000)))
    outcomes (t.group 2).members = [(96, .noAnswer), (97, .hearing), (140, .skippedAbsent)] ∧ (t.group 2).active = false
      ∧ nth (t.chan endA).channels 0 = .free ∧ (t.post 97).activity = .idle := by decide +kernel

/-- What a queue tells of announcements: an exception with its member, its outcome and whether it is late, and READY. -/
def announced (q : List QueueEntry) : List (Option (Slot × MemberOutcome × Bool)) :=
  q.filterMap fun y => match y with
    | .report _ (.announceException _ i o late _ _ _) => some (some (i, o, late))
    | .report _ (.announceReady _ _ _ _ _) => some none
    | _ => none

/-- R127, R121, R100: the exception of a member whose post is lost stands before CALL STATE CONNECTING of the PARKED call that gets the
group's channel. -/
theorem test_exception_before_release :
    let k := { callOfPost 98 .parked with parties := [⟨.b, 0⟩], request := some (endA, .parked) }
    let s := ((withCallAt 0 k (announcing (.window, 3000))).modGroup 2 fun r =>
      { r with members := [member 96 .hearing] }).modChan endA fun r => { r with waiting := [.call .parked ⟨0, 0⟩ 98 .p1] }
    ((memberLost 96 s).linkB.queue.map fun q => match q with
      | .report _ (.announceException _ i o _ _ _ _) => (some (i, o), none)
      | .report _ (.callState body) => (none, some body.event)
      | _ => (none, none)) = [(some (96, .unreachable), none), (none, some .connecting)] := by decide +kernel

/-- R122: one event changes a HEARING and then a PENDING member: both exceptions come before READY, in slot order, and neither is late. -/
theorem test_settle_exceptions_before_ready :
    let s := announcing (.window, 3000)
    announced (settle s (changeMember 2 96 .unreachable none (changeMember 2 97 .unreachable none s))).linkB.queue
      = [some (96, .unreachable, false), some (97, .unreachable, false), none] := by decide +kernel

/-- R90: two calls due to link B at the DOWN of their home link are offered in the order of the queue, each with its rank there. -/
theorem test_step_link_down_offers_in_order :
    let s := withCallAt 1 { callOfPost 101 .offered with cls := .p3, offered := ⟨true, false⟩ } (withCallAt 0 offered98 base)
    ((after (.lossOfFraming .a) s).linkB.queue.filterMap fun y => match y with
      | .report _ (.offer ref _ rank _ _ _) => some (ref, rank)
      | _ => none) = [(⟨1, 0⟩, 1), (⟨0, 0⟩, 2)] := by decide +kernel

/-- R112, R149: the OFFER of record 0, whose sole party the link was, stands before PARTY LEFT of record 1. -/
theorem test_step_link_down_takes_records_in_order :
    let s := withCallAt 1 { callOfPost 101 .connected with parties := [⟨.a, 1⟩, ⟨.b, 2⟩] } (withCallAt 0 (partyCall [⟨.a, 0⟩]) base)
    ((after (.lossOfFraming .a) s).linkB.queue.map fun y => match y with
      | .report _ (.offer ref _ rank _ _ _) => (some (ref.index, rank), none)
      | .report _ (.callState body) => (none, some (body.ref.index, body.event))
      | _ => (none, none)) = [(some (0, 1), none), (none, some (1, .partyLeft))] := by decide +kernel

/-- R122, R149: of the exceptions and the READY of one event the first in order takes the one free place; the others are a gap. -/
theorem test_settle_full_queue_keeps_the_first :
    let s := (announcing (.window, 3000)).modLink .b fun l => { l with queue := List.replicate 63 (.response 1 0x46 .ok .empty) }
    let t := settle s (changeMember 2 96 .unreachable none (changeMember 2 97 .unreachable none s))
    announced t.linkB.queue = [some (96, .unreachable, false)] ∧ t.linkB.queue.length = 64 ∧ t.linkB.gap = true ∧ t.linkB.overrun = []
      ∧ (announced t.linkA.queue).length = 3 := by decide +kernel

/-- R139: the ending of an old burst's test frame makes TEST FRAME the last transaction of the burst that runs by then, so a poll follows. -/
theorem test_step_old_test_frame_ends :
    let s := (bursting burst98).modPort endA fun p => { p with transaction := some (.test 98 3 1 .count false) }
    let t := after (.testFrameWindowExpiry endA) s
    (match (t.port endA).transaction with | some (.poll _ _ _) => true | _ => false) = true
      ∧ t.burst endA = .running { burst98 with last := .testFrame } := by decide +kernel

/-- R104: CLEAR of a party: CLEARING, the channel FREE, RELEASE and LAMP OFF waiting. -/
theorem test_step_clear :
    let s := asked .a (.clear 0 0) (withCallAt 0 (partyCall [⟨.a, 0⟩]) (base.modChan endA fun r => { r with channels := r.channels.set 0 (.call ⟨0, 0⟩ 98) }))
    let t := after (.clear .a 7 0 0) s
    (t.liveCall 0).map LiveCall.state = some .clearing ∧ (t.liveCall 0).bind LiveCall.timer = some (.clearConfirm, 2100)
      ∧ nth (t.chan endA).channels 0 = .free ∧ ((t.endRec endA).commands.map CommandEntry.command) = [.release, .lampOff] := by decide +kernel

/-- R106: at the clear confirm time the record is free, with the next generation. -/
theorem test_step_clear_confirm_expiry :
    let t := after (.clearConfirmTimerExpiry 0) (withCallAt 0 { callOfPost 98 .clearing with timer := some (.clearConfirm, 2000) } base)
    t.record 0 = ⟨1, none⟩ ∧ t.now = 2000 := by decide +kernel

/-- R2: a character outside the set is stored as a space, and the response shows it. -/
theorem test_step_write_name :
    let f : RawName := ⟨3, [0x41, 0x61, 0x42, 0, 0, 0, 0, 0, 0, 0, 0, 0], 1, 0, 2, 0xFFFFFF⟩
    let t := after (.directoryWriteName .a 7 98 f) (asked .a (.writeName 98 f) latched)
    t.linkA.queue = [.response 7 0x52 .ok (.label [0x41, 0x20, 0x42])] ∧ (inFlight t).isSome = true ∧ t.store.stored = latched.store.stored :=
  ⟨by decide +kernel, by decide +kernel, rfl⟩

/-- R9: values outside the ranges are set to the nearer limit. -/
theorem test_step_write_global :
    let f : RawGlobal := ⟨0, 4, 9, 9, 0, 11, 601⟩
    (after (.siteWriteGlobal .a 7 f) (asked .a (.writeGlobal f) latched)).linkA.queue
      = [.response 7 0x54 .ok (.global ⟨5, 8, 10, 1, 10, 600⟩)] := by decide +kernel

/-- R22, R12: at the completion of a GROUP EDIT the writer is told STORE DONE and the other link DIRECTORY CHANGED. -/
theorem test_step_group_edit_completion :
    let t := after .groupEditCompletion (busyWith (.group 2 [96]))
    t.store.state = .ready ∧ t.membership 2 = [96] ∧ nth t.store.stored.groups 2 = .valid [96]
      ∧ t.linkA.queue = [.report false (.storeDone 9 (.group 2))] ∧ t.linkB.queue = [.report false (.directoryChanged (.group 2))] := by
  decide +kernel

/-- R28: an erase of scope ALL that had come to segment 2, place 258. -/
theorem test_step_power_loss_in_erase :
    let t := after (.powerLoss 258) (busyWith (.erase .all))
    nth t.store.stored.segments 1 = .valid .blank ∧ nth t.store.stored.segments 2 = .bad ∧ nth t.store.stored.segments 3 = .blank
      ∧ nth t.store.stored.entries 255 = .valid .blank ∧ t.store.stored.global = .blank ∧ t.powered = false := by decide +kernel

/-- R50, R57: a loop loss takes 3A TESTING, reported to both links. -/
theorem test_step_loop_loss :
    let t := after (.loopLossEvent endA) base
    (t.endRec endA).state = .testing ∧ (t.endRec endA).measurement = .waiting ∧ (t.endRec endA).cause = some .loopLoss
      ∧ t.linkA.queue.length = 1 ∧ t.linkB.queue.length = 1 ∧ portMode t endA = .measuring := by decide +kernel

/-- R59: a BUSY result waits 1 s. -/
theorem test_step_measurement_busy :
    let t := after (.measurementResult endB .busy 0 none) (base.modEnd endB fun r => { r with state := .testing, measurement := .running })
    (t.endRec endB).retryWait = some 1100 ∧ (t.endRec endB).busyCount = 1 ∧ (t.endRec endB).measurement = .none := by decide +kernel

/-- R140: the frame that brings sent to the count ends the burst DONE, with TEST DONE to the requesting link B. -/
theorem test_step_burst_done :
    let t := after (.testFrameWindowExpiry endA) ((bursting { burst98 with sent := 2, echoedGood := 1 }).modEnd endA fun r =>
      { r with commands := [⟨96, .lampOn, 1⟩] })
    t.burst endA = .ended { burst98 with sent := 2, echoedGood := 1, noEcho := 1, last := .testFrame } .done
      ∧ (t.post 98).activity = .idle ∧ t.linkB.queue.length = 1 ∧ t.linkA.queue = [] := by decide +kernel

/-- R147, R148: a request frame enters the buffer and is taken; R149: the response is the frame sent. -/
theorem test_step_frame_to_response :
    let s := after (.frameReceived .a (enframe (requestFrame 7 .writeEnable))) base
    let t := after (.reportFrameSent .a) (after (.writeEnable .a 7) s)
    s.linkA.intake = [enableFrame] ∧ s.linkA.silence = some 3100 ∧ t.linkA.latch = true ∧ t.linkA.intake = [] ∧ t.linkA.queue = [] := by
  decide +kernel

/-- An empty queue of commands is a tick of the Timebase (log 3). -/
theorem test_step_tick : step base = .next { base with now := 101 } := rfl

end Sys2Proof.Tests
end

