-- ==== Sys2Proof/Proofs/Keeps.lean ====
section
/-! PROOF. Two conditions that every step keeps, the ranges of the counters (O19) and the order of the groups' slots (O21), brought through
one walk over the commands. `Keeps w s t` says that the way from s to t keeps both; the small updates have it, the chains of Laws/Soft.lean
have it, and a command has it from the operations it is made of. -/

namespace Sys2Proof.Machine

/-- The counters of the ends and of the links are within range (R134, R136, R143). -/
structure GaugesOk (s : State) : Prop where
  counters : ∀ e : EndId, (s.counters e).ok
  bursts : ∀ e : EndId, (s.burst e).ok
  links : ∀ x : LinkId, (s.link x).countersOk

/-- No failure count is above the threshold (R43, R10). -/
def FailuresOk (s : State) : Prop := ∀ i : Slot, (s.post i).failures ≤ s.store.site.global.threshold

theorem countersOk_iff (s : State) : CountersOk s ↔ GaugesOk s ∧ FailuresOk s := by
  constructor
  · rintro ⟨he, ha, hb, hp⟩
    exact ⟨⟨fun e => (he e).1, fun e => (he e).2, fun x => by cases x; exacts [ha, hb]⟩, hp⟩
  · rintro ⟨⟨hc, hb, hl⟩, hp⟩
    exact ⟨fun e => ⟨hc e, hb e⟩, hl .a, hl .b, hp⟩

/-- The way from one state to another keeps the counters in their ranges and the slots of the groups in order. On a way marked `false` the
threshold may change, and the failure counts are not yet held to the new one. -/
structure Keeps (w : Bool) (s t : State) : Prop where
  gauges : GaugesOk s → GaugesOk t
  failures : w = true → FailuresOk s → FailuresOk t
  groups : GroupsOk s → GroupsOk t

variable {w : Bool}

theorem Keeps.countersOk {s t : State} (h : Keeps true s t) (hs : CountersOk s) : CountersOk t := by
  obtain ⟨hg, hf⟩ := (countersOk_iff s).mp hs
  exact (countersOk_iff t).mpr ⟨h.gauges hg, h.failures rfl hf⟩

theorem Keeps.refl (s : State) : Keeps w s s := ⟨id, fun _ => id, id⟩

theorem Keeps.trans {s t u : State} (h : Keeps w s t) (k : Keeps w t u) : Keeps w s u :=
  ⟨k.gauges ∘ h.gauges, fun e => k.failures e ∘ h.failures e, k.groups ∘ h.groups⟩

/-- An operation after another, read as they are nested. -/
theorem Keeps.andThen {s t u : State} (k : Keeps w t u) (h : Keeps w s t) : Keeps w s u := h.trans k

theorem Keeps.of_ite {c : Prop} [Decidable c] {s t u : State} (ht : Keeps w s t) (hu : Keeps w s u) : Keeps w s (if c then t else u) := by
  split
  · exact ht
  · exact hu

theorem Keeps.forEach {α : Type} {f : α → State → State} (h : ∀ a s, Keeps w s (f a s)) :
    ∀ (l : List α) (s : State), Keeps w s (Machine.forEach l f s)
  | [], s => .refl s
  | a :: l, s => (h a s).trans (Keeps.forEach h l (f a s))

/-! ## The conditions, part by part -/

/-- The groups stay in order where the store and the members' slots stay. -/
theorem GroupsOk.of_same {s t : State} (hs : GroupsOk s) (hstore : t.store = s.store) (hm : ∀ g, memberSlots t g = memberSlots s g) :
    GroupsOk t := by
  obtain ⟨h1, h2, h3, h4⟩ := hs
  refine ⟨fun g l h => h1 g l (hstore ▸ h), fun g => ?_, fun o g l h => h3 o g l ?_, fun g => hm g ▸ h4 g⟩
  · simpa [State.membership, hstore] using h2 g
  · simpa [inFlight, hstore] using h

/-- A way on which the store stays, no failure count grows and no member moves. -/
theorem Keeps.of_same {s t : State} (hstore : t.store = s.store) (hg : GaugesOk s → GaugesOk t)
    (hp : ∀ i, (t.post i).failures ≤ (s.post i).failures) (hm : ∀ g, memberSlots t g = memberSlots s g) : Keeps w s t :=
  ⟨hg, fun _ hs i => hstore ▸ (hp i).trans (hs i), fun hs => hs.of_same hstore hm⟩

/-- An update of the state that touches no counter, failure count, store record or member. -/
theorem Keeps.quiet {s t : State} (hstore : t.store = s.store) (hc : t.line.counters = s.line.counters)
    (hb : t.line.bursts = s.line.bursts) (hp : t.line.posts = s.line.posts) (ha : t.linkA = s.linkA) (hl : t.linkB = s.linkB)
    (hg : t.groups = s.groups) : Keeps w s t := by
  refine .of_same hstore (fun h => ⟨fun e => ?_, fun e => ?_, fun x => ?_⟩) (fun i => ?_) (fun g => ?_)
  · simpa [State.counters, hc] using h.counters e
  · simpa [State.burst, hb] using h.bursts e
  · cases x
    · simpa [State.link, ha] using h.links .a
    · simpa [State.link, hl] using h.links .b
  · simp [State.post, hp]
  · simp [memberSlots, State.group, hg]

/-! ## Chains of small updates -/

/-- What is only told keeps its counters. -/
theorem OnlyTold.countersOk {l m : LinkRecord} (h : OnlyTold { l with overrun := [] } { m with overrun := [] })
    (hl : l.countersOk) : m.countersOk := by
  obtain ⟨-, -, hr⟩ := h
  simp only [LinkRecord.mk.injEq] at hr
  obtain ⟨-, -, -, -, -, -, -, -, -, -, hg, hb, hd, -⟩ := hr
  simpa only [LinkRecord.countersOk, hg, hb, hd] using hl

theorem Soft.gaugesOk {ev on : Bool} {s t : State} (h : Soft ev on s t) (hs : GaugesOk s) : GaugesOk t := by
  have links : ∀ x, (t.link x).countersOk := fun x => (h.frame.told x).countersOk (hs.links x)
  suffices ends : ∀ e, (t.counters e).ok ∧ (t.burst e).ok from ⟨fun e => (ends e).1, fun e => (ends e).2, links⟩
  have start : ∀ e, (s.counters e).ok ∧ (s.burst e).ok := fun e => ⟨hs.counters e, hs.bursts e⟩
  clear links hs
  induction h with
  | trans _ _ a b => exact b (a start)
  | ordered _ a => exact a start
  | counters s d f h =>
    intro e
    refine ⟨?_, (start e).2⟩
    by_cases hd : d = e
    · subst hd; simpa using h _ (start d).1
    · simpa [hd] using (start e).1
  | burst s d f h =>
    intro e
    refine ⟨(start e).1, ?_⟩
    by_cases hd : d = e
    · subst hd; simpa using h _ (start d).2
    · simpa [hd] using (start e).2
  | line s f h =>
    obtain ⟨_, _, _, hc, hb, _⟩ := h s.line
    simpa [State.counters, State.burst, hc, hb] using start
  | report s x r => simpa [Machine.report] using start
  | freeTrunk s p u => simpa [Machine.freeTrunk] using start
  | inTurn s x r => simpa [Machine.reportInTurn] using start
  | _ => exact start

/-- No small update raises a failure count. -/
theorem Soft.failures_le {ev on : Bool} {s t : State} (h : Soft ev on s t) (i : Slot) : (t.post i).failures ≤ (s.post i).failures := by
  induction h with
  | trans _ _ a b => exact b.trans a
  | ordered _ a => exact a
  | post s j f h =>
    by_cases hj : j = i
    · subst hj; simpa using h _
    · simp [hj]
  | line s f h => simp [State.post, (h s.line).1]
  | report s x r => simp [Machine.report]
  | freeTrunk s p u => simp [Machine.freeTrunk]
  | inTurn s x r => simp [Machine.reportInTurn]
  | _ => exact le_rfl

theorem Soft.keeps {ev on : Bool} {s t : State} (h : Soft ev on s t) : Keeps w s t :=
  .of_same h.frame.store h.gaugesOk h.failures_le h.frame.slots

theorem finish_keeps (s : State) : Keeps w s (finish s) := (Soft.finish (ev := false) (on := true) s).keeps

theorem Keeps.andFinish {s t : State} (h : Keeps w s t) : Keeps w s (finish t) := h.trans (finish_keeps t)

/-- The order of an event's reports touches queues alone. -/
theorem orderReports_keeps (before s : State) : Keeps w s (orderReports before s) :=
  .of_same rfl (fun ⟨hc, hb, hl⟩ => ⟨hc, hb, fun x => by cases x; exacts [hl .a, hl .b]⟩) (fun _ => le_rfl) fun _ => rfl

theorem settle_keeps (before s : State) : Keeps w s (settle before s) :=
  (orderReports_keeps before s).trans (.forEach (fun g t => (Soft.testReady (ev := false) (on := true) g t).keeps) _ _)

/-! ## The updates that are in no chain -/

theorem modLink_keeps (s : State) (x : LinkId) (f : LinkRecord → LinkRecord) (h : ∀ l, l.countersOk → (f l).countersOk) :
    Keeps w s (s.modLink x f) := by
  refine .of_same (by simp) (fun ⟨hc, hb, hl⟩ => ⟨by simpa using hc, by simpa using hb, fun y => ?_⟩) (fun i => by simp)
    fun g => by simp [memberSlots]
  rw [link_modLink]
  split
  · exact h _ (hl _)
  · exact hl _

theorem modEnd_keeps (s : State) (e : EndId) (f : EndRecord → EndRecord) : Keeps w s (s.modEnd e f) := .quiet rfl rfl rfl rfl rfl rfl rfl
theorem modPort_keeps (s : State) (e : EndId) (f : Port → Port) : Keeps w s (s.modPort e f) := .quiet rfl rfl rfl rfl rfl rfl rfl
theorem modCall_keeps (s : State) (i : CallIdx) (f : LiveCall → LiveCall) : Keeps w s (s.modCall i f) := .quiet rfl rfl rfl rfl rfl rfl rfl
theorem reach_keeps (s : State) (n : Nat) : Keeps w s (s.reach n) := .quiet rfl rfl rfl rfl rfl rfl rfl
theorem withPending_keeps (s : State) (l : List Instr) : Keeps w s (s.withPending l) := .quiet rfl rfl rfl rfl rfl rfl rfl
theorem makeLive_keeps (i : CallIdx) (k : LiveCall) (s : State) : Keeps w s (makeLive i k s) := .quiet rfl rfl rfl rfl rfl rfl rfl

theorem modCounters_keeps (s : State) (e : EndId) (f : Counters → Counters) (h : ∀ c, c.ok → (f c).ok) : Keeps w s (s.modCounters e f) :=
  (Soft.counters (ev := false) (on := true) s e f h).keeps

theorem modBurst_keeps (s : State) (e : EndId) (f : BurstRecord → BurstRecord) (h : ∀ b, b.ok → (f b).ok) : Keeps w s (s.modBurst e f) :=
  (Soft.burst (ev := false) (on := true) s e f h).keeps

/-- A row whose failure count stays within the threshold that it was within. -/
theorem modPost_keeps (s : State) (i : Slot) (f : PostRow → PostRow)
    (h : ∀ r, r.failures ≤ s.store.site.global.threshold → (f r).failures ≤ s.store.site.global.threshold) : Keeps w s (s.modPost i f) := by
  refine ⟨fun ⟨hc, hb, hl⟩ => ⟨hc, hb, hl⟩, fun _ hs j => ?_, fun hs => hs.of_same rfl fun _ => rfl⟩
  by_cases hj : i = j
  · subst hj; simpa using h _ (hs i)
  · simpa [hj] using hs j

/-- A group's record replaced by one whose members stand in order. -/
theorem modGroup_keeps (s : State) (g : GroupId) (f : GroupRun → GroupRun)
    (h : GroupsOk s → Ascending ((f (s.group g)).members.map Member.slot)) : Keeps w s (s.modGroup g f) := by
  refine ⟨fun ⟨hc, hb, hl⟩ => ⟨hc, hb, hl⟩, fun _ hs => hs, fun hs => ?_⟩
  have hg := h hs
  obtain ⟨h1, h2, h3, h4⟩ := hs
  refine ⟨h1, h2, h3, fun k => ?_⟩
  by_cases hk : g = k
  · subst hk; simpa [memberSlots] using hg
  · simpa [memberSlots, hk] using h4 k

theorem takeTrunk_keeps (x : LinkId) (t : Trunk) (u : TrunkUse) (s : State) : Keeps w s (takeTrunk x t u s) :=
  modLink_keeps s x _ fun _ h => h

/-- A change of the store on which the threshold stays, or on a way that may change it. -/
theorem setStore_keeps (s : State) (b : StoreBlock) (ht : w = true → b.site.global.threshold = s.store.site.global.threshold)
    (hg : GroupsOk s → GroupsOk (s.setStore b)) : Keeps w s (s.setStore b) :=
  ⟨fun ⟨hc, hb, hl⟩ => ⟨hc, hb, fun x => by cases x; exacts [hl .a, hl .b]⟩, fun e hs i => (hs i).trans (ht e).ge, hg⟩

/-- Once the counts above the threshold have taken its value, every count is within it (R10). -/
theorem lowerCounts_failuresOk (s : State) : FailuresOk (lowerCounts s) := fun i => by
  simp [lowerCounts, State.post]

theorem lowerCounts_keeps {s t : State} (h : Keeps false s t) : Keeps w s (lowerCounts t) := by
  have lower : Keeps false t (lowerCounts t) :=
    .of_same rfl (fun ⟨hc, hb, hl⟩ => ⟨hc, hb, hl⟩) (fun i => by simp [lowerCounts, State.post]) fun _ => rfl
  exact ⟨(h.trans lower).gauges, fun _ _ => lowerCounts_failuresOk t, (h.trans lower).groups⟩

end Sys2Proof.Machine
end

