-- ==== Sys2Proof/Proofs/StepKeeps.lean ====
section
/-! PROOF. Every command has `Keeps`, chapter by chapter; O19 and O21. -/

namespace Sys2Proof.Machine

variable {w : Bool}

/-! ## Taking requests -/

/-- Where the outcome of a command is a next state, the way there keeps the conditions. -/
def OutcomeKeeps (s : State) (o : Host.Outcome State Fault Refusal) : Prop := ∀ t, o = .next t → Keeps true s t

theorem OutcomeKeeps.next {s t : State} (h : Keeps true s t) : OutcomeKeeps s (.next t) := fun _ e => Host.Outcome.next.inj e ▸ h

theorem popIntake_keeps (x : LinkId) (s : State) : Keeps w s (popIntake x s) := modLink_keeps s x _ fun _ h => h

theorem respond_keeps (x : LinkId) (tag typ : Byte) (r : Result) (b : ResponseBody) (s : State) : Keeps true s (respond x tag typ r b s) :=
  modLink_keeps s x _ fun _ h => h

/-- The answers of a responder keep the conditions, as a placed response does. -/
def Answers (answer : Responder) : Prop := ∀ r b s, Keeps true s (answer r b s)

theorem takeRequest_keeps {x : LinkId} {tag : Byte} {r : Request} {act : Responder → State → State} (s : State)
    (h : ∀ answer, Answers answer → ∀ t, Keeps true t (act answer t)) : Keeps true s (takeRequest x tag r act s) := by
  have ha : Answers (respond x tag (requestType r)) := respond_keeps x tag _
  unfold takeRequest
  refine .of_ite ((popIntake_keeps x s).trans ?_) (.refl s)
  exact .of_ite (ha _ _ _) (h _ ha _)

section
variable {answer : Responder} (ha : Answers answer) {s : State}
include ha

theorem withCall_keeps {index generation : Nat} {act : CallIdx → LiveCall → State} (h : ∀ i k, Keeps true s (act i k)) :
    Keeps true s (withCall index generation answer s act) := by
  unfold withCall
  split
  · exact ha _ _ _
  · split
    · exact ha _ _ _
    · exact h _ _

theorem withTrunk_keeps {x : LinkId} {slot : Nat} {act : Trunk → State} (h : ∀ t, Keeps true s (act t)) :
    Keeps true s (withTrunk x slot answer s act) := by
  unfold withTrunk
  split
  · exact ha _ _ _
  · exact .of_ite (h _) (ha _ _ _)

theorem withEnd_keeps {code : Nat} {act : EndId → State} (h : ∀ e, Keeps true s (act e)) : Keeps true s (withEnd code answer s act) := by
  unfold withEnd
  split
  · exact ha _ _ _
  · exact h _

theorem checkWrite_keeps {latched : Bool} {act : State} (h : Keeps true s act) : Keeps true s (checkWrite latched answer s act) :=
  .of_ite (ha _ _ _) (.of_ite (ha _ _ _) h)

end

/-! ## Calls -/

theorem acceptAnswer_keeps (x : LinkId) (i : CallIdx) (k : LiveCall) (t : Trunk) (s : State) : Keeps true s (acceptAnswer x i k t s) := by
  unfold acceptAnswer
  dsimp only
  refine (settle_keeps _ _).andThen (.andThen (Soft.requestOnServing (on := true) _ _ _ ?_).keeps (.andThen (modCall_keeps _ _ _) ?_))
  · exact onLine_modCall _ i _ fun _ => rfl
  · exact (Soft.withdrawOffers (ev := false) (on := true) _ _ _ _).keeps.andThen (takeTrunk_keeps x t _ s)

theorem addParty_keeps (x : LinkId) (i : CallIdx) (k : LiveCall) (t : Trunk) (s : State) : Keeps true s (addParty x i k t s) :=
  (Soft.reportCall (ev := false) (on := true) _ _ _ _ _ _).keeps.andThen ((modCall_keeps _ _ _).andThen (takeTrunk_keeps x t _ s))

theorem placeCall_keeps (x : LinkId) (i : CallIdx) (slot : Slot) (t : Trunk) (s : State) : Keeps true s (placeCall x i slot t s) := by
  let live := makeLive i (outboundCall s slot x t) s
  have taken : Keeps true s (takeTrunk x t (.call (live.refOfRecord i)) live) := (makeLive_keeps i _ s).trans (takeTrunk_keeps x t _ _)
  refine taken.trans (Soft.keeps (ev := false) (on := true) ?_)
  exact .andThen (.memberLeftForCall .settle _ _) (.andThen (.placeCommand _ _ _) (.setActivity _ _ _ _))

theorem leaveCall_keeps (x : LinkId) (i : CallIdx) (s : State) : Keeps true s (leaveCall x i s) :=
  (Soft.andThen (ev := false) (on := true) (.reportParties _ _ _ _) (.removeParty i x s)).keeps

theorem clearCall_keeps (x : LinkId) (i : CallIdx) (k : LiveCall) {answer : Responder} (ha : Answers answer) (s : State) :
    Keeps true s (clearCall x i k answer s) :=
  (((ha _ _ s).trans (Soft.clearing _ _ _ _ _).keeps).trans (settle_keeps _ _)).andFinish

theorem dismiss_keeps (i : CallIdx) (k : LiveCall) (x : LinkId) (s : State) : Keeps true s (dismiss i k x s) :=
  (Soft.dismiss (ev := false) i k x s).keeps

theorem execAnswer_keeps (x : LinkId) (tag : Byte) (index generation slot : Nat) (s : State) : OutcomeKeeps s (execAnswer x tag index generation slot s) := by
  refine .next <| takeRequest_keeps s fun answer ha u => withCall_keeps ha fun i k => ?_
  refine .of_ite (ha _ _ _) (.of_ite (ha _ _ _) (withTrunk_keeps ha fun t => ?_))
  exact ((ha _ _ _).trans (acceptAnswer_keeps x i k t _)).andFinish

theorem execJoin_keeps (x : LinkId) (tag : Byte) (index generation slot : Nat) (s : State) : OutcomeKeeps s (execJoin x tag index generation slot s) := by
  refine .next <| takeRequest_keeps s fun answer ha u => withCall_keeps ha fun i k => ?_
  have joined : Keeps true u (if isParty x k then answer .alreadyParty .empty u
      else withTrunk x slot answer u fun t => finish (addParty x i k t (answer .ok .empty u))) :=
    .of_ite (ha _ _ _) (withTrunk_keeps ha fun t => ((ha _ _ _).trans (addParty_keeps x i k t _)).andFinish)
  split
  · exact ha _ _ _
  iterate 2 exact ha _ _ _
  iterate 4 exact joined

theorem execLeave_keeps (x : LinkId) (tag : Byte) (index generation : Nat) (s : State) : OutcomeKeeps s (execLeave x tag index generation s) := by
  refine .next <| takeRequest_keeps s fun answer ha u => withCall_keeps ha fun i k => .of_ite (.of_ite ?_ ?_) (ha _ _ _)
  · exact ((ha _ _ _).trans (leaveCall_keeps x i _)).andFinish
  · exact clearCall_keeps x i k ha u

theorem execClear_keeps (x : LinkId) (tag : Byte) (index generation : Nat) (s : State) : OutcomeKeeps s (execClear x tag index generation s) := by
  refine .next <| takeRequest_keeps s fun answer ha u => withCall_keeps ha fun i k => ?_
  have dismissed : Keeps true u (finish (dismiss i k x (answer .ok .empty u))) := ((ha _ _ _).trans (dismiss_keeps i k x _)).andFinish
  have cleared : Keeps true u (if isParty x k then clearCall x i k answer u else answer .notAParty .empty u) :=
    .of_ite (clearCall_keeps x i k ha u) (ha _ _ _)
  split
  · exact .of_ite dismissed (ha _ _ _)
  · exact .of_ite dismissed cleared
  iterate 4 exact cleared
  exact ha _ _ _

theorem execCallPost_keeps (x : LinkId) (tag : Byte) (post slot : Nat) (s : State) : OutcomeKeeps s (execCallPost x tag post slot s) := by
  refine .next <| takeRequest_keeps s fun answer ha u => ?_
  split
  · refine .of_ite (ha _ _ _) (.of_ite (ha _ _ _) ?_)
    split
    · exact ha _ _ _
    · exact .of_ite ((ha _ _ _).trans (placeCall_keeps x _ _ _ _)).andFinish (ha _ _ _)
  · exact ha _ _ _

/-! ## The call timers -/

theorem execOverflowTimerExpiry_keeps (i : CallIdx) (s : State) : OutcomeKeeps s (execOverflowTimerExpiry i s) := by
  unfold execOverflowTimerExpiry
  split
  · exact .next <| (Soft.offer (ev := false) (on := true) i _).keeps.andThen ((modCall_keeps _ _ _).andThen (reach_keeps s _))
  · exact .next (.refl s)

theorem execRingTimerExpiry_keeps (i : CallIdx) (s : State) : OutcomeKeeps s (execRingTimerExpiry i s) := by
  unfold execRingTimerExpiry
  split
  · exact .next <| ((reach_keeps s _).trans (Soft.ringExpires (ev := false) i _ _).keeps).andFinish
  · exact .next (.refl s)

theorem execClearConfirmTimerExpiry_keeps (i : CallIdx) (s : State) : OutcomeKeeps s (execClearConfirmTimerExpiry i s) := by
  unfold execClearConfirmTimerExpiry
  split
  · exact .next <| ((reach_keeps s _).trans (Soft.freeRecord (ev := false) i _).keeps).andFinish
  · exact .next (.refl s)

/-! ## Announcements -/

/-- The members made at START stand in the order of the membership (R118). -/
theorem startMembers_slots (s : State) (g : GroupId) : (startMembers s g).map Member.slot = s.membership g := by
  simp [startMembers, Function.comp_def]

theorem startGroup_keeps (g : GroupId) (x : LinkId) (t : Trunk) (s : State) : Keeps true s (startGroup g x t s) := by
  have started : Keeps true s (s.modGroup g fun _ => startedGroup s g x t) :=
    modGroup_keeps s g _ fun ⟨_, hm, _, _⟩ => by simpa [startedGroup, startMembers_slots] using hm g
  refine ((started.trans (takeTrunk_keeps x t (.announce g) _)).trans (Soft.keeps (ev := true) (on := true) ?_)).trans (settle_keeps _ _)
  refine .andThen (.forEach (Soft.reportMember g none) _ _) (.forEach (fun e u => ?_) _ _)
  exact .of_ite (.refl u) (.requestForGroup g e u)

theorem execAnnounceStart_keeps (x : LinkId) (tag : Byte) (group slot : Nat) (s : State) : OutcomeKeeps s (execAnnounceStart x tag group slot s) := by
  refine .next <| takeRequest_keeps s fun answer ha u => ?_
  split
  · exact ha _ _ _
  · refine .of_ite (ha _ _ _) (.of_ite (ha _ _ _) (withTrunk_keeps ha fun t => ?_))
    exact ((ha _ _ _).trans (startGroup_keeps _ x t _)).andFinish

theorem execAnnounceStop_keeps (x : LinkId) (tag : Byte) (group : Nat) (s : State) : OutcomeKeeps s (execAnnounceStop x tag group s) := by
  refine .next <| takeRequest_keeps s fun answer ha u => ?_
  split
  · exact ha _ _ _
  · exact .of_ite ((ha _ _ _).trans (Soft.endGroup (ev := false) (on := true) _ _ _).keeps).andFinish (ha _ _ _)

theorem execAcknowledgeWindowExpiry_keeps (g : GroupId) (s : State) : OutcomeKeeps s (execAcknowledgeWindowExpiry g s) := by
  unfold execAcknowledgeWindowExpiry
  split
  · exact .next <| ((reach_keeps s _).trans (Soft.windowExpires (ev := false) (on := true) g _).keeps).andFinish
  · exact .next (.refl s)

theorem execAcknowledgeLateExpiry_keeps (g : GroupId) (s : State) : OutcomeKeeps s (execAcknowledgeLateExpiry g s) := by
  unfold execAcknowledgeLateExpiry
  split
  · exact .next <| ((reach_keeps s _).trans (Soft.lateExpires (ev := false) (on := true) g _).keeps).andFinish
  · exact .next (.refl s)

/-! ## Ends and posts -/

theorem changeEnd_keeps (e : EndId) (st : EndState) (r : EndReach) (c : EndCause) (s : State) : Keeps w s (changeEnd e st r c s) :=
  .of_ite ((modEnd_keeps _ _ _).trans (modPort_keeps _ _ _)) (modEnd_keeps _ _ _)

theorem clearTimers_keeps (e : EndId) (s : State) : Keeps w s (clearTimers e s) := modEnd_keeps _ _ _

theorem abortEnd_keeps (e : EndId) (r : AbortReason) (s : State) : Keeps w s (abortEnd e r s) :=
  (Soft.endBurst (ev := false) (on := true) e _ s).keeps

theorem reportEndState_keeps (e : EndId) (s : State) : Keeps w s (reportEndState e s) :=
  (Soft.reportEndState (ev := false) (on := true) e s).keeps

theorem stopEnd_keeps (e : EndId) (s : State) : Keeps w s (stopEnd e s) := (Soft.stopEnd (ev := false) (on := true) e s).keeps

theorem assignSegment_keeps (seg : SegId) (s : State) : Keeps w s (assignSegment seg s) := (Soft.assignSegment (ev := false) seg s).keeps

theorem isolationAlarms_keeps (before s : State) : Keeps w s (isolationAlarms before s) :=
  (Soft.isolationAlarms (ev := false) (on := true) before s).keeps

theorem goTesting_keeps (e : EndId) (c : EndCause) (s : State) : Keeps true s (goTesting e c s) :=
  (reportEndState_keeps _ _).andThen ((abortEnd_keeps _ _ _).andThen ((modEnd_keeps _ _ _).andThen
    ((clearTimers_keeps _ _).andThen (changeEnd_keeps _ _ _ _ s))))

theorem endOff_keeps (e : EndId) (s : State) : Keeps true s (endOff e s) :=
  (isolationAlarms_keeps _ _).andThen ((reportEndState_keeps _ _).andThen ((assignSegment_keeps _ _).andThen ((stopEnd_keeps _ _).andThen
    ((abortEnd_keeps _ _ _).andThen ((changeEnd_keeps _ _ _ _ _).andThen ((modEnd_keeps _ _ _).andThen (clearTimers_keeps e s)))))))

theorem endService_keeps (code setting : Nat) {answer : Responder} (ha : Answers answer) (s : State) :
    Keeps true s (endService code setting answer s) := by
  refine withEnd_keeps ha fun e => ?_
  split
  · exact ha _ _ _
  · split
    iterate 3 exact ((ha _ _ _).trans (endOff_keeps e _)).andFinish
    iterate 2 exact ha _ _ _
  · split
    · exact ((ha _ _ _).trans (goTesting_keeps e _ _)).andFinish
    iterate 4 exact ha _ _ _

theorem execEndServiceOff_keeps (x : LinkId) (tag : Byte) (code setting : Nat) (s : State) : OutcomeKeeps s (execEndServiceOff x tag code setting s) := by
  exact .next <| takeRequest_keeps s fun _ ha u => endService_keeps code setting ha u

theorem execEndServiceOn_keeps (x : LinkId) (tag : Byte) (code : Nat) (s : State) : OutcomeKeeps s (execEndServiceOn x tag code s) := by
  exact .next <| takeRequest_keeps s fun _ ha u => endService_keeps code 1 ha u

theorem execLineTest_keeps (x : LinkId) (tag : Byte) (code : Nat) (s : State) : OutcomeKeeps s (execLineTest x tag code s) := by
  refine .next <| takeRequest_keeps s fun answer ha u => withEnd_keeps ha fun e => ?_
  split
  iterate 2 exact ((ha _ _ _).trans (goTesting_keeps e _ _)).andFinish
  iterate 3 exact ha _ _ _

theorem Counters.zero_ok : Counters.zero.ok := by simp [Counters.ok, Counters.zero]

theorem execLineStats_keeps (x : LinkId) (tag : Byte) (code clearFlag : Nat) (s : State) : OutcomeKeeps s (execLineStats x tag code clearFlag s) := by
  refine .next <| takeRequest_keeps s fun answer ha u => withEnd_keeps ha fun e => .trans (ha .ok (.stats e (u.counters e) (u.burst e)) u) ?_
  exact .of_ite (modCounters_keeps _ e _ fun _ _ => Counters.zero_ok) (.refl _)

theorem execPostTest_keeps (x : LinkId) (tag : Byte) (post count pattern : Nat) (s : State) : OutcomeKeeps s (execPostTest x tag post count pattern s) := by
  refine .next <| takeRequest_keeps s fun answer ha u => ?_
  split
  · split
    · exact ha _ _ _
    · refine .of_ite (ha _ _ _) (.of_ite (ha _ _ _) (.of_ite (ha _ _ _) (Keeps.andFinish ?_)))
      refine (Soft.setActivity (ev := false) (on := true) _ _ _ _).keeps.andThen ((modBurst_keeps _ _ _ fun _ _ => ?_).andThen (ha _ _ _))
      simp [BurstRecord.ok, Burst.ok, newBurst]
  · exact ha _ _ _

theorem execPostTestStop_keeps (x : LinkId) (tag : Byte) (code : Nat) (s : State) : OutcomeKeeps s (execPostTestStop x tag code s) := by
  refine .next <| takeRequest_keeps s fun answer ha u => withEnd_keeps ha fun e => ?_
  exact ((ha _ _ _).trans (Soft.endBurst (ev := false) (on := true) e _ _).keeps).andFinish

/-! ## Queries -/

theorem execQueryCalls_keeps (x : LinkId) (tag : Byte) (start : Nat) (s : State) : OutcomeKeeps s (execQueryCalls x tag start s) := by
  exact .next <| takeRequest_keeps s fun _ ha u => ha _ _ u

theorem execGroupResult_keeps (x : LinkId) (tag : Byte) (group first : Nat) (s : State) : OutcomeKeeps s (execGroupResult x tag group first s) := by
  refine .next <| takeRequest_keeps s fun _ ha u => ?_
  split <;> exact ha _ _ u

theorem execQueryPost_keeps (x : LinkId) (tag : Byte) (post : Nat) (s : State) : OutcomeKeeps s (execQueryPost x tag post s) := by
  refine .next <| takeRequest_keeps s fun _ ha u => ?_
  split <;> exact ha _ _ u

theorem execQueryEnd_keeps (x : LinkId) (tag : Byte) (code : Nat) (s : State) : OutcomeKeeps s (execQueryEnd x tag code s) := by
  exact .next <| takeRequest_keeps s fun _ ha u => withEnd_keeps ha fun e => ha _ _ u

theorem execDirectoryRead_keeps (x : LinkId) (tag : Byte) (kind index first : Nat) (s : State) : OutcomeKeeps s (execDirectoryRead x tag kind index first s) := by
  refine .next <| takeRequest_keeps s fun _ ha u => ?_
  split <;> exact ha _ _ u

/-! ## The store's requests -/

theorem setLatch_keeps (x : LinkId) (b : Bool) (s : State) : Keeps true s (setLatch x b s) := modLink_keeps s x _ fun _ h => h

theorem execWriteEnable_keeps (x : LinkId) (tag : Byte) (s : State) : OutcomeKeeps s (execWriteEnable x tag s) := by
  exact .next <| takeRequest_keeps s fun _ ha u => (ha _ _ u).trans (setLatch_keeps x _ _)

theorem execWriteDisable_keeps (x : LinkId) (tag : Byte) (s : State) : OutcomeKeeps s (execWriteDisable x tag s) := by
  exact .next <| takeRequest_keeps s fun _ ha u => (ha _ _ u).trans (setLatch_keeps x _ _)

/-- A write that goes in flight: the membership that it carries, if any, stands in order (R20). -/
theorem beginWrite_keeps (w : StoreWrite) (x : LinkId) (tag : Byte) (s : State) (h : ∀ g l, w = .group g l → Ascending l) :
    Keeps true s (beginWrite w x tag s) := by
  refine setStore_keeps s _ (fun _ => rfl) fun ⟨h1, h2, _, h4⟩ => ⟨h1, h2, fun o g l ho hw => ?_, h4⟩
  cases ho
  exact h g l hw

theorem acceptWrite_keeps {w : StoreWrite} {x : LinkId} {tag : Byte} {b : ResponseBody} {answer : Responder} (ha : Answers answer)
    {s : State} (h : ∀ g l, w = .group g l → Ascending l) : Keeps true s (acceptWrite w x tag b answer s) :=
  (ha _ _ s).trans (beginWrite_keeps w x tag _ h)

theorem execDirectoryWriteName_keeps (x : LinkId) (tag : Byte) (post : Nat) (f : RawName) (s : State) : OutcomeKeeps s (execDirectoryWriteName x tag post f s) := by
  refine .next <| takeRequest_keeps s fun _ ha u => checkWrite_keeps ha ?_
  split
  iterate 2 exact ha _ _ _
  exact acceptWrite_keeps ha nofun

theorem execDirectoryWritePlace_keeps (x : LinkId) (tag : Byte) (post : Nat) (f : RawPlace) (s : State) : OutcomeKeeps s (execDirectoryWritePlace x tag post f s) := by
  refine .next <| takeRequest_keeps s fun _ ha u => checkWrite_keeps ha ?_
  split
  · exact ha _ _ _
  · split
    · exact ha _ _ _
    · exact .of_ite (ha _ _ _) (.of_ite (ha _ _ _) (.of_ite (ha _ _ _) (acceptWrite_keeps ha nofun)))

theorem execSiteWriteSegment_keeps (x : LinkId) (tag : Byte) (seg : Nat) (f : RawSegment) (s : State) : OutcomeKeeps s (execSiteWriteSegment x tag seg f s) := by
  refine .next <| takeRequest_keeps s fun _ ha u => checkWrite_keeps ha ?_
  split
  · exact .of_ite (ha _ _ _) (.of_ite (ha _ _ _) (acceptWrite_keeps ha nofun))
  · exact ha _ _ _

theorem execSiteWriteGlobal_keeps (x : LinkId) (tag : Byte) (f : RawGlobal) (s : State) : OutcomeKeeps s (execSiteWriteGlobal x tag f s) := by
  exact .next <| takeRequest_keeps s fun _ ha u => checkWrite_keeps ha (acceptWrite_keeps ha nofun)

/-- The numbers below a bound are listed in ascending order. -/
theorem finsBelow_ascending (n : Nat) : ∀ k, (finsBelow n k).Pairwise (· < ·) ∧ ∀ i ∈ finsBelow n k, i.val < k
  | 0 => ⟨.nil, nofun⟩
  | k + 1 => by
    obtain ⟨hp, hlt⟩ := finsBelow_ascending n k
    unfold finsBelow
    split
    · refine ⟨?_, fun i hi => ?_⟩
      · rw [List.pairwise_append]
        refine ⟨hp, List.pairwise_singleton _ _, fun a ha b hb => ?_⟩
        rw [List.mem_singleton] at hb
        subst hb
        exact hlt a ha
      · rcases List.mem_append.mp hi with hi | hi
        · exact (hlt i hi).trans (Nat.lt_succ_self k)
        · rw [List.mem_singleton] at hi
          subst hi
          exact Nat.lt_succ_self k
    · exact ⟨hp, fun i hi => (hlt i hi).trans (Nat.lt_succ_self k)⟩

theorem allFin_ascending (n : Nat) : (allFin n).Pairwise (· < ·) := (finsBelow_ascending n n).1

/-- An edited membership stands in order, whatever it was before (R11). -/
theorem editedMembers_ascending (old : List Slot) (op : Nat) (slots : List Nat) : Ascending (editedMembers old op slots) :=
  (allFin_ascending 256).filter _

theorem execGroupEdit_keeps (x : LinkId) (tag : Byte) (group op : Nat) (slots : List Nat) (s : State) : OutcomeKeeps s (execGroupEdit x tag group op slots s) := by
  refine .next <| takeRequest_keeps s fun _ ha u => checkWrite_keeps ha ?_
  split
  · exact ha _ _ _
  · refine .of_ite (ha _ _ _) (acceptWrite_keeps ha fun g l h => ?_)
    cases h
    exact editedMembers_ascending _ _ _

theorem execStoreErase_keeps (x : LinkId) (tag : Byte) (scope : Nat) (s : State) : OutcomeKeeps s (execStoreErase x tag scope s) := by
  refine .next <| takeRequest_keeps s fun _ ha u => checkWrite_keeps ha ?_
  split
  · exact ha _ _ _
  · exact .of_ite (ha _ _ _) (acceptWrite_keeps ha nofun)

/-! ## Completions -/

theorem reportWritten_keeps (o : StoreOperation) (s : State) : Keeps w s (reportWritten o s) :=
  (Soft.andThen (ev := false) (on := true) (.report _ _ _) (.report s _ _)).keeps

/-- The operation is over: no membership is in flight (R22). -/
theorem storeReady_keeps (s : State) : Keeps w s (storeReady s) :=
  setStore_keeps s _ (fun _ => rfl) fun ⟨h1, h2, _, h4⟩ => ⟨h1, h2, nofun, h4⟩

/-- A change of the store that leaves the groups' records as they are, and on a way marked `true` the global record. -/
theorem setStore_keeps_of_groups (s : State) (b : StoreBlock) (ht : w = true → b.site.global = s.store.site.global)
    (hs : b.stored.groups = s.store.stored.groups) (hm : b.site.groups = s.store.site.groups) (hst : b.state = s.store.state) :
    Keeps w s (s.setStore b) := by
  refine setStore_keeps s b (fun e => by rw [ht e]) fun ⟨h1, h2, h3, h4⟩ => ⟨fun g l h => h1 g l (hs ▸ h), fun g => ?_, fun o g l h => ?_, h4⟩
  · simpa [State.membership, hm] using h2 g
  · refine h3 o g l ?_
    simpa [inFlight, hst] using h

theorem clearMarks_keeps (p : RecordId → Bool) (s : State) : Keeps w s (clearMarks p s) :=
  setStore_keeps_of_groups s _ (fun _ => rfl) rfl rfl rfl

theorem writeEntry_keeps (i : Slot) (v : DirEntry) (s : State) : Keeps w s (writeEntry i v s) :=
  (clearMarks_keeps _ _).andThen (setStore_keeps_of_groups s _ (fun _ => rfl) rfl rfl rfl)

theorem writeSegment_keeps (seg : SegId) (v : SegRecord) (s : State) : Keeps w s (writeSegment seg v s) :=
  (clearMarks_keeps _ _).andThen (setStore_keeps_of_groups s _ (fun _ => rfl) rfl rfl rfl)

/-- The new threshold is not yet that of the counts. -/
theorem writeGlobal_keeps (v : GlobalRecord) (s : State) : Keeps false s (writeGlobal v s) :=
  (clearMarks_keeps _ _).andThen (setStore_keeps_of_groups s _ nofun rfl rfl rfl)

/-- A group takes the membership that was in flight, which stands in order (R12). -/
theorem writeGroup_keeps (g : GroupId) (l : List Slot) (s : State) (hl : GroupsOk s → Ascending l) : Keeps w s (writeGroup g l s) := by
  refine (clearMarks_keeps _ _).andThen (setStore_keeps s _ (fun _ => rfl) fun hs => ?_)
  have hg := hl hs
  obtain ⟨h1, h2, h3, h4⟩ := hs
  refine ⟨fun k m h => ?_, fun k => ?_, h3, h4⟩
  · by_cases hk : g = k
    · subst hk
      simp only [setCell, setStore_store, nth_modNth_same, Cell.valid.injEq] at h
      exact h ▸ hg
    · exact h1 k m (by simpa [setCell, hk] using h)
  · by_cases hk : g = k
    · subst hk; simpa [State.membership] using hg
    · simpa [State.membership, hk] using h2 k

/-- The store after an erase: a group in scope holds no slot (R24, R25). -/
theorem erasedStore_keeps (c : EraseScope) (s : State) : Keeps (decide (c ≠ .all)) s (s.setStore (erasedStore c s.store)) := by
  have empty (b : StoreBlock) (hb : b.stored.groups = (Vector.replicate 16 ([] : List Slot)).map .valid)
      (hm : b.site.groups = Vector.replicate 16 []) (hst : b.state = s.store.state) (hs : GroupsOk s) : GroupsOk (s.setStore b) := by
    obtain ⟨_, _, h3, h4⟩ := hs
    refine ⟨fun g l h => ?_, fun g => ?_, fun o g l h => h3 o g l ?_, h4⟩
    · simp only [setStore_store, hb, nth_map, nth_replicate, Cell.valid.injEq] at h
      exact h ▸ .nil
    · simp [State.membership, hm, Ascending]
    · simpa [inFlight, hst] using h
  cases c with
  | directory => exact setStore_keeps_of_groups s _ (fun _ => rfl) rfl rfl rfl
  | groups => exact setStore_keeps s _ (fun _ => rfl) (empty _ rfl rfl rfl)
  | all => exact setStore_keeps s _ nofun (empty _ rfl rfl rfl)

theorem abortAll_keeps (s : State) : Keeps w s (abortAll s) := .forEach (fun e t => abortEnd_keeps e _ t) _ s

theorem directoryErased_keeps (s : State) : Keeps w s (directoryErased s) := by
  refine .andThen (settle_keeps _ _) (Soft.keeps (ev := true) (on := false) ?_)
  refine .andThen (.forEach (fun g t => .fixSegment g t) _ _) (.andThen (.forEach .reassign _ _) (.line s _ fun _ => ⟨rfl, rfl, rfl, rfl, rfl, rfl⟩))

theorem clearEnd_keeps (e : EndId) (s : State) : Keeps w s (clearEnd e s) := (modEnd_keeps _ _ _).andThen (clearTimers_keeps e s)

theorem eraseEnd_keeps (e : EndId) (s : State) : Keeps w s (eraseEnd e s) :=
  .of_ite (.refl s) ((stopEnd_keeps _ _).andThen ((abortEnd_keeps _ _ _).andThen ((clearEnd_keeps _ _).andThen (changeEnd_keeps _ _ _ _ s))))

theorem Soft.emptyCommands {ev on : Bool} (e : EndId) (s : State) : Soft ev on s (Machine.emptyCommands e s) :=
  .endRec s e _ fun _ => rfl

theorem Soft.fixOverflowTimers {ev on : Bool} (s : State) : Soft ev on s (Machine.fixOverflowTimers s) := by
  refine .forEach (fun i t => ?_) _ s
  unfold fixOverflowTimer
  split
  · exact .of_ite (.callSame i _ t fun _ => ⟨rfl, rfl, .inl rfl, .inl rfl⟩) (.refl t)
  · exact .refl t

theorem emptyCommands_keeps (e : EndId) (s : State) : Keeps w s (emptyCommands e s) :=
  (Soft.emptyCommands (ev := false) (on := true) e s).keeps

theorem fixOverflowTimers_keeps (s : State) : Keeps w s (fixOverflowTimers s) :=
  (Soft.fixOverflowTimers (ev := false) (on := true) s).keeps

theorem erased_keeps (c : EraseScope) (s t : State) (h : Keeps (decide (c ≠ .all)) s t) : Keeps true s (erased c t) := by
  cases c with
  | groups => exact h
  | directory => exact (h.trans (abortAll_keeps t)).trans (directoryErased_keeps _)
  | all =>
    refine lowerCounts_keeps ((fixOverflowTimers_keeps _).andThen (.andThen (.forEach (fun e u => ?_) _ _) ?_))
    · exact .of_ite (.refl u) (reportEndState_keeps e u)
    · exact .andThen (.forEach emptyCommands_keeps _ _) ((directoryErased_keeps _).andThen (.andThen (.forEach eraseEnd_keeps _ _)
        ((abortAll_keeps t).andThen h)))

theorem Soft.placedRow {ev on : Bool} (i : Slot) (r : PostReach) (s : State) : Soft ev on s (Machine.placedRow i r s) :=
  .andThen (.post _ i _ fun _ => le_rfl) (.setReach i r s)

theorem Soft.placeEffects (i : Slot) (row : PostRow) (s : State) : Soft true false s (Machine.placeEffects i row s) := by
  unfold Machine.placeEffects
  dsimp only
  split
  · split
    · exact .of_ite (.refl s) (.andThen (.callHopMoved i _) (.abortTarget i _ s))
    iterate 2 exact .refl s
  · exact .reachEffects _ _ _ s

theorem Soft.placed (i : Slot) (p : PlaceForm) (row : PostRow) (s : State) : Soft false false s (Machine.placed i p row s) := by
  refine .andThen (.isolationAlarms _ _) (.andThen (.fixOverflowTimers _) (.settle ?_))
  exact .andThen (.forEach (fun g t => .fixSegment g t) _ _) (.andThen (.placeEffects i row _) (.andThen (.placedRow i _ _)
    (.forEach (fun g t => .rebuild g t) _ s)))

theorem placed_keeps (i : Slot) (p : PlaceForm) (row : PostRow) (s : State) : Keeps w s (placed i p row s) := (Soft.placed i p row s).keeps

theorem rewriteEnd_keeps (fitted : Bool) (e : EndId) (s : State) : Keeps w s (rewriteEnd fitted e s) := by
  have cleared : Keeps w s (clearEnd e (if (s.endRec e).state = .unfitted ∧ (segmentEnd fitted (s.endRec e).state).1 = .unfitted then s
      else changeEnd e (segmentEnd fitted (s.endRec e).state).1 (segmentEnd fitted (s.endRec e).state).2 .segmentWrite s)) :=
    (clearEnd_keeps _ _).andThen (.of_ite (.refl s) (changeEnd_keeps _ _ _ _ s))
  unfold rewriteEnd
  dsimp only
  split
  · exact (abortEnd_keeps _ _ _).andThen ((modEnd_keeps _ _ _).andThen cleared)
  · exact (stopEnd_keeps _ _).andThen ((abortEnd_keeps _ _ _).andThen cleared)
  iterate 3 exact cleared

theorem rebuild_keeps (seg : SegId) (s : State) : Keeps w s (rebuild seg s) := (Soft.rebuild (ev := false) (on := true) seg s).keeps

theorem segmentWritten_keeps (seg : SegId) (s : State) : Keeps w s (segmentWritten seg s) := by
  unfold segmentWritten
  dsimp only
  refine (isolationAlarms_keeps _ _).andThen ((fixOverflowTimers_keeps _).andThen (.andThen (.forEach (fun e u => ?_) _ _) ?_))
  · exact .of_ite (.refl u) (reportEndState_keeps e u)
  · have rewritten : Keeps w s (assignSegment seg (rebuild seg (forEach (endsOf seg) (rewriteEnd (s.segment seg).fitted) s))) :=
      (assignSegment_keeps _ _).andThen ((rebuild_keeps _ _).andThen (.forEach (rewriteEnd_keeps _) _ s))
    exact .of_ite rewritten (rewritten.trans (.forEach emptyCommands_keeps _ _))

section
variable (s : State)

theorem execNameWriteCompletion_keeps : OutcomeKeeps s (execNameWriteCompletion s) := by
  unfold execNameWriteCompletion
  split
  · split
    · exact .next ((storeReady_keeps _).andThen ((reportWritten_keeps _ _).andThen (writeEntry_keeps _ _ s)))
    · exact .next (.refl s)
  · exact .next (.refl s)

theorem execPlaceCompletion_keeps : OutcomeKeeps s (execPlaceCompletion s) := by
  unfold execPlaceCompletion
  split
  · split
    · refine .next (Keeps.andFinish ?_)
      exact (storeReady_keeps _).andThen ((placed_keeps _ _ _ _).andThen ((reportWritten_keeps _ _).andThen (writeEntry_keeps _ _ s)))
    · exact .next (.refl s)
  · exact .next (.refl s)

theorem execSegmentWriteCompletion_keeps : OutcomeKeeps s (execSegmentWriteCompletion s) := by
  unfold execSegmentWriteCompletion
  split
  · split
    · refine .next (Keeps.andFinish ?_)
      exact (storeReady_keeps _).andThen ((segmentWritten_keeps _ _).andThen ((reportWritten_keeps _ _).andThen (writeSegment_keeps _ _ s)))
    · exact .next (.refl s)
  · exact .next (.refl s)

theorem execGlobalWriteCompletion_keeps : OutcomeKeeps s (execGlobalWriteCompletion s) := by
  unfold execGlobalWriteCompletion
  split
  · split
    · exact .next ((storeReady_keeps _).andThen (lowerCounts_keeps ((reportWritten_keeps _ _).andThen (writeGlobal_keeps _ s))))
    · exact .next (.refl s)
  · exact .next (.refl s)

theorem execGroupEditCompletion_keeps : OutcomeKeeps s (execGroupEditCompletion s) := by
  unfold execGroupEditCompletion
  split
  · rename_i o _ hb
    split
    · rename_i g l hw
      refine .next ((storeReady_keeps _).andThen ((reportWritten_keeps _ _).andThen (writeGroup_keeps g l s fun ⟨_, _, h3, _⟩ => ?_)))
      exact h3 o g l (by simp [inFlight, hb]) hw
    · exact .next (.refl s)
  · exact .next (.refl s)

theorem execEraseCompletion_keeps : OutcomeKeeps s (execEraseCompletion s) := by
  unfold execEraseCompletion
  split
  · split
    · refine .next (Keeps.andFinish ((storeReady_keeps _).andThen (erased_keeps _ s _ ?_)))
      exact (reportWritten_keeps _ _).andThen ((clearMarks_keeps _ _).andThen (erasedStore_keeps _ s))
    · exact .next (.refl s)
  · exact .next (.refl s)

end

/-! ## Replies, failures and measurements -/

theorem takeStamp_keeps (s : State) : Keeps w s (takeStamp s) := .quiet rfl rfl rfl rfl rfl rfl rfl

theorem reportBoth_keeps (r : Report) (s : State) : Keeps w s (reportBoth r s) := (Soft.reportBoth (ev := false) (on := true) r s).keeps

/-- A row whose failure count does not grow. -/
theorem modPost_keeps_of_le (s : State) (i : Slot) (f : PostRow → PostRow) (h : ∀ r, (f r).failures ≤ r.failures) : Keeps w s (s.modPost i f) :=
  modPost_keeps s i f fun r hr => (h r).trans hr

theorem answered_keeps (i : Slot) (s : State) : Keeps w s (answered i s) := by
  have counted := modPost_keeps_of_le (w := w) s i (fun r => { r with failures := 0, reply := .answering, silenceReported :=
    r.silenceReported && !((s.post i).silenceReported && decide ((s.post i).reply ≠ .answering)) }) fun _ => Nat.zero_le _
  exact .of_ite (counted.trans (reportBoth_keeps _ _)) counted

theorem countMismatch_keeps (e : EndId) (i : Slot) (n : Nat) (s : State) : Keeps w s (countMismatch e i n s) := by
  unfold countMismatch
  split
  · refine .of_ite (modCounters_keeps s e _ fun c hc => ?_) (.refl s)
    obtain ⟨h1, h2, h3, h4, h5, h6⟩ := hc
    exact ⟨h1, h2, h3, h4, Soft.satInc_le h5, h6⟩
  · exact .refl s

theorem checkIdentity_keeps (e : EndId) (i : Slot) (n : Nat) (s : State) : Keeps w s (checkIdentity e i n s) := by
  unfold checkIdentity
  split
  · refine (countMismatch_keeps e i n s).trans (.of_ite (.refl _) ?_)
    exact (reportBoth_keeps _ _).andThen (modPost_keeps_of_le _ i _ fun _ => le_rfl)
  · exact .refl s

theorem checkSensors_keeps (i : Slot) (v : Sensors) (s : State) : Keeps w s (checkSensors i v s) :=
  .of_ite (.refl s) ((reportBoth_keeps _ _).andThen (modPost_keeps_of_le _ i _ fun _ => le_rfl))

theorem commandResult_keeps (i : Slot) (c : Command) (r : CommandResult) (s : State) : Keeps w s (commandResult i c r s) := by
  unfold commandResult
  split
  · unfold connectDone
    split
    · split
      · exact .of_ite ((modCall_keeps _ _ _).trans (Soft.reportParties (ev := false) (on := true) _ _ _ _).keeps) (.refl s)
      · exact .refl s
    · exact .refl s
  · refine .of_ite ?_ (.refl s)
    unfold ringRefused
    split
    · exact .of_ite ((takeStamp_keeps s).trans (Soft.answeredByPost (ev := false) (on := true) _ _ _).keeps) (.refl s)
    · exact .refl s
  · unfold releaseDone
    split
    · exact .of_ite (Soft.freeRecord (ev := false) _ s).keeps (.refl s)
    · exact .refl s
  · exact .refl s
  · exact .refl s
  · exact (Soft.announceResult (ev := false) (on := true) _ _ _ s).keeps
  · exact .refl s

theorem passResult_keeps (e : EndId) (i : Slot) (c : Option (Command × Nat)) (r : Option CommandResult) (s : State) :
    Keeps w s (passResult e i c r s) := by
  unfold passResult
  split
  · exact (modEnd_keeps _ _ _).trans (commandResult_keeps _ _ _ _)
  · exact .refl s

theorem passCallEvent_keeps (i : Slot) (b : Button) (s : State) : Keeps w s (passCallEvent i b s) :=
  ((takeStamp_keeps s).trans (Soft.callEvent i b _ _ (ev := false)).keeps).trans (Soft.abortTarget (ev := false) (on := true) i _ _).keeps

theorem hookAndButton_keeps (i : Slot) (hook : Hook) (b : Button) (s : State) : Keeps w s (hookAndButton i hook b s) := by
  have row (f : PostRow → PostRow) (h : ∀ r, (f r).failures = r.failures) : Keeps w s (s.modPost i f) :=
    modPost_keeps_of_le s i f fun r => (h r).le
  unfold hookAndButton
  dsimp only
  split
  · exact row _ fun _ => rfl
  · exact (Soft.onHook (ev := false) i _).keeps.andThen (row _ fun _ => rfl)
  · exact (passCallEvent_keeps _ _ _).andThen (row _ fun _ => rfl)
  · exact .of_ite (.refl s) ((passCallEvent_keeps _ _ _).andThen (row _ fun _ => rfl))

theorem releaseSuppression_keeps (e : EndId) (i : Slot) (s : State) : Keeps w s (releaseSuppression e i s) := modEnd_keeps _ _ _

theorem goodPoll_keeps (e : EndId) (i : Slot) (c : Option (Command × Nat)) (r : Reply) (s : State) : Keeps w s (goodPoll e i c r s) :=
  (hookAndButton_keeps _ _ _ _).andThen ((passResult_keeps _ _ _ _ _).andThen ((checkSensors_keeps _ _ _).andThen
    ((checkIdentity_keeps _ _ _ _).andThen ((releaseSuppression_keeps _ _ _).andThen (answered_keeps i s)))))

/-- A failure is counted up to the threshold and no further (R43). -/
theorem postFails_keeps (i : Slot) (s : State) : Keeps w s (postFails i s) := by
  have counted := modPost_keeps (w := w) s i (fun r =>
      { r with failures := if r.failures < s.store.site.global.threshold then r.failures + 1 else r.failures }) fun r hr => by
    dsimp only
    split <;> omega
  refine .of_ite (counted.trans ((modPost_keeps_of_le _ i _ ?_).trans (.of_ite (.refl _) (reportBoth_keeps _ _)))) counted
  exact fun _ => le_rfl

theorem failedPoll_keeps (e : EndId) (i : Slot) (s : State) : Keeps true s (failedPoll e i s) :=
  (postFails_keeps i s).trans (.of_ite (goTesting_keeps _ _ _) (.refl _))

theorem movedPoll_keeps (e : EndId) (i : Slot) (o : PollOutcome) (s : State) : Keeps w s (movedPoll e i o s) := by
  unfold movedPoll
  split
  · exact countMismatch_keeps _ _ _ s
  iterate 2 exact .refl s

theorem endTransaction_keeps (e : EndId) (s : State) : Keeps w s (endTransaction e s) := modPort_keeps _ _ _

/-- A running burst whose counters stay in range. -/
theorem modRunning_keeps (e : EndId) (f : Burst → Burst) (s : State) (h : ∀ b, b.ok → (f b).ok) : Keeps w s (modRunning e f s) := by
  refine modBurst_keeps s e _ fun b hb => ?_
  cases b with
  | running b => exact h b hb
  | none => exact hb
  | ended _ _ => exact hb

theorem countOutcome_ok (o : PollOutcome) (c : Counters) (h : c.ok) : (countOutcome o c).ok := by
  obtain ⟨h1, h2, h3, h4, h5, h6⟩ := h
  cases o with
  | good _ => exact ⟨h1, Soft.satInc_le h2, h3, h4, h5, h6⟩
  | corrupt => exact ⟨h1, h2, Soft.satInc_le h3, h4, h5, h6⟩
  | silent => exact ⟨h1, h2, h3, Soft.satInc_le h4, h5, h6⟩

theorem lastWasPoll_keeps (e : EndId) (s : State) : Keeps w s (lastWasPoll e s) := modRunning_keeps e _ s fun _ h => h

theorem pollEnds_keeps (e : EndId) (i : Slot) (hop : Nat) (c : Option (Command × Nat)) (o : PollOutcome) (s : State) :
    Keeps true s (pollEnds e i hop c o s) := by
  have counted : Keeps true s ((lastWasPoll e (endTransaction e s)).modCounters e (countOutcome o)) :=
    (modCounters_keeps _ e _ (countOutcome_ok o)).andThen ((lastWasPoll_keeps e _).andThen (endTransaction_keeps e s))
  refine (counted.trans (.of_ite ?_ (movedPoll_keeps _ _ _ _))).andFinish
  split
  · exact goodPoll_keeps _ _ _ _ _
  iterate 2 exact failedPoll_keeps _ _ _

theorem execPollReply_keeps (e : EndId) (l : List Byte) (s : State) : OutcomeKeeps s (execPollReply e l s) := by
  unfold execPollReply
  split
  · exact .next (pollEnds_keeps _ _ _ _ _ s)
  · exact .next (.refl s)

theorem execPollWindowExpiry_keeps (e : EndId) (s : State) : OutcomeKeeps s (execPollWindowExpiry e s) := by
  unfold execPollWindowExpiry
  split
  · exact .next (pollEnds_keeps _ _ _ _ _ s)
  · exact .next (.refl s)

theorem countEcho_ok (o : EchoOutcome) (b : Burst) (h : b.ok) : (countEcho o b).ok := by
  obtain ⟨h1, h2, h3, h4⟩ := h
  cases o with
  | good => exact ⟨h1, Soft.satInc_le h2, h3, h4⟩
  | bad => exact ⟨h1, h2, Soft.satInc_le h3, h4⟩
  | silent => exact ⟨h1, h2, h3, Soft.satInc_le h4⟩

theorem testCounted_keeps (e : EndId) (counted : Bool) (o : EchoOutcome) (s : State) : Keeps w s (testCounted e counted o s) := by
  refine .of_ite ((modRunning_keeps e _ s (countEcho_ok o)).trans ?_) (modRunning_keeps e _ s fun _ h => h)
  unfold endIfDone
  split
  · exact .of_ite (Soft.endBurst (ev := false) (on := true) e _ _).keeps (.refl _)
  iterate 2 exact .refl _

theorem goodTest_keeps (e : EndId) (i : Slot) (r : Reply) (s : State) : Keeps w s (goodTest e i r s) :=
  (hookAndButton_keeps _ _ _ _).andThen ((checkSensors_keeps _ _ _).andThen ((checkIdentity_keeps _ _ _ _).andThen
    (releaseSuppression_keeps e i s)))

theorem execTestFrameReply_keeps (e : EndId) (l : List Byte) (s : State) : OutcomeKeeps s (execTestFrameReply e l s) := by
  unfold execTestFrameReply
  split
  · have counted (c : Bool) (o : EchoOutcome) : Keeps true s (testCounted e c o (endTransaction e s)) :=
      (endTransaction_keeps e s).trans (testCounted_keeps e c o _)
    refine .next (Keeps.andFinish ?_)
    split
    · exact (counted _ _).trans (goodTest_keeps _ _ _ _)
    · exact counted _ _
  · exact .next (.refl s)

theorem execTestFrameWindowExpiry_keeps (e : EndId) (s : State) : OutcomeKeeps s (execTestFrameWindowExpiry e s) := by
  unfold execTestFrameWindowExpiry
  split
  · exact .next ((endTransaction_keeps e s).trans (testCounted_keeps e _ _ _)).andFinish
  · exact .next (.refl s)

theorem execLoopLossEvent_keeps (e : EndId) (s : State) : OutcomeKeeps s (execLoopLossEvent e s) := by
  unfold execLoopLossEvent
  split
  · exact .next ((modPort_keeps _ _ _).trans (.of_ite (goTesting_keeps _ _ _).andFinish (.refl _)))
  · exact .next (modPort_keeps _ _ _)

theorem execLoopCurrentRestored_keeps (e : EndId) (s : State) : OutcomeKeeps s (execLoopCurrentRestored e s) := .next (modPort_keeps _ _ _)

theorem execMeasurementBegin_keeps (e : EndId) (s : State) : OutcomeKeeps s (execMeasurementBegin e s) := by
  unfold execMeasurementBegin
  split
  · refine .next ((modEnd_keeps _ _ _).trans (modCounters_keeps _ e _ fun c hc => ?_)).andFinish
    obtain ⟨h1, h2, h3, h4, h5, h6⟩ := hc
    exact ⟨h1, h2, h3, h4, h5, Soft.satInc_le h6⟩
  · exact .next (.refl s)

theorem takeRecord_keeps (e : EndId) (k : MeasKind) (d : Nat) (g : Option SegId) (s : State) : Keeps w s (takeRecord e k d g s) :=
  (changeEnd_keeps _ _ _ _ s).trans (modEnd_keeps _ _ _)

theorem takeResult_keeps (e : EndId) (k : MeasKind) (d : Nat) (g : Option SegId) (s : State) : Keeps w s (takeResult e k d g s) :=
  (isolationAlarms_keeps _ _).andThen ((reportEndState_keeps _ _).andThen ((assignSegment_keeps _ _).andThen
    ((takeRecord_keeps e k d g s).trans (.of_ite (stopEnd_keeps _ _) (.refl _)))))

theorem execMeasurementResult_keeps (e : EndId) (k : MeasKind) (d : Nat) (g : Option SegId) (s : State) :
    OutcomeKeeps s (execMeasurementResult e k d g s) := by
  unfold execMeasurementResult
  split
  · split
    · exact .next (modEnd_keeps _ _ _).andFinish
    · exact .next (takeResult_keeps e k d g s).andFinish
  · exact .next (.refl s)

theorem execRetryWaitExpiry_keeps (e : EndId) (s : State) : OutcomeKeeps s (execRetryWaitExpiry e s) := by
  unfold execRetryWaitExpiry
  split
  · exact .next ((reach_keeps s _).trans (modEnd_keeps _ _ _)).andFinish
  · exact .next (.refl s)

theorem retestExpires_keeps (e : EndId) (s : State) : Keeps true s (retestExpires e s) := by
  unfold retestExpires
  split
  · exact goTesting_keeps _ _ s
  · exact .of_ite (modEnd_keeps _ _ _) (goTesting_keeps _ _ s)
  iterate 3 exact .refl s

theorem execRetestTimerExpiry_keeps (e : EndId) (s : State) : OutcomeKeeps s (execRetestTimerExpiry e s) := by
  unfold execRetestTimerExpiry
  split
  · exact .next ((reach_keeps s _).trans (retestExpires_keeps e _)).andFinish
  · exact .next (.refl s)

/-! ## The links -/

theorem startSilence_keeps (x : LinkId) (s : State) : Keeps w s (startSilence x s) := modLink_keeps s x _ fun _ h => h

theorem linkUp_keeps (x : LinkId) (s : State) : Keeps w s (linkUp x s) := by
  have cleared := modLink_keeps (w := w) s x (fun l => { l with up := true, good := 0, badCheck := 0, discarded := 0, firstUp := false })
    fun _ _ => ⟨Nat.zero_le _, Nat.zero_le _, Nat.zero_le _⟩
  refine (Soft.offerAllTo (ev := false) (on := true) x _).keeps.andThen (.trans (cleared.trans (startSilence_keeps x _)) (.of_ite ?_ ?_))
  · exact modLink_keeps _ x _ fun _ h => h
  · exact (Soft.report (ev := false) (on := true) _ x _).keeps

theorem takeFrame_keeps (x : LinkId) (f : Frame) (s : State) : Keeps w s (takeFrame x f s) := by
  refine (startSilence_keeps x s).trans (.of_ite (.refl _) (.of_ite ?_ ?_))
  · exact modLink_keeps _ x _ fun l ⟨hg, hb, hd⟩ => ⟨Soft.satInc_le hg, hb, hd⟩
  · exact modLink_keeps _ x _ fun l ⟨hg, hb, hd⟩ => ⟨hg, hb, Soft.satInc_le hd⟩

theorem execFrameReceived_keeps (x : LinkId) (l : List Byte) (s : State) : OutcomeKeeps s (execFrameReceived x l s) := by
  unfold execFrameReceived
  split
  · split
    · exact .next (.trans (.of_ite (.refl s) (linkUp_keeps x s)) (takeFrame_keeps x _ _))
    · exact .next (modLink_keeps s x _ fun l ⟨hg, hb, hd⟩ => ⟨hg, Soft.satInc_le hb, hd⟩)
  · exact .next (.refl s)

theorem linkDown_keeps (x : LinkId) (s : State) : Keeps w s (linkDown x s) := by
  have closed : Keeps w s (closeLink x s) := modLink_keeps s x _ fun _ h => h
  have freed (t : State) : Keeps w t (freeTrunks x t) := modLink_keeps t x _ fun _ h => h
  have groups (t : State) : Keeps w t (forEach (allFin 16) (sourceLost x) t) :=
    .forEach (fun g u => (Soft.sourceLost (ev := false) (on := true) x g u).keeps) _ t
  exact (freed _).andThen ((groups _).andThen (.andThen (Soft.callsLoseLink (ev := false) x _).keeps closed))

theorem execLossOfFraming_keeps (x : LinkId) (s : State) : OutcomeKeeps s (execLossOfFraming x s) := by
  unfold execLossOfFraming
  split
  · exact .next (linkDown_keeps x s).andFinish
  · exact .next (.refl s)

theorem execSilenceTimerExpiry_keeps (x : LinkId) (s : State) : OutcomeKeeps s (execSilenceTimerExpiry x s) := by
  unfold execSilenceTimerExpiry
  split
  · split
    · exact .next ((reach_keeps s _).trans (linkDown_keeps x _)).andFinish
    · exact .next (.refl s)
  · exact .next (.refl s)

theorem execReportFrameSent_keeps (x : LinkId) (s : State) : OutcomeKeeps s (execReportFrameSent x s) := by
  unfold execReportFrameSent
  split
  · split <;> exact .next (modLink_keeps s x _ fun _ h => h)
  · exact .next (.refl s)

theorem execBadRequestFrame_keeps (x : LinkId) (tag typ : Byte) (s : State) : OutcomeKeeps s (execBadRequestFrame x tag typ s) := by
  unfold execBadRequestFrame
  split
  · exact .next ((popIntake_keeps x s).trans (respond_keeps x tag typ _ _ _))
  · exact .next (.refl s)

/-! ## Power -/

/-- The volatile state at its power-on values has every counter and failure count at 0 (R29). -/
theorem volatileReset_countersOk (p : Bool) (b : StoreBlock) (s : State) : CountersOk (volatileReset p b s) := by
  have powerOn : LinkRecord.powerOn.countersOk := ⟨Nat.zero_le _, Nat.zero_le _, Nat.zero_le _⟩
  refine ⟨fun e => ⟨?_, ?_⟩, powerOn, powerOn, fun i => ?_⟩
  · simpa [volatileReset, State.counters, LineBlock.powerOn] using Counters.zero_ok
  · simp [volatileReset, State.burst, LineBlock.powerOn, BurstRecord.ok]
  · simp [volatileReset, State.post, LineBlock.powerOn, PostRow.powerOn]

/-- Every stored membership stands in order (R11). -/
def StoredAscending (r : StoredRecords) : Prop := ∀ (g : GroupId) (l : List Slot), nth r.groups g = .valid l → Ascending l

theorem eraseCells_ascending {reached base : Nat} {t : Vector (Cell (List Slot)) 16}
    (h : ∀ (g : GroupId) (l : List Slot), nth t g = .valid l → Ascending l) (g : GroupId) (l : List Slot)
    (hl : nth (eraseCells reached base [] t) g = .valid l) : Ascending l := by
  have hl : eraseCell reached (base + g.val) [] (nth t g) = .valid l := by simpa [eraseCells, nth] using hl
  unfold eraseCell at hl
  split at hl
  · cases hl; exact .nil
  · split at hl
    · cases hl
    · exact h g l hl

/-- An interrupted operation leaves the stored memberships in order: those it reached are empty or bad (R28). -/
theorem interrupted_ascending (x : StoreWrite) (reached : Nat) {r : StoredRecords} (h : StoredAscending r) :
    StoredAscending (interrupted x reached r) := by
  cases x with
  | group k _ =>
    intro g l hl
    by_cases hk : k = g
    · subst hk; simp [interrupted] at hl
    · exact h g l (by simpa [interrupted, hk] using hl)
  | erase c =>
    cases c with
    | directory =>
      have same : (interrupted (.erase .directory) reached r).groups = r.groups := by simp only [interrupted]
      exact fun g l hl => h g l (same ▸ hl)
    | groups => exact eraseCells_ascending h
    | all => exact eraseCells_ascending h
  | _ => exact fun g l hl => h g l hl

theorem storedAfterLoss_ascending (s : State) (reached : Nat) (h : StoredAscending s.store.stored) :
    StoredAscending (storedAfterLoss s reached) := by
  unfold storedAfterLoss
  split
  · exact interrupted_ascending _ _ h
  · exact h

/-- After a reset the groups stand in order where the records of the store and of the working copy do (R29). -/
theorem volatileReset_groupsOk (p : Bool) (b : StoreBlock) (s : State) (hb : StoredAscending b.stored)
    (hm : ∀ g, Ascending (nth b.site.groups g)) (hst : b.state = .starting) : GroupsOk (volatileReset p b s) := by
  refine ⟨hb, hm, fun o g l h => ?_, fun g => ?_⟩
  · simp [inFlight, volatileReset, hst] at h
  · simp [volatileReset, memberSlots, State.group, State.reset, GroupRun.powerOn, Ascending]

theorem loaded_ascending {r : StoredRecords} (h : StoredAscending r) (g : GroupId) : Ascending (nth (loadSite r).groups g) := by
  rw [loadSite, nth_map]
  cases hc : nth r.groups g with
  | valid l => exact h g l hc
  | blank => exact .nil
  | bad => exact .nil

theorem execPowerOnReset_keeps (reached : Nat) (s : State) : OutcomeKeeps s (execPowerOnReset reached s) := by
  refine .next ⟨fun _ => ?_, fun _ _ => ?_, fun ⟨h1, _, _, _⟩ => ?_⟩
  · exact ((countersOk_iff _).mp (volatileReset_countersOk _ _ s)).1
  · exact ((countersOk_iff _).mp (volatileReset_countersOk _ _ s)).2
  · have stored := storedAfterLoss_ascending s reached h1
    exact volatileReset_groupsOk _ _ s stored (loaded_ascending stored) rfl

theorem execPowerLoss_keeps (reached : Nat) (s : State) : OutcomeKeeps s (execPowerLoss reached s) := by
  unfold execPowerLoss
  split
  · refine .next ⟨fun _ => ?_, fun _ _ => ?_, fun ⟨h1, _, _, _⟩ => ?_⟩
    · exact ((countersOk_iff _).mp (volatileReset_countersOk _ _ s)).1
    · exact ((countersOk_iff _).mp (volatileReset_countersOk _ _ s)).2
    · exact volatileReset_groupsOk _ _ s (storedAfterLoss_ascending s reached h1) (fun g => by simp [Site.blank, Ascending]) rfl
  · exact .next (.refl s)

theorem releaseStart_keeps (x : LinkId) (s : State) : Keeps w s (releaseStart x s) := by
  unfold releaseStart
  split
  · exact (Soft.report (ev := false) (on := true) _ x _).keeps.andThen (modLink_keeps s x _ fun _ h => h)
  · exact .refl s

theorem execStartUpLoadEnd_keeps (s : State) : OutcomeKeeps s (execStartUpLoadEnd s) := by
  unfold execStartUpLoadEnd
  split
  · refine .next (Keeps.andFinish ?_)
    refine .andThen (.forEach (fun e t => .of_ite (reportEndState_keeps e t) (.refl t)) _ _) ((releaseStart_keeps _ _).andThen
      ((releaseStart_keeps _ _).andThen ((storeReady_keeps _).andThen (.andThen (.forEach assignSegment_keeps _ _)
        (.andThen (.forEach (fun e t => .of_ite ?_ (.refl t)) _ _) (.forEach rebuild_keeps _ s))))))
    exact (changeEnd_keeps _ _ _ _ t).trans (modEnd_keeps _ _ _)
  · exact .next (.refl s)

/-! ## The step -/

theorem exec_keeps (c : Instr) (s : State) : OutcomeKeeps s (exec c s) := by
  cases c with
  | powerOnReset => exact execPowerOnReset_keeps _ s
  | powerLoss => exact execPowerLoss_keeps _ s
  | startUpLoadEnd => exact execStartUpLoadEnd_keeps s
  | frameReceived => exact execFrameReceived_keeps _ _ s
  | lossOfFraming => exact execLossOfFraming_keeps _ s
  | silenceTimerExpiry => exact execSilenceTimerExpiry_keeps _ s
  | reportFrameSent => exact execReportFrameSent_keeps _ s
  | badRequestFrame => exact execBadRequestFrame_keeps _ _ _ s
  | answer => exact execAnswer_keeps _ _ _ _ _ s
  | join => exact execJoin_keeps _ _ _ _ _ s
  | leave => exact execLeave_keeps _ _ _ _ s
  | clear => exact execClear_keeps _ _ _ _ s
  | callPost => exact execCallPost_keeps _ _ _ _ s
  | queryCalls => exact execQueryCalls_keeps _ _ _ s
  | announceStart => exact execAnnounceStart_keeps _ _ _ _ s
  | announceStop => exact execAnnounceStop_keeps _ _ _ s
  | groupEdit => exact execGroupEdit_keeps _ _ _ _ _ s
  | groupResult => exact execGroupResult_keeps _ _ _ _ s
  | endServiceOff => exact execEndServiceOff_keeps _ _ _ _ s
  | endServiceOn => exact execEndServiceOn_keeps _ _ _ s
  | lineTest => exact execLineTest_keeps _ _ _ s
  | lineStats => exact execLineStats_keeps _ _ _ _ s
  | postTest => exact execPostTest_keeps _ _ _ _ _ s
  | postTestStop => exact execPostTestStop_keeps _ _ _ s
  | queryPost => exact execQueryPost_keeps _ _ _ s
  | queryEnd => exact execQueryEnd_keeps _ _ _ s
  | writeEnable => exact execWriteEnable_keeps _ _ s
  | writeDisable => exact execWriteDisable_keeps _ _ s
  | directoryWriteName => exact execDirectoryWriteName_keeps _ _ _ _ s
  | directoryWritePlace => exact execDirectoryWritePlace_keeps _ _ _ _ s
  | siteWriteSegment => exact execSiteWriteSegment_keeps _ _ _ _ s
  | siteWriteGlobal => exact execSiteWriteGlobal_keeps _ _ _ s
  | storeErase => exact execStoreErase_keeps _ _ _ s
  | directoryRead => exact execDirectoryRead_keeps _ _ _ _ _ s
  | nameWriteCompletion => exact execNameWriteCompletion_keeps s
  | placeCompletion => exact execPlaceCompletion_keeps s
  | segmentWriteCompletion => exact execSegmentWriteCompletion_keeps s
  | globalWriteCompletion => exact execGlobalWriteCompletion_keeps s
  | groupEditCompletion => exact execGroupEditCompletion_keeps s
  | eraseCompletion => exact execEraseCompletion_keeps s
  | pollReply => exact execPollReply_keeps _ _ s
  | pollWindowExpiry => exact execPollWindowExpiry_keeps _ s
  | testFrameReply => exact execTestFrameReply_keeps _ _ s
  | testFrameWindowExpiry => exact execTestFrameWindowExpiry_keeps _ s
  | loopLossEvent => exact execLoopLossEvent_keeps _ s
  | loopCurrentRestored => exact execLoopCurrentRestored_keeps _ s
  | measurementBegin => exact execMeasurementBegin_keeps _ s
  | measurementResult => exact execMeasurementResult_keeps _ _ _ _ s
  | retryWaitExpiry => exact execRetryWaitExpiry_keeps _ s
  | retestTimerExpiry => exact execRetestTimerExpiry_keeps _ s
  | overflowTimerExpiry => exact execOverflowTimerExpiry_keeps _ s
  | ringTimerExpiry => exact execRingTimerExpiry_keeps _ s
  | clearConfirmTimerExpiry => exact execClearConfirmTimerExpiry_keeps _ s
  | acknowledgeWindowExpiry => exact execAcknowledgeWindowExpiry_keeps _ s
  | acknowledgeLateExpiry => exact execAcknowledgeLateExpiry_keeps _ s

theorem tick_keeps (s : State) : Keeps w s s.tick := .of_ite (.quiet rfl rfl rfl rfl rfl rfl rfl) (.refl s)

theorem step_keeps {s t : State} (h : step s = .next t) : Keeps true s t := by
  unfold step at h
  split at h
  · exact Host.Outcome.next.inj h ▸ tick_keeps s
  · exact (withPending_keeps s _).trans (exec_keeps _ _ t h)

/-- Settles O19: every command has `Keeps`, whose part on the counters is this. -/
theorem stepKeepsCounters : Obligations.stepKeepsCounters := fun _ _ hs h => (step_keeps h).countersOk hs

/-- Settles O21: every command has `Keeps`, whose part on the groups is this. -/
theorem stepKeepsGroups : Obligations.stepKeepsGroups := fun _ _ hs h => (step_keeps h).groups hs

end Sys2Proof.Machine
end

