-- ==== Sys2Proof/Proofs/Tables.lean ====
section
/-! PROOF. The list of the numbers below a bound, and the hop map as the sorted list of a segment's present entries (O26). -/

namespace Sys2Proof.Machine

/-! ## The numbers below a bound -/

theorem mem_finsBelow {n : Nat} {i : Fin n} : ∀ {k : Nat}, i ∈ finsBelow n k ↔ i.val < k
  | 0 => by simp [finsBelow]
  | k + 1 => by
    unfold finsBelow
    split
    · simp only [List.mem_append, List.mem_singleton, mem_finsBelow, Fin.ext_iff]
      omega
    · simp only [mem_finsBelow]
      omega

/-- `allFin` leaves no number out. -/
@[simp] theorem mem_allFin {n : Nat} (i : Fin n) : i ∈ allFin n := mem_finsBelow.mpr i.isLt

theorem allFin_nodup (n : Nat) : (allFin n).Nodup := (allFin_ascending n).imp fun h => ne_of_lt h

/-! ## The hop map (R16) -/

theorem mem_presentOn {s : State} {seg : SegId} {i : Slot} :
    i ∈ presentOn s seg ↔ (s.entry i).place.present = true ∧ (s.entry i).place.seg = seg := by
  simp [presentOn]

theorem presentOn_nodup (s : State) (seg : SegId) : (presentOn s seg).Nodup := (allFin_nodup 256).filter _

theorem insertByPosition_perm (s : State) (i : Slot) : ∀ l : List Slot, (insertByPosition s i l).Perm (i :: l)
  | [] => .refl _
  | j :: l => by
    unfold insertByPosition
    split
    · exact .refl _
    · exact ((insertByPosition_perm s i l).cons j).trans (.swap i j l)

/-- Two slots in the order of their positions. -/
def NotAbove (s : State) (i j : Slot) : Prop := (s.entry i).place.position ≤ (s.entry j).place.position

theorem insertByPosition_sorted (s : State) (i : Slot) :
    ∀ l : List Slot, l.Pairwise (NotAbove s) → (insertByPosition s i l).Pairwise (NotAbove s)
  | [], _ => List.pairwise_singleton _ _
  | j :: l, h => by
    obtain ⟨hj, hl⟩ := List.pairwise_cons.mp h
    unfold insertByPosition
    split
    · rename_i hlt
      refine List.pairwise_cons.mpr ⟨fun k hk => ?_, h⟩
      rcases List.mem_cons.mp hk with rfl | hk
      · exact hlt.le
      · exact hlt.le.trans (hj k hk)
    · rename_i hge
      refine List.pairwise_cons.mpr ⟨fun k hk => ?_, insertByPosition_sorted s i l hl⟩
      rcases List.mem_cons.mp ((insertByPosition_perm s i l).mem_iff.mp hk) with rfl | hk
      · exact Nat.not_lt.mp hge
      · exact hj k hk

theorem hopMapOf_perm (s : State) (seg : SegId) : (hopMapOf s seg).Perm (presentOn s seg) := by
  unfold hopMapOf
  induction presentOn s seg with
  | nil => exact .refl _
  | cons i l ih => exact (insertByPosition_perm s i _).trans (ih.cons i)

theorem hopMapOf_sorted (s : State) (seg : SegId) : (hopMapOf s seg).Pairwise (NotAbove s) := by
  unfold hopMapOf
  induction presentOn s seg with
  | nil => exact .nil
  | cons i l ih => exact insertByPosition_sorted s i _ ih

/-! ## Hops -/

/-- In a list that holds no slot twice, a slot has the place where it stands. -/
theorem placeIn_of_getElem? {i : Slot} : ∀ {l : List Slot} {k : Nat}, l.Nodup → l[k]? = some i → placeIn i l = k + 1
  | [], _, _, h => by simp at h
  | j :: l, 0, _, h => by
    simp only [List.getElem?_cons_zero, Option.some.injEq] at h
    simp [placeIn, h]
  | j :: l, k + 1, hn, h => by
    obtain ⟨hj, hl⟩ := List.nodup_cons.mp hn
    simp only [List.getElem?_cons_succ] at h
    have hne : j ≠ i := fun e => hj (e ▸ List.mem_of_getElem? h)
    simp [placeIn, hne, placeIn_of_getElem? hl h]

/-- Place k, counted from 0, has hop k + 1 from the A end and n − k from the B end. -/
theorem hopFrom_of_place {s : State} {e : EndId} {i : Slot} {k : Nat} (h : placeIn i (s.hopMap e.seg) = k + 1) :
    hopFrom s e i = match e.side with
      | .a => k + 1
      | .b => (s.hopMap e.seg).length - k := by
  unfold hopFrom
  simp only [h]
  cases e.side <;> rfl

/-- Settles O26: inserting by position sorts the present entries, and a place in the map is a hop from either end. -/
theorem hopMapGivesHops : Obligations.hopMapGivesHops := by
  intro s seg
  refine ⟨fun i => (hopMapOf_perm s seg).mem_iff.trans mem_presentOn, (hopMapOf_perm s seg).nodup_iff.mpr (presentOn_nodup s seg),
    hopMapOf_sorted s seg, fun k i hn hk => ?_⟩
  have place := placeIn_of_getElem? hn hk
  obtain ⟨hlt, -⟩ := List.getElem?_eq_some_iff.mp hk
  refine ⟨hopFrom_of_place (e := ⟨seg, .a⟩) place, ?_⟩
  have fromB := hopFrom_of_place (e := ⟨seg, .b⟩) place
  simp only at fromB
  omega

end Sys2Proof.Machine
end

