-- ==== Sys2Proof/Proofs/Location.lean ====
section
/-! PROOF. The Location Unit (O23): the arithmetic of a chainage, and where a name block and a fault record take theirs from. -/

namespace Sys2Proof.Machine

/-! ## Chainages (R14) -/

theorem chainageOf_increasing {r : SegRecord} (h : r.direction = .increasing) (p : Nat) :
    chainageOf r p = min (r.anchor + p * 1000 / r.layRatio) 999999 := by
  simp [chainageOf, h, Config.chainageTop]

theorem chainageOf_decreasing {r : SegRecord} (h : r.direction = .decreasing) (p : Nat) :
    chainageOf r p = r.anchor - p * 1000 / r.layRatio := by
  simp [chainageOf, h]

/-- A road offset grows with the cable position. -/
theorem offset_mono (c : Nat) {p q : Nat} (h : p ≤ q) : p * 1000 / c ≤ q * 1000 / c := Nat.div_le_div_right (Nat.mul_le_mul_right 1000 h)

/-- Road is shorter than cable: the lay ratio is 1000 or more. -/
theorem offset_le {p c : Nat} (hp : p ≤ 12000) (hc : 1000 ≤ c) : p * 1000 / c ≤ 12000 :=
  Nat.div_le_of_le_mul (calc
    p * 1000 ≤ 12000 * 1000 := Nat.mul_le_mul_right 1000 hp
    _ = 1000 * 12000 := Nat.mul_comm _ _
    _ ≤ c * 12000 := Nat.mul_le_mul_right 12000 hc)

theorem chainageOf_mono {r : SegRecord} (h : r.direction = .increasing) {p q : Nat} (hpq : p ≤ q) : chainageOf r p ≤ chainageOf r q := by
  have := offset_mono r.layRatio hpq
  rw [chainageOf_increasing h, chainageOf_increasing h]
  omega

theorem chainageOf_anti {r : SegRecord} (h : r.direction = .decreasing) {p q : Nat} (hpq : p ≤ q) : chainageOf r q ≤ chainageOf r p := by
  have := offset_mono r.layRatio hpq
  rw [chainageOf_decreasing h, chainageOf_decreasing h]
  omega

theorem chainageOf_le (r : SegRecord) (p : Nat) (ha : r.anchor ≤ 999999) : chainageOf r p ≤ 999999 := by
  cases h : r.direction with
  | increasing => rw [chainageOf_increasing h]; omega
  | decreasing => rw [chainageOf_decreasing h]; exact (Nat.sub_le _ _).trans ha

/-- A chainage lies between those of the two ends of the cable. -/
theorem chainageOf_between (r : SegRecord) {p : Nat} (hp : p ≤ r.cableLength) :
    min (chainageOf r 0) (chainageOf r r.cableLength) ≤ chainageOf r p
      ∧ chainageOf r p ≤ max (chainageOf r 0) (chainageOf r r.cableLength) := by
  cases h : r.direction with
  | increasing => exact ⟨(min_le_left _ _).trans (chainageOf_mono h (Nat.zero_le p)), (chainageOf_mono h hp).trans (le_max_right _ _)⟩
  | decreasing => exact ⟨(min_le_right _ _).trans (chainageOf_anti h hp), (chainageOf_anti h (Nat.zero_le p)).trans (le_max_left _ _)⟩

/-! ## Fault records (R56, R65) -/

theorem faultRecordOf_chainage (r : SegRecord) (side : Side) (k : MeasKind) (d : Nat) (c : Option SegId) :
    (faultRecordOf r side k d c).chainage = (faultRecordOf r side k d c).position.map (chainageOf r) := by
  unfold faultRecordOf
  split
  · dsimp only
    split <;> rfl
  · rfl

theorem faultRecordOf_distance (r : SegRecord) (side : Side) {k : MeasKind} (h : hasDistance k = true) (d : Nat) (c : Option SegId) :
    (faultRecordOf r side k d c).distance = d * r.speed / 200 := by
  unfold faultRecordOf
  rw [if_pos h]
  dsimp only
  split <;> rfl

theorem changeEnd_endRec_same (e : EndId) (st : EndState) (r : EndReach) (c : EndCause) (s : State) :
    (changeEnd e st r c s).endRec e = { s.endRec e with state := st, reach := r, previous := some (s.endRec e).state, cause := some c } := by
  unfold changeEnd
  dsimp only
  split <;> simp

theorem takeRecord_fault (e : EndId) (k : MeasKind) (d : Nat) (c : Option SegId) (s : State) :
    ((takeRecord e k d c s).endRec e).fault = some (faultRecordOf (s.segment e.seg) e.side k d c) := by
  simp [takeRecord]

/-- A chain of small updates leaves fault records alone. -/
theorem Soft.fault {ev on : Bool} {s t : State} (h : Soft ev on s t) (e : EndId) : (t.endRec e).fault = (s.endRec e).fault := by
  have := congrArg EndRecord.fault (h.frame.core e)
  exact this

/-- What follows the record of a result leaves it (R60). -/
theorem takeResult_soft (e : EndId) (k : MeasKind) (d : Nat) (c : Option SegId) (s : State) :
    Soft false false (takeRecord e k d c s) (takeResult e k d c s) :=
  .andThen (.isolationAlarms _ _) (.andThen (.reportEndState _ _) (.andThen (.assignSegment _ _) (.of_ite (.stopEnd _ _) (.refl _))))

theorem execMeasurementResult_taken {e : EndId} {k : MeasKind} {d : Nat} {c : Option SegId} {s : State} (hp : s.powered = true)
    (ht : (s.endRec e).state = .testing) (hm : (s.endRec e).measurement = .running) (hw : measurementWf e k d c = true)
    (hb : ¬ (k = .busy ∧ (s.endRec e).busyCount < 3)) :
    exec (.measurementResult e k d c) s = .next (finish (takeResult e k d c s)) := by
  change execMeasurementResult e k d c s = _
  unfold execMeasurementResult
  rw [if_pos (by simp [hp, ht, hm, hw]), if_neg (show ¬ (k = .busy ∧ _ < Config.busyRetries) from hb)]

/-- Settles O23: the chainage is monotone in the position, and the records that carry one take it from `chainageOf`. -/
theorem locationArithmetic : Obligations.locationArithmetic := by
  refine ⟨fun r p ha => ⟨offset_le, fun h => ?_, fun h => ?_, chainageOf_le r p ha, fun q hpq => ?_, chainageOf_between r⟩, ?_, ?_, ?_⟩
  · rw [chainageOf_increasing h, min_comm]
  · rw [chainageOf_decreasing h]
    omega
  · split
    · exact chainageOf_mono ‹_› hpq
    · exact chainageOf_anti ‹_› hpq
  · intro s i hpresent hmarker
    simp [nameBlock, hpresent, hmarker]
  · intro e k d c s hp ht hm hw hb
    refine ⟨_, faultRecordOf (s.segment e.seg) e.side k d c, execMeasurementResult_taken hp ht hm hw hb, ?_,
      faultRecordOf_chainage _ _ _ _ _, fun h => faultRecordOf_distance _ _ h _ _⟩
    rw [(Soft.andThen (.finish _) (takeResult_soft e k d c s)).fault, takeRecord_fault]
  · intro r d
    refine ⟨rfl, fun hd hs => ?_⟩
    have := Nat.mul_le_mul hd hs
    unfold faultDistance
    omega

end Sys2Proof.Machine
end

