-- ==== Sys2Proof/Proofs/Taking.lean ====
section
/-! PROOF. What a block reads of the state is the same once the frame is out of the intake buffer. -/

namespace Sys2Proof.Machine

variable (x : LinkId) (s : State)

@[simp] theorem popIntake_store : (popIntake x s).store = s.store := by simp [popIntake]
@[simp] theorem popIntake_entry (i : Slot) : (popIntake x s).entry i = s.entry i := by simp [popIntake]
@[simp] theorem popIntake_segment (g : SegId) : (popIntake x s).segment g = s.segment g := by simp [popIntake]
@[simp] theorem popIntake_membership (g : GroupId) : (popIntake x s).membership g = s.membership g := by simp [popIntake]
@[simp] theorem popIntake_group (g : GroupId) : (popIntake x s).group g = s.group g := by simp [popIntake]
@[simp] theorem popIntake_liveCall (i : CallIdx) : (popIntake x s).liveCall i = s.liveCall i := by simp [popIntake]
@[simp] theorem popIntake_endRec (e : EndId) : (popIntake x s).endRec e = s.endRec e := by simp [popIntake]

@[simp] theorem popIntake_latch (y : LinkId) : ((popIntake x s).link y).latch = (s.link y).latch := by
  cases x <;> cases y <;> rfl

@[simp] theorem popIntake_presentOn (g : SegId) : presentOn (popIntake x s) g = presentOn s g := by simp [presentOn]

@[simp] theorem popIntake_postInUse (i : Slot) : postInUse (popIntake x s) i = postInUse s i := by cases x <;> rfl

@[simp] theorem popIntake_segmentInUse (g : SegId) : segmentInUse (popIntake x s) g = segmentInUse s g := by
  simp only [segmentInUse, popIntake_presentOn, popIntake_endRec, funext (popIntake_postInUse x s)]
  cases x <;> rfl

end Sys2Proof.Machine
end

