-- ==== Sys2Proof/Proofs/Writes.lean ====
section
/-! PROOF. Accepted writes (O43): each check of a write that passes, then the one way in which all of them are accepted. -/

namespace Sys2Proof.Machine

/-- The state after an accepted write: the OK response, and the Store Controller BUSY with the operation record filled (R20). -/
def accepted (w : StoreWrite) (x : LinkId) (tag : Byte) (r : Request) (body : ResponseBody) (s : State) : State :=
  { taken x tag r .ok body s with store := { s.store with state := .busy { write := w, writer := x, tag := tag } } }

theorem acceptWrite_eq (w : StoreWrite) (x : LinkId) (tag : Byte) (r : Request) (body : ResponseBody) (s : State) :
    acceptWrite w x tag body (respond x tag (requestType r)) (popIntake x s) = accepted w x tag r body s := by
  cases x <;> rfl

/-- A request whose block accepts it as a write. -/
theorem requested_accepted {x : LinkId} {tag : Byte} {r : Request} {act : Responder → State → State} {s : State} {w : StoreWrite}
    {body : ResponseBody} (ht : Takes s x tag r) (h : ∀ answer, act answer (popIntake x s) = acceptWrite w x tag body answer (popIntake x s)) :
    requested x tag r act s = .next (accepted w x tag r body s) := by
  rw [requested, takeRequest_of_takes act ht, h, acceptWrite_eq]

theorem storeBusy_of_ready {s : State} (h : s.store.state = .ready) : storeBusy s = false := by simp [storeBusy, h]

/-- With the latches set and the Store Controller READY the checks of R19 pass. -/
theorem checkWrite_passes {latched : Bool} {answer : Responder} {s act : State} (hl : latched = true) (hs : s.store.state = .ready) :
    checkWrite latched answer s act = act := by
  simp [checkWrite, hl, storeBusy_of_ready hs]

/-! ## What the checks let through -/

theorem nameForm_ok {f : RawName} {k : PostKind} {c : Carriageway} {d : RoadSide} {m : Option Nat} (h1 : 1 ≤ f.labelLength)
    (h12 : f.labelLength ≤ 12) (hk : postKindOf f.kind = some k) (hc : carriagewayOf f.carriageway = some c)
    (hd : roadSideOf f.side = some d) (hm : markerOf f.marker = some m) :
    nameForm f = .ok { label := storedLabel f.labelLength f.label, kind := k, carriageway := c, side := d, marker := m } := by
  have hlen : ¬ (f.labelLength = 0 ∨ 12 < f.labelLength) := by omega
  simp [nameForm, hlen, hk, hc, hd, hm]

theorem placeForm_absent {s : State} {i : Slot} {f : RawPlace} (h : f.present = 0) :
    placeForm s i f = some { (s.entry i).place with present := false } := by
  simp [placeForm, h, flagOf]

theorem placeForm_present {s : State} {i : Slot} {f : RawPlace} {g : SegId} (h : f.present = 1) (hg : segOf f.seg = some g)
    (hs : 1 ≤ f.serial ∧ f.serial ≤ 16777215) (hp : 1 ≤ f.position ∧ f.position + 1 ≤ (s.segment g).cableLength) :
    placeForm s i f = some { present := true, seg := g, position := f.position, serial := f.serial } := by
  simp [placeForm, h, flagOf, hg, Config.serialTop, hs, hp]

theorem duplicate_eq_false {s : State} {i : Slot} {p : PlaceForm}
    (h : ∀ j, j ≠ i → (s.entry j).place.present = true → (s.entry j).place.serial ≠ p.serial
      ∧ ((s.entry j).place.seg = p.seg → (s.entry j).place.position ≠ p.position)) : duplicate s i p = false := by
  simp only [duplicate, List.any_eq_false, Bool.and_eq_true, Bool.or_eq_true, decide_eq_true_eq]
  rintro j - ⟨⟨hj, hp⟩, ⟨hg, hq⟩ | hs⟩
  · exact (h j hj hp).2 hg hq
  · exact (h j hj hp).1 hs

theorem segmentFull_eq_false {s : State} {i : Slot} {p : PlaceForm} (h : ((presentOn s p.seg).filter fun j => decide (j ≠ i)).length < 32) :
    segmentFull s i p = false :=
  decide_eq_false (Nat.not_le.mpr h)

theorem flagOf_le_one {n : Nat} (h : n ≤ 1) : flagOf n = some (decide (n = 1)) := by interval_cases n <;> rfl
theorem directionOf_le_one {n : Nat} (h : n ≤ 1) : directionOf n = some (if n = 0 then .increasing else .decreasing) := by
  interval_cases n <;> rfl
theorem linkOf_le_one {n : Nat} (h : n ≤ 1) : linkOf n = some (if n = 0 then .a else .b) := by interval_cases n <;> rfl

/-- The segment record that a request writes, its clamped values held to their ranges (R6). -/
def writtenSegment (f : RawSegment) : SegRecord :=
  { fitted := decide (f.fitted = 1), cableLength := f.cableLength, feederA := f.feederA, feederB := f.feederB
    speed := max 120 (min 240 f.speed), layRatio := max 1000 (min 1300 f.layRatio), anchor := f.anchor
    direction := if f.direction = 0 then .increasing else .decreasing, split := min f.cableLength f.split
    homeLink := if f.homeLink = 0 then .a else .b, route := f.route }

theorem segmentForm_ok {f : RawSegment} (hf : f.fitted ≤ 1) (hd : f.direction ≤ 1) (hh : f.homeLink ≤ 1)
    (h : 100 ≤ f.cableLength ∧ f.cableLength ≤ 12000 ∧ f.feederA ≤ 2000 ∧ f.feederB ≤ 2000 ∧ f.anchor ≤ 999999 ∧ f.route ≤ 4095) :
    segmentForm f = some (writtenSegment f) := by
  simp [segmentForm, flagOf_le_one hf, directionOf_le_one hd, linkOf_le_one hh, Config.chainageTop, h, clamp, writtenSegment]

theorem cableReaches_of_below {s : State} {g : SegId} {n : Nat} (h : ∀ i ∈ presentOn s g, (s.entry i).place.position < n) :
    cableReaches s g n = true := by
  simpa [cableReaches] using h

theorem mem_editedMembers {old : List Slot} {op : Nat} {slots : List Nat} {i : Slot} :
    i ∈ editedMembers old op slots ↔ if op = 0 then i ∈ old ∨ i.val ∈ slots else i ∈ old ∧ i.val ∉ slots := by
  unfold editedMembers
  split <;> simp [*]

theorem deviceInUse_eq_false {s : State} (hc : ∀ i, s.liveCall i = none) (hg : ∀ g, (s.group g).active = false) :
    deviceInUse s = false := by
  simp [deviceInUse, hc, hg]

/-! ## The writes -/

section
variable {x : LinkId} {tag : Byte} {s : State} (hs : s.store.state = .ready)
include hs

theorem execDirectoryWriteName_accepted {post : Nat} {f : RawName} {i : Slot} {n : NameForm} (ht : Takes s x tag (.writeName post f))
    (hl : (s.link x).latch = true) (hi : slotOf post = some i) (hn : nameForm f = .ok n) :
    exec (.directoryWriteName x tag post f) s =
      .next (accepted (.name i { s.entry i with name := n }) x tag (.writeName post f) (.label n.label) s) :=
  requested_accepted ht fun answer => by simp [checkWrite_passes, hl, hs, hi, hn]

theorem execDirectoryWritePlace_accepted {post : Nat} {f : RawPlace} {i : Slot} {p : PlaceForm} (ht : Takes s x tag (.writePlace post f))
    (hl : (s.link x).latch = true) (hi : slotOf post = some i) (hp : placeForm (popIntake x s) i f = some p) (hu : postInUse s i = false)
    (hd : p.present = true → duplicate (popIntake x s) i p = false ∧ segmentFull (popIntake x s) i p = false) :
    exec (.directoryWritePlace x tag post f) s =
      .next (accepted (.place i { s.entry i with place := p }) x tag (.writePlace post f) .empty s) := by
  refine requested_accepted ht fun answer => ?_
  have hdup : (p.present && duplicate (popIntake x s) i p) = false := by cases h : p.present <;> simp [hd, h]
  have hfull : (p.present && segmentFull (popIntake x s) i p) = false := by cases h : p.present <;> simp [hd, h]
  simp [checkWrite_passes, hl, hs, hi, hp, hu, hdup, hfull]

theorem execSiteWriteSegment_accepted {seg : Nat} {f : RawSegment} {g : SegId} {r : SegRecord} (ht : Takes s x tag (.writeSegment seg f))
    (hl : (s.link x).latch = true) (hg : segOf seg = some g) (hr : segmentForm f = some r)
    (hc : cableReaches (popIntake x s) g r.cableLength = true) (hu : segmentInUse s g = false) :
    exec (.siteWriteSegment x tag seg f) s = .next (accepted (.segment g r) x tag (.writeSegment seg f) (.segment g r) s) :=
  requested_accepted ht fun answer => by simp [checkWrite_passes, hl, hs, hg, hr, hc, hu]

theorem execSiteWriteGlobal_accepted {f : RawGlobal} (ht : Takes s x tag (.writeGlobal f)) (hl : (s.link x).latch = true) :
    exec (.siteWriteGlobal x tag f) s =
      .next (accepted (.global (globalForm f)) x tag (.writeGlobal f) (.global (globalForm f)) s) :=
  requested_accepted ht fun answer => by simp [checkWrite_passes, hl, hs]

theorem execGroupEdit_accepted {group op : Nat} {slots : List Nat} {g : GroupId} (ht : Takes s x tag (.groupEdit group op slots))
    (hl : (s.link x).latch = true) (hg : groupOf group = some g) (ha : (s.group g).active = false) :
    exec (.groupEdit x tag group op slots) s =
      .next (accepted (.group g (editedMembers (s.membership g) op slots)) x tag (.groupEdit group op slots)
        (.memberCount (editedMembers (s.membership g) op slots).length) s) :=
  requested_accepted ht fun answer => by simp [checkWrite_passes, hl, hs, hg, ha]

theorem execStoreErase_accepted {scope : Nat} {c : EraseScope} (ht : Takes s x tag (.storeErase scope)) (ha : s.linkA.latch = true)
    (hb : s.linkB.latch = true) (hc : scopeOf scope = some c) (hu : deviceInUse (popIntake x s) = false) :
    exec (.storeErase x tag scope) s = .next (accepted (.erase c) x tag (.storeErase scope) .empty s) := by
  refine requested_accepted ht fun answer => ?_
  have latched : ((popIntake x s).linkA.latch && (popIntake x s).linkB.latch) = true := by
    rw [show (popIntake x s).linkA.latch = true from (popIntake_latch x s .a).trans ha,
      show (popIntake x s).linkB.latch = true from (popIntake_latch x s .b).trans hb]
    rfl
  rw [checkWrite_passes latched (by simpa using hs)]
  simp [hc, hu]

end

/-- Settles O43: the checks of each kind of write pass, and it is accepted. -/
theorem acceptedWritesFillTheOperation : Obligations.acceptedWritesFillTheOperation := by
  intro x tag s hs
  refine ⟨fun post f i k c d m ht hl hi h1 h12 hk hc hd hm => ?_, fun post f i g ht hl hi hp hg hs1 hs2 hq1 hq2 hu hdup hfull => ?_,
    fun post f i ht hl hi hp hu => ?_, fun seg f g ht hl hg hf hc1 hc2 hfa hfb han hd hh hr hpos hu => ?_, fun f ht hl => ?_,
    fun group op slots g ht hl hg ha => ?_, fun scope c ht ha hb hc hcalls hgroups => ?_⟩
  · exact execDirectoryWriteName_accepted hs ht hl hi (nameForm_ok h1 h12 hk hc hd hm)
  · refine execDirectoryWritePlace_accepted hs ht hl hi (placeForm_present hp hg ⟨hs1, hs2⟩ ⟨hq1, by simpa using hq2⟩) hu fun _ => ⟨?_, ?_⟩
    · exact duplicate_eq_false (by simpa using hdup)
    · exact segmentFull_eq_false (by simpa using hfull)
  · have form : placeForm (popIntake x s) i f = some { (s.entry i).place with present := false } := by simp [placeForm_absent hp]
    exact execDirectoryWritePlace_accepted hs ht hl hi form hu nofun
  · exact execSiteWriteSegment_accepted hs ht hl hg (segmentForm_ok hf hd hh ⟨hc1, hc2, hfa, hfb, han, hr⟩)
      (cableReaches_of_below (by simpa using hpos)) hu
  · exact execSiteWriteGlobal_accepted hs ht hl
  · exact ⟨editedMembers (s.membership g) op slots, editedMembers_ascending _ _ _, fun i => mem_editedMembers,
      execGroupEdit_accepted hs ht hl hg ha⟩
  · exact execStoreErase_accepted hs ht ha hb hc (deviceInUse_eq_false (by simpa using hcalls) (by simpa using hgroups))

end Sys2Proof.Machine
end

