-- ==== Sys2Proof/Proofs/Queries.lean ====
section
/-! PROOF. The queries (O34): a query is answered with a body that its block reads from the state, and each body field by field. -/

namespace Sys2Proof.Machine

/-- A request whose block answers it and does no more. -/
theorem requested_answered {x : LinkId} {tag : Byte} {r : Request} {act : Responder → State → State} {s : State} {result : Result}
    {body : ResponseBody} (ht : Takes s x tag r) (h : ∀ answer, act answer (popIntake x s) = answer result body (popIntake x s)) :
    requested x tag r act s = .next (taken x tag r result body s) := by
  rw [requested, takeRequest_of_takes act ht, h, taken]

/-! ## QUERY CALLS (R153) -/

/-- A record of the call queue. -/
def offeredPair (s : State) (i : CallIdx) : Option (CallIdx × LiveCall) :=
  (s.liveCall i).bind fun k => if k.state = .offered then some (i, k) else none

/-- A live record that is not in the call queue. -/
def otherPair (s : State) (i : CallIdx) : Option (CallIdx × LiveCall) :=
  (s.liveCall i).bind fun k => if k.state = .offered then none else some (i, k)

theorem insertQueued_perm (i : CallIdx) (k : LiveCall) : ∀ l, (insertQueued i k l).Perm ((i, k) :: l)
  | [] => .refl _
  | (j, d) :: l => by
    unfold insertQueued
    split
    · exact ((insertQueued_perm i k l).cons (j, d)).trans (.swap _ _ l)
    · exact .refl _

theorem callQueue_perm (s : State) : (callQueue s).Perm ((allFin 48).filterMap (offeredPair s)) := by
  unfold callQueue
  induction allFin 48 with
  | nil => exact .refl _
  | cons i l ih =>
    rw [List.foldr_cons, List.filterMap_cons]
    cases h : s.liveCall i with
    | none => simpa [offeredPair, h] using ih
    | some k =>
      by_cases hk : k.state = .offered
      · simpa [offeredPair, h, hk] using (insertQueued_perm i k _).trans (ih.cons (i, k))
      · simpa [offeredPair, h, hk] using ih

theorem otherLive_eq (s : State) : otherLive s = (allFin 48).filterMap (otherPair s) := by
  unfold otherLive
  congr 1
  funext i
  unfold otherPair
  cases s.liveCall i <;> rfl

/-- A listed record is the live one of its index. -/
theorem liveCall_of_mem_callListing {s : State} {p : CallIdx × LiveCall} (h : p ∈ callListing s) : s.liveCall p.1 = some p.2 := by
  rw [callListing, List.mem_append, (callQueue_perm s).mem_iff, otherLive_eq, List.mem_filterMap, List.mem_filterMap] at h
  rcases h with ⟨i, -, h⟩ | ⟨i, -, h⟩
  all_goals
    simp only [offeredPair, otherPair, Option.bind_eq_some_iff, Option.ite_none_right_eq_some, Option.ite_none_left_eq_some,
      Option.some.injEq] at h
    obtain ⟨k, hk, -, rfl⟩ := h
    exact hk

theorem callQueue_length (s : State) : (callQueue s).length = ((allFin 48).filter fun i => s.callState i == some .offered).length := by
  rw [(callQueue_perm s).length_eq]
  induction allFin 48 with
  | nil => rfl
  | cons i l ih =>
    cases h : s.liveCall i with
    | none => simpa [offeredPair, State.callState, h] using ih
    | some k => by_cases hk : k.state = .offered <;> simpa [offeredPair, State.callState, h, hk] using ih

theorem otherLive_indices (s : State) :
    (otherLive s).map Prod.fst = (allFin 48).filter fun i => (s.liveCall i).isSome && s.callState i != some .offered := by
  rw [otherLive_eq]
  induction allFin 48 with
  | nil => rfl
  | cons i l ih =>
    cases h : s.liveCall i with
    | none => simpa [otherPair, State.callState, h] using ih
    | some k => by_cases hk : k.state = .offered <;> simpa [otherPair, State.callState, h, hk] using ih

theorem callListing_length (s : State) : (callListing s).length = ((allFin 48).filter fun i => (s.liveCall i).isSome).length := by
  have others := congrArg List.length (otherLive_indices s)
  rw [List.length_map] at others
  rw [callListing, List.length_append, callQueue_length, others]
  induction allFin 48 with
  | nil => rfl
  | cons i l ih =>
    cases h : s.liveCall i with
    | none => simpa [State.callState, h] using ih
    | some k => by_cases hk : k.state = .offered <;> simp [State.callState, h, hk] at ih ⊢ <;> omega

/-- A list of live records is read through their indices. -/
theorem map_summaryOf (s : State) (l : List (CallIdx × LiveCall)) (h : ∀ p ∈ l, s.liveCall p.1 = some p.2) :
    l.map (fun p => summaryOf s p.1 p.2) = (l.map Prod.fst).filterMap fun i => (s.liveCall i).map (summaryOf s i) := by
  rw [List.filterMap_map, ← List.filterMap_eq_map]
  refine List.filterMap_congr fun p hp => ?_
  simp [h p hp]

theorem callListing_summaries (s : State) (start : Nat) :
    (((callListing s).drop start).take Config.summariesListed).map (fun p => summaryOf s p.1 p.2) =
      ((((callQueue s).map Prod.fst ++ (allFin 48).filter fun i => (s.liveCall i).isSome && s.callState i != some .offered).drop
        start).take 8).filterMap fun i => (s.liveCall i).map (summaryOf s i) := by
  rw [map_summaryOf s _ fun p hp => liveCall_of_mem_callListing (List.mem_of_mem_drop (List.mem_of_mem_take hp)), List.map_take,
    List.map_drop, callListing, List.map_append, otherLive_indices]
  rfl

theorem callsBody_popIntake (x : LinkId) (s : State) (start : Nat) : callsBody (popIntake x s) start = callsBody s start := by
  cases x <;> rfl

theorem execQueryCalls_takes {x : LinkId} {tag : Byte} {s : State} {start : Nat} (ht : Takes s x tag (.queryCalls start)) :
    exec (.queryCalls x tag start) s = .next (taken x tag (.queryCalls start) .ok (callsBody s start) s) :=
  requested_answered ht fun answer => by rw [callsBody_popIntake]

/-! ## QUERY END (R155) -/

theorem endView_popIntake (x : LinkId) (s : State) (e : EndId) : endView (popIntake x s) e = endView s e := by cases x <;> rfl

theorem execQueryEnd_takes {x : LinkId} {tag : Byte} {s : State} {code : Nat} {e : EndId} (he : endOf code = some e)
    (ht : Takes s x tag (.queryEnd code)) :
    exec (.queryEnd x tag code) s = .next (taken x tag (.queryEnd code) .ok (.endRecord (endView s e)) s) :=
  requested_answered ht fun answer => by simp [withEnd, he, endView_popIntake]

/-! ## QUERY POST (R154) -/

theorem postView_popIntake (x : LinkId) (s : State) (i : Slot) : postView (popIntake x s) i = postView s i := by cases x <;> rfl

theorem execQueryPost_takes {x : LinkId} {tag : Byte} {s : State} {post : Nat} {i : Slot} (hi : slotOf post = some i)
    (ht : Takes s x tag (.queryPost post)) :
    exec (.queryPost x tag post) s = .next (taken x tag (.queryPost post) .ok (.post (postView s i)) s) :=
  requested_answered ht fun answer => by simp [hi, postView_popIntake]

theorem callView_eq (s : State) (i : Slot) :
    callView s i = (s.callOf i).bind fun c => (s.liveCall c).map fun k => (⟨c, (s.record c).generation⟩, k.state) := by
  unfold callView
  cases s.callOf i with
  | none => rfl
  | some c => simp [State.callState, State.refOfRecord, Function.comp_def]

theorem placeIn_eq_findIdx? (i : Slot) (l : List OverflowEntry) :
    placeIn i (l.map OverflowEntry.slot) = match l.findIdx? fun o => decide (o.slot = i) with | some n => n + 1 | none => 0 := by
  induction l with
  | nil => rfl
  | cons o l ih =>
    by_cases h : o.slot = i
    · simp [placeIn, List.findIdx?_cons, h]
    · cases hf : l.findIdx? fun o => decide (o.slot = i) <;> simp [placeIn, List.findIdx?_cons, h, ih, hf]

/-- The first image of a list whose elements that pass a test all have one is the image of the first that passes. -/
theorem findSome?_ite {α β : Type} {p : α → Bool} {f : α → Option β} (h : ∀ a, p a = true → (f a).isSome = true) (l : List α) :
    l.findSome? (fun a => if p a then f a else none) = (l.find? p).bind f := by
  induction l with
  | nil => rfl
  | cons a l ih =>
    cases hp : p a with
    | false => simp [hp, ih]
    | true =>
      obtain ⟨b, hb⟩ := Option.isSome_iff_exists.mp (h a hp)
      simp [hp, hb]

theorem outcomeOf_isSome {s : State} {g : GroupId} {i : Slot} (h : takingPart s g i = true) : (outcomeOf s g i).isSome = true := by
  simp only [takingPart, Bool.and_eq_true, List.any_eq_true, decide_eq_true_eq] at h
  obtain ⟨-, m, hm, hi, -⟩ := h
  simp only [outcomeOf, memberOf, Option.isSome_map, List.find?_isSome, decide_eq_true_eq]
  exact ⟨m, hm, hi⟩

theorem groupTakenPart_eq (s : State) (i : Slot) :
    groupTakenPart s i = ((allFin 16).find? fun g => takingPart s g i).bind fun g =>
      ((s.group g).members.find? fun m => decide (m.slot = i)).map fun m => (g, m.outcome) := by
  have found := findSome?_ite (p := fun g => takingPart s g i) (f := fun g => (outcomeOf s g i).map fun o => (g, o))
    (fun g h => by simpa using outcomeOf_isSome h) (allFin 16)
  simpa [groupTakenPart, outcomeOf, memberOf, Function.comp_def] using found

theorem burstTarget_eq (s : State) (i : Slot) :
    burstTarget s i = allEnds.any fun e => match s.burst e with | .running b => decide (b.target = i) | _ => false := by
  unfold burstTarget
  congr 1
  funext e
  cases s.burst e <;> rfl

theorem entriesOf_length (s : State) (i : Slot) :
    (entriesOf s i).length = (allEnds.map fun e => ((s.endRec e).commands.filter fun y => decide (y.slot = i)).length).sum :=
  List.length_flatMap

/-! ## GROUP RESULT (R132) and DIRECTORY READ (R5) -/

theorem groupBody_popIntake (x : LinkId) (s : State) (g : GroupId) (first : Nat) : groupBody (popIntake x s) g first = groupBody s g first := by
  cases x <;> rfl

theorem execGroupResult_takes {x : LinkId} {tag : Byte} {s : State} {group first : Nat} {g : GroupId} (hg : groupOf group = some g)
    (ht : Takes s x tag (.groupResult group first)) :
    exec (.groupResult x tag group first) s = .next (taken x tag (.groupResult group first) .ok (groupBody s g first) s) :=
  requested_answered ht fun answer => by simp [hg, groupBody_popIntake]

theorem readBody_popIntake (x : LinkId) (s : State) (kind index first : Nat) :
    readBody (popIntake x s) kind index first = readBody s kind index first := by
  cases x <;> rfl

theorem execDirectoryRead_takes {x : LinkId} {tag : Byte} {s : State} {kind index first : Nat} {b : ResponseBody}
    (hb : readBody s kind index first = some b) (ht : Takes s x tag (.directoryRead kind index first)) :
    exec (.directoryRead x tag kind index first) s = .next (taken x tag (.directoryRead kind index first) .ok b s) :=
  requested_answered ht fun answer => by simp [readBody_popIntake, hb]

theorem isDamaged_eq (s : State) (r : RecordId) : isDamaged s r = decide (r ∈ s.store.damaged) := by simp [isDamaged]

/-- Settles O34: each query is answered with the body its block reads, which is the one of the statement, field by field. -/
theorem queriesReadTheState : Obligations.queriesReadTheState := by
  intro x tag s
  refine ⟨fun start ht => ?_, fun code e he ht => ?_, fun post i hi ht => ?_, fun group g first hg ht => ?_, fun index first i hi ht => ?_,
    fun index first g hg ht => ?_, fun index first ht => ?_, fun index first g hg ht => ?_⟩
  · rw [execQueryCalls_takes ht, callsBody, callListing_length, callQueue_length, callListing_summaries]
    rfl
  · rw [execQueryEnd_takes he ht]
    unfold endView endStateOf portMode
    dsimp only
    cases (s.endRec e).state <;> rfl
  · rw [execQueryPost_takes hi ht, postView, callView_eq, overflowRank, placeIn_eq_findIdx?, groupTakenPart_eq, entriesOf_length,
      burstTarget_eq]
    rfl
  · rw [execGroupResult_takes hg ht, groupBody]
    congr 7
    funext m
    unfold resultRecord
    cases m.outcome <;> rfl
  · exact execDirectoryRead_takes (by simp [readBody, hi, isDamaged_eq]) ht
  · exact execDirectoryRead_takes (by simp [readBody, hg, isDamaged_eq]) ht
  · exact execDirectoryRead_takes (by simp [readBody, isDamaged_eq]) ht
  · exact execDirectoryRead_takes (by simp [readBody, hg, isDamaged_eq, Config.recordsListed]) ht

end Sys2Proof.Machine
end

