-- ==== Sys2Proof/Proofs/Calm.lean ====
section
/-! PROOF. What the operations that follow a change of a post's reach or hop leave alone beyond what Laws/Soft.lean says: no hop map, and of
a post's row nothing but its activity and stamp; and they suppress no post. `Calm s t` says so of the way from s to t. -/

namespace Sys2Proof.Machine

/-- A row less its activity and its stamp (R52). -/
def PostRow.steady (r : PostRow) : PostRow := { r with activity := .idle, stamp := none }

/-- The hop maps stay, a row keeps all but its activity and stamp, and an end without a suppressed post gets none. -/
structure Calm (s t : State) : Prop where
  hopMaps : t.line.hopMaps = s.line.hopMaps
  rows : ∀ i, (t.post i).steady = (s.post i).steady
  unsuppressed : ∀ e, (s.endRec e).suppressed = none → (t.endRec e).suppressed = none

namespace Calm

variable {s t u : State}

theorem refl (s : State) : Calm s s := ⟨rfl, fun _ => rfl, fun _ => id⟩

theorem trans (h : Calm s t) (k : Calm t u) : Calm s u :=
  ⟨k.hopMaps.trans h.hopMaps, fun i => (k.rows i).trans (h.rows i), fun e => k.unsuppressed e ∘ h.unsuppressed e⟩

/-- An operation after another, read as they are nested. -/
theorem andThen (k : Calm t u) (h : Calm s t) : Calm s u := h.trans k

theorem of_ite {c : Prop} [Decidable c] (ht : Calm s t) (hu : Calm s u) : Calm s (if c then t else u) := by
  split
  · exact ht
  · exact hu

theorem forEach {α : Type} {f : α → State → State} (h : ∀ a s, Calm s (f a s)) : ∀ (l : List α) (s : State), Calm s (Machine.forEach l f s)
  | [], s => .refl s
  | a :: l, s => (h a s).trans (forEach h l (f a s))

theorem reach (h : Calm s t) (i : Slot) : (t.post i).reach = (s.post i).reach := by
  have same := congrArg PostRow.reach (h.rows i)
  exact same

theorem hopMap (h : Calm s t) (g : SegId) : t.hopMap g = s.hopMap g := by simp [State.hopMap, h.hopMaps]

/-- An update of any other block. -/
theorem outside (h : t.line = s.line) : Calm s t := by
  refine ⟨by rw [h], fun i => ?_, fun e he => ?_⟩
  · simp [State.post, h]
  · simpa [State.endRec, h] using he

/-- An update of the line block that touches no hop map, post or end. -/
theorem line (f : LineBlock → LineBlock) (s : State)
    (h : (f s.line).hopMaps = s.line.hopMaps ∧ (f s.line).posts = s.line.posts ∧ (f s.line).ends = s.line.ends) : Calm s (s.onLine f) := by
  obtain ⟨hm, hp, he⟩ := h
  refine ⟨hm, fun i => ?_, fun e hs => ?_⟩
  · simp [State.post, hp]
  · simpa [State.endRec, he] using hs

/-- An update of an end that suppresses no post. -/
theorem modEnd (e : EndId) (f : EndRecord → EndRecord) (s : State) (h : ∀ r, r.suppressed = none → (f r).suppressed = none) :
    Calm s (s.modEnd e f) := by
  refine ⟨rfl, fun _ => rfl, fun d hd => ?_⟩
  by_cases hed : e = d
  · subst hed; simpa using h _ hd
  · simpa [hed] using hd

theorem modChan (e : EndId) (f : ChannelEnd → ChannelEnd) (s : State) : Calm s (s.modChan e f) := outside rfl
theorem modCall (i : CallIdx) (f : LiveCall → LiveCall) (s : State) : Calm s (s.modCall i f) := outside rfl
theorem modGroup (g : GroupId) (f : GroupRun → GroupRun) (s : State) : Calm s (s.modGroup g f) := outside rfl
theorem setOverflow (l : List OverflowEntry) (s : State) : Calm s (s.setOverflow l) := outside rfl
theorem modLink (x : LinkId) (f : LinkRecord → LinkRecord) (s : State) : Calm s (s.modLink x f) := outside (by simp)
theorem setStore (b : StoreBlock) (s : State) : Calm s (s.setStore b) := outside rfl
theorem modPort (e : EndId) (f : Port → Port) (s : State) : Calm s (s.modPort e f) := line _ s ⟨rfl, rfl, rfl⟩
theorem modBurst (e : EndId) (f : BurstRecord → BurstRecord) (s : State) : Calm s (s.modBurst e f) := line _ s ⟨rfl, rfl, rfl⟩

/-! ## Reports -/

theorem report (x : LinkId) (r : Report) (s : State) : Calm s (Machine.report x r s) := modLink x _ s
theorem reportBoth (r : Report) (s : State) : Calm s (Machine.reportBoth r s) := (report .a r s).trans (report .b r _)
theorem reportInTurn (x : LinkId) (r : Report) (s : State) : Calm s (Machine.reportInTurn x r s) := modLink x _ s

theorem reportBothInTurn (r : Report) (s : State) : Calm s (Machine.reportBothInTurn r s) :=
  (reportInTurn .a r s).trans (reportInTurn .b r _)

theorem reportCall (i : CallIdx) (v : CallEvent) (n : CallReason) (b : Bool) (l : List LinkId) (s : State) :
    Calm s (Machine.reportCall i v n b l s) := by
  unfold Machine.reportCall
  split
  · exact forEach (fun x t => report x _ t) l s
  · exact .refl s

theorem reportParties (i : CallIdx) (v : CallEvent) (n : CallReason) (s : State) : Calm s (Machine.reportParties i v n s) :=
  reportCall i v n false _ s

theorem reportEndState (e : EndId) (s : State) : Calm s (Machine.reportEndState e s) := reportBoth _ s

theorem orderReports (before s : State) : Calm s (Machine.orderReports before s) := outside rfl

/-! ## Command lists, activity, bursts -/

theorem placeCommand (i : Slot) (c : Command) (s : State) : Calm s (Machine.placeCommand i c s) := by
  unfold Machine.placeCommand
  split
  · exact .refl s
  · refine .of_ite (modEnd _ _ s fun _ h => h) ?_
    exact .andThen (modEnd _ _ _ fun _ h => h) (line _ s ⟨rfl, rfl, rfl⟩)

theorem dropCommands (i : Slot) (s : State) : Calm s (Machine.dropCommands i s) := by
  unfold Machine.dropCommands
  refine forEach (fun e t => ?_) _ s
  exact modEnd e _ t fun _ h => h

theorem moveCommands (i : Slot) (e : EndId) (s : State) : Calm s (Machine.moveCommands i e s) :=
  .andThen (modEnd e _ _ fun _ h => h) (dropCommands i s)

theorem setActivity (i : Slot) (a : Activity) (p : Option Stamp) (s : State) : Calm s (Machine.setActivity i a p s) := by
  refine ⟨rfl, fun j => ?_, fun _ => id⟩
  by_cases hj : i = j
  · subst hj; simp [Machine.setActivity, PostRow.steady]
  · simp [Machine.setActivity, hj]

theorem setIdle (p : Activity → Bool) (i : Slot) (s : State) : Calm s (Machine.setIdle p i s) := .of_ite (setActivity i _ _ s) (.refl s)
theorem idleFromCall (i : Slot) (s : State) : Calm s (Machine.idleFromCall i s) := setIdle _ i s
theorem idleFromAnnouncement (i : Slot) (s : State) : Calm s (Machine.idleFromAnnouncement i s) := setIdle _ i s

theorem endBurst (e : EndId) (x : BurstEnding) (s : State) : Calm s (Machine.endBurst e x s) := by
  unfold Machine.endBurst
  split
  · exact .andThen (report _ _ _) (.andThen (setIdle _ _ _) (.andThen (modPort e _ _) (modBurst e _ s)))
  · exact .refl s
  · exact .refl s

theorem abortTarget (i : Slot) (r : AbortReason) (s : State) : Calm s (Machine.abortTarget i r s) :=
  forEach (fun e t => by
    split
    · exact .of_ite (endBurst e _ t) (.refl t)
    · exact .refl t
    · exact .refl t) _ s

/-! ## The Arbiter -/

theorem setHolder (e : EndId) (c : Chan) (h : Holder) (s : State) : Calm s (Machine.setHolder e c h s) := modChan e _ s
theorem setWaiting (e : EndId) (l : List Waiter) (s : State) : Calm s (Machine.setWaiting e l s) := modChan e _ s
theorem withdrawCall (e : EndId) (ref : CallRef) (s : State) : Calm s (Machine.withdrawCall e ref s) := modChan e _ s

theorem callTakesChannel (i : CallIdx) (e : EndId) (c : Chan) (s : State) : Calm s (Machine.callTakesChannel i e c s) := by
  unfold Machine.callTakesChannel
  split
  · exact .andThen (placeCommand _ _ _) (.trans (modCall i _ s) (.of_ite (reportParties _ _ _ _) (.refl _)))
  · exact .refl s

theorem modMember (g : GroupId) (i : Slot) (f : Member → Member) (s : State) : Calm s (Machine.modMember g i f s) := modGroup g _ s

theorem commandMember (g : GroupId) (c : Chan) (i : Slot) (s : State) : Calm s (Machine.commandMember g c i s) :=
  .andThen (modGroup g _ _) (.andThen (modMember g i _ _) (placeCommand i _ s))

theorem groupTakesChannel (g : GroupId) (e : EndId) (c : Chan) (s : State) : Calm s (Machine.groupTakesChannel g e c s) :=
  .andThen (forEach (commandMember g c) _ _) (modGroup g _ s)

theorem handOver (e : EndId) (c : Chan) : ∀ (l : List Waiter) (s : State), Calm s (Machine.handOver e c l s)
  | [], s => .andThen (setHolder e c _ _) (setWaiting e _ s)
  | .call _ ref _ _ :: l, s => by
    unfold Machine.handOver
    exact .of_ite (.andThen (callTakesChannel _ _ _ _) (.andThen (setHolder _ _ _ _) (setWaiting e l s))) (handOver e c l s)
  | .announce g _ :: l, s => by
    unfold Machine.handOver
    refine .of_ite (.andThen (groupTakesChannel _ _ _ _) (.andThen (setHolder _ _ _ _) (setWaiting e l s))) ?_
    exact .andThen (handOver e c l _) (modGroup g _ s)

theorem release (e : EndId) (c : Chan) (h : Holder) (s : State) : Calm s (Machine.release e c h s) := .of_ite (handOver e c _ s) (.refl s)

/-! ## Announcements -/

theorem reportMember (g : GroupId) (p : Option CallRef) (i : Slot) (s : State) : Calm s (Machine.reportMember g p i s) := by
  unfold Machine.reportMember
  dsimp only
  split
  · exact .of_ite (reportBothInTurn _ s) (.refl s)
  · exact .refl s

theorem changeMember (g : GroupId) (i : Slot) (o : MemberOutcome) (p : Option CallRef) (s : State) :
    Calm s (Machine.changeMember g i o p s) := .andThen (reportMember g p i _) (modMember g i _ s)

theorem testReady (g : GroupId) (s : State) : Calm s (Machine.testReady g s) :=
  .of_ite (.andThen (reportBoth _ _) (modGroup g _ s)) (.refl s)

theorem settle (before s : State) : Calm s (Machine.settle before s) := .andThen (forEach testReady _ _) (orderReports before s)

theorem dropHeld (g : GroupId) (e : EndId) (s : State) : Calm s (Machine.dropHeld g e s) := modGroup g _ s

theorem releaseIfDone (g : GroupId) (e : EndId) (s : State) : Calm s (Machine.releaseIfDone g e s) := by
  unfold Machine.releaseIfDone
  split
  · exact .of_ite (.andThen (release _ _ _ _) (dropHeld g e s)) (.refl s)
  · exact .refl s

theorem releases (g : GroupId) (s : State) : Calm s (Machine.releases g s) := forEach (releaseIfDone g) _ s

theorem joinWaiting (g : GroupId) (e : EndId) (s : State) : Calm s (Machine.joinWaiting g e s) := modGroup g _ s

theorem requestForGroup (g : GroupId) (e : EndId) (s : State) : Calm s (Machine.requestForGroup g e s) := by
  unfold Machine.requestForGroup
  refine .of_ite ?_ (.refl s)
  split
  · exact forEach (fun i t => changeMember g i _ _ t) _ s
  · split
    · exact forEach (commandMember g _) _ s
    · refine .of_ite (joinWaiting g e s) ?_
      split
      · exact .andThen (groupTakesChannel _ _ _ _) (setHolder _ _ _ s)
      · exact .andThen (joinWaiting g e _) (setWaiting e _ s)

theorem forGroupsOf (i : Slot) (f : GroupId → State → State) (h : ∀ g t, Calm t (f g t)) (s : State) : Calm s (Machine.forGroupsOf i f s) :=
  forEach (fun g t => .of_ite ((h g t).trans (releases g _)) (.refl t)) _ s

theorem quitChannel (g : GroupId) (i : Slot) (s : State) : Calm s (Machine.quitChannel g i s) :=
  .trans (.of_ite (placeCommand i .announceEnd s) (.refl s)) (.of_ite (idleFromAnnouncement i _) (.refl _))

theorem moveMember (i : Slot) (e : EndId) (g : GroupId) (s : State) : Calm s (Machine.moveMember i e g s) := by
  unfold Machine.moveMember
  split
  · exact (commandMember g _ i s).trans (.of_ite (idleFromAnnouncement i _) (.refl _))
  · refine .of_ite ((quitChannel g i s).trans (changeMember g i _ _ _)) ?_
    exact ((quitChannel g i s).trans (changeMember g i _ _ _)).trans (.of_ite (.refl _) (requestForGroup g e _))

theorem memberMoved (i : Slot) (s : State) : Calm s (Machine.memberMoved i s) := by
  unfold Machine.memberMoved
  split
  · exact forGroupsOf i _ (moveMember i _) s
  · exact .refl s

theorem dropMember (g : GroupId) (o : MemberOutcome) (p : Option CallRef) (i : Slot) (s : State) : Calm s (Machine.dropMember g o p i s) :=
  .andThen (changeMember g i _ _ _) (.trans (placeCommand i _ s) (.of_ite (idleFromAnnouncement i _) (.refl _)))

theorem memberLost (i : Slot) (s : State) : Calm s (Machine.memberLost i s) := forGroupsOf i _ (fun g t => dropMember g _ _ i t) s

theorem groupPreempted (g : GroupId) (e : EndId) (ref : CallRef) (s : State) : Calm s (Machine.groupPreempted g e ref s) :=
  .andThen (releases g _) (.andThen (forEach (dropMember g _ _) _ _) (dropHeld g e s))

theorem groupEndStopped (g : GroupId) (e : EndId) (s : State) : Calm s (Machine.groupEndStopped g e s) :=
  (dropHeld g e s).trans (forEach (fun i t => .andThen (.of_ite (idleFromAnnouncement i _) (.refl _)) (modMember g i _ t)) _ _)

/-! ## Channels and calls -/

theorem callLosesChannel (ref : CallRef) (r : CallReason) (s : State) : Calm s (Machine.callLosesChannel ref r s) := by
  unfold Machine.callLosesChannel
  split
  · exact .of_ite (.andThen (reportParties _ _ _ _) (modCall _ _ s)) (modCall _ _ s)
  · exact .refl s

theorem callLosesEntry (ref : CallRef) (s : State) : Calm s (Machine.callLosesEntry ref s) := by
  unfold Machine.callLosesEntry
  split
  · exact modCall _ _ s
  · exact .refl s

theorem postLeft (i : Slot) (e : EndId) (r : CallReason) (s : State) : Calm s (Machine.postLeft i e r s) := by
  have entry (t : State) : Calm t (match entryOfPost i (t.chan e).waiting with
      | some ref => Machine.callLosesEntry ref (Machine.withdrawCall e ref t)
      | none => t) := by
    split
    · exact (withdrawCall _ _ _).trans (callLosesEntry _ _)
    · exact .refl _
  refine .andThen (entry _) ?_
  split
  · exact (release _ _ _ s).trans (callLosesChannel _ _ _)
  · exact .refl s

theorem callWaits (i : CallIdx) (e : EndId) (kd : RequestKind) (s : State) : Calm s (Machine.callWaits i e kd s) := modCall i _ s

theorem preempt (i : CallIdx) (slot : Slot) (e : EndId) (c : Chan) (g : GroupId) (s : State) : Calm s (Machine.preempt i slot e c g s) := by
  unfold Machine.preempt
  dsimp only
  exact .andThen (callTakesChannel _ _ _ _) (.andThen (groupPreempted _ _ _ _) (.andThen (modChan e _ _) (setHolder _ _ _ s)))

theorem grantOrWait (i : CallIdx) (k : LiveCall) (kd : RequestKind) (e : EndId) (s : State) : Calm s (Machine.grantOrWait i k kd e s) := by
  unfold Machine.grantOrWait
  dsimp only
  split
  · exact .andThen (callTakesChannel _ _ _ _) (setHolder _ _ _ s)
  · split
    · exact preempt _ _ _ _ _ s
    · exact .andThen (callWaits _ _ _ _) (setWaiting e _ s)

theorem requestForCall (i : CallIdx) (kd : RequestKind) (e : EndId) (s : State) : Calm s (Machine.requestForCall i kd e s) := by
  unfold Machine.requestForCall
  split
  · exact .refl s
  · refine .of_ite (.refl s) ?_
    split
    · exact callTakesChannel _ _ _ s
    · refine .of_ite (callWaits _ _ _ s) ?_
      exact .andThen (grantOrWait _ _ _ _ _) (forEach (fun x t => .of_ite (postLeft _ x _ t) (.refl t)) _ s)

theorem requestOnServing (i : CallIdx) (kd : RequestKind) (s : State) : Calm s (Machine.requestOnServing i kd s) := by
  unfold Machine.requestOnServing
  split
  · split
    · exact requestForCall _ _ _ s
    · exact .refl s
  · exact .refl s

theorem stopChannel (e : EndId) (c : Chan) (s : State) : Calm s (Machine.stopChannel e c s) := by
  unfold Machine.stopChannel
  split
  · exact .refl s
  · exact .andThen (callLosesChannel _ _ _) (setHolder e c _ s)
  · exact .andThen (groupEndStopped _ _ _) (setHolder e c _ s)

theorem stopEntry (e : EndId) (w : Waiter) (s : State) : Calm s (Machine.stopEntry e w s) := by
  unfold Machine.stopEntry
  split
  · exact callLosesEntry _ s
  · exact modGroup _ _ s

theorem stopEnd (e : EndId) (s : State) : Calm s (Machine.stopEnd e s) := by
  have channels := forEach (stopChannel e) (allFin 4) s
  have entries (t : State) := forEach (stopEntry e) (t.chan e).waiting (Machine.setWaiting e [] t)
  exact ((channels.trans (setWaiting e [] _)).trans (entries _)).trans (modChan e _ _)

theorem offerTo (i : CallIdx) (x : LinkId) (s : State) : Calm s (Machine.offerTo Machine.reportInTurn i x s) := by
  have sent (t : State) : Calm t (sendOffer Machine.reportInTurn i x t) := by
    unfold sendOffer
    split
    · exact reportInTurn _ _ t
    · exact .refl t
  unfold Machine.offerTo
  split
  · exact .of_ite (.andThen (sent _) (modCall i _ s)) (.refl s)
  · exact .refl s

theorem offerInTurn (i : CallIdx) (s : State) : Calm s (Machine.offerInTurn i s) := by
  unfold Machine.offerInTurn offerBy
  split
  · exact .andThen (offerTo _ _ _) (offerTo _ _ s)
  · exact .refl s

theorem withdrawOffers (i : CallIdx) (r : WithdrawReason) (l : LinkSet) (s : State) : Calm s (Machine.withdrawOffers i r l s) := by
  have told (b : Bool) (x : LinkId) (r : Report) (t : State) : Calm t (if b then Machine.report x r t else t) :=
    .of_ite (report x r t) (.refl t)
  exact (told _ _ _ s).trans (told _ _ _ _)

theorem callPostMoved (i : Slot) (s : State) : Calm s (Machine.callPostMoved i s) := by
  unfold Machine.callPostMoved
  split
  · split
    · exact .of_ite (requestOnServing _ _ s) (.of_ite (requestOnServing _ _ s) (.refl s))
    · exact .refl s
  · exact .refl s

theorem callPostLost (i : Slot) (s : State) : Calm s (Machine.callPostLost i s) := by
  unfold Machine.callPostLost
  split
  · split
    · refine .of_ite (.refl s) (.of_ite ?_ ?_)
      · exact .andThen (withdrawOffers _ _ _ _) (modCall _ _ s)
      · exact .andThen (reportParties _ _ _ _) (modCall _ _ s)
    · exact .refl s
  · exact .refl s

theorem parkServed (i : CallIdx) (s : State) : Calm s (Machine.parkServed i s) :=
  .andThen (requestOnServing _ _ _) (.andThen (reportParties _ _ _ _) (modCall i _ s))

theorem callPostServed (i : Slot) (s : State) : Calm s (Machine.callPostServed i s) := by
  unfold Machine.callPostServed
  split
  · split
    · refine .of_ite ?_ (.refl s)
      split
      · exact .andThen (offerInTurn _ _) (modCall _ _ s)
      · exact parkServed _ s
      · exact .andThen (reportParties _ _ _ _) (modCall _ _ s)
      · exact parkServed _ s
    · exact .refl s
  · exact .refl s

theorem releaseCallChannel (i : CallIdx) (s : State) : Calm s (Machine.releaseCallChannel i s) := by
  unfold Machine.releaseCallChannel
  split
  · split
    · exact .andThen (release _ _ _ _) (modCall _ _ s)
    · exact .refl s
  · exact .refl s

theorem withdrawCallRequest (i : CallIdx) (s : State) : Calm s (Machine.withdrawCallRequest i s) := by
  unfold Machine.withdrawCallRequest
  split
  · split
    · exact .andThen (withdrawCall _ _ _) (modCall _ _ s)
    · exact .refl s
  · exact .refl s

theorem callHopMoved (i : Slot) (s : State) : Calm s (Machine.callHopMoved i s) := by
  unfold Machine.callHopMoved
  split
  · split
    · dsimp only
      have given (c : CallIdx) : Calm s (Machine.withdrawCallRequest c (Machine.releaseCallChannel c s)) :=
        (releaseCallChannel c s).trans (withdrawCallRequest c _)
      have parked (b : Bool) (c : CallIdx) (t : State) : Calm t (if b then
          Machine.reportParties c .parked .postMoved (t.modCall c fun k => { k with state := .parked }) else t) :=
        .of_ite (.andThen (reportParties _ _ _ _) (modCall _ _ _)) (.refl _)
      have settled (b : Bool) (c : CallIdx) := (given c).trans (parked b c _)
      exact .of_ite (.andThen (requestOnServing _ _ _) (settled _ _)) (.of_ite (.andThen (requestOnServing _ _ _) (settled _ _)) (settled _ _))
    · exact .refl s
  · exact .refl s

/-! ## Posts and their ends -/

theorem overflowUnserved (i : Slot) (s : State) : Calm s (Machine.overflowUnserved i s) := by
  refine .of_ite (.andThen (idleFromCall i _) ?_) (.refl s)
  unfold missOverflow
  split
  · exact .andThen (reportBoth _ _) (setOverflow _ s)
  · exact .refl s

/-- What follows a change of reach touches no row but for activities and stamps: the row already holds the new status. -/
theorem reachEffects (i : Slot) (old new : PostReach) (s : State) : Calm s (Machine.reachEffects i old new s) := by
  unfold Machine.reachEffects
  split
  · exact .andThen (memberMoved i _) (.andThen (callPostMoved i _) (.andThen (postLeft _ _ _ _) (.andThen (abortTarget _ _ _)
      (moveCommands _ _ s))))
  · exact .andThen (memberLost i _) (.andThen (callPostLost i _) (.andThen (postLeft _ _ _ _) (abortTarget _ _ s)))
  · exact .andThen (memberLost i _) (.andThen (callPostLost i _) (.andThen (overflowUnserved i _) (.andThen (postLeft _ _ _ _)
      (.andThen (abortTarget _ _ _) (dropCommands i s)))))
  · exact .andThen (callPostServed i _) (moveCommands _ _ s)
  · exact .andThen (callPostServed i _) (moveCommands _ _ s)
  · exact .andThen (memberLost i _) (.andThen (callPostLost i _) (.andThen (overflowUnserved i _) (dropCommands i s)))
  · exact .andThen (memberLost i _) (callPostLost i s)
  · exact .refl s
  · exact .refl s

theorem fixSegment (g : SegId) (s : State) : Calm s (Machine.fixSegment g s) := by
  refine forEach (fun e t => ?_) _ s
  unfold fixSuppressed
  split
  · exact .of_ite (.refl t) (modEnd e _ t fun _ _ => rfl)
  · exact .refl t

theorem isolationAlarms (before s : State) : Calm s (Machine.isolationAlarms before s) := by
  refine forEach (fun i t => ?_) _ s
  split
  · exact .refl t
  · exact reportBoth _ t
  · exact reportBoth _ t
  · exact .refl t

theorem fixOverflowTimers (s : State) : Calm s (Machine.fixOverflowTimers s) := by
  refine forEach (fun i t => ?_) _ s
  unfold fixOverflowTimer
  split
  · exact .of_ite (modCall i _ t) (.refl t)
  · exact .refl t

theorem placeEffects (i : Slot) (row : PostRow) (s : State) : Calm s (Machine.placeEffects i row s) := by
  unfold Machine.placeEffects
  dsimp only
  split
  · split
    · exact .of_ite (.refl s) (.andThen (callHopMoved i _) (abortTarget i _ s))
    · exact .refl s
    · exact .refl s
  · exact reachEffects _ _ _ s

theorem reportWritten (o : StoreOperation) (s : State) : Calm s (Machine.reportWritten o s) := (report _ _ s).trans (report _ _ _)

/-- Two states that agree but for the transactions that idle ports begin. -/
theorem of_agree (h : Agree t s) : Calm s t := by
  have line : t.line.settled = s.line.settled := congrArg State.line h
  have hopMaps := congrArg LineBlock.hopMaps line
  have posts := congrArg LineBlock.posts line
  refine ⟨hopMaps, fun i => ?_, fun e he => ?_⟩
  · exact congrArg PostRow.steady (congrArg (fun v => nth v i) posts)
  · have same := congrArg (fun l : LineBlock => (nth l.ends (endIdx e)).suppressed) line
    simp only [LineBlock.settled, nth_map] at same
    exact same.trans he

theorem finish (s : State) : Calm s (Machine.finish s) := of_agree (agree_finish s)

end Calm

end Sys2Proof.Machine
end

