-- ==== Sys2Proof/Proofs/PlaceCompletion.lean ====
section
/-! PROOF. PLACE completion (O47): what the rebuild of a hop map does to rows, the placed post's row, and the reports of a completion. -/

namespace Sys2Proof.Machine

/-! ## What a completion reports (R22) -/

@[simp] theorem otherLink_ne (x : LinkId) : otherLink x ≠ x := by cases x <;> nofun

theorem otherLink_of_ne {x y : LinkId} (h : y ≠ x) : otherLink x = y := by
  cases x with
  | a => cases y with
    | a => exact absurd rfl h
    | b => rfl
  | b => cases y with
    | a => rfl
    | b => exact absurd rfl h

theorem report_link (x y : LinkId) (r : Report) (s : State) : (report x r s).link y = if x = y then enqueue r (s.link y) else s.link y :=
  link_modLink s x y _

/-- The report that a link gets of a completion. -/
def completionReport (o : StoreOperation) (y : LinkId) : Report :=
  if y = o.writer then .storeDone o.tag o.write.named else .directoryChanged o.write.named

theorem reportWritten_link (o : StoreOperation) (s : State) (y : LinkId) :
    (reportWritten o s).link y = enqueue (completionReport o y) (s.link y) := by
  by_cases h : y = o.writer
  · simp [reportWritten, report_link, completionReport, h]
  · have hne : o.writer ≠ y := fun e => h e.symm
    simp [reportWritten, report_link, completionReport, h, hne, otherLink_of_ne h]

/-- The report of a completion stands first on a link with room, where nothing but reports follows it. -/
theorem completion_queue {o : StoreOperation} {s t : State} {y : LinkId}
    (ht : OnlyReports ((reportWritten o s).link y).queue (t.link y).queue)
    (hup : (s.link y).up = true) (hroom : (s.link y).queue.length < 64) :
    OnlyReports ((s.link y).queue ++ [.report (s.link y).gap (completionReport o y)]) (t.link y).queue := by
  rwa [reportWritten_link, enqueue_of_room _ hup hroom] at ht

/-- A way that keeps the store, the clock and the members' slots, and puts nothing but reports at the end of a queue. -/
structure Reporting (s t : State) : Prop where
  store : t.store = s.store
  now : t.now = s.now
  slots : ∀ g, memberSlots t g = memberSlots s g
  queues : ∀ x, OnlyReports (s.link x).queue (t.link x).queue

theorem Reporting.trans {s t u : State} (h : Reporting s t) (k : Reporting t u) : Reporting s u :=
  ⟨k.store.trans h.store, k.now.trans h.now, fun g => (k.slots g).trans (h.slots g), fun x => (h.queues x).trans (k.queues x)⟩

theorem SoftFrame.reporting {ev : Bool} {s t : State} (h : SoftFrame ev s t) : Reporting s t :=
  ⟨h.store, h.now, h.slots, fun x => (h.told x).1⟩

theorem Soft.reportWritten {ev on : Bool} (o : StoreOperation) (s : State) : Soft ev on s (Machine.reportWritten o s) :=
  .andThen (.report _ _ _) (.report s _ _)

/-- The end of a completion: the Store Controller is READY over what was written, and the completion's report stands first. -/
theorem Reporting.completion {o : StoreOperation} {s w u : State} (h : Reporting (Machine.reportWritten o w) u)
    (hlink : ∀ y, w.link y = s.link y) :
    (finish (storeReady u)).store = { w.store with state := .ready } ∧ (finish (storeReady u)).now = w.now
      ∧ (∀ g, memberSlots (finish (storeReady u)) g = memberSlots w g)
      ∧ ∀ y, (s.link y).up = true → (s.link y).queue.length < 64 →
        OnlyReports ((s.link y).queue ++ [.report (s.link y).gap (completionReport o y)]) ((finish (storeReady u)).link y).queue := by
  have ended := (Soft.finish (ev := false) (on := true) (storeReady u)).frame.reporting
  have whole := (Soft.reportWritten (ev := false) (on := true) o w).frame.reporting.trans h
  refine ⟨?_, ended.now.trans whole.now, fun g => (ended.slots g).trans (whole.slots g), fun y hup hroom => ?_⟩
  · rw [ended.store, storeReady, ← whole.store]
    rfl
  · rw [← hlink y] at hup hroom ⊢
    exact completion_queue ((h.queues y).trans (ended.queues y)) hup hroom

theorem forEach_cons {α : Type} (x : α) (l : List α) (f : α → State → State) (s : State) :
    forEach (x :: l) f s = forEach l f (f x s) := rfl

/-! ## What reads the store alone -/

theorem presentOn_congr {s t : State} (h : t.store.site = s.store.site) (g : SegId) : presentOn t g = presentOn s g := by
  have entry : t.entry = s.entry := funext fun i => by simp [State.entry, h]
  simp only [presentOn, entry]

theorem hopMapOf_congr {s t : State} (h : t.store.site = s.store.site) (g : SegId) : hopMapOf t g = hopMapOf s g := by
  have entry : t.entry = s.entry := funext fun i => by simp [State.entry, h]
  have insert : insertByPosition t = insertByPosition s := funext fun i => funext fun l => by
    induction l with
    | nil => rfl
    | cons j l ih => simp only [insertByPosition, entry, ih]
  simp only [hopMapOf, presentOn_congr h, insert]

theorem hopFrom_congr {s t : State} {e : EndId} (h : t.hopMap e.seg = s.hopMap e.seg) (i : Slot) : hopFrom t e i = hopFrom s e i := by
  simp [hopFrom, h]

theorem hopFor_congr {s t : State} (h : ∀ g, t.hopMap g = s.hopMap g) (r : PostReach) (i : Slot) : hopFor t r i = hopFor s r i := by
  cases r with
  | served e => exact hopFrom_congr (h e.seg) i
  | unserved => rfl
  | isolated => rfl

/-! ## The rebuild of a hop map (R17) -/

@[simp] theorem hopMap_setHopMap (s : State) (g d : SegId) (m : List Slot) :
    (s.setHopMap g m).hopMap d = if g = d then m else s.hopMap d := by
  simp [State.hopMap, nth_modNth]

/-- A row as the rebuilt map of a segment gives it. -/
def rehopRow (s : State) (g : SegId) (i : Slot) (r : PostRow) : PostRow :=
  match r.reach with
  | .served e => if e.seg = g ∧ hopFrom s e i ≠ r.hop then { r with hop := hopFrom s e i, reply := .unproven, failures := 0 } else r
  | .isolated => r
  | .unserved => r

theorem modPost_eq_self {s : State} {i : Slot} {f : PostRow → PostRow} (h : f (s.post i) = s.post i) : s.modPost i f = s := by
  have same : modNth s.line.posts i f = s.line.posts := by
    rw [modNth, show f (nth s.line.posts i) = nth s.line.posts i from h]
    exact Vector.set_getElem_self _
  simp only [State.modPost, State.onLine, same]

theorem rehop_eq (g : SegId) (i : Slot) (s : State) : rehop g i s = s.modPost i (rehopRow s g i) := by
  cases hr : (s.post i).reach with
  | served e =>
    by_cases h : e.seg = g ∧ hopFrom s e i ≠ (s.post i).hop
    · have row : s.modPost i (rehopRow s g i) =
          s.modPost i fun r => { r with hop := hopFrom s e i, reply := .unproven, failures := 0 } := by
        have image : rehopRow s g i (s.post i) = { s.post i with hop := hopFrom s e i, reply := .unproven, failures := 0 } := by
          simp only [rehopRow, hr, if_pos h]
        simp only [State.modPost, State.onLine, modNth]
        rw [show rehopRow s g i (nth s.line.posts i) = _ from image]
        rfl
      rw [row]
      simp only [rehop, hr, if_pos h]
    · rw [modPost_eq_self (by simp only [rehopRow, hr, if_neg h])]
      simp only [rehop, hr, if_neg h]
  | isolated => rw [modPost_eq_self (by simp only [rehopRow, hr])]; simp only [rehop, hr]
  | unserved => rw [modPost_eq_self (by simp only [rehopRow, hr])]; simp only [rehop, hr]

theorem rehop_hopMaps (g : SegId) (i : Slot) (s : State) : (rehop g i s).line.hopMaps = s.line.hopMaps := by rw [rehop_eq]; rfl

theorem rehop_post (g : SegId) (i j : Slot) (s : State) :
    (rehop g i s).post j = if i = j then rehopRow s g j (s.post j) else s.post j := by
  rw [rehop_eq]
  by_cases h : i = j
  · subst h; simp
  · simp [h]

theorem forEach_rehop_hopMaps (g : SegId) (l : List Slot) (s : State) : (forEach l (rehop g) s).line.hopMaps = s.line.hopMaps := by
  induction l generalizing s with
  | nil => rfl
  | cons i l ih => exact (ih (rehop g i s)).trans (rehop_hopMaps g i s)

/-- A row takes its hop from the maps alone. -/
theorem rehopRow_congr {s t : State} (h : t.line.hopMaps = s.line.hopMaps) (g : SegId) (i : Slot) : rehopRow t g i = rehopRow s g i := by
  funext r
  have hop (e : EndId) : hopFrom t e i = hopFrom s e i := hopFrom_congr (by simp [State.hopMap, h]) i
  simp only [rehopRow, hop]

theorem forEach_rehop_post (g : SegId) (j : Slot) :
    ∀ (l : List Slot) (s : State), l.Nodup → (forEach l (rehop g) s).post j = if j ∈ l then rehopRow s g j (s.post j) else s.post j
  | [], _, _ => by simp [forEach]
  | i :: l, s, hn => by
    obtain ⟨hi, hl⟩ := List.nodup_cons.mp hn
    have rest := forEach_rehop_post g j l (rehop g i s) hl
    rw [rehopRow_congr (rehop_hopMaps g i s), rehop_post] at rest
    rw [forEach_cons, rest]
    by_cases hij : i = j
    · subst hij; simp [hi]
    · have hji : j ≠ i := fun e => hij e.symm
      simp [hij, hji]

theorem rebuild_store (g : SegId) (s : State) : (rebuild g s).store = s.store := (Soft.rebuild (ev := false) (on := true) g s).frame.store

theorem rebuild_hopMap (g d : SegId) (s : State) : (rebuild g s).hopMap d = if g = d then hopMapOf s g else s.hopMap d := by
  have maps := forEach_rehop_hopMaps g (presentOn s g) (s.setHopMap g (hopMapOf s g))
  rw [State.hopMap, rebuild, maps]
  exact hopMap_setHopMap s g d _

/-- A rebuild gives the present posts of its segment their hops, and leaves every other row. -/
theorem rebuild_post (g : SegId) (j : Slot) (s : State) :
    (rebuild g s).post j =
      if j ∈ presentOn s g then rehopRow (s.setHopMap g (hopMapOf s g)) g j (s.post j) else s.post j :=
  forEach_rehop_post g j (presentOn s g) (s.setHopMap g (hopMapOf s g)) (presentOn_nodup s g)

/-- A row less what a rebuild may change. -/
def PostRow.lasting (r : PostRow) : PostRow := { r with hop := 0, reply := .unproven, failures := 0 }

theorem rehopRow_lasting (s : State) (g : SegId) (i : Slot) (r : PostRow) : (rehopRow s g i r).lasting = r.lasting := by
  unfold rehopRow
  split
  · split <;> rfl
  · rfl
  · rfl

theorem rebuild_lasting (g : SegId) (j : Slot) (s : State) : ((rebuild g s).post j).lasting = (s.post j).lasting := by
  rw [rebuild_post]
  split
  · exact rehopRow_lasting _ _ _ _
  · rfl

theorem lasting_eq {r q : PostRow} (h : r.lasting = q.lasting) :
    r.reach = q.reach ∧ r.sensors = q.sensors ∧ r.unverified = q.unverified ∧ r.silenceReported = q.silenceReported := by
  simp only [PostRow.lasting, PostRow.mk.injEq] at h
  simp [h]

theorem rebuild_reach (g : SegId) (j : Slot) (s : State) : ((rebuild g s).post j).reach = (s.post j).reach :=
  (lasting_eq (rebuild_lasting g j s)).1

/-! ## Rebuilds of several segments -/

theorem rebuilds_store (l : List SegId) (s : State) : (forEach l rebuild s).store = s.store :=
  (Soft.forEach (ev := false) (on := true) (fun g t => .rebuild g t) l s).frame.store

theorem rebuilds_lasting (l : List SegId) (j : Slot) (s : State) : ((forEach l rebuild s).post j).lasting = (s.post j).lasting := by
  induction l generalizing s with
  | nil => simp [forEach]
  | cons g l ih => rw [forEach_cons, ih, rebuild_lasting]

theorem rebuilds_hopMap (d : SegId) (l : List SegId) (s : State) :
    (forEach l rebuild s).hopMap d = if d ∈ l then hopMapOf s d else s.hopMap d := by
  induction l generalizing s with
  | nil => simp [forEach]
  | cons g l ih =>
    have site : (rebuild g s).store.site = s.store.site := congrArg StoreBlock.site (rebuild_store g s)
    rw [forEach_cons, ih, hopMapOf_congr site, rebuild_hopMap]
    by_cases hl : d ∈ l
    · simp [hl]
    · by_cases hg : g = d
      · subst hg; simp
      · have hdg : d ≠ g := fun e => hg e.symm
        simp [hl, hg, hdg]

/-- A served post of its end's segment has its hop by the new map, where its segment is rebuilt; if that changed, its count is 0 and it
is UNPROVEN. -/
theorem rebuilds_post {e : EndId} {j : Slot} :
    ∀ (l : List SegId) (s : State), l.Nodup → (s.post j).reach = .served e → (s.entry j).place.present = true →
      (s.entry j).place.seg = e.seg →
      (forEach l rebuild s).post j =
        if e.seg ∈ l ∧ hopFrom (forEach l rebuild s) e j ≠ (s.post j).hop
        then { s.post j with hop := hopFrom (forEach l rebuild s) e j, reply := .unproven, failures := 0 } else s.post j
  | [], _, _, _, _, _ => by simp [forEach]
  | g :: l, s, hn, hr, hp, hs => by
    obtain ⟨hg, hl⟩ := List.nodup_cons.mp hn
    have mem : j ∈ presentOn s g ↔ e.seg = g := by rw [mem_presentOn, hs]; simp [hp]
    have row := rebuild_post g j s
    have map := rebuild_hopMap g e.seg s
    have reach' := (rebuild_reach g j s).trans hr
    have entry' : (rebuild g s).entry j = s.entry j := by simp only [State.entry, rebuild_store]
    rw [forEach_cons]
    generalize rebuild g s = u at *
    have rest := rebuilds_post l u hl reach' (by rwa [entry']) (by rwa [entry'])
    rw [rest]
    by_cases hseg : e.seg = g
    · have outside : e.seg ∉ l := hseg ▸ hg
      have hop : hopFrom (forEach l rebuild u) e j = hopFrom (s.setHopMap g (hopMapOf s g)) e j := by
        refine hopFrom_congr ?_ j
        rw [rebuilds_hopMap, if_neg outside, map, hopMap_setHopMap]
      rw [if_neg (not_and_of_not_left _ outside), hop, row, if_pos (mem.mpr hseg)]
      simp [hseg, rehopRow, hr]
    · rw [row, if_neg (mt mem.mp hseg)]
      simp [hseg]

/-! ## The serving assignment (R69) -/

theorem available_congr {s t : State} (h : ∀ e, (t.endRec e).core = (s.endRec e).core) (d : EndId) (p : Nat) :
    available t d p = available s d p := by
  have state : (t.endRec d).state = (s.endRec d).state := (congrArg EndRecord.state (h d) :)
  have reach : (t.endRec d).reach = (s.endRec d).reach := (congrArg EndRecord.reach (h d) :)
  rw [available, available, state, reach]

theorem heldOn_available {s : State} {i : Slot} {d : EndId} (h : heldOn s i = some d) :
    d.seg = (s.entry i).place.seg ∧ available s d (s.entry i).place.position = true := by
  unfold heldOn at h
  split at h
  · dsimp only at h
    simp only [Option.ite_none_right_eq_some, Option.some.injEq, Bool.and_eq_true, decide_eq_true_eq] at h
    obtain ⟨⟨⟨-, hseg⟩, hfree⟩, rfl⟩ := h
    exact ⟨hseg, hfree⟩
  · cases h
  · cases h

/-- A post that is given an end has one of its segment that is available to it. -/
theorem assignedReach_served {s : State} {i : Slot} {d : EndId} (h : assignedReach s i = .served d) :
    d.seg = (s.entry i).place.seg ∧ available s d (s.entry i).place.position = true := by
  unfold assignedReach at h
  dsimp only at h
  split at h
  · split at h
    · cases h
      exact heldOn_available ‹_›
    · split at h
      · cases h
        exact ⟨rfl, ‹_›⟩
      · split at h
        · cases h
          exact ⟨rfl, ‹_›⟩
        · cases h
  · cases h

theorem assignedReach_eq_unserved {s : State} {i : Slot} :
    assignedReach s i = .unserved ↔ ¬ ((s.entry i).place.present = true ∧ (s.segment (s.entry i).place.seg).fitted = true) := by
  unfold assignedReach
  dsimp only
  split
  · rename_i h
    simp only [Bool.and_eq_true] at h
    refine iff_of_false ?_ (not_not_intro h)
    split
    · nofun
    · split
      · nofun
      · split <;> nofun
  · rename_i h
    simp only [Bool.and_eq_true] at h
    exact iff_of_true rfl h

/-! ## The placed post (R4) -/

theorem mem_touchedSegments {old new : PlaceForm} {g : SegId} :
    g ∈ touchedSegments old new ↔ (old.present = true ∧ old.seg = g) ∨ (new.present = true ∧ new.seg = g) := by
  unfold touchedSegments
  cases old.present with
  | false => cases new.present <;> simp [eq_comm]
  | true =>
    by_cases h : new.seg = old.seg
    · cases new.present with
      | false => simp [eq_comm]
      | true => simp [h, @eq_comm _ g]
    · cases new.present <;> simp [h, eq_comm]

theorem touchedSegments_nodup (old new : PlaceForm) : (touchedSegments old new).Nodup := by
  unfold touchedSegments
  cases old.present with
  | false => cases new.present <;> simp
  | true =>
    by_cases h : new.seg = old.seg
    · simp [h]
    · cases new.present with
      | false => simp
      | true => simpa [h] using fun e => h e.symm

theorem placedRow_post (i : Slot) (r : PostReach) (s : State) :
    (placedRow i r s).post i =
      { s.post i with reach := r, hop := hopFor s r i, reply := .unproven, failures := 0, hook := .on, button := .none } := by
  simp [placedRow, setReach]

theorem placedRow_post_ne {i j : Slot} (h : i ≠ j) (r : PostReach) (s : State) : (placedRow i r s).post j = s.post j := by
  simp [placedRow, setReach, h]

theorem steady_eq {r q : PostRow} (h : r.steady = q.steady) : r = { q with activity := r.activity, stamp := r.stamp } := by
  cases r; cases q
  simp only [PostRow.steady, PostRow.mk.injEq] at h ⊢
  simp_all

/-- The state once the segments that the placed post leaves and joins have their new hop maps (R17). -/
def touchedRebuilt (i : Slot) (old : PlaceForm) (s : State) : State := forEach (touchedSegments old (s.entry i).place) rebuild s

/-- The state once the placed post's row is set. -/
def placedInRow (i : Slot) (old : PlaceForm) (s : State) : State :=
  placedRow i (assignedReach (touchedRebuilt i old s) i) (touchedRebuilt i old s)

/-- What `placed` does after the placed post's row is set. -/
theorem placed_calm (i : Slot) (old : PlaceForm) (row : PostRow) (s : State) : Calm (placedInRow i old s) (placed i old row s) :=
  .andThen (.isolationAlarms _ _) (.andThen (.fixOverflowTimers _) (.andThen (.settle _ _) (.andThen (.forEach .fixSegment _ _)
    (.placeEffects i row _))))

theorem touchedRebuilt_store (i : Slot) (old : PlaceForm) (s : State) : (touchedRebuilt i old s).store = s.store := rebuilds_store _ s

section

variable {i : Slot} {old : PlaceForm} {s t : State} (calm : Calm (placedInRow i old s) t)
include calm

theorem hopMap_of_placed (hsite : t.store.site = s.store.site) (g : SegId) :
    t.hopMap g = if (old.present = true ∧ old.seg = g) ∨ ((s.entry i).place.present = true ∧ (s.entry i).place.seg = g)
      then hopMapOf t g else s.hopMap g := by
  have map : t.hopMap g = (touchedRebuilt i old s).hopMap g := calm.hopMap g
  rw [map, touchedRebuilt, rebuilds_hopMap, hopMapOf_congr hsite, if_congr mem_touchedSegments rfl rfl]

theorem reach_of_placed : (t.post i).reach = assignedReach (touchedRebuilt i old s) i := by
  rw [calm.reach, placedInRow, placedRow_post]

theorem row_of_placed :
    t.post i = { (touchedRebuilt i old s).post i with
      reach := (t.post i).reach, hop := hopFor t (t.post i).reach i, reply := .unproven, failures := 0, hook := .on, button := .none
      activity := (t.post i).activity, stamp := (t.post i).stamp } := by
  have hop : hopFor t (t.post i).reach i = hopFor (touchedRebuilt i old s) (t.post i).reach i := hopFor_congr calm.hopMap _ i
  have row := steady_eq (calm.rows i)
  rw [placedInRow, placedRow_post, ← reach_of_placed calm] at row
  rwa [hop]

theorem post_ne_of_placed {j : Slot} (hj : j ≠ i) :
    t.post j = { (touchedRebuilt i old s).post j with activity := (t.post j).activity, stamp := (t.post j).stamp } := by
  have row := steady_eq (calm.rows j)
  rwa [placedInRow, placedRow_post_ne hj.symm] at row

theorem placed_unserved_iff :
    (t.post i).reach = .unserved ↔ ¬ ((s.entry i).place.present = true ∧ (s.segment (s.entry i).place.seg).fitted = true) := by
  rw [reach_of_placed calm, assignedReach_eq_unserved, State.entry, State.segment, touchedRebuilt_store]
  rfl

theorem placed_served (core : ∀ e, (t.endRec e).core = (s.endRec e).core) {d : EndId} (h : (t.post i).reach = .served d) :
    d.seg = (s.entry i).place.seg ∧ available t d (s.entry i).place.position = true := by
  have same : ∀ e, (t.endRec e).core = ((touchedRebuilt i old s).endRec e).core := fun e =>
    (core e).trans ((Soft.forEach (ev := false) (on := true) (fun g u => .rebuild g u) _ s).frame.core e).symm
  rw [reach_of_placed calm] at h
  have given := assignedReach_served h
  rw [← available_congr same] at given
  simpa only [State.entry, touchedRebuilt_store] using given

/-- A served post of its end's segment, where it is not the placed one. -/
theorem other_of_placed {j : Slot} {e : EndId} (hj : j ≠ i) (hr : (s.post j).reach = .served e)
    (hp : (s.entry j).place.present = true) (hs : (s.entry j).place.seg = e.seg) :
    t.post j =
      if ((old.present = true ∧ old.seg = e.seg) ∨ ((s.entry i).place.present = true ∧ (s.entry i).place.seg = e.seg))
          ∧ hopFrom t e j ≠ (s.post j).hop
      then { s.post j with
        hop := hopFrom t e j, reply := .unproven, failures := 0, activity := (t.post j).activity, stamp := (t.post j).stamp }
      else { s.post j with activity := (t.post j).activity, stamp := (t.post j).stamp } := by
  have row := post_ne_of_placed calm hj
  have hop : hopFrom t e j = hopFrom (touchedRebuilt i old s) e j := hopFrom_congr (calm.hopMap e.seg) j
  have rebuilt := rebuilds_post (touchedSegments old (s.entry i).place) s (touchedSegments_nodup _ _) hr hp hs
  rw [← touchedRebuilt, ← hop, if_congr (and_congr_left' mem_touchedSegments) rfl rfl] at rebuilt
  rw [rebuilt] at row
  split at row
  · exact row.trans (if_pos ‹_›).symm
  · exact row.trans (if_neg ‹_›).symm

end

/-! ## The completion -/

theorem clearMarks_store (p : RecordId) (s : State) :
    (clearMarks (· == p) s).store = { s.store with damaged := s.store.damaged.filter fun r => decide (r ≠ p) } := by
  have marks : (fun r : RecordId => !(r == p)) = fun r => decide (r ≠ p) := funext fun r => by rw [beq_eq_decide]; simp
  rw [← marks]
  rfl

theorem writeEntry_store (i : Slot) (v : DirEntry) (s : State) :
    (writeEntry i v s).store =
      { stored := { s.store.stored with entries := modNth s.store.stored.entries i fun _ => .valid v }
        site := { s.store.site with entries := modNth s.store.site.entries i fun _ => v }
        damaged := s.store.damaged.filter fun r => decide (r ≠ .entry i), state := s.store.state } := clearMarks_store _ _

theorem writeEntry_link (i : Slot) (v : DirEntry) (s : State) (y : LinkId) : (writeEntry i v s).link y = s.link y := by cases y <;> rfl

@[simp] theorem reportWritten_line (o : StoreOperation) (s : State) : (reportWritten o s).line = s.line := by
  simp [reportWritten, report]

theorem execPlaceCompletion_of_busy {s : State} {o : StoreOperation} {i : Slot} {v : DirEntry} (hp : s.powered = true)
    (hb : s.store.state = .busy o) (ho : o.write = .place i v) :
    execPlaceCompletion s = .next (finish (storeReady (placed i (s.entry i).place (s.post i) (reportWritten o (writeEntry i v s))))) := by
  simp only [execPlaceCompletion, hp, hb, ho]

/-- The Store Controller going READY and what idle ports begin are calm. -/
theorem Calm.completion (s : State) : Calm s (Machine.finish (storeReady s)) := .andThen (.finish _) (.setStore _ s)

theorem completion_core (s : State) (e : EndId) : ((finish (storeReady s)).endRec e).core = (s.endRec e).core :=
  (Soft.finish (ev := false) (on := true) (storeReady s)).frame.core e

/-- Settles O47: up to the placed post's row the completion is followed rebuild by rebuild; what comes after is calm. -/
theorem placeCompletionSetsThePost : Obligations.placeCompletionSetsThePost := by
  intro s o i v hpow hbusy hw
  refine ⟨_, execPlaceCompletion_of_busy hpow hbusy hw, ?_⟩
  have frame := (Soft.placed i (s.entry i).place (s.post i) (reportWritten o (writeEntry i v s))).frame
  obtain ⟨hstore, hnow, hslots, hqueues⟩ := frame.reporting.completion (writeEntry_link i v s)
  have calm := (placed_calm i (s.entry i).place (s.post i) (reportWritten o (writeEntry i v s))).trans (.completion _)
  have core := fun e => (completion_core (placed i (s.entry i).place (s.post i) (reportWritten o (writeEntry i v s))) e).trans (frame.core e)
  have line : (reportWritten o (writeEntry i v s)).line = s.line := reportWritten_line o _
  have store : (reportWritten o (writeEntry i v s)).store = (writeEntry i v s).store :=
    (Soft.reportWritten (ev := false) (on := true) o _).frame.store
  rw [writeEntry_store] at store hstore
  generalize finish (storeReady (placed i (s.entry i).place (s.post i) (reportWritten o (writeEntry i v s)))) = t at *
  generalize reportWritten o (writeEntry i v s) = w at *
  have post : ∀ j, w.post j = s.post j := fun j => by simp only [State.post, line]
  have entry : (w.entry i) = v := by simp [State.entry, store]
  have entry_ne : ∀ j, j ≠ i → w.entry j = s.entry j := fun j hj => by simp [State.entry, store, hj.symm]
  have segment : ∀ g, w.segment g = s.segment g := fun g => by simp [State.segment, store]
  have hopMap : ∀ g, w.hopMap g = s.hopMap g := fun g => by simp only [State.hopMap, line]
  have kept := lasting_eq (rebuilds_lasting (touchedSegments (s.entry i).place (w.entry i).place) i w)
  have row := row_of_placed calm
  have unserved := placed_unserved_iff calm
  rw [entry, segment] at unserved
  rw [touchedRebuilt] at row
  refine ⟨hstore, fun g => ?_, by rw [row], by rw [row], by rw [row], by rw [row], by rw [row], ?_, ?_, ?_, fun h => ?_,
    fun hp hf => ⟨?_, fun d hd => ?_⟩, fun j hj => ?_, fun j e hj hr hp hs => ?_, fun y hup hroom => ?_, fun e => ?_, hnow, hslots⟩
  · have map := hopMap_of_placed calm (by rw [hstore, store]) g
    rwa [entry, hopMap] at map
  · rw [row, ← post]; exact kept.2.1
  · rw [row, ← post]; exact kept.2.2.1
  · rw [row, ← post]; exact kept.2.2.2
  · have unreached : (t.post i).reach = .unserved := unserved.mpr fun ⟨hp, hf⟩ => by simp [hp, hf] at h
    exact ⟨unreached, by rw [row, unreached]; rfl⟩
  · exact fun h => unserved.mp h ⟨hp, hf⟩
  · have served := placed_served calm core hd
    rwa [entry] at served
  · rw [post_ne_of_placed calm hj, ← post]
    exact (lasting_eq (rebuilds_lasting _ j w)).1
  · have other := other_of_placed calm hj (by rwa [post]) (by rwa [entry_ne j hj]) (by rwa [entry_ne j hj])
    rw [entry, post] at other
    exact other
  · have queue := hqueues y hup hroom
    simpa only [completionReport, hw, StoreWrite.named] using queue
  · rw [core, State.endRec, line]
    rfl

end Sys2Proof.Machine
end

