-- ==== Sys2Proof/Proofs/SegmentCompletion.lean ====
section
/-! PROOF. Segment completion (O48): an end's record is rewritten once, and its channels given back; from there small updates lead to the
end of the step, and only the assignment moves posts. -/

namespace Sys2Proof.Machine

variable {ev on : Bool}

/-! ## Conditions that chains of small updates keep -/

theorem modChan_eq_powerOn {s : State} {d e : EndId} {f : ChannelEnd → ChannelEnd} (hf : e = d → f .powerOn = .powerOn)
    (hp : s.chan e = .powerOn) : (s.modChan d f).chan e = .powerOn := by
  by_cases hd : d = e
  · subst hd; rw [modChan_chan_same, hp, hf rfl]
  · rw [modChan_chan_ne _ _ hd, hp]

/-- An end whose state holds no channel gets none. -/
theorem Soft.chan_powerOn {s t : State} (h : Soft ev on s t) {e : EndId} (hc : holdsChannels (s.endRec e).state = false)
    (hp : s.chan e = .powerOn) : t.chan e = .powerOn := by
  induction h with
  | trans h _ a b => exact b (h.state e ▸ hc) (a hc hp)
  | ordered _ a => exact a hc hp
  | chan s d f h =>
    refine modChan_eq_powerOn (fun hd => ?_) hp
    subst hd
    rcases h with h | h | h
    · exact absurd hc (by simp [h])
    · exact h
    · exact absurd hp h
  | report s x r => simpa [Machine.report] using hp
  | freeTrunk s p u => simpa [Machine.freeTrunk] using hp
  | inTurn s x r => simpa [Machine.reportInTurn] using hp
  | _ => exact hp

/-! ## An end stops serving (R82) -/

/-- What every pass of a loop leaves, the loop leaves. -/
theorem forEach_unchanged {α β : Type} (v : State → β) {f : α → State → State} (h : ∀ a s, v (f a s) = v s) (l : List α) (s : State) :
    v (forEach l f s) = v s := by
  induction l generalizing s with
  | nil => rfl
  | cons a l ih => exact (ih (f a s)).trans (h a s)

theorem reportParties_chan (i : CallIdx) (v : CallEvent) (n : CallReason) (s : State) (e : EndId) :
    (reportParties i v n s).chan e = s.chan e := by
  unfold reportParties reportCall
  split
  · exact forEach_unchanged (fun t => t.chan e) (fun x t => modLink_chan t x _ e) _ s
  · rfl

theorem callLosesChannel_chan (ref : CallRef) (r : CallReason) (s : State) (e : EndId) : (callLosesChannel ref r s).chan e = s.chan e := by
  unfold callLosesChannel
  split
  · split
    · exact reportParties_chan _ _ _ _ _
    · rfl
  · rfl

theorem groupEndStopped_chan (g : GroupId) (d : EndId) (s : State) (e : EndId) : (groupEndStopped g d s).chan e = s.chan e := by
  refine forEach_unchanged (fun t => t.chan e) (fun i t => ?_) _ _
  dsimp only
  split
  · unfold idleFromAnnouncement setIdle
    split <;> rfl
  · rfl

theorem stopEntry_chan (d : EndId) (w : Waiter) (s : State) (e : EndId) : (stopEntry d w s).chan e = s.chan e := by
  unfold stopEntry
  split
  · unfold callLosesEntry
    split <;> rfl
  · rfl

/-- Step 1 of R82 frees the channel. -/
theorem stopChannel_chan (e : EndId) (c : Chan) (s : State) :
    (stopChannel e c s).chan e = { s.chan e with channels := modNth (s.chan e).channels c fun _ => .free } := by
  unfold stopChannel
  split
  · rename_i hfree
    have same : modNth (s.chan e).channels c (fun _ => .free) = (s.chan e).channels := by
      rw [modNth, ← hfree]
      exact Vector.set_getElem_self _
    rw [same]
  · rw [callLosesChannel_chan, setHolder, modChan_chan_same]
  · rw [groupEndStopped_chan, setHolder, modChan_chan_same]

theorem stopChannels_free (e : EndId) (c : Chan) (l : List Chan) (s : State) (h : c ∈ l ∨ nth (s.chan e).channels c = .free) :
    nth ((forEach l (stopChannel e) s).chan e).channels c = .free := by
  induction l generalizing s with
  | nil => exact h.resolve_left List.not_mem_nil
  | cons d l ih =>
    rw [forEach_cons]
    refine ih _ ?_
    rw [stopChannel_chan, nth_modNth]
    by_cases hd : d = c
    · simp [hd]
    · have hcd : c ≠ d := fun h => hd h.symm
      simpa [hd, hcd] using h

theorem stopEnd_chan (e : EndId) (s : State) : (stopEnd e s).chan e = .powerOn := by
  have free : ((forEach (allFin 4) (stopChannel e) s).chan e).channels = Vector.replicate 4 .free :=
    Vector.ext fun k hk => (stopChannels_free e ⟨k, hk⟩ (allFin 4) s (.inl (mem_allFin _))).trans (by simp)
  rw [stopEnd, modChan_chan_same, forEach_unchanged (fun t => t.chan e) (fun w t => stopEntry_chan e w t e), setWaiting,
    modChan_chan_same, free]
  rfl

/-! ## The record of an end is rewritten (R8) -/

/-- The end's record has taken its new state and is cleared; its burst and its channels are as they were. -/
def clearedEnd (fitted : Bool) (e : EndId) (s : State) : State :=
  clearEnd e (if (s.endRec e).state = .unfitted ∧ (segmentEnd fitted (s.endRec e).state).1 = .unfitted then s
    else changeEnd e (segmentEnd fitted (s.endRec e).state).1 (segmentEnd fitted (s.endRec e).state).2 .segmentWrite s)

/-- What a segment write makes of the record of an end. -/
structure Rewritten (fitted : Bool) (r r' : EndRecord) : Prop where
  state : r'.state = (segmentEnd fitted r.state).1
  reach : r'.reach = (segmentEnd fitted r.state).2
  fault : r'.fault = none
  busyCount : r'.busyCount = 0
  retryWait : r'.retryWait = none
  retest : r'.retest = none
  measurement : r'.measurement = .none

theorem Rewritten.of_core {fitted : Bool} {r r' q' : EndRecord} (h : Rewritten fitted r r') (hq : q'.core = r'.core) : Rewritten fitted r q' := by
  simp only [EndRecord.core, EndRecord.mk.injEq] at hq
  obtain ⟨h1, h2, h3, h4, h5, h6, h7⟩ := h
  constructor <;> simp_all

theorem Rewritten.from_core {fitted : Bool} {r q r' : EndRecord} (h : Rewritten fitted r r') (hq : r.core = q.core) : Rewritten fitted q r' := by
  have state : r.state = q.state := (congrArg EndRecord.state hq :)
  obtain ⟨h1, h2, h3, h4, h5, h6, h7⟩ := h
  exact ⟨state ▸ h1, state ▸ h2, h3, h4, h5, h6, h7⟩

theorem clearedEnd_rewritten {fitted : Bool} {e : EndId} {s : State} (h : (s.endRec e).state = .unfitted → (s.endRec e).reach = .none) :
    Rewritten fitted (s.endRec e) ((clearedEnd fitted e s).endRec e) := by
  unfold clearedEnd clearEnd clearTimers
  split
  · rename_i hu
    obtain ⟨hold, hnew⟩ := hu
    rw [hold] at hnew
    have reach : (segmentEnd fitted .unfitted).2 = .none := by
      cases fitted
      · rfl
      · cases hnew
    constructor <;> simp [hold, hnew, reach, h hold]
  · constructor <;> simp [changeEnd_endRec_same]

theorem clearedEnd_suppressed (fitted : Bool) (e : EndId) (s : State) : ((clearedEnd fitted e s).endRec e).suppressed = none := by
  simp [clearedEnd, clearEnd]

theorem clearedEnd_endRec_ne {fitted : Bool} {e d : EndId} (h : d ≠ e) (s : State) : (clearedEnd fitted e s).endRec d = s.endRec d := by
  unfold clearedEnd clearEnd clearTimers changeEnd
  split
  · simp [h.symm]
  · dsimp only
    split <;> simp [h.symm]

theorem clearedEnd_chan (fitted : Bool) (e d : EndId) (s : State) : (clearedEnd fitted e s).chan d = s.chan d := by
  unfold clearedEnd clearEnd clearTimers changeEnd
  split
  · rfl
  · dsimp only
    split <;> rfl

theorem Calm.clearedEnd (fitted : Bool) (e : EndId) (s : State) : Calm s (Machine.clearedEnd fitted e s) := by
  refine .andThen (.modEnd e _ _ fun _ _ => rfl) (.andThen (.modEnd e _ _ fun _ h => h) (.of_ite (.refl s) (.of_ite ?_ ?_)))
  · exact .andThen (.modPort e _ _) (.modEnd e _ s fun _ h => h)
  · exact .modEnd e _ s fun _ h => h

theorem Reporting.quiet {s t : State} (hstore : t.store = s.store) (hnow : t.now = s.now) (hg : t.groups = s.groups)
    (hl : ∀ x, t.link x = s.link x) : Reporting s t :=
  ⟨hstore, hnow, fun g => by simp [memberSlots, State.group, hg], fun x => by rw [hl]; exact .refl _⟩

theorem Reporting.clearedEnd (fitted : Bool) (e : EndId) (s : State) : Reporting s (Machine.clearedEnd fitted e s) := by
  unfold Machine.clearedEnd clearEnd clearTimers changeEnd
  split
  · exact .quiet rfl rfl rfl fun x => by cases x <;> rfl
  · dsimp only
    split
    · exact .quiet rfl rfl rfl fun x => by cases x <;> rfl
    · exact .quiet rfl rfl rfl fun x => by cases x <;> rfl

/-- What follows the new record of an end: its burst ends, and an end that went UNFITTED stops serving. -/
theorem rewriteEnd_soft (fitted : Bool) (e : EndId) (s : State) : Soft ev on (clearedEnd fitted e s) (rewriteEnd fitted e s) := by
  unfold rewriteEnd
  dsimp only
  split
  · exact .andThen (.endBurst e _ _) (.endRec _ e _ fun _ => rfl)
  · exact .andThen (.stopEnd e _) (.endBurst e _ _)
  · exact .refl _
  · exact .refl _
  · exact .refl _

theorem rewriteEnd_calm (fitted : Bool) (e : EndId) (s : State) : Calm (clearedEnd fitted e s) (rewriteEnd fitted e s) := by
  unfold rewriteEnd
  dsimp only
  split
  · exact .andThen (.endBurst e _ _) (.modEnd e _ _ fun _ h => h)
  · exact .andThen (.stopEnd e _) (.endBurst e _ _)
  · exact .refl _
  · exact .refl _
  · exact .refl _

theorem rewriteEnd_reporting (fitted : Bool) (e : EndId) (s : State) : Reporting s (rewriteEnd fitted e s) :=
  (Reporting.clearedEnd fitted e s).trans (rewriteEnd_soft (ev := false) (on := true) fitted e s).frame.reporting

theorem rewriteEnd_core_ne {fitted : Bool} {e d : EndId} (h : d ≠ e) (s : State) :
    ((rewriteEnd fitted e s).endRec d).core = (s.endRec d).core := by
  rw [(rewriteEnd_soft (ev := false) (on := true) fitted e s).frame.core d, clearedEnd_endRec_ne h]

theorem rewriteEnd_chan_of_unfitted (e : EndId) (s : State) : (rewriteEnd false e s).chan e = .powerOn := stopEnd_chan e _

/-! ## Both ends -/

/-- An end of the written segment, as R8 sets it: r is its record before. -/
structure SetBySegment (fitted : Bool) (r : EndRecord) (s : State) (e : EndId) : Prop where
  rewritten : Rewritten fitted r (s.endRec e)
  suppressed : (s.endRec e).suppressed = none
  channels : fitted = false → s.chan e = .powerOn

theorem Rewritten.holdsNone {r r' : EndRecord} (h : Rewritten false r r') : holdsChannels r'.state = false := by
  rw [h.state]; rfl

/-- Small updates leave such an end so, if they suppress no post. -/
theorem SetBySegment.soft {fitted : Bool} {r : EndRecord} {s t : State} {e : EndId} (h : SetBySegment fitted r s e) (hst : Soft ev on s t)
    (hs : (s.endRec e).suppressed = none → (t.endRec e).suppressed = none) : SetBySegment fitted r t e := by
  refine ⟨h.rewritten.of_core (hst.frame.core e), hs h.suppressed, fun hf => ?_⟩
  subst hf
  exact hst.chan_powerOn h.rewritten.holdsNone (h.channels rfl)

/-- So does the rewriting of the other end. -/
theorem SetBySegment.rewriteEnd {fitted : Bool} {r : EndRecord} {s : State} {e d : EndId} (h : SetBySegment fitted r s e) (hd : e ≠ d) :
    SetBySegment fitted r (rewriteEnd fitted d s) e := by
  have cleared : SetBySegment fitted r (clearedEnd fitted d s) e := by
    refine ⟨?_, ?_, fun hf => ?_⟩
    · rw [clearedEnd_endRec_ne hd]; exact h.rewritten
    · rw [clearedEnd_endRec_ne hd]; exact h.suppressed
    · rw [clearedEnd_chan]; exact h.channels hf
  exact cleared.soft (rewriteEnd_soft (ev := false) (on := true) fitted d s) ((rewriteEnd_calm fitted d s).unsuppressed e)

theorem rewriteEnd_sets {fitted : Bool} {r : EndRecord} {e : EndId} {s : State} (hr : (s.endRec e).core = r.core)
    (h : r.state = .unfitted → r.reach = .none) : SetBySegment fitted r (Machine.rewriteEnd fitted e s) e := by
  have soft := rewriteEnd_soft (ev := false) (on := true) fitted e s
  have state : (s.endRec e).state = r.state := (congrArg EndRecord.state hr :)
  have reach : (s.endRec e).reach = r.reach := (congrArg EndRecord.reach hr :)
  have cleared : Rewritten fitted r ((clearedEnd fitted e s).endRec e) := (clearedEnd_rewritten (by rwa [state, reach])).from_core hr
  refine ⟨cleared.of_core (soft.frame.core e), ?_, fun hf => ?_⟩
  · exact (rewriteEnd_calm fitted e s).unsuppressed e (clearedEnd_suppressed fitted e s)
  · subst hf; exact rewriteEnd_chan_of_unfitted e s

/-- The state once both ends of a segment are rewritten. -/
def endsRewritten (fitted : Bool) (seg : SegId) (s : State) : State := forEach (endsOf seg) (rewriteEnd fitted) s

theorem endsRewritten_sets {fitted : Bool} {e : EndId} {s : State} (h : (s.endRec e).state = .unfitted → (s.endRec e).reach = .none) :
    SetBySegment fitted (s.endRec e) (endsRewritten fitted e.seg s) e := by
  obtain ⟨seg, side⟩ := e
  cases side with
  | a => exact (rewriteEnd_sets rfl h).rewriteEnd (by simp)
  | b => exact rewriteEnd_sets (rewriteEnd_core_ne (by simp) s) h

theorem endsRewritten_core_ne {fitted : Bool} {e : EndId} {seg : SegId} (h : e.seg ≠ seg) (s : State) :
    ((endsRewritten fitted seg s).endRec e).core = (s.endRec e).core := by
  have other (side : Side) : e ≠ ⟨seg, side⟩ := fun he => h (congrArg EndId.seg he)
  exact (rewriteEnd_core_ne (other .b) _).trans (rewriteEnd_core_ne (other .a) s)

theorem endsRewritten_reporting (fitted : Bool) (seg : SegId) (s : State) : Reporting s (endsRewritten fitted seg s) :=
  (rewriteEnd_reporting fitted _ s).trans (rewriteEnd_reporting fitted _ _)

theorem endsRewritten_hopMap (fitted : Bool) (seg : SegId) (s : State) (g : SegId) : (endsRewritten fitted seg s).hopMap g = s.hopMap g :=
  (((Calm.clearedEnd _ _ _).trans (rewriteEnd_calm _ _ _)).trans ((Calm.clearedEnd _ _ _).trans (rewriteEnd_calm _ _ _))).hopMap g

/-! ## The assignment of the segment's posts -/

/-- The hop maps stay, and an end without a suppressed post gets none. -/
structure Mapped (s t : State) : Prop where
  hopMaps : t.line.hopMaps = s.line.hopMaps
  unsuppressed : ∀ e, (s.endRec e).suppressed = none → (t.endRec e).suppressed = none

theorem Mapped.refl (s : State) : Mapped s s := ⟨rfl, fun _ => id⟩

theorem Mapped.trans {s t u : State} (h : Mapped s t) (k : Mapped t u) : Mapped s u :=
  ⟨k.hopMaps.trans h.hopMaps, fun e => k.unsuppressed e ∘ h.unsuppressed e⟩

theorem Mapped.hopMap {s t : State} (h : Mapped s t) (g : SegId) : t.hopMap g = s.hopMap g := by simp [State.hopMap, h.hopMaps]

theorem Mapped.forEach {α : Type} {f : α → State → State} (h : ∀ a s, Mapped s (f a s)) (l : List α) (s : State) :
    Mapped s (Machine.forEach l f s) := by
  induction l generalizing s with
  | nil => exact .refl s
  | cons a l ih => exact (h a s).trans (ih (f a s))

theorem Calm.mapped {s t : State} (h : Calm s t) : Mapped s t := ⟨h.hopMaps, h.unsuppressed⟩

theorem reassign_mapped (i : Slot) (s : State) : Mapped s (reassign i s) := by
  have moved (r q : PostReach) : Mapped s (reachEffects i r q (setReach i q s)) :=
    Mapped.trans (t := setReach i q s) ⟨rfl, fun _ => id⟩ (Calm.reachEffects i r q _).mapped
  unfold reassign
  dsimp only
  split
  · exact .refl s
  · exact moved _ _

/-- A post takes the end that the assignment gives it; the others stay where they are. -/
theorem reassign_reach (i j : Slot) (s : State) :
    ((reassign i s).post j).reach = if i = j then assignedReach s i else (s.post j).reach := by
  unfold reassign
  dsimp only
  split
  · rename_i h
    split
    · rename_i hij
      subst hij
      exact h.symm
    · rfl
  · rw [(Calm.reachEffects i _ _ _).reach, setReach]
    by_cases hij : i = j
    · subst hij; simp
    · simp [hij]

theorem reassign_store (i : Slot) (s : State) : (reassign i s).store = s.store := (Soft.reassign i s).frame.store

/-- A post that is assigned anew is UNSERVED exactly if it has no fitted segment. -/
theorem reassigned_unserved_iff (i : Slot) (l : List Slot) (s : State)
    (h : i ∈ l ∨ ((s.post i).reach = .unserved ↔ ¬ ((s.entry i).place.present = true ∧ (s.segment (s.entry i).place.seg).fitted = true))) :
    ((forEach l reassign s).post i).reach = .unserved ↔
      ¬ ((s.entry i).place.present = true ∧ (s.segment (s.entry i).place.seg).fitted = true) := by
  induction l generalizing s with
  | nil => exact h.resolve_left List.not_mem_nil
  | cons j l ih =>
    have entry : (reassign j s).entry i = s.entry i := by simp only [State.entry, reassign_store]
    have segment : ∀ g, (reassign j s).segment g = s.segment g := fun g => by simp only [State.segment, reassign_store]
    have rest := ih (reassign j s)
    rw [entry, segment, reassign_reach] at rest
    rw [forEach_cons]
    refine rest ?_
    by_cases hij : j = i
    · subst hij
      rw [if_pos rfl]
      exact .inr assignedReach_eq_unserved
    · rw [if_neg hij]
      exact h.imp_left fun hm => (List.mem_cons.mp hm).resolve_left fun e => hij e.symm

/-- What follows the assignment of each post. -/
theorem assignSegment_calm (seg : SegId) (s : State) : Calm (forEach (presentOn s seg) reassign s) (assignSegment seg s) :=
  .andThen (.settle s _) (.fixSegment seg _)

theorem assignSegment_mapped (seg : SegId) (s : State) : Mapped s (assignSegment seg s) :=
  (Mapped.forEach reassign_mapped _ s).trans (assignSegment_calm seg s).mapped

theorem rehop_endRec (g : SegId) (i : Slot) (s : State) (e : EndId) : (rehop g i s).endRec e = s.endRec e := by rw [rehop_eq]; rfl

theorem rebuild_endRec (g : SegId) (s : State) (e : EndId) : (rebuild g s).endRec e = s.endRec e :=
  forEach_unchanged (fun t => t.endRec e) (fun i t => rehop_endRec g i t e) (presentOn s g) (s.setHopMap g (hopMapOf s g))

/-! ## The end of the event -/

/-- The posts of the segment have their hops and their ends. -/
def segmentAssigned (seg : SegId) (s : State) : State :=
  assignSegment seg (rebuild seg (endsRewritten (s.segment seg).fitted seg s))

/-- The ends of a segment that is not fitted hold no command. -/
def segmentEmptied (seg : SegId) (s : State) : State :=
  if (s.segment seg).fitted then segmentAssigned seg s else forEach (endsOf seg) emptyCommands (segmentAssigned seg s)

theorem Calm.emptyCommands (e : EndId) (s : State) : Calm s (Machine.emptyCommands e s) := .modEnd e _ s fun _ h => h

theorem segmentEmptied_calm (seg : SegId) (s : State) : Calm (segmentAssigned seg s) (segmentEmptied seg s) :=
  .of_ite (.refl _) (.forEach Calm.emptyCommands _ _)

theorem segmentEmptied_soft (seg : SegId) (s : State) : Soft ev on (segmentAssigned seg s) (segmentEmptied seg s) :=
  .of_ite (.refl _) (.forEach (fun e t => .emptyCommands e t) _ _)

theorem segmentEmptied_commands {e : EndId} {s : State} (h : (s.segment e.seg).fitted = false) :
    ((segmentEmptied e.seg s).endRec e).commands = [] := by
  obtain ⟨seg, side⟩ := e
  rw [segmentEmptied, if_neg (by simp [h])]
  cases side <;> simp [endsOf, forEach, emptyCommands]

theorem reportRewritten_soft (before : State) (e : EndId) (s : State) : Soft ev on s (reportRewritten before e s) :=
  .of_ite (.refl s) (.reportEndState e s)

theorem reportRewritten_calm (before : State) (e : EndId) (s : State) : Calm s (reportRewritten before e s) :=
  .of_ite (.refl s) (.reportEndState e s)

theorem segmentReported_soft (seg : SegId) (s : State) : Soft ev on (segmentEmptied seg s) (segmentWritten seg s) :=
  .andThen (.isolationAlarms _ _) (.andThen (.fixOverflowTimers _) (.forEach (fun e t => reportRewritten_soft s e t) _ _))

theorem segmentReported_calm (seg : SegId) (s : State) : Calm (segmentEmptied seg s) (segmentWritten seg s) :=
  .andThen (.isolationAlarms _ _) (.andThen (.fixOverflowTimers _) (.forEach (fun e t => reportRewritten_calm s e t) _ _))

theorem reportBoth_line (r : Report) (s : State) : (reportBoth r s).line = s.line := by simp [reportBoth, report]

/-- Reports and overflow timers are not in the line block. -/
theorem segmentReported_line (seg : SegId) (s : State) : (segmentWritten seg s).line = (segmentEmptied seg s).line := by
  have alarms (before u : State) : (isolationAlarms before u).line = u.line := forEach_unchanged State.line (fun i t => by
    split
    · rfl
    · exact reportBoth_line _ t
    · exact reportBoth_line _ t
    · rfl) _ u
  have timers (u : State) : (fixOverflowTimers u).line = u.line := forEach_unchanged State.line (fun i t => by
    unfold fixOverflowTimer
    split
    · split <;> rfl
    · rfl) _ u
  have reports (u : State) : (forEach (endsOf seg) (reportRewritten s) u).line = u.line := forEach_unchanged State.line (fun e t => by
    unfold reportRewritten
    split
    · rfl
    · exact reportBoth_line _ t) _ u
  exact (alarms _ _).trans ((timers _).trans (reports _))

/-- What idle ports begin touches no command list. -/
theorem commands_of_agree {s t : State} (h : Agree t s) (e : EndId) : (t.endRec e).commands = (s.endRec e).commands := by
  have line : t.line.settled = s.line.settled := congrArg State.line h
  have same := congrArg (fun l : LineBlock => (nth l.ends (endIdx e)).commands) line
  simp only [LineBlock.settled, nth_map] at same
  exact same

theorem completion_commands (s : State) (e : EndId) : ((finish (storeReady s)).endRec e).commands = (s.endRec e).commands :=
  commands_of_agree (agree_finish (storeReady s)) e

theorem SetBySegment.completion {fitted : Bool} {r : EndRecord} {s : State} {e : EndId} (h : SetBySegment fitted r s e) :
    SetBySegment fitted r (finish (storeReady s)) e := by
  have ready : SetBySegment fitted r (storeReady s) e := ⟨h.rewritten, h.suppressed, h.channels⟩
  exact ready.soft (Soft.finish (ev := false) (on := true) (storeReady s)) ((Calm.finish (storeReady s)).unsuppressed e)

/-! ## The completion -/

section

variable (seg : SegId) (s : State)

theorem segmentWritten_soft : Soft false false (endsRewritten (s.segment seg).fitted seg s) (segmentWritten seg s) :=
  .andThen (segmentReported_soft seg s) (.andThen (segmentEmptied_soft seg s) (.andThen (.assignSegment seg _) (.rebuild seg _)))

theorem segmentWritten_reporting : Reporting s (segmentWritten seg s) :=
  (endsRewritten_reporting _ seg s).trans (segmentWritten_soft seg s).frame.reporting

theorem segmentWritten_calm : Calm (segmentAssigned seg s) (segmentWritten seg s) :=
  (segmentEmptied_calm seg s).trans (segmentReported_calm seg s)

theorem segmentWritten_hopMap (g : SegId) : (segmentWritten seg s).hopMap g = if g = seg then hopMapOf s g else s.hopMap g := by
  have site : (endsRewritten (s.segment seg).fitted seg s).store.site = s.store.site := congrArg StoreBlock.site (endsRewritten_reporting _ seg s).store
  rw [(segmentWritten_calm seg s).hopMap, segmentAssigned, (assignSegment_mapped seg _).hopMap, rebuild_hopMap, endsRewritten_hopMap,
    hopMapOf_congr site]
  by_cases h : seg = g
  · subst h; simp
  · simp [h, Ne.symm h]

theorem segmentWritten_sets {e : EndId} (he : e.seg = seg) (h : (s.endRec e).state = .unfitted → (s.endRec e).reach = .none) :
    SetBySegment (s.segment seg).fitted (s.endRec e) (segmentWritten seg s) e := by
  subst he
  refine (endsRewritten_sets h).soft (segmentWritten_soft e.seg s) fun hs => ?_
  refine (segmentWritten_calm e.seg s).unsuppressed e ((assignSegment_mapped e.seg _).unsuppressed e ?_)
  rwa [rebuild_endRec]

theorem segmentWritten_commands {e : EndId} (he : e.seg = seg) (h : (s.segment seg).fitted = false) :
    ((segmentWritten seg s).endRec e).commands = [] := by
  subst he
  rw [State.endRec, segmentReported_line]
  exact segmentEmptied_commands h

theorem segmentWritten_unserved_iff {i : Slot} (hp : (s.entry i).place.present = true) (hs : (s.entry i).place.seg = seg) :
    ((segmentWritten seg s).post i).reach = .unserved ↔ (s.segment seg).fitted = false := by
  have store : (rebuild seg (endsRewritten (s.segment seg).fitted seg s)).store = s.store :=
    (rebuild_store seg _).trans (endsRewritten_reporting _ seg s).store
  have assigned := (segmentWritten_calm seg s).reach i
  rw [segmentAssigned, (assignSegment_calm seg _).reach] at assigned
  generalize rebuild seg (endsRewritten (s.segment seg).fitted seg s) = u at *
  have entry : u.entry i = s.entry i := by simp only [State.entry, store]
  have mem : i ∈ presentOn u seg := by rw [mem_presentOn, entry]; exact ⟨hp, hs⟩
  rw [assigned, reassigned_unserved_iff i _ u (.inl mem), entry, State.segment, store, ← State.segment, hs]
  simp [hp]

end

theorem writeSegment_store (seg : SegId) (v : SegRecord) (s : State) :
    (writeSegment seg v s).store =
      { stored := { s.store.stored with segments := modNth s.store.stored.segments seg fun _ => .valid v }
        site := { s.store.site with segments := modNth s.store.site.segments seg fun _ => v }
        damaged := s.store.damaged.filter fun r => decide (r ≠ .segment seg), state := s.store.state } := clearMarks_store _ _

theorem writeSegment_link (seg : SegId) (v : SegRecord) (s : State) (y : LinkId) : (writeSegment seg v s).link y = s.link y := by
  cases y <;> rfl

theorem execSegmentWriteCompletion_of_busy {s : State} {o : StoreOperation} {seg : SegId} {v : SegRecord} (hp : s.powered = true)
    (hb : s.store.state = .busy o) (ho : o.write = .segment seg v) :
    execSegmentWriteCompletion s = .next (finish (storeReady (segmentWritten seg (reportWritten o (writeSegment seg v s))))) := by
  simp only [execSegmentWriteCompletion, hp, hb, ho]

theorem segmentEnd_eq (fitted : Bool) (st : EndState) :
    segmentEnd fitted st =
      (if fitted then (if st = .off then .off else .serving) else .unfitted, if fitted then (if st = .off then .none else .full) else .none) := by
  cases fitted <;> cases st <;> rfl

/-- Settles O48: the rewritten records of the ends are followed by small updates alone; the assignment of the segment's posts is what moves
a post. -/
theorem segmentCompletionSetsTheEnds : Obligations.segmentCompletionSetsTheEnds := by
  intro s o seg v hpow hbusy hw hends
  refine ⟨_, execSegmentWriteCompletion_of_busy hpow hbusy hw, ?_⟩
  have line : (reportWritten o (writeSegment seg v s)).line = s.line := reportWritten_line o _
  have store : (reportWritten o (writeSegment seg v s)).store = (writeSegment seg v s).store :=
    (Soft.reportWritten (ev := false) (on := true) o _).frame.store
  obtain ⟨hstore, hnow, hslots, hqueues⟩ :=
    (segmentWritten_reporting seg (reportWritten o (writeSegment seg v s))).completion (writeSegment_link seg v s)
  rw [writeSegment_store] at store hstore
  generalize reportWritten o (writeSegment seg v s) = w at *
  have endRec : ∀ e, w.endRec e = s.endRec e := fun e => by simp only [State.endRec, line]
  have entry : ∀ i, w.entry i = s.entry i := fun i => by simp [State.entry, store]
  have fitted : (w.segment seg).fitted = v.fitted := by simp [State.segment, store]
  have done := Calm.completion (segmentWritten seg w)
  refine ⟨hstore, fun e he => ?_, fun e he => ?_, fun d => ?_, fun i hp hs => ?_, fun y hup hroom => ?_, hnow, hslots⟩
  · rw [completion_core, (segmentWritten_soft seg w).frame.core, endsRewritten_core_ne he, endRec]
  · obtain ⟨-, hidle, -⟩ := hends e
    have unreached : (w.endRec e).state = .unfitted → (w.endRec e).reach = .none := fun h => by
      rw [endRec] at h ⊢
      exact (hidle (by rw [h]; rfl)).1
    have emptied := segmentWritten_commands seg w he
    obtain ⟨⟨hst, hreach, hfault, hbusy, hretry, hretest, hmeas⟩, hsup, hchan⟩ := (segmentWritten_sets seg w he unreached).completion
    rw [fitted, endRec, segmentEnd_eq] at hst hreach
    rw [fitted] at hchan emptied
    exact ⟨hst, hreach, hfault, hsup, hbusy, hretry, hretest, hmeas, fun hf => ⟨hchan hf, (completion_commands _ e).trans (emptied hf)⟩⟩
  · have map := (done.hopMap d).trans (segmentWritten_hopMap seg w d)
    have site : (finish (storeReady (segmentWritten seg w))).store.site = w.store.site := by rw [hstore, store]
    have old : w.hopMap d = s.hopMap d := by simp only [State.hopMap, line]
    rw [old, ← hopMapOf_congr site] at map
    split at map
    · rename_i hd
      rw [if_pos hd, map, hd]
    · rename_i hd
      rw [if_neg hd, map]
  · rw [done.reach, segmentWritten_unserved_iff seg w (by rwa [entry]) (by rwa [entry]), fitted]
  · have queue := hqueues y hup hroom
    simpa only [completionReport, hw, StoreWrite.named] using queue

end Sys2Proof.Machine
end

