-- ==== Sys2Proof/Proofs/Unwritten.lean ====
section
/-! PROOF. What a command can do to the store and to the latches: `Unwritten s t` says that the way from s to t writes nothing in the store,
moves no latch and takes no link DOWN. Every command has it but those on the store, on the latches, on power and on the framing of a link. -/

namespace Sys2Proof.Machine

/-- No latch moves and no link goes DOWN. -/
structure Latched (s t : State) : Prop where
  latch : ∀ x, (t.link x).latch = (s.link x).latch
  up : ∀ x, (s.link x).up = true → (t.link x).up = true

/-- The store stays as it is, no latch moves and no link goes DOWN. -/
structure Unwritten (s t : State) : Prop extends Latched s t where
  store : t.store = s.store

theorem Latched.refl (s : State) : Latched s s := ⟨fun _ => rfl, fun _ => id⟩

theorem Latched.trans {s t u : State} (h : Latched s t) (k : Latched t u) : Latched s u :=
  ⟨fun x => (k.latch x).trans (h.latch x), fun x => k.up x ∘ h.up x⟩

theorem Latched.of_link {s t : State} (h : ∀ x, t.link x = s.link x) : Latched s t :=
  ⟨fun x => by rw [h], fun x hx => by rwa [h]⟩

/-- An update of the link records that keeps the latch and takes no link DOWN. -/
theorem Latched.modLink (s : State) (x : LinkId) (f : LinkRecord → LinkRecord)
    (h : ∀ l, (f l).latch = l.latch ∧ (l.up = true → (f l).up = true)) : Latched s (s.modLink x f) := by
  refine ⟨fun y => ?_, fun y hy => ?_⟩
  · rw [link_modLink]
    split
    · exact (h _).1
    · rfl
  · rw [link_modLink]
    split
    · exact (h _).2 hy
    · exact hy

theorem OnlyTold.latch {l m : LinkRecord} (h : OnlyTold { l with overrun := [] } { m with overrun := [] }) :
    m.latch = l.latch ∧ m.up = l.up := by
  obtain ⟨-, -, hr⟩ := h
  simp only [LinkRecord.mk.injEq] at hr
  obtain ⟨hup, -, -, -, -, -, -, -, hlatch, -⟩ := hr
  exact ⟨hlatch, hup⟩

namespace Unwritten

variable {s t u : State}

theorem refl (s : State) : Unwritten s s := ⟨.refl s, rfl⟩
theorem trans (h : Unwritten s t) (k : Unwritten t u) : Unwritten s u := ⟨h.toLatched.trans k.toLatched, k.store.trans h.store⟩

/-- An operation after another, read as they are nested. -/
theorem andThen (k : Unwritten t u) (h : Unwritten s t) : Unwritten s u := h.trans k

theorem of_ite {c : Prop} [Decidable c] (ht : Unwritten s t) (hu : Unwritten s u) : Unwritten s (if c then t else u) := by
  split
  · exact ht
  · exact hu

theorem forEach {α : Type} {f : α → State → State} (h : ∀ a s, Unwritten s (f a s)) :
    ∀ (l : List α) (s : State), Unwritten s (Machine.forEach l f s)
  | [], s => .refl s
  | a :: l, s => (h a s).trans (forEach h l (f a s))

/-- An update of any other block. -/
theorem outside (hs : t.store = s.store) (ha : t.linkA = s.linkA) (hb : t.linkB = s.linkB) : Unwritten s t :=
  ⟨.of_link fun x => by cases x; exacts [ha, hb], hs⟩

theorem modLink (s : State) (x : LinkId) (f : LinkRecord → LinkRecord)
    (h : ∀ l, (f l).latch = l.latch ∧ (l.up = true → (f l).up = true)) : Unwritten s (s.modLink x f) := ⟨.modLink s x f h, by simp⟩

end Unwritten

/-- A chain of small updates writes nothing: a link is only told. -/
theorem Soft.unwritten {ev on : Bool} {s t : State} (h : Soft ev on s t) : Unwritten s t := by
  have told := fun x => (h.frame.told x).latch
  exact ⟨⟨fun x => (told x).1, fun x hx => (told x).2.trans hx⟩, h.frame.store⟩

theorem finish_unwritten (s : State) : Unwritten s (finish s) := (Soft.finish (ev := false) (on := true) s).unwritten

theorem Unwritten.andFinish {s t : State} (h : Unwritten s t) : Unwritten s (finish t) := h.trans (finish_unwritten t)

/-- The order of an event's reports touches queues alone. -/
theorem settle_unwritten (before s : State) : Unwritten s (settle before s) := by
  have ordered : Unwritten s (orderReports before s) :=
    ⟨⟨fun x => by cases x <;> rfl, fun x h => by cases x <;> exact h⟩, rfl⟩
  exact ordered.trans (.forEach (fun g t => (Soft.testReady (ev := false) (on := true) g t).unwritten) _ _)

/-! ## Updates of one record -/

theorem modPost_unwritten (s : State) (i : Slot) (f : PostRow → PostRow) : Unwritten s (s.modPost i f) := .outside rfl rfl rfl
theorem modEnd_unwritten (s : State) (e : EndId) (f : EndRecord → EndRecord) : Unwritten s (s.modEnd e f) := .outside rfl rfl rfl
theorem modPort_unwritten (s : State) (e : EndId) (f : Port → Port) : Unwritten s (s.modPort e f) := .outside rfl rfl rfl
theorem modCounters_unwritten (s : State) (e : EndId) (f : Counters → Counters) : Unwritten s (s.modCounters e f) := .outside rfl rfl rfl
theorem modBurst_unwritten (s : State) (e : EndId) (f : BurstRecord → BurstRecord) : Unwritten s (s.modBurst e f) := .outside rfl rfl rfl
theorem modCall_unwritten (s : State) (i : CallIdx) (f : LiveCall → LiveCall) : Unwritten s (s.modCall i f) := .outside rfl rfl rfl
theorem modGroup_unwritten (s : State) (g : GroupId) (f : GroupRun → GroupRun) : Unwritten s (s.modGroup g f) := .outside rfl rfl rfl
theorem makeLive_unwritten (i : CallIdx) (k : LiveCall) (s : State) : Unwritten s (makeLive i k s) := .outside rfl rfl rfl
theorem takeStamp_unwritten (s : State) : Unwritten s (takeStamp s) := .outside rfl rfl rfl
theorem reach_unwritten (s : State) (n : Nat) : Unwritten s (s.reach n) := .outside rfl rfl rfl

theorem takeTrunk_unwritten (x : LinkId) (t : Trunk) (u : TrunkUse) (s : State) : Unwritten s (takeTrunk x t u s) :=
  .modLink s x _ fun _ => ⟨rfl, id⟩

theorem startSilence_unwritten (x : LinkId) (s : State) : Unwritten s (startSilence x s) := .modLink s x _ fun _ => ⟨rfl, id⟩

/-! ## Taking requests -/

/-- Where the outcome of a command is a next state, nothing is written on the way there. -/
def OutcomeUnwritten (s : State) (o : Host.Outcome State Fault Refusal) : Prop := ∀ t, o = .next t → Unwritten s t

theorem OutcomeUnwritten.next {s t : State} (h : Unwritten s t) : OutcomeUnwritten s (.next t) := fun _ e => Host.Outcome.next.inj e ▸ h

theorem popIntake_unwritten (x : LinkId) (s : State) : Unwritten s (popIntake x s) := .modLink s x _ fun _ => ⟨rfl, id⟩

theorem respond_unwritten (x : LinkId) (tag typ : Byte) (r : Result) (b : ResponseBody) (s : State) :
    Unwritten s (respond x tag typ r b s) := .modLink s x _ fun _ => ⟨rfl, id⟩

theorem taken_unwritten (x : LinkId) (tag : Byte) (r : Request) (n : Result) (b : ResponseBody) (s : State) :
    Unwritten s (taken x tag r n b s) := (popIntake_unwritten x s).trans (respond_unwritten x tag _ n b _)

/-- The answers of a responder write nothing, as a placed response does. -/
def PlainAnswers (answer : Responder) : Prop := ∀ r b s, Unwritten s (answer r b s)

theorem requested_unwritten {x : LinkId} {tag : Byte} {r : Request} {act : Responder → State → State} (s : State)
    (h : ∀ answer, PlainAnswers answer → ∀ t, Unwritten t (act answer t)) : OutcomeUnwritten s (requested x tag r act s) := by
  have ha : PlainAnswers (respond x tag (requestType r)) := respond_unwritten x tag _
  unfold requested takeRequest
  refine .next (.of_ite ((popIntake_unwritten x s).trans ?_) (.refl s))
  exact .of_ite (ha _ _ _) (h _ ha _)

section
variable {answer : Responder} (ha : PlainAnswers answer) {s : State}
include ha

theorem withCall_unwritten {index generation : Nat} {act : CallIdx → LiveCall → State} (h : ∀ i k, Unwritten s (act i k)) :
    Unwritten s (withCall index generation answer s act) := by
  unfold withCall
  split
  · exact ha _ _ _
  · split
    · exact ha _ _ _
    · exact h _ _

theorem withTrunk_unwritten {x : LinkId} {slot : Nat} {act : Trunk → State} (h : ∀ t, Unwritten s (act t)) :
    Unwritten s (withTrunk x slot answer s act) := by
  unfold withTrunk
  split
  · exact ha _ _ _
  · exact .of_ite (h _) (ha _ _ _)

theorem withEnd_unwritten {code : Nat} {act : EndId → State} (h : ∀ e, Unwritten s (act e)) : Unwritten s (withEnd code answer s act) := by
  unfold withEnd
  split
  · exact ha _ _ _
  · exact h _

end

/-! ## Calls -/

theorem acceptAnswer_unwritten (x : LinkId) (i : CallIdx) (k : LiveCall) (t : Trunk) (s : State) : Unwritten s (acceptAnswer x i k t s) := by
  unfold acceptAnswer
  dsimp only
  refine (settle_unwritten _ _).andThen (.andThen (Soft.requestOnServing (on := true) _ _ _ ?_).unwritten
    ((modCall_unwritten _ _ _).andThen ?_))
  · exact onLine_modCall _ i _ fun _ => rfl
  · exact (Soft.withdrawOffers (ev := false) (on := true) _ _ _ _).unwritten.andThen (takeTrunk_unwritten x t _ s)

theorem addParty_unwritten (x : LinkId) (i : CallIdx) (k : LiveCall) (t : Trunk) (s : State) : Unwritten s (addParty x i k t s) :=
  (Soft.reportCall (ev := false) (on := true) _ _ _ _ _ _).unwritten.andThen
    ((modCall_unwritten _ _ _).andThen (takeTrunk_unwritten x t _ s))

theorem placeCall_unwritten (x : LinkId) (i : CallIdx) (slot : Slot) (t : Trunk) (s : State) : Unwritten s (placeCall x i slot t s) := by
  let live := makeLive i (outboundCall s slot x t) s
  have placed : Unwritten s (takeTrunk x t (.call (live.refOfRecord i)) live) :=
    (makeLive_unwritten i _ s).trans (takeTrunk_unwritten x t _ _)
  refine placed.trans (Soft.unwritten (ev := false) (on := true) ?_)
  exact .andThen (.memberLeftForCall .settle _ _) (.andThen (.placeCommand _ _ _) (.setActivity _ _ _ _))

theorem leaveCall_unwritten (x : LinkId) (i : CallIdx) (s : State) : Unwritten s (leaveCall x i s) :=
  (Soft.andThen (ev := false) (on := true) (.reportParties _ _ _ _) (.removeParty i x s)).unwritten

theorem clearCall_unwritten (x : LinkId) (i : CallIdx) (k : LiveCall) {answer : Responder} (ha : PlainAnswers answer) (s : State) :
    Unwritten s (clearCall x i k answer s) :=
  (((ha _ _ s).trans (Soft.clearing _ _ _ _ _).unwritten).trans (settle_unwritten _ _)).andFinish

theorem execAnswer_unwritten (x : LinkId) (tag : Byte) (index generation slot : Nat) (s : State) :
    OutcomeUnwritten s (execAnswer x tag index generation slot s) := by
  refine requested_unwritten s fun answer ha u => withCall_unwritten ha fun i k => ?_
  refine .of_ite (ha _ _ _) (.of_ite (ha _ _ _) (withTrunk_unwritten ha fun t => ?_))
  exact ((ha _ _ _).trans (acceptAnswer_unwritten x i k t _)).andFinish

theorem execJoin_unwritten (x : LinkId) (tag : Byte) (index generation slot : Nat) (s : State) :
    OutcomeUnwritten s (execJoin x tag index generation slot s) := by
  refine requested_unwritten s fun answer ha u => withCall_unwritten ha fun i k => ?_
  have joined : Unwritten u (if isParty x k then answer .alreadyParty .empty u
      else withTrunk x slot answer u fun t => finish (addParty x i k t (answer .ok .empty u))) :=
    .of_ite (ha _ _ _) (withTrunk_unwritten ha fun t => ((ha _ _ _).trans (addParty_unwritten x i k t _)).andFinish)
  split
  · exact ha _ _ _
  iterate 2 exact ha _ _ _
  iterate 4 exact joined

theorem execLeave_unwritten (x : LinkId) (tag : Byte) (index generation : Nat) (s : State) :
    OutcomeUnwritten s (execLeave x tag index generation s) := by
  refine requested_unwritten s fun answer ha u => withCall_unwritten ha fun i k => .of_ite (.of_ite ?_ ?_) (ha _ _ _)
  · exact ((ha _ _ _).trans (leaveCall_unwritten x i _)).andFinish
  · exact clearCall_unwritten x i k ha u

theorem execClear_unwritten (x : LinkId) (tag : Byte) (index generation : Nat) (s : State) :
    OutcomeUnwritten s (execClear x tag index generation s) := by
  refine requested_unwritten s fun answer ha u => withCall_unwritten ha fun i k => ?_
  have dismissed : Unwritten u (finish (dismiss i k x (answer .ok .empty u))) :=
    ((ha _ _ _).trans (Soft.dismiss (ev := false) i k x _).unwritten).andFinish
  have cleared : Unwritten u (if isParty x k then clearCall x i k answer u else answer .notAParty .empty u) :=
    .of_ite (clearCall_unwritten x i k ha u) (ha _ _ _)
  split
  · exact .of_ite dismissed (ha _ _ _)
  · exact .of_ite dismissed cleared
  iterate 4 exact cleared
  exact ha _ _ _

theorem execCallPost_unwritten (x : LinkId) (tag : Byte) (post slot : Nat) (s : State) :
    OutcomeUnwritten s (execCallPost x tag post slot s) := by
  refine requested_unwritten s fun answer ha u => ?_
  split
  · refine .of_ite (ha _ _ _) (.of_ite (ha _ _ _) ?_)
    split
    · exact ha _ _ _
    · exact .of_ite ((ha _ _ _).trans (placeCall_unwritten x _ _ _ _)).andFinish (ha _ _ _)
  · exact ha _ _ _

theorem execOverflowTimerExpiry_unwritten (i : CallIdx) (s : State) : OutcomeUnwritten s (execOverflowTimerExpiry i s) := by
  unfold execOverflowTimerExpiry
  split
  · exact .next ((Soft.offer (ev := false) (on := true) i _).unwritten.andThen ((modCall_unwritten _ _ _).andThen (reach_unwritten s _)))
  · exact .next (.refl s)

theorem execRingTimerExpiry_unwritten (i : CallIdx) (s : State) : OutcomeUnwritten s (execRingTimerExpiry i s) := by
  unfold execRingTimerExpiry
  split
  · exact .next ((reach_unwritten s _).trans (Soft.ringExpires (ev := false) i _ _).unwritten).andFinish
  · exact .next (.refl s)

theorem execClearConfirmTimerExpiry_unwritten (i : CallIdx) (s : State) : OutcomeUnwritten s (execClearConfirmTimerExpiry i s) := by
  unfold execClearConfirmTimerExpiry
  split
  · exact .next ((reach_unwritten s _).trans (Soft.freeRecord (ev := false) i _).unwritten).andFinish
  · exact .next (.refl s)

/-! ## Announcements -/

theorem startGroup_unwritten (g : GroupId) (x : LinkId) (t : Trunk) (s : State) : Unwritten s (startGroup g x t s) := by
  have started := (modGroup_unwritten s g fun _ => startedGroup s g x t).trans (takeTrunk_unwritten x t (.announce g) _)
  refine (started.trans (Soft.unwritten (ev := true) (on := true) ?_)).trans (settle_unwritten _ _)
  refine .andThen (.forEach (Soft.reportMember g none) _ _) (.forEach (fun e u => ?_) _ _)
  exact .of_ite (.refl u) (.requestForGroup g e u)

theorem execAnnounceStart_unwritten (x : LinkId) (tag : Byte) (group slot : Nat) (s : State) :
    OutcomeUnwritten s (execAnnounceStart x tag group slot s) := by
  refine requested_unwritten s fun answer ha u => ?_
  split
  · exact ha _ _ _
  · refine .of_ite (ha _ _ _) (.of_ite (ha _ _ _) (withTrunk_unwritten ha fun t => ?_))
    exact ((ha _ _ _).trans (startGroup_unwritten _ x t _)).andFinish

theorem execAnnounceStop_unwritten (x : LinkId) (tag : Byte) (group : Nat) (s : State) :
    OutcomeUnwritten s (execAnnounceStop x tag group s) := by
  refine requested_unwritten s fun answer ha u => ?_
  split
  · exact ha _ _ _
  · exact .of_ite ((ha _ _ _).trans (Soft.endGroup (ev := false) (on := true) _ _ _).unwritten).andFinish (ha _ _ _)

theorem execAcknowledgeWindowExpiry_unwritten (g : GroupId) (s : State) : OutcomeUnwritten s (execAcknowledgeWindowExpiry g s) := by
  unfold execAcknowledgeWindowExpiry
  split
  · exact .next ((reach_unwritten s _).trans (Soft.windowExpires (ev := false) (on := true) g _).unwritten).andFinish
  · exact .next (.refl s)

theorem execAcknowledgeLateExpiry_unwritten (g : GroupId) (s : State) : OutcomeUnwritten s (execAcknowledgeLateExpiry g s) := by
  unfold execAcknowledgeLateExpiry
  split
  · exact .next ((reach_unwritten s _).trans (Soft.lateExpires (ev := false) (on := true) g _).unwritten).andFinish
  · exact .next (.refl s)

/-! ## Ends and posts -/

theorem changeEnd_unwritten (e : EndId) (st : EndState) (r : EndReach) (c : EndCause) (s : State) : Unwritten s (changeEnd e st r c s) :=
  .of_ite ((modEnd_unwritten _ _ _).trans (modPort_unwritten _ _ _)) (modEnd_unwritten _ _ _)

theorem clearTimers_unwritten (e : EndId) (s : State) : Unwritten s (clearTimers e s) := modEnd_unwritten _ _ _

theorem abortEnd_unwritten (e : EndId) (r : AbortReason) (s : State) : Unwritten s (abortEnd e r s) :=
  (Soft.endBurst (ev := false) (on := true) e _ s).unwritten

theorem reportEndState_unwritten (e : EndId) (s : State) : Unwritten s (reportEndState e s) :=
  (Soft.reportEndState (ev := false) (on := true) e s).unwritten

theorem stopEnd_unwritten (e : EndId) (s : State) : Unwritten s (stopEnd e s) := (Soft.stopEnd (ev := false) (on := true) e s).unwritten

theorem assignSegment_unwritten (seg : SegId) (s : State) : Unwritten s (assignSegment seg s) :=
  (Soft.assignSegment (ev := false) seg s).unwritten

theorem isolationAlarms_unwritten (before s : State) : Unwritten s (isolationAlarms before s) :=
  (Soft.isolationAlarms (ev := false) (on := true) before s).unwritten

theorem goTesting_unwritten (e : EndId) (c : EndCause) (s : State) : Unwritten s (goTesting e c s) :=
  (reportEndState_unwritten _ _).andThen ((abortEnd_unwritten _ _ _).andThen ((modEnd_unwritten _ _ _).andThen
    ((clearTimers_unwritten _ _).andThen (changeEnd_unwritten _ _ _ _ s))))

theorem endOff_unwritten (e : EndId) (s : State) : Unwritten s (endOff e s) :=
  (isolationAlarms_unwritten _ _).andThen ((reportEndState_unwritten _ _).andThen ((assignSegment_unwritten _ _).andThen
    ((stopEnd_unwritten _ _).andThen ((abortEnd_unwritten _ _ _).andThen ((changeEnd_unwritten _ _ _ _ _).andThen
      ((modEnd_unwritten _ _ _).andThen (clearTimers_unwritten e s)))))))

theorem endService_unwritten (code setting : Nat) {answer : Responder} (ha : PlainAnswers answer) (s : State) :
    Unwritten s (endService code setting answer s) := by
  refine withEnd_unwritten ha fun e => ?_
  split
  · exact ha _ _ _
  · split
    iterate 3 exact ((ha _ _ _).trans (endOff_unwritten e _)).andFinish
    iterate 2 exact ha _ _ _
  · split
    · exact ((ha _ _ _).trans (goTesting_unwritten e _ _)).andFinish
    iterate 4 exact ha _ _ _

theorem execLineTest_unwritten (x : LinkId) (tag : Byte) (code : Nat) (s : State) : OutcomeUnwritten s (execLineTest x tag code s) := by
  refine requested_unwritten s fun answer ha u => withEnd_unwritten ha fun e => ?_
  split
  iterate 2 exact ((ha _ _ _).trans (goTesting_unwritten e _ _)).andFinish
  iterate 3 exact ha _ _ _

theorem execLineStats_unwritten (x : LinkId) (tag : Byte) (code clearFlag : Nat) (s : State) :
    OutcomeUnwritten s (execLineStats x tag code clearFlag s) :=
  requested_unwritten s fun _ ha u => withEnd_unwritten ha fun e => (ha .ok (.stats e (u.counters e) (u.burst e)) u).trans
    (.of_ite (modCounters_unwritten _ e _) (.refl _))

theorem execPostTest_unwritten (x : LinkId) (tag : Byte) (post count pattern : Nat) (s : State) :
    OutcomeUnwritten s (execPostTest x tag post count pattern s) := by
  refine requested_unwritten s fun answer ha u => ?_
  split
  · split
    · exact ha _ _ _
    · refine .of_ite (ha _ _ _) (.of_ite (ha _ _ _) (.of_ite (ha _ _ _) (Unwritten.andFinish ?_)))
      exact (modPost_unwritten _ _ _).andThen ((modBurst_unwritten _ _ _).andThen (ha _ _ _))
  · exact ha _ _ _

theorem execPostTestStop_unwritten (x : LinkId) (tag : Byte) (code : Nat) (s : State) :
    OutcomeUnwritten s (execPostTestStop x tag code s) :=
  requested_unwritten s fun _ ha _ => withEnd_unwritten ha fun e =>
    ((ha _ _ _).trans (Soft.endBurst (ev := false) (on := true) e _ _).unwritten).andFinish

/-! ## Queries -/

theorem execGroupResult_unwritten (x : LinkId) (tag : Byte) (group first : Nat) (s : State) :
    OutcomeUnwritten s (execGroupResult x tag group first s) := by
  refine requested_unwritten s fun _ ha u => ?_
  split <;> exact ha _ _ u

theorem execQueryPost_unwritten (x : LinkId) (tag : Byte) (post : Nat) (s : State) : OutcomeUnwritten s (execQueryPost x tag post s) := by
  refine requested_unwritten s fun _ ha u => ?_
  split <;> exact ha _ _ u

theorem execDirectoryRead_unwritten (x : LinkId) (tag : Byte) (kind index first : Nat) (s : State) :
    OutcomeUnwritten s (execDirectoryRead x tag kind index first s) := by
  refine requested_unwritten s fun _ ha u => ?_
  split <;> exact ha _ _ u

/-! ## Replies, failures and measurements -/

theorem reportBoth_unwritten (r : Report) (s : State) : Unwritten s (reportBoth r s) :=
  (Soft.reportBoth (ev := false) (on := true) r s).unwritten

theorem answered_unwritten (i : Slot) (s : State) : Unwritten s (answered i s) :=
  .of_ite ((modPost_unwritten s i _).trans (reportBoth_unwritten _ _)) (modPost_unwritten s i _)

theorem countMismatch_unwritten (e : EndId) (i : Slot) (n : Nat) (s : State) : Unwritten s (countMismatch e i n s) := by
  unfold countMismatch
  split
  · exact .of_ite (modCounters_unwritten s e _) (.refl s)
  · exact .refl s

theorem checkIdentity_unwritten (e : EndId) (i : Slot) (n : Nat) (s : State) : Unwritten s (checkIdentity e i n s) := by
  unfold checkIdentity
  split
  · refine (countMismatch_unwritten e i n s).trans (.of_ite (.refl _) ?_)
    exact (reportBoth_unwritten _ _).andThen (modPost_unwritten _ i _)
  · exact .refl s

theorem checkSensors_unwritten (i : Slot) (v : Sensors) (s : State) : Unwritten s (checkSensors i v s) :=
  .of_ite (.refl s) ((reportBoth_unwritten _ _).andThen (modPost_unwritten _ i _))

theorem connectDone_unwritten (i : Slot) (c : Chan) (s : State) : Unwritten s (connectDone i c s) := by
  unfold connectDone
  split
  · split
    · exact .of_ite ((modCall_unwritten _ _ _).trans (Soft.reportParties (ev := false) (on := true) _ _ _ _).unwritten) (.refl s)
    · exact .refl s
  · exact .refl s

theorem ringRefused_unwritten (i : Slot) (s : State) : Unwritten s (ringRefused i s) := by
  unfold ringRefused
  split
  · exact .of_ite ((takeStamp_unwritten s).trans (Soft.answeredByPost (ev := false) (on := true) _ _ _).unwritten) (.refl s)
  · exact .refl s

theorem releaseDone_unwritten (i : Slot) (s : State) : Unwritten s (releaseDone i s) := by
  unfold releaseDone
  split
  · exact .of_ite (Soft.freeRecord (ev := false) _ s).unwritten (.refl s)
  · exact .refl s

theorem commandResult_unwritten (i : Slot) (c : Command) (r : CommandResult) (s : State) : Unwritten s (commandResult i c r s) := by
  cases c with
  | connect c => exact connectDone_unwritten i c s
  | ring => exact .of_ite (ringRefused_unwritten i s) (.refl s)
  | release => exact releaseDone_unwritten i s
  | announce c => exact (Soft.announceResult (ev := false) (on := true) i c r s).unwritten
  | lampOn => exact .refl s
  | lampOff => exact .refl s
  | announceEnd => exact .refl s

theorem passResult_unwritten (e : EndId) (i : Slot) (c : Option (Command × Nat)) (r : Option CommandResult) (s : State) :
    Unwritten s (passResult e i c r s) := by
  unfold passResult
  split
  · exact (modEnd_unwritten _ _ _).trans (commandResult_unwritten _ _ _ _)
  · exact .refl s

theorem passCallEvent_unwritten (i : Slot) (b : Button) (s : State) : Unwritten s (passCallEvent i b s) :=
  ((takeStamp_unwritten s).trans (Soft.callEvent i b _ _ (ev := false)).unwritten).trans
    (Soft.abortTarget (ev := false) (on := true) i _ _).unwritten

theorem hookAndButton_unwritten (i : Slot) (hook : Hook) (b : Button) (s : State) : Unwritten s (hookAndButton i hook b s) := by
  unfold hookAndButton
  dsimp only
  split
  · exact modPost_unwritten s i _
  · exact (Soft.onHook (ev := false) i _).unwritten.andThen (modPost_unwritten s i _)
  · exact (passCallEvent_unwritten _ _ _).andThen (modPost_unwritten s i _)
  · exact .of_ite (.refl s) ((passCallEvent_unwritten _ _ _).andThen (modPost_unwritten s i _))

theorem goodPoll_unwritten (e : EndId) (i : Slot) (c : Option (Command × Nat)) (r : Reply) (s : State) : Unwritten s (goodPoll e i c r s) :=
  (hookAndButton_unwritten _ _ _ _).andThen ((passResult_unwritten _ _ _ _ _).andThen ((checkSensors_unwritten _ _ _).andThen
    ((checkIdentity_unwritten _ _ _ _).andThen ((modEnd_unwritten _ _ _).andThen (answered_unwritten i s)))))

theorem postFails_unwritten (i : Slot) (s : State) : Unwritten s (postFails i s) := by
  have counted := modPost_unwritten s i fun r =>
    { r with failures := if r.failures < s.store.site.global.threshold then r.failures + 1 else r.failures }
  exact .of_ite (counted.trans ((modPost_unwritten _ i _).trans (.of_ite (.refl _) (reportBoth_unwritten _ _)))) counted

theorem failedPoll_unwritten (e : EndId) (i : Slot) (s : State) : Unwritten s (failedPoll e i s) :=
  (postFails_unwritten i s).trans (.of_ite (goTesting_unwritten _ _ _) (.refl _))

theorem movedPoll_unwritten (e : EndId) (i : Slot) (o : PollOutcome) (s : State) : Unwritten s (movedPoll e i o s) := by
  cases o with
  | good r => exact countMismatch_unwritten _ _ _ s
  | corrupt => exact .refl s
  | silent => exact .refl s

theorem pollEnds_unwritten (e : EndId) (i : Slot) (hop : Nat) (c : Option (Command × Nat)) (o : PollOutcome) (s : State) :
    Unwritten s (pollEnds e i hop c o s) := by
  have counted : Unwritten s ((lastWasPoll e (endTransaction e s)).modCounters e (countOutcome o)) := .outside rfl rfl rfl
  refine (counted.trans (.of_ite ?_ (movedPoll_unwritten _ _ _ _))).andFinish
  cases o with
  | good r => exact goodPoll_unwritten _ _ _ _ _
  | corrupt => exact failedPoll_unwritten _ _ _
  | silent => exact failedPoll_unwritten _ _ _

theorem execPollReply_unwritten (e : EndId) (l : List Byte) (s : State) : OutcomeUnwritten s (execPollReply e l s) := by
  unfold execPollReply
  split
  · exact .next (pollEnds_unwritten _ _ _ _ _ s)
  · exact .next (.refl s)

theorem execPollWindowExpiry_unwritten (e : EndId) (s : State) : OutcomeUnwritten s (execPollWindowExpiry e s) := by
  unfold execPollWindowExpiry
  split
  · exact .next (pollEnds_unwritten _ _ _ _ _ s)
  · exact .next (.refl s)

theorem modRunning_unwritten (e : EndId) (f : Burst → Burst) (s : State) : Unwritten s (modRunning e f s) := modBurst_unwritten s e _

theorem testCounted_unwritten (e : EndId) (counted : Bool) (o : EchoOutcome) (s : State) : Unwritten s (testCounted e counted o s) := by
  refine .of_ite ((modRunning_unwritten e (countEcho o) s).trans ?_) (modRunning_unwritten e _ s)
  unfold endIfDone
  split
  · exact .of_ite (Soft.endBurst (ev := false) (on := true) e _ _).unwritten (.refl _)
  iterate 2 exact .refl _

theorem goodTest_unwritten (e : EndId) (i : Slot) (r : Reply) (s : State) : Unwritten s (goodTest e i r s) :=
  (hookAndButton_unwritten _ _ _ _).andThen ((checkSensors_unwritten _ _ _).andThen ((checkIdentity_unwritten _ _ _ _).andThen
    (modEnd_unwritten s e _)))

theorem execTestFrameReply_unwritten (e : EndId) (l : List Byte) (s : State) : OutcomeUnwritten s (execTestFrameReply e l s) := by
  unfold execTestFrameReply
  split
  · have counted (c : Bool) (o : EchoOutcome) : Unwritten s (testCounted e c o (endTransaction e s)) :=
      (modPort_unwritten s e _).trans (testCounted_unwritten e c o _)
    refine .next (Unwritten.andFinish ?_)
    split
    · exact (counted _ _).trans (goodTest_unwritten _ _ _ _)
    · exact counted _ _
  · exact .next (.refl s)

theorem execTestFrameWindowExpiry_unwritten (e : EndId) (s : State) : OutcomeUnwritten s (execTestFrameWindowExpiry e s) := by
  unfold execTestFrameWindowExpiry
  split
  · exact .next ((modPort_unwritten s e _).trans (testCounted_unwritten e _ _ _)).andFinish
  · exact .next (.refl s)

theorem execLoopLossEvent_unwritten (e : EndId) (s : State) : OutcomeUnwritten s (execLoopLossEvent e s) := by
  unfold execLoopLossEvent
  split
  · exact .next ((modPort_unwritten _ _ _).trans (.of_ite (goTesting_unwritten _ _ _).andFinish (.refl _)))
  · exact .next (modPort_unwritten _ _ _)

theorem execMeasurementBegin_unwritten (e : EndId) (s : State) : OutcomeUnwritten s (execMeasurementBegin e s) := by
  unfold execMeasurementBegin
  split
  · exact .next ((modEnd_unwritten _ _ _).trans (modCounters_unwritten _ e _)).andFinish
  · exact .next (.refl s)

theorem takeResult_unwritten (e : EndId) (k : MeasKind) (d : Nat) (g : Option SegId) (s : State) : Unwritten s (takeResult e k d g s) := by
  have recorded : Unwritten s (takeRecord e k d g s) := (changeEnd_unwritten _ _ _ _ s).trans (modEnd_unwritten _ _ _)
  exact (isolationAlarms_unwritten _ _).andThen ((reportEndState_unwritten _ _).andThen ((assignSegment_unwritten _ _).andThen
    (recorded.trans (.of_ite (stopEnd_unwritten _ _) (.refl _)))))

theorem execMeasurementResult_unwritten (e : EndId) (k : MeasKind) (d : Nat) (g : Option SegId) (s : State) :
    OutcomeUnwritten s (execMeasurementResult e k d g s) := by
  unfold execMeasurementResult
  split
  · split
    · exact .next (modEnd_unwritten _ _ _).andFinish
    · exact .next (takeResult_unwritten e k d g s).andFinish
  · exact .next (.refl s)

theorem execRetryWaitExpiry_unwritten (e : EndId) (s : State) : OutcomeUnwritten s (execRetryWaitExpiry e s) := by
  unfold execRetryWaitExpiry
  split
  · exact .next ((reach_unwritten s _).trans (modEnd_unwritten _ _ _)).andFinish
  · exact .next (.refl s)

theorem execRetestTimerExpiry_unwritten (e : EndId) (s : State) : OutcomeUnwritten s (execRetestTimerExpiry e s) := by
  have expired (t : State) : Unwritten t (retestExpires e t) := by
    unfold retestExpires
    split
    · exact goTesting_unwritten _ _ t
    · exact .of_ite (modEnd_unwritten _ _ _) (goTesting_unwritten _ _ t)
    iterate 3 exact .refl t
  unfold execRetestTimerExpiry
  split
  · exact .next ((reach_unwritten s _).trans (expired _)).andFinish
  · exact .next (.refl s)

/-! ## The links -/

theorem linkUp_unwritten (x : LinkId) (s : State) : Unwritten s (linkUp x s) := by
  have up := Unwritten.modLink s x (fun l => { l with up := true, good := 0, badCheck := 0, discarded := 0, firstUp := false })
    fun _ => ⟨rfl, fun _ => rfl⟩
  refine (Soft.offerAllTo (ev := false) (on := true) x _).unwritten.andThen ((up.trans (startSilence_unwritten x _)).trans (.of_ite ?_ ?_))
  · exact .modLink _ x _ fun _ => ⟨rfl, id⟩
  · exact (Soft.report (ev := false) (on := true) _ x _).unwritten

theorem takeFrame_unwritten (x : LinkId) (f : Frame) (s : State) : Unwritten s (takeFrame x f s) := by
  refine (startSilence_unwritten x s).trans (.of_ite (.refl _) (.of_ite ?_ ?_))
  · exact .modLink _ x _ fun _ => ⟨rfl, id⟩
  · exact .modLink _ x _ fun _ => ⟨rfl, id⟩

theorem execFrameReceived_unwritten (x : LinkId) (l : List Byte) (s : State) : OutcomeUnwritten s (execFrameReceived x l s) := by
  unfold execFrameReceived
  split
  · split
    · exact .next ((Unwritten.of_ite (.refl s) (linkUp_unwritten x s)).trans (takeFrame_unwritten x _ _))
    · exact .next (.modLink s x _ fun _ => ⟨rfl, id⟩)
  · exact .next (.refl s)

theorem execReportFrameSent_unwritten (x : LinkId) (s : State) : OutcomeUnwritten s (execReportFrameSent x s) := by
  unfold execReportFrameSent
  split
  · split
    · exact .next (.modLink s x _ fun _ => ⟨rfl, id⟩)
    · exact .next (.modLink s x _ fun _ => ⟨rfl, id⟩)
  · exact .next (.refl s)

theorem execBadRequestFrame_unwritten (x : LinkId) (tag typ : Byte) (s : State) : OutcomeUnwritten s (execBadRequestFrame x tag typ s) := by
  unfold execBadRequestFrame
  split
  · exact .next ((popIntake_unwritten x s).trans (respond_unwritten x tag typ _ _ _))
  · exact .next (.refl s)

end Sys2Proof.Machine
end

