-- ==== Sys2Proof/Proofs/StoreSteps.lean ====
section
/-! PROOF. The seven ways in which a command can leave the store and the latches (`StoreStep`), one lemma for each command on them; what changes
the store (O15) and what moves a latch (O45) are read off them. -/

namespace Sys2Proof.Machine

/-! ## Writes -/

/-- What a write request, taken in state s from link x, puts into the operation record (R18). -/
def WrittenBy (s : State) (x : LinkId) (w : StoreWrite) : Request → Prop
  | .writeName post _ => ∃ i v, slotOf post = some i ∧ w = .name i { s.entry i with name := v }
  | .writePlace post _ => ∃ i v, slotOf post = some i ∧ w = .place i { s.entry i with place := v }
  | .writeSegment seg _ => ∃ i v, segOf seg = some i ∧ w = .segment i v
  | .writeGlobal _ => ∃ v, w = .global v
  | .groupEdit group _ _ => ∃ i m, groupOf group = some i ∧ w = .group i m
  | .storeErase code => ∃ scope, scopeOf code = some scope ∧ w = .erase scope ∧ (s.link (otherLink x)).latch = true
  | _ => False

/-- The completion of an operation (R22). -/
def StoreWrite.completion : StoreWrite → Instr
  | .name _ _ => .nameWriteCompletion
  | .place _ _ => .placeCompletion
  | .segment _ _ => .segmentWriteCompletion
  | .global _ => .globalWriteCompletion
  | .group _ _ => .groupEditCompletion
  | .erase _ => .eraseCompletion

/-- How a command can leave the store and the latches. -/
inductive StoreStep (c : Instr) (s t : State) : Prop
  | unwritten (h : Unwritten s t)
  | accepted {x : LinkId} {tag : Byte} {q : Request} {w : StoreWrite} {body : ResponseBody} (hc : c.sender = some (x, tag))
      (hq : c.request = some q) (htakes : Takes s x tag q) (hready : s.store.state = .ready) (hlatch : (s.link x).latch = true)
      (hw : WrittenBy s x w q) (ht : t = Machine.accepted w x tag q body s)
  | latch {x : LinkId} {tag : Byte} {q : Request} {b : Bool}
      (hc : c = .writeEnable x tag ∧ q = .writeEnable ∧ b = true ∨ c = .writeDisable x tag ∧ q = .writeDisable ∧ b = false)
      (htakes : Takes s x tag q) (ht : t = setLatch x b (taken x tag q .ok .empty s))
  | linkDown {x : LinkId} (hc : c = .lossOfFraming x ∨ c = .silenceTimerExpiry x) (hstore : t.store = s.store)
      (hdown : (t.link x).up = false ∧ (t.link x).latch = false)
      (hother : ∀ y, y ≠ x → (t.link y).latch = (s.link y).latch ∧ (t.link y).up = (s.link y).up)
  | loaded (hc : c = .startUpLoadEnd) (hstarting : s.store.state = .starting) (hstore : t.store = { s.store with state := .ready })
      (hlatch : Latched s t)
  | completed {o : StoreOperation} (hbusy : s.store.state = .busy o) (hc : c = o.write.completion) (hready : t.store.state = .ready)
      (hlatch : Latched s t)
  | power (hc : ∃ n, c = .powerOnReset n ∨ c = .powerLoss n) (hstarting : t.store.state = .starting)
      (hlatch : ∀ x, (t.link x).latch = false)

/-- Where the outcome of a command is a next state, the store and the latches are left in one of these ways. -/
def OutcomeSteps (c : Instr) (s : State) (o : Host.Outcome State Fault Refusal) : Prop := ∀ t, o = .next t → StoreStep c s t

theorem OutcomeSteps.next {c : Instr} {s t : State} (h : StoreStep c s t) : OutcomeSteps c s (.next t) :=
  fun _ e => Host.Outcome.next.inj e ▸ h

theorem OutcomeSteps.same {c : Instr} {s : State} : OutcomeSteps c s (.next s) := .next (.unwritten (.refl s))

theorem OutcomeUnwritten.steps {c : Instr} {s : State} {o : Host.Outcome State Fault Refusal} (h : OutcomeUnwritten s o) :
    OutcomeSteps c s o := fun t ht => .unwritten (h t ht)

/-! ## Write requests -/

theorem setLatch_latched (x : LinkId) (b : Bool) (s : State) (y : LinkId) :
    ((setLatch x b s).link y).latch = (if x = y then b else (s.link y).latch) ∧ ((setLatch x b s).link y).up = (s.link y).up := by
  cases x <;> cases y <;> exact ⟨rfl, rfl⟩

theorem accepted_latched (w : StoreWrite) (x : LinkId) (tag : Byte) (q : Request) (b : ResponseBody) (s : State) :
    Latched s (accepted w x tag q b s) :=
  (taken_unwritten x tag q .ok b s).toLatched.trans (.of_link fun y => by cases y <;> rfl)

theorem eq_ready {s : State} (h : s.store.state ≠ .starting) (hb : storeBusy s = false) : s.store.state = .ready := by
  unfold storeBusy at hb
  split at hb
  · cases hb
  · assumption
  · contradiction

/-- A block answers a write, or accepts it. -/
inductive Decided (x : LinkId) (tag : Byte) (P : StoreWrite → Prop) (answer : Responder) (u : State) : State → Prop
  | answered (r : Result) (b : ResponseBody) : Decided x tag P answer u (answer r b u)
  | accepted (w : StoreWrite) (b : ResponseBody) (h : P w) : Decided x tag P answer u (acceptWrite w x tag b answer u)

theorem Decided.of_ite {x : LinkId} {tag : Byte} {P : StoreWrite → Prop} {answer : Responder} {u v v' : State} {c : Prop} [Decidable c]
    (h : Decided x tag P answer u v) (h' : Decided x tag P answer u v') : Decided x tag P answer u (if c then v else v') := by
  split
  · exact h
  · exact h'

/-- A write is accepted only in READY, with its latches set (R19); else nothing is written. -/
theorem steps_of_write {c : Instr} {x : LinkId} {tag : Byte} {q : Request} {latched : State → Bool} {act : Responder → State → State}
    {s : State} (hc : c.sender = some (x, tag)) (hq : c.request = some q) (hl : latched (popIntake x s) = true → (s.link x).latch = true)
    (hact : latched (popIntake x s) = true → ∀ answer, Decided x tag (WrittenBy s x · q) answer (popIntake x s) (act answer (popIntake x s))) :
    OutcomeSteps c s (requested x tag q (fun answer u => checkWrite (latched u) answer u (act answer u)) s) := by
  have plain (r : Result) (b : ResponseBody) : Unwritten s (respond x tag (requestType q) r b (popIntake x s)) := taken_unwritten x tag q r b s
  refine .next ?_
  by_cases hr : Ready s x tag q
  · by_cases hs : s.store.state = .starting
    · rw [takeRequest_of_starting _ hr hs]
      exact .unwritten (taken_unwritten x tag q _ _ s)
    · rw [takeRequest_of_takes _ ⟨hr, hs⟩]
      unfold checkWrite
      split
      · exact .unwritten (plain _ _)
      · rename_i hset
        split
        · exact .unwritten (plain _ _)
        · rename_i hbusy
          have hset : latched (popIntake x s) = true := by simpa using hset
          have hready : s.store.state = .ready := by
            simpa using eq_ready (s := popIntake x s) (by simpa using hs) (by simpa using hbusy)
          have decided := hact hset (respond x tag (requestType q))
          generalize act (respond x tag (requestType q)) (popIntake x s) = v at *
          cases decided with
          | answered r b => exact .unwritten (plain r b)
          | accepted w b hw => exact .accepted hc hq ⟨hr, hs⟩ hready (hl hset) hw (acceptWrite_eq w x tag q b s)
  · rw [takeRequest_of_not_ready _ hr]
    exact .unwritten (.refl s)

section
variable (x : LinkId) (tag : Byte) (s : State)

/-- The latch that a write of one link needs is that of the link. -/
theorem latch_of_popIntake {x : LinkId} {s : State} (h : ((popIntake x s).link x).latch = true) : (s.link x).latch = true :=
  (popIntake_latch x s x).symm.trans h

theorem execDirectoryWriteName_steps (post : Nat) (f : RawName) :
    OutcomeSteps (.directoryWriteName x tag post f) s (execDirectoryWriteName x tag post f s) := by
  refine steps_of_write rfl rfl latch_of_popIntake fun _ answer => ?_
  split
  · exact .answered _ _
  · exact .answered _ _
  · rename_i n i _ hi
    exact .accepted _ _ ⟨i, n, hi, by simp⟩

theorem execDirectoryWritePlace_steps (post : Nat) (f : RawPlace) :
    OutcomeSteps (.directoryWritePlace x tag post f) s (execDirectoryWritePlace x tag post f s) := by
  refine steps_of_write rfl rfl latch_of_popIntake fun _ answer => ?_
  split
  · exact .answered _ _
  · rename_i i hi
    split
    · exact .answered _ _
    · rename_i p _
      refine .of_ite (.answered _ _) (.of_ite (.answered _ _) (.of_ite (.answered _ _) ?_))
      exact .accepted _ _ ⟨i, p, hi, by simp⟩

theorem execSiteWriteSegment_steps (seg : Nat) (f : RawSegment) :
    OutcomeSteps (.siteWriteSegment x tag seg f) s (execSiteWriteSegment x tag seg f s) := by
  refine steps_of_write rfl rfl latch_of_popIntake fun _ answer => ?_
  split
  · rename_i g r hg _
    exact .of_ite (.answered _ _) (.of_ite (.answered _ _) (.accepted _ _ ⟨g, r, hg, rfl⟩))
  · exact .answered _ _

theorem execSiteWriteGlobal_steps (f : RawGlobal) : OutcomeSteps (.siteWriteGlobal x tag f) s (execSiteWriteGlobal x tag f s) :=
  steps_of_write rfl rfl latch_of_popIntake fun _ _ => .accepted _ _ ⟨_, rfl⟩

theorem execGroupEdit_steps (group op : Nat) (slots : List Nat) :
    OutcomeSteps (.groupEdit x tag group op slots) s (execGroupEdit x tag group op slots s) := by
  refine steps_of_write rfl rfl latch_of_popIntake fun _ answer => ?_
  split
  · exact .answered _ _
  · rename_i g hg
    exact .of_ite (.answered _ _) (.accepted _ _ ⟨g, _, hg, rfl⟩)

/-- Where an erase is accepted the latch of each link is set. -/
theorem latches_of_popIntake {x : LinkId} {s : State} (h : ((popIntake x s).linkA.latch && (popIntake x s).linkB.latch) = true)
    (y : LinkId) : (s.link y).latch = true := by
  rw [Bool.and_eq_true] at h
  rw [← popIntake_latch x s y]
  cases y
  · exact h.1
  · exact h.2

theorem execStoreErase_steps (scope : Nat) : OutcomeSteps (.storeErase x tag scope) s (execStoreErase x tag scope s) := by
  refine steps_of_write rfl rfl (fun hl => latches_of_popIntake hl x) fun hl answer => ?_
  split
  · exact .answered _ _
  · rename_i c hc
    exact .of_ite (.answered _ _) (.accepted _ _ ⟨c, hc, rfl, latches_of_popIntake hl _⟩)

/-! ## The latches (R23) -/

theorem steps_of_setLatch {c : Instr} {q : Request} {b : Bool}
    (hc : c = .writeEnable x tag ∧ q = .writeEnable ∧ b = true ∨ c = .writeDisable x tag ∧ q = .writeDisable ∧ b = false) :
    OutcomeSteps c s (requested x tag q (fun answer u => setLatch x b (answer .ok .empty u)) s) := by
  refine .next ?_
  by_cases hr : Ready s x tag q
  · by_cases hs : s.store.state = .starting
    · rw [takeRequest_of_starting _ hr hs]
      exact .unwritten (taken_unwritten x tag q _ _ s)
    · rw [takeRequest_of_takes _ ⟨hr, hs⟩]
      exact .latch hc ⟨hr, hs⟩ rfl
  · rw [takeRequest_of_not_ready _ hr]
    exact .unwritten (.refl s)

end

/-! ## A link goes DOWN (R146) -/

theorem Soft.latch {ev on : Bool} {s t : State} (h : Soft ev on s t) (y : LinkId) :
    (t.link y).latch = (s.link y).latch ∧ (t.link y).up = (s.link y).up := (h.frame.told y).latch

/-- The link that goes DOWN has its latch cleared; the other keeps its own. -/
theorem linkDown_latch (x y : LinkId) (s : State) :
    ((finish (linkDown x s)).link y).latch = (if y = x then false else (s.link y).latch)
      ∧ ((finish (linkDown x s)).link y).up = (if y = x then false else (s.link y).up) := by
  have closed : ((closeLink x s).link y).latch = (if y = x then false else (s.link y).latch)
      ∧ ((closeLink x s).link y).up = (if y = x then false else (s.link y).up) := by cases x <;> cases y <;> exact ⟨rfl, rfl⟩
  have lost : Soft false false (closeLink x s) (forEach (allFin 16) (sourceLost x) (callsLoseLink x (closeLink x s))) :=
    .andThen (.forEach (fun g u => .sourceLost x g u) _ _) (.callsLoseLink x _)
  have freed (u : State) : ((freeTrunks x u).link y).latch = (u.link y).latch ∧ ((freeTrunks x u).link y).up = (u.link y).up := by
    cases x <;> cases y <;> exact ⟨rfl, rfl⟩
  have ended := (Soft.finish (ev := false) (on := true) (linkDown x s)).latch y
  exact ⟨ended.1.trans ((freed _).1.trans ((lost.latch y).1.trans closed.1)), ended.2.trans ((freed _).2.trans ((lost.latch y).2.trans closed.2))⟩

theorem linkDown_store (x : LinkId) (s : State) : (finish (linkDown x s)).store = s.store := by
  have lost : Soft false false (closeLink x s) (forEach (allFin 16) (sourceLost x) (callsLoseLink x (closeLink x s))) :=
    .andThen (.forEach (fun g u => .sourceLost x g u) _ _) (.callsLoseLink x _)
  rw [(finish_unwritten _).store, linkDown, freeTrunks, modLink_store, lost.frame.store, closeLink, modLink_store]

theorem storeStep_of_linkDown {c : Instr} {x : LinkId} (hc : c = .lossOfFraming x ∨ c = .silenceTimerExpiry x) {s u : State}
    (hu : Unwritten s u) (hl : ∀ y, u.link y = s.link y) : StoreStep c s (finish (linkDown x u)) := by
  have latch := fun y => linkDown_latch x y u
  refine .linkDown hc ((linkDown_store x u).trans hu.store) ⟨?_, ?_⟩ fun y hy => ⟨?_, ?_⟩
  · simpa using (latch x).2
  · simpa using (latch x).1
  · rw [(latch y).1, if_neg hy, hl]
  · rw [(latch y).2, if_neg hy, hl]

theorem execLossOfFraming_steps (x : LinkId) (s : State) : OutcomeSteps (.lossOfFraming x) s (execLossOfFraming x s) := by
  unfold execLossOfFraming
  split
  · exact .next (storeStep_of_linkDown (.inl rfl) (.refl s) fun _ => rfl)
  · exact .same

theorem execSilenceTimerExpiry_steps (x : LinkId) (s : State) : OutcomeSteps (.silenceTimerExpiry x) s (execSilenceTimerExpiry x s) := by
  unfold execSilenceTimerExpiry
  split
  · split
    · exact .next (storeStep_of_linkDown (.inr rfl) (reach_unwritten s _) fun _ => rfl)
    · exact .same
  · exact .same

/-! ## Completions -/

/-- A change of the store alone. -/
theorem Latched.of_store {s t : State} (ha : t.linkA = s.linkA) (hb : t.linkB = s.linkB) : Latched s t :=
  .of_link fun x => by cases x; exacts [ha, hb]

theorem storeReady_latched (s : State) : Latched s (storeReady s) := .of_store rfl rfl

theorem reportWritten_unwritten (o : StoreOperation) (s : State) : Unwritten s (reportWritten o s) :=
  (Soft.reportWritten (ev := false) (on := true) o s).unwritten

theorem clearEnd_unwritten (e : EndId) (s : State) : Unwritten s (clearEnd e s) :=
  (modEnd_unwritten _ _ _).andThen (clearTimers_unwritten e s)

theorem rewriteEnd_unwritten (fitted : Bool) (e : EndId) (s : State) : Unwritten s (rewriteEnd fitted e s) := by
  have cleared : Unwritten s (clearedEnd fitted e s) := (clearEnd_unwritten _ _).andThen (.of_ite (.refl s) (changeEnd_unwritten _ _ _ _ s))
  exact cleared.trans (rewriteEnd_soft (ev := false) (on := true) fitted e s).unwritten

theorem segmentWritten_unwritten (seg : SegId) (s : State) : Unwritten s (segmentWritten seg s) :=
  (Unwritten.forEach (rewriteEnd_unwritten _) _ s).trans (segmentWritten_soft seg s).unwritten

theorem eraseEnd_unwritten (e : EndId) (s : State) : Unwritten s (eraseEnd e s) :=
  .of_ite (.refl s) ((stopEnd_unwritten _ _).andThen ((abortEnd_unwritten _ _ _).andThen ((clearEnd_unwritten _ _).andThen
    (changeEnd_unwritten _ _ _ _ s))))

theorem abortAll_unwritten (s : State) : Unwritten s (abortAll s) := .forEach (fun e t => abortEnd_unwritten e _ t) _ s

theorem directoryErased_unwritten (s : State) : Unwritten s (directoryErased s) := by
  refine (settle_unwritten _ _).andThen (Soft.unwritten (ev := true) (on := false) ?_)
  refine .andThen (.forEach (fun g t => .fixSegment g t) _ _) (.andThen (.forEach .reassign _ _) (.line s _ fun _ => ?_))
  exact ⟨rfl, rfl, rfl, rfl, rfl, rfl⟩

theorem lowerCounts_unwritten (s : State) : Unwritten s (lowerCounts s) := .outside rfl rfl rfl

theorem erased_unwritten (c : EraseScope) (s : State) : Unwritten s (erased c s) := by
  cases c with
  | groups => exact .refl s
  | directory => exact (abortAll_unwritten s).trans (directoryErased_unwritten _)
  | all =>
    refine (lowerCounts_unwritten _).andThen (.andThen (Soft.fixOverflowTimers (ev := false) (on := true) _).unwritten
      (.andThen (.forEach (fun e u => .of_ite (.refl u) (reportEndState_unwritten e u)) _ _) ?_))
    exact .andThen (.forEach (fun e u => modEnd_unwritten u e _) _ _) ((directoryErased_unwritten _).andThen
      (.andThen (.forEach eraseEnd_unwritten _ _) (abortAll_unwritten s)))

/-- A completion writes the store (w), tells of it (u), and ends in READY; it leaves the latches to their links. -/
theorem storeStep_of_completion {c : Instr} {o : StoreOperation} {s w u t : State} (hb : s.store.state = .busy o)
    (hc : c = o.write.completion) (hu : Unwritten w u) (hw : Latched s w) (ht : Unwritten (storeReady u) t) : StoreStep c s t :=
  .completed hb hc (by rw [ht.store]; rfl) (((hw.trans hu.toLatched).trans (storeReady_latched u)).trans ht.toLatched)

section
variable (s : State)

theorem execNameWriteCompletion_steps : OutcomeSteps .nameWriteCompletion s (execNameWriteCompletion s) := by
  unfold execNameWriteCompletion
  split
  · rename_i o _ hb
    split
    · rename_i i v hw
      have written := reportWritten_unwritten o (writeEntry i v s)
      exact .next (storeStep_of_completion hb (by rw [hw]; rfl) written (.of_store rfl rfl) (.refl _))
    · exact .same
  · exact .same

theorem execPlaceCompletion_steps : OutcomeSteps .placeCompletion s (execPlaceCompletion s) := by
  unfold execPlaceCompletion
  split
  · rename_i o _ hb
    split
    · rename_i i v hw
      have written := (reportWritten_unwritten o (writeEntry i v s)).trans (Soft.placed i (s.entry i).place (s.post i) _).unwritten
      exact .next (storeStep_of_completion hb (by rw [hw]; rfl) written (.of_store rfl rfl) (finish_unwritten _))
    · exact .same
  · exact .same

theorem execSegmentWriteCompletion_steps : OutcomeSteps .segmentWriteCompletion s (execSegmentWriteCompletion s) := by
  unfold execSegmentWriteCompletion
  split
  · rename_i o _ hb
    split
    · rename_i g v hw
      have written := (reportWritten_unwritten o (writeSegment g v s)).trans (segmentWritten_unwritten g _)
      exact .next (storeStep_of_completion hb (by rw [hw]; rfl) written (.of_store rfl rfl) (finish_unwritten _))
    · exact .same
  · exact .same

theorem execGlobalWriteCompletion_steps : OutcomeSteps .globalWriteCompletion s (execGlobalWriteCompletion s) := by
  unfold execGlobalWriteCompletion
  split
  · rename_i o _ hb
    split
    · rename_i v hw
      have written := (reportWritten_unwritten o (writeGlobal v s)).trans (lowerCounts_unwritten _)
      exact .next (storeStep_of_completion hb (by rw [hw]; rfl) written (.of_store rfl rfl) (.refl _))
    · exact .same
  · exact .same

theorem execGroupEditCompletion_steps : OutcomeSteps .groupEditCompletion s (execGroupEditCompletion s) := by
  unfold execGroupEditCompletion
  split
  · rename_i o _ hb
    split
    · rename_i g m hw
      have written := reportWritten_unwritten o (writeGroup g m s)
      exact .next (storeStep_of_completion hb (by rw [hw]; rfl) written (.of_store rfl rfl) (.refl _))
    · exact .same
  · exact .same

theorem execEraseCompletion_steps : OutcomeSteps .eraseCompletion s (execEraseCompletion s) := by
  unfold execEraseCompletion
  split
  · rename_i o _ hb
    split
    · rename_i c hw
      have written := (reportWritten_unwritten o (clearMarks (inScope c) (s.setStore (erasedStore c s.store)))).trans (erased_unwritten c _)
      exact .next (storeStep_of_completion hb (by rw [hw]; rfl) written (.of_store rfl rfl) (finish_unwritten _))
    · exact .same
  · exact .same

/-! ## Power -/

theorem execPowerOnReset_steps (n : Nat) : OutcomeSteps (.powerOnReset n) s (execPowerOnReset n s) :=
  .next (.power ⟨n, .inl rfl⟩ rfl fun x => by cases x <;> rfl)

theorem execPowerLoss_steps (n : Nat) : OutcomeSteps (.powerLoss n) s (execPowerLoss n s) := by
  unfold execPowerLoss
  split
  · exact .next (.power ⟨n, .inr rfl⟩ rfl fun x => by cases x <;> rfl)
  · exact .same

theorem releaseStart_unwritten (x : LinkId) (s : State) : Unwritten s (releaseStart x s) := by
  unfold releaseStart
  split
  · exact (Soft.report (ev := false) (on := true) _ x _).unwritten.andThen (.modLink s x _ fun _ => ⟨rfl, id⟩)
  · exact .refl s

theorem startEnd_unwritten (e : EndId) (s : State) : Unwritten s (startEnd e s) :=
  .of_ite ((modEnd_unwritten _ _ _).andThen (changeEnd_unwritten _ _ _ _ s)) (.refl s)

/-- The hop maps, the ends and the posts at the end of the load (R30). -/
def loadedSegments (s : State) : State := forEach (allFin 8) assignSegment (forEach allEnds startEnd (forEach (allFin 8) rebuild s))

/-- The state after the end of the load, once the links are told (R30, R151). -/
def startedUp (s : State) : State :=
  finish (forEach allEnds reportStarted (releaseStart .b (releaseStart .a (storeReady (loadedSegments s)))))

theorem execStartUpLoadEnd_eq : execStartUpLoadEnd s = .next (if s.powered = true ∧ s.store.state = .starting then startedUp s else s) := by
  have started : (s.powered && starting s) = true ↔ s.powered = true ∧ s.store.state = .starting := by simp [starting]
  unfold execStartUpLoadEnd
  split
  · rw [if_pos (started.mp ‹_›)]; rfl
  · rw [if_neg fun h => ‹¬ _› (started.mpr h)]

theorem loadedSegments_unwritten : Unwritten s (loadedSegments s) :=
  .andThen (.forEach assignSegment_unwritten _ _) (.andThen (.forEach startEnd_unwritten _ _)
    (.forEach (fun g u => (Soft.rebuild (ev := false) (on := true) g u).unwritten) _ s))

theorem startedUp_unwritten : Unwritten (storeReady (loadedSegments s)) (startedUp s) :=
  Unwritten.andFinish (.andThen (.forEach (fun e u => .of_ite (reportEndState_unwritten e u) (.refl u)) _ _)
    ((releaseStart_unwritten _ _).andThen (releaseStart_unwritten _ _)))

theorem startedUp_store : (startedUp s).store = { s.store with state := .ready } := by
  rw [(startedUp_unwritten s).store, storeReady, setStore_store, (loadedSegments_unwritten s).store]

theorem execStartUpLoadEnd_steps : OutcomeSteps .startUpLoadEnd s (execStartUpLoadEnd s) := by
  rw [execStartUpLoadEnd_eq]
  split
  · rename_i h
    exact .next (.loaded rfl h.2 (startedUp_store s)
      (((loadedSegments_unwritten s).toLatched.trans (storeReady_latched _)).trans (startedUp_unwritten s).toLatched))
  · exact .same

end

/-! ## Every command -/

/-- Every command leaves the store and the latches in one of the ways of `StoreStep`. -/
theorem exec_steps (c : Instr) (s : State) : OutcomeSteps c s (exec c s) := by
  cases c with
  | powerOnReset => exact execPowerOnReset_steps s _
  | powerLoss => exact execPowerLoss_steps s _
  | startUpLoadEnd => exact execStartUpLoadEnd_steps s
  | frameReceived => exact (execFrameReceived_unwritten _ _ s).steps
  | lossOfFraming => exact execLossOfFraming_steps _ s
  | silenceTimerExpiry => exact execSilenceTimerExpiry_steps _ s
  | reportFrameSent => exact (execReportFrameSent_unwritten _ s).steps
  | badRequestFrame => exact (execBadRequestFrame_unwritten _ _ _ s).steps
  | answer => exact (execAnswer_unwritten _ _ _ _ _ s).steps
  | join => exact (execJoin_unwritten _ _ _ _ _ s).steps
  | leave => exact (execLeave_unwritten _ _ _ _ s).steps
  | clear => exact (execClear_unwritten _ _ _ _ s).steps
  | callPost => exact (execCallPost_unwritten _ _ _ _ s).steps
  | queryCalls => exact (requested_unwritten s fun _ ha u => ha _ _ u).steps
  | announceStart => exact (execAnnounceStart_unwritten _ _ _ _ s).steps
  | announceStop => exact (execAnnounceStop_unwritten _ _ _ s).steps
  | groupEdit => exact execGroupEdit_steps _ _ s _ _ _
  | groupResult => exact (execGroupResult_unwritten _ _ _ _ s).steps
  | endServiceOff => exact (requested_unwritten s fun _ ha u => endService_unwritten _ _ ha u).steps
  | endServiceOn => exact (requested_unwritten s fun _ ha u => endService_unwritten _ 1 ha u).steps
  | lineTest => exact (execLineTest_unwritten _ _ _ s).steps
  | lineStats => exact (execLineStats_unwritten _ _ _ _ s).steps
  | postTest => exact (execPostTest_unwritten _ _ _ _ _ s).steps
  | postTestStop => exact (execPostTestStop_unwritten _ _ _ s).steps
  | queryPost => exact (execQueryPost_unwritten _ _ _ s).steps
  | queryEnd => exact (requested_unwritten s fun _ ha u => withEnd_unwritten ha fun _ => ha _ _ u).steps
  | writeEnable => exact steps_of_setLatch _ _ s (.inl ⟨rfl, rfl, rfl⟩)
  | writeDisable => exact steps_of_setLatch _ _ s (.inr ⟨rfl, rfl, rfl⟩)
  | directoryWriteName => exact execDirectoryWriteName_steps _ _ s _ _
  | directoryWritePlace => exact execDirectoryWritePlace_steps _ _ s _ _
  | siteWriteSegment => exact execSiteWriteSegment_steps _ _ s _ _
  | siteWriteGlobal => exact execSiteWriteGlobal_steps _ _ s _
  | storeErase => exact execStoreErase_steps _ _ s _
  | directoryRead => exact (execDirectoryRead_unwritten _ _ _ _ _ s).steps
  | nameWriteCompletion => exact execNameWriteCompletion_steps s
  | placeCompletion => exact execPlaceCompletion_steps s
  | segmentWriteCompletion => exact execSegmentWriteCompletion_steps s
  | globalWriteCompletion => exact execGlobalWriteCompletion_steps s
  | groupEditCompletion => exact execGroupEditCompletion_steps s
  | eraseCompletion => exact execEraseCompletion_steps s
  | pollReply => exact (execPollReply_unwritten _ _ s).steps
  | pollWindowExpiry => exact (execPollWindowExpiry_unwritten _ s).steps
  | testFrameReply => exact (execTestFrameReply_unwritten _ _ s).steps
  | testFrameWindowExpiry => exact (execTestFrameWindowExpiry_unwritten _ s).steps
  | loopLossEvent => exact (execLoopLossEvent_unwritten _ s).steps
  | loopCurrentRestored => exact (OutcomeUnwritten.next (modPort_unwritten s _ _)).steps
  | measurementBegin => exact (execMeasurementBegin_unwritten _ s).steps
  | measurementResult => exact (execMeasurementResult_unwritten _ _ _ _ s).steps
  | retryWaitExpiry => exact (execRetryWaitExpiry_unwritten _ s).steps
  | retestTimerExpiry => exact (execRetestTimerExpiry_unwritten _ s).steps
  | overflowTimerExpiry => exact (execOverflowTimerExpiry_unwritten _ s).steps
  | ringTimerExpiry => exact (execRingTimerExpiry_unwritten _ s).steps
  | clearConfirmTimerExpiry => exact (execClearConfirmTimerExpiry_unwritten _ s).steps
  | acknowledgeWindowExpiry => exact (execAcknowledgeWindowExpiry_unwritten _ s).steps
  | acknowledgeLateExpiry => exact (execAcknowledgeLateExpiry_unwritten _ s).steps

theorem exec_storeStep {c : Instr} {s t : State} (h : exec c s = .next t) : StoreStep c s t := exec_steps c s t h

/-- Settles O15: the content and the state of the store, way by way. -/
theorem storeChangesOnlyByWrites : Obligations.storeChangesOnlyByWrites := by
  refine ⟨fun c s t h => ?_, fun c s t h => ?_⟩
  · cases exec_storeStep h with
    | unwritten h => exact .inl (by simp [h.store])
    | accepted _ _ _ _ _ _ ht => exact .inl (by subst ht; exact ⟨rfl, rfl, rfl⟩)
    | @latch x tag q b _ _ ht =>
      have store : t.store = s.store := by
        rw [ht, setLatch, modLink_store, (taken_unwritten x tag q .ok .empty s).store]
      exact .inl (by simp [store])
    | linkDown _ hstore _ _ => exact .inl (by simp [hstore])
    | loaded _ _ hstore _ => exact .inl (by simp [hstore])
    | @completed o _ hc _ _ =>
      right
      cases hw : o.write <;> simp [hc, hw, StoreWrite.completion]
    | power hc _ _ => simp [hc]
  · cases exec_storeStep h with
    | unwritten h => exact .inl (by rw [h.store])
    | @accepted x tag q w body hc hq htakes hready hlatch hw ht =>
      refine .inr (.inr (.inl ⟨x, tag, q, ⟨w, x, tag⟩, hc, hq, htakes, hready, by subst ht; rfl, rfl, rfl, hlatch, ?_⟩))
      cases q <;> exact hw
    | @latch x tag q b _ _ ht =>
      left
      rw [ht, setLatch, modLink_store, (taken_unwritten x tag q .ok .empty s).store]
    | linkDown _ hstore _ _ => exact .inl (by rw [hstore])
    | loaded hc hs hstore _ => exact .inr (.inl ⟨hc, hs, by rw [hstore]⟩)
    | @completed o hb hc hready _ =>
      refine .inr (.inr (.inr (.inl ⟨o, hb, hready, ?_⟩)))
      cases hw : o.write <;> simp [hc, hw, StoreWrite.completion]
    | power hc hs _ => exact .inr (.inr (.inr (.inr ⟨hc, hs⟩)))

theorem taken_latch (x : LinkId) (tag : Byte) (q : Request) (n : Result) (b : ResponseBody) (s : State) (y : LinkId) :
    ((taken x tag q n b s).link y).latch = (s.link y).latch := (taken_unwritten x tag q n b s).latch y

/-- A link that goes DOWN has its latch cleared (R23). -/
theorem latch_of_goesDown {c : Instr} {x : LinkId} {s t : State} (h : exec c s = .next t) (hup : (s.link x).up = true)
    (hdown : (t.link x).up = false) : (t.link x).latch = false := by
  have stays (hl : Latched s t) : (t.link x).latch = false := by
    rw [hl.up x hup] at hdown
    cases hdown
  cases exec_storeStep h with
  | unwritten h => exact stays h.toLatched
  | @accepted y tag q w body _ _ _ _ _ _ ht => exact stays (ht ▸ accepted_latched w y tag q body s)
  | @latch y tag q b _ _ ht =>
    have up := (taken_unwritten y tag q .ok .empty s).up x hup
    rw [ht, (setLatch_latched y b _ x).2, up] at hdown
    cases hdown
  | @linkDown y _ _ hd ho =>
    by_cases hy : x = y
    · rw [hy]; exact hd.2
    · rw [(ho x hy).2, hup] at hdown
      cases hdown
  | loaded _ _ _ hl => exact stays hl
  | completed _ _ _ hl => exact stays hl
  | power _ _ hl => exact hl x

/-- What moves the latch of a link (R23). -/
theorem latch_moves {c : Instr} {s t : State} (h : exec c s = .next t) (x : LinkId) :
    (t.link x).latch = (s.link x).latch
      ∨ (∃ tag, c = .writeEnable x tag ∧ Takes s x tag .writeEnable ∧ (t.link x).latch = true)
      ∨ (∃ tag, c = .writeDisable x tag ∧ Takes s x tag .writeDisable ∧ (t.link x).latch = false)
      ∨ ((c = .lossOfFraming x ∨ c = .silenceTimerExpiry x) ∧ (t.link x).up = false ∧ (t.link x).latch = false)
      ∨ ((∃ n, c = .powerOnReset n ∨ c = .powerLoss n) ∧ (t.link x).latch = false) := by
  cases exec_storeStep h with
  | unwritten h => exact .inl (h.latch x)
  | @accepted y tag q w body _ _ _ _ _ _ ht => exact .inl (ht ▸ (accepted_latched w y tag q body s).latch x)
  | @latch y tag q b hc htakes ht =>
    have latch := (setLatch_latched y b (taken y tag q .ok .empty s) x).1
    rw [← ht, taken_latch] at latch
    by_cases hy : y = x
    · subst hy
      rw [if_pos rfl] at latch
      rcases hc with ⟨hc, rfl, rfl⟩ | ⟨hc, rfl, rfl⟩
      · exact .inr (.inl ⟨tag, hc, htakes, latch⟩)
      · exact .inr (.inr (.inl ⟨tag, hc, htakes, latch⟩))
    · rw [if_neg hy] at latch
      exact .inl latch
  | @linkDown y hc _ hd ho =>
    by_cases hy : x = y
    · subst hy
      exact .inr (.inr (.inr (.inl ⟨hc, hd⟩)))
    · exact .inl (ho x hy).1
  | loaded _ _ _ hl => exact .inl (hl.latch x)
  | completed _ _ _ hl => exact .inl (hl.latch x)
  | power hc _ hl => exact .inr (.inr (.inr (.inr ⟨hc, hl x⟩)))

/-- Settles O45: the two requests by the ways of taking a request, the rest way by way. -/
theorem latchesFollowTheirLink : Obligations.latchesFollowTheirLink := by
  refine ⟨fun x tag s => ⟨fun ht => ?_, fun ht => ?_, fun c r hc hr hs => ?_⟩, fun c x s t h => ⟨latch_of_goesDown h, ?_⟩,
    fun c x s t h => latch_moves h x⟩
  · exact congrArg _ (takeRequest_of_takes _ ht)
  · exact congrArg _ (takeRequest_of_takes _ ht)
  · rcases hc with ⟨rfl, rfl⟩ | ⟨rfl, rfl⟩
    · exact congrArg _ (takeRequest_of_starting _ hr hs)
    · exact congrArg _ (takeRequest_of_starting _ hr hs)
  · rintro ⟨n, rfl⟩
    cases h
    cases x <;> rfl

end Sys2Proof.Machine
end

