-- ==== Sys2Proof/Proofs/Starting.lean ====
section
/-! PROOF. Requests in STARTING and requests that wait (O11), and the blocks at their power-on values while the load runs (O22): nothing that
could change them is there. -/

namespace Sys2Proof.Machine

/-! ## Requests -/

/-- Every request row is the taking of its request, with what its block does. -/
theorem exec_eq_requested {c : Instr} {x : LinkId} {tag : Byte} {r : Request} (hc : c.sender = some (x, tag)) (hr : c.request = some r) :
    ∃ act, ∀ s, exec c s = requested x tag r act s := by
  cases c with
  | answer | join | leave | clear | callPost | queryCalls | announceStart | announceStop | groupEdit | groupResult | endServiceOff
  | endServiceOn | lineTest | lineStats | postTest | postTestStop | queryPost | queryEnd | writeEnable | writeDisable | directoryWriteName
  | directoryWritePlace | siteWriteSegment | siteWriteGlobal | storeErase | directoryRead =>
    cases hc
    cases hr
    exact ⟨_, fun _ => rfl⟩
  | _ => cases hc

section
variable {c : Instr} {x : LinkId} {tag : Byte} {r : Request} {s : State} (hc : c.sender = some (x, tag)) (hq : c.request = some r)
include hc hq

theorem exec_of_starting (hr : Ready s x tag r) (hs : s.store.state = .starting) :
    exec c s = .next (taken x tag r .notReady .empty s) := by
  obtain ⟨act, h⟩ := exec_eq_requested hc hq
  rw [h, requested, takeRequest_of_starting act hr hs]

theorem exec_of_not_ready (hr : ¬ Ready s x tag r) : exec c s = .next s := by
  obtain ⟨act, h⟩ := exec_eq_requested hc hq
  rw [h, requested, takeRequest_of_not_ready act hr]

end

/-- Settles O11: every request is taken in one way. -/
theorem requestsInStartingAndWaiting : Obligations.requestsInStartingAndWaiting :=
  ⟨fun _ _ _ _ _ hc hq hr hs => exec_of_starting hc hq hr hs, fun _ _ _ _ _ hc hq hr => exec_of_not_ready hc hq hr⟩

/-! ## An event that changes nothing -/

theorem orderLink_self (f : QueueEntry → QueueEntry) (l : LinkRecord) : orderLink f l l = l := by
  simp [orderLink]

theorem forEach_eq_self {α : Type} {f : α → State → State} {s : State} (h : ∀ a, f a s = s) (l : List α) : forEach l f s = s := by
  induction l with
  | nil => rfl
  | cons a l ih => rw [forEach_cons, h, ih]

/-- An event that places no report and changes no group leaves nothing to settle. -/
theorem settle_of_quiet {before s : State} (ha : s.linkA = before.linkA) (hb : s.linkB = before.linkB) (hg : s.groups = before.groups) :
    settle before s = s := by
  have ordered : orderReports before s = s := by
    rw [orderReports, ← ha, ← hb, orderLink_self, orderLink_self]
  have changed : changedGroups before s = [] := by simp [changedGroups, State.group, hg]
  rw [settle, ordered, changed]
  rfl

/-! ## The blocks at their power-on values -/

theorem BlocksAtPowerOn.of_same {s t : State} (h : BlocksAtPowerOn s) (hl : t.line = s.line) (ha : t.arbiter = s.arbiter)
    (hc : t.calls = s.calls) (hg : t.groups = s.groups) : BlocksAtPowerOn t := by
  rwa [BlocksAtPowerOn, hl, ha, hc, hg]

theorem BlocksAtPowerOn.modLink {s : State} (h : BlocksAtPowerOn s) (x : LinkId) (f : LinkRecord → LinkRecord) :
    BlocksAtPowerOn (s.modLink x f) := h.of_same (by simp) (by simp) (by simp) (by simp)

theorem volatileReset_blocks (p : Bool) (b : StoreBlock) (s : State) : BlocksAtPowerOn (volatileReset p b s) := by
  refine ⟨?_, rfl, rfl, rfl⟩
  simp [volatileReset, Function.comp_def]

section
variable {s : State} (h : BlocksAtPowerOn s)
include h

theorem BlocksAtPowerOn.post (i : Slot) : s.post i = .powerOn := by rw [State.post, h.1]; simp [LineBlock.powerOn]
theorem BlocksAtPowerOn.endRec (e : EndId) : s.endRec e = .powerOn := by rw [State.endRec, h.1]; simp [LineBlock.powerOn]
theorem BlocksAtPowerOn.counters (e : EndId) : s.counters e = .zero := by rw [State.counters, h.1]; simp [LineBlock.powerOn]
theorem BlocksAtPowerOn.burst (e : EndId) : s.burst e = .none := by rw [State.burst, h.1]; simp [LineBlock.powerOn]
theorem BlocksAtPowerOn.hopMap (g : SegId) : s.hopMap g = [] := by rw [State.hopMap, h.1]; simp [LineBlock.powerOn]
theorem BlocksAtPowerOn.first (g : SegId) : nth s.line.first g = none := by rw [h.1]; simp [LineBlock.powerOn]
theorem BlocksAtPowerOn.chan (e : EndId) : s.chan e = .powerOn := by simp [State.chan, h.2.1]
theorem BlocksAtPowerOn.group (g : GroupId) : s.group g = .powerOn := by simp [State.group, h.2.2.2]
theorem BlocksAtPowerOn.record (i : CallIdx) : s.record i = ⟨0, none⟩ := by simp [State.record, h.2.2.1, CallBlock.powerOn]
theorem BlocksAtPowerOn.liveCall (i : CallIdx) : s.liveCall i = none := by rw [State.liveCall, h.record]
theorem BlocksAtPowerOn.overflow : s.calls.overflow = [] := by simp [h.2.2.1, CallBlock.powerOn]

theorem BlocksAtPowerOn.port (e : EndId) : s.port e = { Port.powerOn with current := (s.port e).current } := by
  have ports : s.line.ports = s.line.ports.map fun p => { Port.powerOn with current := p.current } := congrArg LineBlock.ports h.1
  rw [State.port, ports]
  simp

theorem BlocksAtPowerOn.transaction (e : EndId) : (s.port e).transaction = none := by rw [h.port]; rfl

theorem BlocksAtPowerOn.portMode (e : EndId) : portMode s e = .quiet := by simp [Machine.portMode, h.endRec, EndRecord.powerOn]

theorem BlocksAtPowerOn.mayMeasure (e : EndId) : mayMeasure s e = false := by simp [Machine.mayMeasure, h.endRec, EndRecord.powerOn]

/-- No port scans and no end may measure: the end of a step begins nothing. -/
theorem BlocksAtPowerOn.finish : finish s = s := by
  have pumped (e : EndId) : pumpEnd e s = s := by simp [pumpEnd, h.portMode]
  have noted (g : SegId) : noteFirst g s = s := by
    have same : modNth s.line.first g (fun _ => none) = s.line.first := by
      rw [modNth, ← h.first g]
      exact Vector.set_getElem_self _
    simp [noteFirst, h.first, h.mayMeasure, State.onLine, same]
  rw [Machine.finish, forEach_eq_self pumped, forEach_eq_self noted]

/-- With no live call a link that comes UP is offered nothing. -/
theorem BlocksAtPowerOn.offerAllTo (x : LinkId) : BlocksAtPowerOn (offerAllTo x s) := by
  have empty (l : List CallIdx) : l.foldr (fun i q => match s.liveCall i with
      | some c => if c.state = .offered then insertQueued i c q else q
      | none => q) [] = [] := by
    induction l with
    | nil => rfl
    | cons i l ih => rw [List.foldr_cons, ih, h.liveCall]
  have queue : callQueue s = [] := empty _
  rwa [Machine.offerAllTo, queue]

/-- With no live call the loss of a link is the loss of no call. -/
theorem BlocksAtPowerOn.callsLoseLink (x : LinkId) : callsLoseLink x s = s := by
  have lost : forEach (allFin 48) (callLinkLost x) s = s := forEach_eq_self (fun i => by rw [callLinkLost, h.liveCall]) _
  rw [Machine.callsLoseLink, lost, settle_of_quiet rfl rfl rfl]

theorem BlocksAtPowerOn.sourceLost (x : LinkId) (g : GroupId) : sourceLost x g s = s := by
  rw [Machine.sourceLost, h.group]
  rfl

theorem BlocksAtPowerOn.linkDown (x : LinkId) : BlocksAtPowerOn (Machine.finish (linkDown x s)) := by
  have closed : BlocksAtPowerOn (closeLink x s) := h.modLink x _
  have down : BlocksAtPowerOn (Machine.linkDown x s) := by
    rw [Machine.linkDown, closed.callsLoseLink, forEach_eq_self (closed.sourceLost x)]
    exact closed.modLink x _
  rwa [down.finish]

theorem BlocksAtPowerOn.report (x : LinkId) (r : Report) : BlocksAtPowerOn (report x r s) := h.modLink x _

theorem BlocksAtPowerOn.linkUp (x : LinkId) : BlocksAtPowerOn (linkUp x s) := by
  unfold Machine.linkUp
  dsimp only
  have started (f : LinkRecord → LinkRecord) : BlocksAtPowerOn (startSilence x (s.modLink x f)) := (h.modLink x f).modLink x _
  split
  · exact .offerAllTo ((started _).modLink x _) x
  · exact .offerAllTo ((started _).report x _) x

theorem BlocksAtPowerOn.takeFrame (x : LinkId) (f : Frame) : BlocksAtPowerOn (takeFrame x f s) := by
  have started : BlocksAtPowerOn (startSilence x s) := h.modLink x _
  unfold Machine.takeFrame
  dsimp only
  split
  · exact started
  · split
    · exact started.modLink x _
    · exact started.modLink x _

theorem BlocksAtPowerOn.validFrame (x : LinkId) (f : Frame) : BlocksAtPowerOn (validFrame x f s) := by
  unfold Machine.validFrame
  split
  · exact h.takeFrame x f
  · exact (h.linkUp x).takeFrame x f

theorem BlocksAtPowerOn.taken (x : LinkId) (tag : Byte) (r : Request) (n : Result) (b : ResponseBody) :
    BlocksAtPowerOn (taken x tag r n b s) := (h.modLink x _).modLink x _

/-- The loop current of a port is an input. -/
theorem BlocksAtPowerOn.modPort (e : EndId) (f : Port → Port)
    (hf : ∀ p : Port, p = { Port.powerOn with current := p.current } → f p = { Port.powerOn with current := (f p).current }) :
    BlocksAtPowerOn (s.modPort e f) := by
  have image : modNth s.line.ports (endIdx e) f = (modNth s.line.ports (endIdx e) f).map fun p => { Port.powerOn with current := p.current } := by
    refine Vector.ext fun k hk => ?_
    have entry (t : Vector Port 16) : t[k] = nth t ⟨k, hk⟩ := rfl
    have old : nth s.line.ports ⟨k, hk⟩ = { Port.powerOn with current := (nth s.line.ports ⟨k, hk⟩).current } := by
      have ports : s.line.ports = s.line.ports.map fun p => { Port.powerOn with current := p.current } := congrArg LineBlock.ports h.1
      rw [ports]
      simp
    rw [entry, entry, nth_map, nth_modNth]
    split
    · exact hf _ old
    · exact old
  refine ⟨?_, h.2.1, h.2.2.1, h.2.2.2⟩
  rw [modPort_line, ← image]
  exact congrArg (fun l : LineBlock => { l with ports := modNth s.line.ports (endIdx e) f }) h.1

end

/-! ## Every command in STARTING -/

/-- Where the outcome of a command is a next state that is still in STARTING, the blocks are at their power-on values. -/
def OutcomeStarting (o : Host.Outcome State Fault Refusal) : Prop :=
  ∀ t, o = .next t → t.store.state = .starting → BlocksAtPowerOn t

theorem OutcomeStarting.next {t : State} (h : BlocksAtPowerOn t) : OutcomeStarting (.next t) :=
  fun _ e _ => Host.Outcome.next.inj e ▸ h

section
variable {s : State} (h : BlocksAtPowerOn s)
include h

/-- In STARTING a request is answered NOT READY, or waits (R29). -/
theorem request_outcomeStarting {c : Instr} {x : LinkId} {tag : Byte} {r : Request} (hs : s.store.state = .starting)
    (hc : c.sender = some (x, tag)) (hr : c.request = some r) : OutcomeStarting (exec c s) := by
  by_cases ready : Ready s x tag r
  · rw [exec_of_starting hc hr ready hs]
    exact .next (h.taken x tag r _ _)
  · rw [exec_of_not_ready hc hr ready]
    exact .next h

theorem execFrameReceived_starting (x : LinkId) (l : List Byte) : OutcomeStarting (execFrameReceived x l s) := by
  unfold execFrameReceived
  split
  · split
    · exact .next (h.validFrame x _)
    · exact .next (h.modLink x _)
  · exact .next h

theorem execLossOfFraming_starting (x : LinkId) : OutcomeStarting (execLossOfFraming x s) := by
  unfold execLossOfFraming
  split
  · exact .next (h.linkDown x)
  · exact .next h

theorem execSilenceTimerExpiry_starting (x : LinkId) : OutcomeStarting (execSilenceTimerExpiry x s) := by
  have later (n : Nat) : BlocksAtPowerOn (s.reach n) := h.of_same rfl rfl rfl rfl
  unfold execSilenceTimerExpiry
  split
  · split
    · exact .next ((later _).linkDown x)
    · exact .next h
  · exact .next h

theorem execReportFrameSent_starting (x : LinkId) : OutcomeStarting (execReportFrameSent x s) := by
  unfold execReportFrameSent
  split
  · split
    · exact .next (h.modLink x _)
    · exact .next (h.modLink x _)
  · exact .next h

theorem execBadRequestFrame_starting (x : LinkId) (tag typ : Byte) : OutcomeStarting (execBadRequestFrame x tag typ s) := by
  unfold execBadRequestFrame
  split
  · exact .next ((h.modLink x _).modLink x _)
  · exact .next h

/-- No sense is active, so that no loss of current is seen (R32). -/
theorem BlocksAtPowerOn.senseActive (e : EndId) : senseActive s e = false := by rw [Machine.senseActive, h.portMode]

theorem execLoopLossEvent_starting (e : EndId) : OutcomeStarting (execLoopLossEvent e s) := by
  unfold execLoopLossEvent
  simp only [h.senseActive, Bool.false_and, Bool.false_eq_true, if_false]
  split
  · exact .next (h.modPort e _ fun p hp => by rw [hp])
  · exact .next (h.modPort e _ fun p hp => by rw [hp])

theorem execLoopCurrentRestored_starting (e : EndId) : OutcomeStarting (execLoopCurrentRestored e s) := by
  unfold execLoopCurrentRestored
  simp only [h.senseActive, Bool.and_false, Bool.false_eq_true, if_false]
  exact .next (h.modPort e _ fun p hp => by rw [hp])

theorem BlocksAtPowerOn.timerOf (i : CallIdx) (k : TimerKind) : timerOf s i k = none := by rw [Machine.timerOf, h.liveCall]
theorem BlocksAtPowerOn.ackExpiry (g : GroupId) (p : AckPhase) : ackExpiry s g p = none := by rw [Machine.ackExpiry, h.group]; rfl
theorem BlocksAtPowerOn.retest (e : EndId) : (s.endRec e).retest = none := by rw [h.endRec]; rfl
theorem BlocksAtPowerOn.retryWait (e : EndId) : (s.endRec e).retryWait = none := by rw [h.endRec]; rfl
theorem BlocksAtPowerOn.state (e : EndId) : (s.endRec e).state = .unfitted := by rw [h.endRec]; rfl

/-- No transaction, measurement or timer is there to end, and no operation is in flight. -/
theorem exec_outcomeStarting (hs : s.store.state = .starting) (c : Instr) : OutcomeStarting (exec c s) := by
  have same : OutcomeStarting (.next s) := .next h
  cases c with
  | powerOnReset => exact .next (volatileReset_blocks _ _ s)
  | powerLoss =>
    rw [exec, execPowerLoss]
    split
    · exact .next (volatileReset_blocks _ _ s)
    · exact same
  | startUpLoadEnd =>
    rw [exec, execStartUpLoadEnd_eq]
    split
    · intro t ht hst
      rw [← Host.Outcome.next.inj ht, startedUp_store] at hst
      cases hst
    · exact same
  | frameReceived => exact execFrameReceived_starting h _ _
  | lossOfFraming => exact execLossOfFraming_starting h _
  | silenceTimerExpiry => exact execSilenceTimerExpiry_starting h _
  | reportFrameSent => exact execReportFrameSent_starting h _
  | badRequestFrame => exact execBadRequestFrame_starting h _ _ _
  | loopLossEvent => exact execLoopLossEvent_starting h _
  | loopCurrentRestored => exact execLoopCurrentRestored_starting h _
  | nameWriteCompletion => simpa [exec, execNameWriteCompletion, hs] using same
  | placeCompletion => simpa [exec, execPlaceCompletion, hs] using same
  | segmentWriteCompletion => simpa [exec, execSegmentWriteCompletion, hs] using same
  | globalWriteCompletion => simpa [exec, execGlobalWriteCompletion, hs] using same
  | groupEditCompletion => simpa [exec, execGroupEditCompletion, hs] using same
  | eraseCompletion => simpa [exec, execEraseCompletion, hs] using same
  | pollReply => simpa [exec, execPollReply, h.transaction] using same
  | pollWindowExpiry => simpa [exec, execPollWindowExpiry, h.transaction] using same
  | testFrameReply => simpa [exec, execTestFrameReply, h.transaction] using same
  | testFrameWindowExpiry => simpa [exec, execTestFrameWindowExpiry, h.transaction] using same
  | measurementBegin => simpa [exec, execMeasurementBegin, h.mayMeasure] using same
  | measurementResult => simpa [exec, execMeasurementResult, h.state] using same
  | retryWaitExpiry => simpa [exec, execRetryWaitExpiry, h.retryWait] using same
  | retestTimerExpiry => simpa [exec, execRetestTimerExpiry, h.retest] using same
  | overflowTimerExpiry => simpa [exec, execOverflowTimerExpiry, h.timerOf] using same
  | ringTimerExpiry => simpa [exec, execRingTimerExpiry, h.timerOf] using same
  | clearConfirmTimerExpiry => simpa [exec, execClearConfirmTimerExpiry, h.timerOf] using same
  | acknowledgeWindowExpiry => simpa [exec, execAcknowledgeWindowExpiry, h.ackExpiry] using same
  | acknowledgeLateExpiry => simpa [exec, execAcknowledgeLateExpiry, h.ackExpiry] using same
  | _ => exact request_outcomeStarting h hs rfl rfl

end

/-- STARTING is entered by power alone (R18). -/
theorem starting_before {c : Instr} {s t : State} (h : exec c s = .next t) (ht : t.store.state = .starting) :
    s.store.state = .starting ∨ ∃ n, c = .powerOnReset n ∨ c = .powerLoss n := by
  cases exec_storeStep h with
  | unwritten h => exact .inl (h.store ▸ ht)
  | accepted _ _ _ _ _ _ ht' => subst ht'; cases ht
  | @latch x tag q b _ _ ht' =>
    rw [ht', setLatch, modLink_store, (taken_unwritten x tag q .ok .empty s).store] at ht
    exact .inl ht
  | linkDown _ hstore _ _ => exact .inl (hstore ▸ ht)
  | loaded _ hs _ _ => exact .inl hs
  | completed _ _ hready _ => rw [hready] at ht; cases ht
  | power hc _ _ => exact .inr hc

theorem exec_keeps_startingOk {c : Instr} {s t : State} (hs : StartingOk s) (h : exec c s = .next t) : StartingOk t := by
  intro ht
  by_cases starting : s.store.state = .starting
  · exact exec_outcomeStarting (hs starting) starting c t h ht
  · obtain ⟨n, rfl | rfl⟩ := (starting_before h ht).resolve_left starting
    · cases h
      exact volatileReset_blocks _ _ s
    · change execPowerLoss n s = .next t at h
      unfold execPowerLoss at h
      split at h
      · exact Host.Outcome.next.inj h ▸ volatileReset_blocks _ _ s
      · exact absurd (Host.Outcome.next.inj h ▸ ht) starting

/-- Settles O22: in STARTING no command finds anything in the blocks to change, and only power leads into STARTING. -/
theorem stepKeepsStarting : Obligations.stepKeepsStarting := by
  intro s t hs h
  unfold step at h
  split at h
  · have ticked := Host.Outcome.next.inj h
    subst ticked
    unfold State.tick
    split
    · exact fun ht => (hs ht).of_same rfl rfl rfl rfl
    · exact hs
  · have before (l : List Instr) : StartingOk (s.withPending l) := fun hs' => (hs hs').of_same rfl rfl rfl rfl
    exact exec_keeps_startingOk (before _) h

end Sys2Proof.Machine
end

