-- ==== Sys2Proof/Proofs/PowerCycle.lean ====
section
/-! PROOF. Power: the values right after reset (O2), the load of the stored records (O3), and the record that a loss of power damages (O4). -/

namespace Sys2Proof.Machine

/-! ## The volatile state after a reset -/

/-- The state right after reset is that of a power-on over a blank store. -/
theorem reset_eq_volatileReset : State.reset = volatileReset true State.reset.store State.reset := by
  simp [volatileReset, State.reset, LineBlock.powerOn, Port.powerOn]

theorem reset_blocks : BlocksAtPowerOn State.reset := reset_eq_volatileReset ▸ volatileReset_blocks _ _ _

theorem reset_linksOk : LinksOk State.reset := by
  have ok : LinkOk (starting State.reset) .powerOn := by
    refine ⟨Nat.zero_le _, Nat.zero_le _, rfl, rfl, nofun, fun _ => ⟨rfl, rfl, rfl, rfl, rfl, fun t => ?_⟩⟩
    simp [LinkRecord.powerOn]
  exact ⟨ok, ok⟩

theorem reset_endsOk : EndsOk State.reset := by
  intro e
  rw [reset_blocks.endRec, reset_blocks.chan]
  simp [EndOk, EndRecord.powerOn]

theorem reset_countersOk : CountersOk State.reset := reset_eq_volatileReset ▸ volatileReset_countersOk _ _ _

theorem reset_groupsOk : GroupsOk State.reset := by
  rw [reset_eq_volatileReset]
  refine volatileReset_groupsOk _ _ _ (fun g l h => ?_) (fun g => ?_) rfl
  · simp [State.reset, StoredRecords.blank] at h
  · simp [State.reset, Site.blank, Ascending]

/-- Settles O2: the tables of the reset state are filled with power-on records, and no call is live. -/
theorem resetLeavesPowerOnValues : Obligations.resetLeavesPowerOnValues := by
  have h := reset_blocks
  refine ⟨⟨rfl, rfl, rfl, h.post, h.endRec, fun e => ⟨?_, h.portMode e, h.counters e, h.burst e⟩, fun e c => ?_, fun e => ?_, h.record,
    h.overflow, h.group, fun x => by cases x <;> rfl⟩, reset_linksOk, reset_endsOk, reset_countersOk, fun i k hk => ?_, fun i k hk => ?_,
    reset_groupsOk, fun _ => h⟩
  · rw [h.port]; rfl
  · rw [h.chan]; simp [ChannelEnd.powerOn]
  · rw [h.chan]; exact ⟨rfl, rfl⟩
  · rw [h.liveCall] at hk; cases hk
  · rw [h.liveCall] at hk; cases hk

/-! ## An operation that power loss interrupts (R28) -/

theorem inFlight_eq_some {s : State} {o : StoreOperation} : inFlight s = some o ↔ s.store.state = .busy o := by
  unfold inFlight
  cases s.store.state <;> simp

theorem inFlight_eq_none {s : State} : inFlight s = none ↔ ∀ o, s.store.state ≠ .busy o := by
  unfold inFlight
  cases s.store.state <;> simp

theorem storedAfterLoss_of_busy {s : State} {o : StoreOperation} (hp : s.powered = true) (hb : inFlight s = some o) (n : Nat) :
    storedAfterLoss s n = interrupted o.write n s.store.stored := by
  simp only [storedAfterLoss, hp, inFlight_eq_some.mp hb]

theorem storedAfterLoss_of_idle {s : State} (h : s.powered = false ∨ inFlight s = none) (n : Nat) :
    storedAfterLoss s n = s.store.stored := by
  unfold storedAfterLoss
  split
  · rename_i o hp hb
    rcases h with h | h
    · rw [h] at hp; cases hp
    · exact absurd hb (inFlight_eq_none.mp h o)
  · rfl

theorem nth_eraseCells {α : Type} {n : Nat} (reached base : Nat) (blank : α) (t : Vector (Cell α) n) (i : Fin n) :
    nth (eraseCells reached base blank t) i = eraseCell reached (base + i.val) blank (nth t i) := by
  simp [eraseCells, nth]

/-! ## The load (R27) -/

theorem isBad_iff {α : Type} {c : Cell α} : isBad c = true ↔ c = .bad := by cases c <;> simp [isBad]

theorem mem_loadDamaged {r : StoredRecords} {id : RecordId} :
    id ∈ loadDamaged r ↔ match id with
      | .entry i => nth r.entries i = .bad
      | .segment g => nth r.segments g = .bad
      | .global => r.global = .bad
      | .group g => nth r.groups g = .bad := by
  cases id <;> simp [loadDamaged, isBad_iff]

theorem loadDamaged_nodup (r : StoredRecords) : (loadDamaged r).Nodup := by
  have part {n : Nat} {f : Fin n → RecordId} (hf : f.Injective) (p : Fin n → Bool) : (((allFin n).filter p).map f).Nodup :=
    ((allFin_nodup n).filter p).map hf
  have single : (if isBad r.global then [RecordId.global] else []).Nodup := by split <;> simp
  refine ((((part ?_ _).append (part ?_ _) ?_).append single ?_).append (part ?_ _) ?_)
  · exact fun _ _ => RecordId.entry.inj
  · exact fun _ _ => RecordId.segment.inj
  · simp [List.Disjoint]
  · simp only [List.Disjoint, List.mem_append, List.mem_map]
    rintro _ (⟨i, -, rfl⟩ | ⟨g, -, rfl⟩) <;> simp
  · exact fun _ _ => RecordId.group.inj
  · simp only [List.Disjoint, List.mem_append, List.mem_map]
    rintro _ ((⟨i, -, rfl⟩ | ⟨g, -, rfl⟩) | h) ⟨k, -, hk⟩
    · cases hk
    · cases hk
    · subst hk
      simp at h

/-- Settles O3: the state after POWER_ON_RESET is written out by `execPowerOnReset`, and the load is read record by record. -/
theorem powerOnResetLoadsTheStore : Obligations.powerOnResetLoadsTheStore := by
  intro n s
  refine ⟨_, rfl, rfl, rfl, rfl, rfl, volatileReset_blocks _ _ s, fun e => ?_, rfl, rfl, fun h => storedAfterLoss_of_idle h n, fun i => ?_,
    fun g => ?_, ?_, fun g => ?_, fun r => mem_loadDamaged, loadDamaged_nodup _⟩
  · simp [volatileReset, State.port]
  · refine (nth_map _ _ i).trans ?_
    dsimp only [volatileReset]
    cases nth (storedAfterLoss s n).entries i <;> rfl
  · refine (nth_map _ _ g).trans ?_
    dsimp only [volatileReset]
    cases nth (storedAfterLoss s n).segments g <;> rfl
  · dsimp only [volatileReset, loadSite]
    cases (storedAfterLoss s n).global <;> rfl
  · refine (nth_map _ _ g).trans ?_
    dsimp only [volatileReset]
    cases nth (storedAfterLoss s n).groups g <;> rfl

theorem execPowerLoss_of_powered {s : State} (h : s.powered = true) (n : Nat) :
    exec (.powerLoss n) s = .next (volatileReset false
      { stored := storedAfterLoss s n, site := .blank, damaged := [], state := .starting } s) := by
  rw [exec, execPowerLoss, if_pos h]

/-- Settles O4: what an interrupted operation leaves, by its kind. -/
theorem powerLossDamagesTheRecordInFlight : Obligations.powerLossDamagesTheRecordInFlight := by
  intro n s hp
  refine ⟨_, execPowerLoss_of_powered hp n, rfl, rfl, volatileReset_blocks _ _ s, rfl, rfl, fun e => ?_,
    fun h => storedAfterLoss_of_idle (.inr h) n, fun o ho => ?_⟩
  · simp [volatileReset, State.port]
  · have stored : (volatileReset false { stored := storedAfterLoss s n, site := .blank, damaged := [], state := .starting } s).store.stored
        = interrupted o.write n s.store.stored := storedAfterLoss_of_busy hp ho n
    rw [stored]
    cases o.write with
    | name i v => rfl
    | place i v => rfl
    | segment g v => rfl
    | global v => rfl
    | group g v => rfl
    | erase c =>
      cases c with
      | directory => exact ⟨rfl, fun i => by rw [interrupted, nth_eraseCells, Nat.zero_add]; rfl⟩
      | groups => exact ⟨rfl, fun i => by rw [interrupted, nth_eraseCells, Nat.zero_add]; rfl⟩
      | all =>
        refine ⟨fun i => ?_, fun g => ?_, rfl, fun g => ?_⟩
        · rw [interrupted, nth_eraseCells, Nat.zero_add]; rfl
        · rw [interrupted, nth_eraseCells]; rfl
        · rw [interrupted, nth_eraseCells]; rfl

end Sys2Proof.Machine
end

