-- ==== Sys2Proof/Proofs/WriteChecks.lean ====
section
/-! PROOF. The order of the checks of a write (O44): the steps of R19 once for all writes, then those of R3. -/

namespace Sys2Proof.Machine

/-! ## Steps 2 and 3 of R19 -/

/-- The latches that a write needs to be set are. -/
def latchedFor (x : LinkId) (r : Request) (s : State) : Bool :=
  if requestType r = 0x55 then s.linkA.latch && s.linkB.latch else (s.link x).latch

theorem popIntake_latchedFor (x : LinkId) (r : Request) (s : State) : latchedFor x r (popIntake x s) = latchedFor x r s := by
  have a : (popIntake x s).linkA.latch = s.linkA.latch := popIntake_latch x s .a
  have b : (popIntake x s).linkB.latch = s.linkB.latch := popIntake_latch x s .b
  rw [latchedFor, latchedFor, a, b, popIntake_latch]

/-- A request taken with the checks of R19 ahead of its block's own. -/
def checked (x : LinkId) (tag : Byte) (r : Request) (act : Responder → State → State) (s : State) : Host.Outcome State Fault Refusal :=
  requested x tag r (fun answer u => checkWrite (latchedFor x r u) answer u (act answer u)) s

/-- Every write and GROUP EDIT has these checks first. -/
theorem exec_eq_checked {c : Instr} {x : LinkId} {tag : Byte} {r : Request} (hc : c.sender = some (x, tag)) (hr : c.request = some r)
    (ht : requestType r = 0x32 ∨ (0x52 ≤ (requestType r).toNat ∧ (requestType r).toNat ≤ 0x55)) :
    ∃ act, ∀ s, exec c s = checked x tag r act s := by
  cases c with
  | groupEdit | directoryWriteName | directoryWritePlace | siteWriteSegment | siteWriteGlobal | storeErase =>
    cases hc
    cases hr
    exact ⟨_, fun _ => rfl⟩
  | answer | join | leave | clear | callPost | queryCalls | announceStart | announceStop | groupResult | endServiceOff | endServiceOn
  | lineTest | lineStats | postTest | postTestStop | queryPost | queryEnd | writeEnable | writeDisable | directoryRead =>
    cases hr
    simp [requestType] at ht
  | _ => cases hc

theorem inFlight_isSome (s : State) : (inFlight s).isSome = storeBusy s := by
  unfold inFlight storeBusy
  cases s.store.state <;> rfl

section
variable {x : LinkId} {tag : Byte} {r : Request} {s : State} (act : Responder → State → State) (ht : Takes s x tag r)
include ht

theorem checked_of_unlatched (hl : latchedFor x r s = false) : checked x tag r act s = .next (taken x tag r .writeDisabled .empty s) := by
  rw [checked, requested, takeRequest_of_takes _ ht, popIntake_latchedFor, hl]
  rfl

theorem checked_of_busy (hl : latchedFor x r s = true) (hb : (inFlight s).isSome = true) :
    checked x tag r act s = .next (taken x tag r .storeBusy .empty s) := by
  have busy : storeBusy (popIntake x s) = true := by
    rw [← inFlight_isSome]
    simpa [inFlight] using hb
  rw [checked, requested, takeRequest_of_takes _ ht, popIntake_latchedFor, hl, checkWrite, busy]
  rfl

/-- With the latches set and the Store Controller READY the block's own checks follow. -/
theorem checked_of_ready (hl : latchedFor x r s = true) (hs : s.store.state = .ready) :
    checked x tag r act s = .next (act (respond x tag (requestType r)) (popIntake x s)) := by
  rw [checked, requested, takeRequest_of_takes _ ht, popIntake_latchedFor, checkWrite_passes hl (by simpa using hs)]

theorem exec_groupEdit_of_active {group op : Nat} {slots : List Nat} {g : GroupId} (hr : r = .groupEdit group op slots)
    (hl : latchedFor x r s = true) (hs : s.store.state = .ready) (hg : groupOf group = some g) (ha : (s.group g).active = true) :
    exec (.groupEdit x tag group op slots) s = .next (taken x tag r .groupActive .empty s) := by
  subst hr
  refine (checked_of_ready _ ht hl hs).trans ?_
  simp [hg, ha, taken]

end

/-! ## The checks of R3 -/

/-- What step 1 of R3 refuses in the fields of a PLACE write. -/
def PlaceOutOfRange (s : State) (f : RawPlace) : Prop :=
  1 < f.present ∨ (f.present = 1 ∧ (7 < f.seg ∨ f.serial = 0 ∨ 16777215 < f.serial ∨ f.position = 0
    ∨ ∃ g, segOf f.seg = some g ∧ (s.segment g).cableLength ≤ f.position))

theorem slotOf_eq_none {n : Nat} (h : 255 < n) : slotOf n = none := dif_neg (by omega)

theorem placeForm_eq_none {s : State} {i : Slot} {f : RawPlace} (h : PlaceOutOfRange s f) : placeForm s i f = none := by
  rcases h with h | ⟨hp, h⟩
  · have flag : flagOf f.present = none := by
      unfold flagOf
      split
      · omega
      · omega
      · rfl
    simp [placeForm, flag]
  · have flag : flagOf f.present = some true := by rw [hp]; rfl
    cases hg : segOf f.seg with
    | none => simp [placeForm, flag, hg]
    | some g =>
      have below : f.seg < 8 := by
        by_contra hn
        rw [segOf, dif_neg hn] at hg
        cases hg
      have refused : ¬ (1 ≤ f.serial ∧ f.serial ≤ Config.serialTop ∧ 1 ≤ f.position ∧ f.position + 1 ≤ (s.segment g).cableLength) := by
        rintro ⟨h1, h2, h3, h4⟩
        simp only [Config.serialTop] at h2
        rcases h with h | h | h | h | ⟨k, hk, h⟩
        · omega
        · omega
        · omega
        · omega
        · rw [hg, Option.some.injEq] at hk
          subst hk
          omega
      simp only [placeForm, flag, hg, if_neg refused]

theorem duplicate_eq_true {s : State} {i j : Slot} {p : PlaceForm} (hj : j ≠ i) (hp : (s.entry j).place.present = true)
    (h : (s.entry j).place.serial = p.serial ∨ (s.entry j).place.seg = p.seg ∧ (s.entry j).place.position = p.position) :
    duplicate s i p = true := by
  refine List.any_eq_true.mpr ⟨j, mem_allFin j, ?_⟩
  rcases h with h | ⟨hs, hq⟩
  · simp [hj, hp, h]
  · simp [hj, hp, hs, hq]

theorem segmentFull_eq_true {s : State} {i : Slot} {p : PlaceForm} (h : 32 ≤ ((presentOn s p.seg).filter fun j => decide (j ≠ i)).length) :
    segmentFull s i p = true := decide_eq_true h

section
variable {x : LinkId} {tag : Byte} {post : Nat} {f : RawPlace} {s : State} (ht : Takes s x tag (.writePlace post f))
  (hl : (s.link x).latch = true) (hs : s.store.state = .ready)
include ht hl hs

/-- A PLACE write once the checks of R19 have passed. -/
theorem exec_writePlace_of_ready : exec (.directoryWritePlace x tag post f) s = .next
    (match slotOf post with
     | none => taken x tag (.writePlace post f) .outOfRange .empty s
     | some i =>
       match placeForm (popIntake x s) i f with
       | none => taken x tag (.writePlace post f) .outOfRange .empty s
       | some p =>
         if postInUse (popIntake x s) i then taken x tag (.writePlace post f) .inUse .empty s
         else if p.present && duplicate (popIntake x s) i p then taken x tag (.writePlace post f) .duplicate .empty s
         else if p.present && segmentFull (popIntake x s) i p then taken x tag (.writePlace post f) .segmentFull .empty s
         else acceptWrite (.place i { (popIntake x s).entry i with place := p }) x tag .empty
           (respond x tag (requestType (.writePlace post f))) (popIntake x s)) :=
  checked_of_ready _ ht hl hs

theorem writePlace_outOfRange (h : 255 < post ∨ PlaceOutOfRange s f) :
    exec (.directoryWritePlace x tag post f) s = .next (taken x tag (.writePlace post f) .outOfRange .empty s) := by
  rw [exec_writePlace_of_ready ht hl hs]
  rcases h with h | h
  · rw [slotOf_eq_none h]
  · have none (i : Slot) : placeForm (popIntake x s) i f = none := placeForm_eq_none (by simpa [PlaceOutOfRange] using h)
    cases slotOf post with
    | none => rfl
    | some i => simp only [none]

variable {i : Slot} {p : PlaceForm} (hi : slotOf post = some i) (hp : placeForm (popIntake x s) i f = some p)
include hi hp

theorem writePlace_inUse (hu : postInUse s i = true) :
    exec (.directoryWritePlace x tag post f) s = .next (taken x tag (.writePlace post f) .inUse .empty s) := by
  rw [exec_writePlace_of_ready ht hl hs]
  simp [hi, hp, hu]

theorem writePlace_duplicate (hu : postInUse s i = false) (hpres : p.present = true) (hd : duplicate (popIntake x s) i p = true) :
    exec (.directoryWritePlace x tag post f) s = .next (taken x tag (.writePlace post f) .duplicate .empty s) := by
  rw [exec_writePlace_of_ready ht hl hs]
  simp [hi, hp, hu, hpres, hd]

theorem writePlace_segmentFull (hu : postInUse s i = false) (hpres : p.present = true) (hd : duplicate (popIntake x s) i p = false)
    (hf : segmentFull (popIntake x s) i p = true) :
    exec (.directoryWritePlace x tag post f) s = .next (taken x tag (.writePlace post f) .segmentFull .empty s) := by
  rw [exec_writePlace_of_ready ht hl hs]
  simp [hi, hp, hu, hpres, hd, hf]

end

/-- Settles O44: the checks of R19 hold for every write at once; those of R3 are followed one after the other. -/
theorem writesAreCheckedInOrder : Obligations.writesAreCheckedInOrder := by
  refine ⟨fun c x tag r s hc hr ht htype => ?_, fun x tag post f s ht hl hs => ⟨?_, fun i hi => ⟨fun g hpres hg h1 h2 h3 h4 => ?_, ?_⟩⟩⟩
  · obtain ⟨act, hact⟩ := exec_eq_checked hc hr htype
    refine ⟨fun hl => (hact s).trans (checked_of_unlatched act ht hl), fun hl hb => (hact s).trans (checked_of_busy act ht hl hb), ?_⟩
    rintro group op slots g rfl hl hs hg ha
    exact exec_groupEdit_of_active ht (Option.some.inj hr).symm hl hs hg ha
  · exact fun h => writePlace_outOfRange ht hl hs h
  · have form : placeForm (popIntake x s) i f = some { present := true, seg := g, position := f.position, serial := f.serial } :=
      placeForm_present hpres hg ⟨h1, h2⟩ ⟨h3, by simpa using h4⟩
    refine ⟨fun hu => writePlace_inUse ht hl hs hi form hu, fun hu ⟨j, hj, hp, hd⟩ => ?_, fun hu hd hf => ?_⟩
    · exact writePlace_duplicate ht hl hs hi form hu rfl (duplicate_eq_true hj (by simpa using hp) (by simpa using hd))
    · refine writePlace_segmentFull ht hl hs hi form hu rfl (duplicate_eq_false (by simpa using hd)) (segmentFull_eq_true ?_)
      simpa using hf
  · exact fun hpres hu => writePlace_inUse ht hl hs hi (placeForm_absent hpres) hu

end Sys2Proof.Machine
end

