-- ==== Sys2Proof/Proofs/SimpleCompletions.lean ====
section
/-! PROOF. The completions of NAME, global and group writes (O46): the store takes the content, and the two reports commute with that. -/

namespace Sys2Proof.Machine

theorem report_setStore (x : LinkId) (r : Report) (b : StoreBlock) (s : State) :
    (report x r s).setStore b = report x r (s.setStore b) := by cases x <;> rfl

theorem report_onLine (x : LinkId) (r : Report) (f : LineBlock → LineBlock) (s : State) :
    (report x r s).onLine f = report x r (s.onLine f) := by cases x <;> rfl

theorem reportWritten_store (o : StoreOperation) (s : State) : (reportWritten o s).store = s.store := (reportWritten_unwritten o s).store

/-- What a completion reports does not depend on the state of the Store Controller. -/
theorem storeReady_reportWritten (o : StoreOperation) (s : State) : storeReady (reportWritten o s) = reportWritten o (storeReady s) := by
  rw [storeReady, reportWritten_store, reportWritten, report_setStore, report_setStore]
  rfl

theorem lowerCounts_reportWritten (o : StoreOperation) (s : State) : lowerCounts (reportWritten o s) = reportWritten o (lowerCounts s) := by
  rw [lowerCounts, reportWritten_store, reportWritten, report_onLine, report_onLine]
  rfl

theorem writeGlobal_store (v : GlobalRecord) (s : State) :
    (writeGlobal v s).store =
      { stored := { s.store.stored with global := .valid v }, site := { s.store.site with global := v }
        damaged := s.store.damaged.filter fun r => decide (r ≠ .global), state := s.store.state } := clearMarks_store _ _

theorem writeGroup_store (g : GroupId) (m : List Slot) (s : State) :
    (writeGroup g m s).store =
      { stored := { s.store.stored with groups := modNth s.store.stored.groups g fun _ => .valid m }
        site := { s.store.site with groups := modNth s.store.site.groups g fun _ => m }
        damaged := s.store.damaged.filter fun r => decide (r ≠ .group g), state := s.store.state } := clearMarks_store _ _

theorem storeReady_of_store {s w : State} {b : StoreBlock} (hw : w = s.setStore w.store) (hb : w.store = b) :
    storeReady w = { s with store := { b with state := .ready } } := by
  subst hb
  rw [hw]
  rfl

/-- A completion that is its write reported, with the Store Controller READY: the reports come last. -/
theorem next_storeReady_reportWritten {o : StoreOperation} {w u : State} (hu : storeReady w = u) :
    (.next (storeReady (reportWritten o w)) : Host.Outcome State Fault Refusal) = .next (reportWritten o u) := by
  rw [storeReady_reportWritten, hu]

theorem storeReady_lowerCounts_writeGlobal (v : GlobalRecord) (s : State) :
    storeReady (lowerCounts (writeGlobal v s)) =
      { s with
        line := { s.line with posts := s.line.posts.map fun r => { r with failures := min r.failures v.threshold } }
        store :=
          { stored := { s.store.stored with global := .valid v }, site := { s.store.site with global := v }
            damaged := s.store.damaged.filter fun r => decide (r ≠ .global), state := .ready } } := by
  have hb : (lowerCounts (writeGlobal v s)).store = _ := writeGlobal_store v s
  rw [storeReady, hb, lowerCounts, writeGlobal_store]
  rfl

/-- Settles O46: each completion is its write with the Store Controller READY, reported to the links. -/
theorem simpleCompletions : Obligations.simpleCompletions := by
  intro s o hp hb
  refine ⟨fun i v hw => ?_, fun v hw => ?_, fun g m hw => ?_⟩
  · have run : execNameWriteCompletion s = .next (storeReady (reportWritten o (writeEntry i v s))) := by
      simp only [execNameWriteCompletion, hp, hb, hw]
    exact run.trans (next_storeReady_reportWritten (storeReady_of_store rfl (writeEntry_store i v s)))
  · have run : execGlobalWriteCompletion s = .next (storeReady (lowerCounts (reportWritten o (writeGlobal v s)))) := by
      simp only [execGlobalWriteCompletion, hp, hb, hw]
    rw [lowerCounts_reportWritten] at run
    exact run.trans (next_storeReady_reportWritten (storeReady_lowerCounts_writeGlobal v s))
  · have run : execGroupEditCompletion s = .next (storeReady (reportWritten o (writeGroup g m s))) := by
      simp only [execGroupEditCompletion, hp, hb, hw]
    exact run.trans (next_storeReady_reportWritten (storeReady_of_store rfl (writeGroup_store g m s)))

end Sys2Proof.Machine
end

