-- ==== Sys2Proof/Proofs/Bursts.lean ====
section
/-! PROOF. The bursts of the ends while a completion makes posts UNSERVED and ends UNFITTED: such operations end bursts and begin none
(`BurstsOnlyEnd`). Laws/Soft.lean and Calm.lean say nothing of a burst record but its counters. -/

namespace Sys2Proof.Machine

/-- An end on which no burst runs has none running afterwards. -/
def BurstsOnlyEnd (s t : State) : Prop := ∀ e, burstRuns s e = false → burstRuns t e = false

namespace BurstsOnlyEnd

variable {s t u : State}

theorem refl (s : State) : BurstsOnlyEnd s s := fun _ => id

theorem trans (h : BurstsOnlyEnd s t) (k : BurstsOnlyEnd t u) : BurstsOnlyEnd s u := fun e => k e ∘ h e

/-- An operation after another, read as they are nested. -/
theorem andThen (k : BurstsOnlyEnd t u) (h : BurstsOnlyEnd s t) : BurstsOnlyEnd s u := h.trans k

theorem of_ite {c : Prop} [Decidable c] (ht : BurstsOnlyEnd s t) (hu : BurstsOnlyEnd s u) : BurstsOnlyEnd s (if c then t else u) := by
  split
  · exact ht
  · exact hu

theorem forEach {α : Type} {f : α → State → State} (h : ∀ a s, BurstsOnlyEnd s (f a s)) :
    ∀ (l : List α) (s : State), BurstsOnlyEnd s (Machine.forEach l f s)
  | [], s => .refl s
  | a :: l, s => (h a s).trans (forEach h l (f a s))

/-- An update of anything else. -/
theorem of_bursts (h : t.line.bursts = s.line.bursts) : BurstsOnlyEnd s t := fun e hs => by
  simpa only [burstRuns, State.burst, h] using hs

theorem of_line (h : t.line = s.line) : BurstsOnlyEnd s t := .of_bursts (congrArg LineBlock.bursts h)

theorem modEnd (e : EndId) (f : EndRecord → EndRecord) (s : State) : BurstsOnlyEnd s (s.modEnd e f) := of_bursts rfl
theorem modChan (e : EndId) (f : ChannelEnd → ChannelEnd) (s : State) : BurstsOnlyEnd s (s.modChan e f) := of_bursts rfl
theorem modCall (i : CallIdx) (f : LiveCall → LiveCall) (s : State) : BurstsOnlyEnd s (s.modCall i f) := of_bursts rfl
theorem modGroup (g : GroupId) (f : GroupRun → GroupRun) (s : State) : BurstsOnlyEnd s (s.modGroup g f) := of_bursts rfl
theorem setActivity (i : Slot) (a : Activity) (p : Option Stamp) (s : State) : BurstsOnlyEnd s (Machine.setActivity i a p s) := of_bursts rfl

/-! ## Reports -/

theorem report (x : LinkId) (r : Report) (s : State) : BurstsOnlyEnd s (Machine.report x r s) := .of_line (by simp [Machine.report])

theorem reportBoth (r : Report) (s : State) : BurstsOnlyEnd s (Machine.reportBoth r s) := .of_line (reportBoth_line r s)

theorem reportParties (i : CallIdx) (v : CallEvent) (n : CallReason) (s : State) : BurstsOnlyEnd s (Machine.reportParties i v n s) := by
  unfold Machine.reportParties reportCall
  split
  · exact forEach (fun x t => report x _ t) _ s
  · exact .refl s

/-! ## Command lists, activity, bursts -/

theorem placeCommand (i : Slot) (c : Command) (s : State) : BurstsOnlyEnd s (Machine.placeCommand i c s) := by
  unfold Machine.placeCommand
  split
  · exact .refl s
  · exact .of_ite (modEnd _ _ s) (.andThen (modEnd _ _ _) (.of_bursts rfl))

theorem dropCommands (i : Slot) (s : State) : BurstsOnlyEnd s (Machine.dropCommands i s) := by
  unfold Machine.dropCommands
  exact forEach (fun e t => modEnd e _ t) _ s

theorem setIdle (p : Activity → Bool) (i : Slot) (s : State) : BurstsOnlyEnd s (Machine.setIdle p i s) :=
  .of_ite (setActivity i _ _ s) (.refl s)

theorem idleFromAnnouncement (i : Slot) (s : State) : BurstsOnlyEnd s (Machine.idleFromAnnouncement i s) := setIdle _ i s

/-- The burst record that an ending leaves. -/
theorem endBurst_bursts {e : EndId} {b : Burst} (h : s.burst e = .running b) (x : BurstEnding) :
    (Machine.endBurst e x s).line.bursts = modNth s.line.bursts (endIdx e) fun _ => .ended b x := by
  simp only [Machine.endBurst, h, Machine.report, modLink_line, idleFromBurst, Machine.setIdle]
  split <;> rfl

/-- No burst runs on an end whose burst has ended. -/
theorem endBurst_burstRuns (e : EndId) (x : BurstEnding) (s : State) : burstRuns (Machine.endBurst e x s) e = false := by
  cases h : s.burst e with
  | running b => simp [burstRuns, State.burst, endBurst_bursts h x]
  | none => simp [Machine.endBurst, burstRuns, h]
  | ended b y => simp [Machine.endBurst, burstRuns, h]

theorem endBurst (e : EndId) (x : BurstEnding) (s : State) : BurstsOnlyEnd s (Machine.endBurst e x s) := fun d hd => by
  cases h : s.burst e with
  | running b =>
    by_cases hed : e = d
    · exact hed ▸ endBurst_burstRuns e x s
    · simpa [burstRuns, State.burst, endBurst_bursts h x, hed] using hd
  | none => simpa [Machine.endBurst, h] using hd
  | ended b y => simpa [Machine.endBurst, h] using hd

theorem abortTarget (i : Slot) (r : AbortReason) (s : State) : BurstsOnlyEnd s (Machine.abortTarget i r s) :=
  forEach (fun e t => by
    split
    · exact .of_ite (endBurst e _ t) (.refl t)
    · exact .refl t
    · exact .refl t) _ s

/-! ## Channels -/

theorem callTakesChannel (i : CallIdx) (e : EndId) (c : Chan) (s : State) : BurstsOnlyEnd s (Machine.callTakesChannel i e c s) := by
  unfold Machine.callTakesChannel
  split
  · exact .andThen (placeCommand _ _ _) (.trans (modCall i _ s) (.of_ite (reportParties _ _ _ _) (.refl _)))
  · exact .refl s

theorem commandMember (g : GroupId) (c : Chan) (i : Slot) (s : State) : BurstsOnlyEnd s (Machine.commandMember g c i s) :=
  .andThen (modGroup g _ _) (.andThen (modGroup g _ _) (placeCommand i _ s))

theorem groupTakesChannel (g : GroupId) (e : EndId) (c : Chan) (s : State) : BurstsOnlyEnd s (Machine.groupTakesChannel g e c s) :=
  .andThen (forEach (commandMember g c) _ _) (modGroup g _ s)

theorem handOver (e : EndId) (c : Chan) : ∀ (l : List Waiter) (s : State), BurstsOnlyEnd s (Machine.handOver e c l s)
  | [], s => .andThen (modChan e _ _) (modChan e _ s)
  | .call _ _ _ _ :: l, s => by
    unfold Machine.handOver
    exact .of_ite (.andThen (callTakesChannel _ _ _ _) (.andThen (modChan e _ _) (modChan e _ s))) (handOver e c l s)
  | .announce g _ :: l, s => by
    unfold Machine.handOver
    refine .of_ite (.andThen (groupTakesChannel _ _ _ _) (.andThen (modChan e _ _) (modChan e _ s))) ?_
    exact .andThen (handOver e c l _) (modGroup g _ s)

theorem release (e : EndId) (c : Chan) (h : Holder) (s : State) : BurstsOnlyEnd s (Machine.release e c h s) :=
  .of_ite (handOver e c _ s) (.refl s)

theorem callLosesChannel (ref : CallRef) (r : CallReason) (s : State) : BurstsOnlyEnd s (Machine.callLosesChannel ref r s) := by
  unfold Machine.callLosesChannel
  split
  · exact .of_ite (.andThen (reportParties _ _ _ _) (modCall _ _ s)) (modCall _ _ s)
  · exact .refl s

theorem callLosesEntry (ref : CallRef) (s : State) : BurstsOnlyEnd s (Machine.callLosesEntry ref s) := by
  unfold Machine.callLosesEntry
  split
  · exact modCall _ _ s
  · exact .refl s

theorem postLeft (i : Slot) (e : EndId) (r : CallReason) (s : State) : BurstsOnlyEnd s (Machine.postLeft i e r s) := by
  have entry (t : State) : BurstsOnlyEnd t (match entryOfPost i (t.chan e).waiting with
      | some ref => Machine.callLosesEntry ref (Machine.withdrawCall e ref t)
      | none => t) := by
    split
    · exact .andThen (callLosesEntry _ _) (modChan e _ _)
    · exact .refl _
  refine .andThen (entry _) ?_
  split
  · exact (release _ _ _ s).trans (callLosesChannel _ _ _)
  · exact .refl s

/-! ## Members -/

theorem changeMember (g : GroupId) (i : Slot) (o : MemberOutcome) (p : Option CallRef) (s : State) :
    BurstsOnlyEnd s (Machine.changeMember g i o p s) := by
  have told (t : State) : BurstsOnlyEnd t (reportMember g p i t) := by
    unfold reportMember
    dsimp only
    split
    · exact .of_ite (.of_line (by simp [reportBothInTurn, reportInTurn])) (.refl t)
    · exact .refl t
  exact .andThen (told _) (modGroup g _ s)

theorem releases (g : GroupId) (s : State) : BurstsOnlyEnd s (Machine.releases g s) :=
  forEach (fun e t => by
    unfold releaseIfDone
    split
    · exact .of_ite (.andThen (release _ _ _ _) (modGroup g _ t)) (.refl t)
    · exact .refl t) _ s

theorem dropMember (g : GroupId) (o : MemberOutcome) (p : Option CallRef) (i : Slot) (s : State) :
    BurstsOnlyEnd s (Machine.dropMember g o p i s) :=
  .andThen (changeMember g i _ _ _) (.trans (placeCommand i _ s) (.of_ite (idleFromAnnouncement i _) (.refl _)))

theorem memberLost (i : Slot) (s : State) : BurstsOnlyEnd s (Machine.memberLost i s) :=
  forEach (fun g t => .of_ite ((dropMember g _ _ i t).trans (releases g _)) (.refl t)) _ s

theorem testReady (g : GroupId) (s : State) : BurstsOnlyEnd s (Machine.testReady g s) :=
  .of_ite (.andThen (reportBoth _ _) (modGroup g _ s)) (.refl s)

theorem settle (before s : State) : BurstsOnlyEnd s (Machine.settle before s) :=
  .trans (t := orderReports before s) (.of_bursts rfl) (forEach testReady _ _)

/-! ## An end stops serving (R82) -/

theorem groupEndStopped (g : GroupId) (e : EndId) (s : State) : BurstsOnlyEnd s (Machine.groupEndStopped g e s) :=
  (modGroup g _ s).trans (forEach (fun i t => .andThen (.of_ite (idleFromAnnouncement i _) (.refl _)) (modGroup g _ t)) _ _)

theorem stopChannel (e : EndId) (c : Chan) (s : State) : BurstsOnlyEnd s (Machine.stopChannel e c s) := by
  unfold Machine.stopChannel
  split
  · exact .refl s
  · exact .andThen (callLosesChannel _ _ _) (modChan e _ s)
  · exact .andThen (groupEndStopped _ _ _) (modChan e _ s)

theorem stopEntry (e : EndId) (w : Waiter) (s : State) : BurstsOnlyEnd s (Machine.stopEntry e w s) := by
  unfold Machine.stopEntry
  split
  · exact callLosesEntry _ s
  · exact modGroup _ _ s

theorem stopEnd (e : EndId) (s : State) : BurstsOnlyEnd s (Machine.stopEnd e s) := by
  have channels := forEach (stopChannel e) (allFin 4) s
  have entries (t : State) := forEach (stopEntry e) (t.chan e).waiting (Machine.setWaiting e [] t)
  exact ((channels.trans (modChan e _ _)).trans (entries _)).trans (modChan e _ _)

/-! ## A post becomes UNSERVED (R71) -/

theorem withdrawOffers (i : CallIdx) (r : WithdrawReason) (l : LinkSet) (s : State) : BurstsOnlyEnd s (Machine.withdrawOffers i r l s) := by
  have told (b : Bool) (x : LinkId) (r : Report) (t : State) : BurstsOnlyEnd t (if b then Machine.report x r t else t) :=
    .of_ite (report x r t) (.refl t)
  exact (told _ _ _ s).trans (told _ _ _ _)

theorem callPostLost (i : Slot) (s : State) : BurstsOnlyEnd s (Machine.callPostLost i s) := by
  unfold Machine.callPostLost
  split
  · split
    · refine .of_ite (.refl s) (.of_ite ?_ ?_)
      · exact .andThen (withdrawOffers _ _ _ _) (modCall _ _ s)
      · exact .andThen (reportParties _ _ _ _) (modCall _ _ s)
    · exact .refl s
  · exact .refl s

theorem overflowUnserved (i : Slot) (s : State) : BurstsOnlyEnd s (Machine.overflowUnserved i s) := by
  refine .of_ite (.andThen (setIdle _ i _) ?_) (.refl s)
  unfold missOverflow
  split
  · exact .andThen (reportBoth _ _) (.of_bursts rfl)
  · exact .refl s

theorem reachEffects_unserved (i : Slot) (old : PostReach) (s : State) : BurstsOnlyEnd s (Machine.reachEffects i old .unserved s) := by
  have lost (t : State) : BurstsOnlyEnd t (Machine.memberLost i (Machine.callPostLost i (Machine.overflowUnserved i t))) :=
    .andThen (memberLost i _) (.andThen (callPostLost i _) (overflowUnserved i t))
  cases old with
  | served e => exact .andThen (lost _) (.andThen (postLeft i e _ _) (.andThen (abortTarget i _ _) (dropCommands i s)))
  | isolated => exact .andThen (lost _) (dropCommands i s)
  | unserved => exact .refl s

theorem reassign_unserved {i : Slot} (h : assignedReach s i = .unserved) : BurstsOnlyEnd s (reassign i s) := by
  unfold reassign
  dsimp only
  rw [h]
  exact .of_ite (.refl s) (.andThen (reachEffects_unserved i _ _) (.of_bursts rfl))

theorem fixSegment (g : SegId) (s : State) : BurstsOnlyEnd s (Machine.fixSegment g s) :=
  forEach (fun e t => by
    unfold fixSuppressed
    split
    · exact .of_ite (.refl t) (modEnd e _ t)
    · exact .refl t) _ s

/-- What idle ports begin is no burst. -/
theorem of_agree (h : Agree t s) : BurstsOnlyEnd s t := fun e hs => by
  have line : t.line.settled = s.line.settled := congrArg State.line h
  have same : (t.burst e).settled = (s.burst e).settled := by
    simpa only [LineBlock.settled, nth_map, State.burst] using congrArg (fun l : LineBlock => nth l.bursts (endIdx e)) line
  revert hs
  unfold burstRuns
  cases hb : s.burst e <;> cases ht : t.burst e <;> simp_all [BurstRecord.settled]

end BurstsOnlyEnd

end Sys2Proof.Machine
end

