-- ==== Sys2Proof/Proofs/EraseCompletion.lean ====
section
/-! PROOF. Erase completion (O49). Once every entry is blank the assignment makes each post UNSERVED; an end goes UNFITTED in one update of its
record, and what follows that is small updates. -/

namespace Sys2Proof.Machine

variable {ev on : Bool}

theorem mem_allEnds (e : EndId) : e ∈ allEnds := by
  obtain ⟨seg, side⟩ := e
  refine List.mem_flatMap.mpr ⟨seg, mem_allFin seg, ?_⟩
  cases side <;> simp

/-- What one pass of a loop brings about and no pass undoes holds at its end, where each pass keeps what these need. -/
theorem forEach_brings {α : Type} {I P : State → Prop} {f : α → State → State} {a : α} (inv : ∀ b s, I s → I (f b s))
    (brings : ∀ s, I s → P (f a s)) (keeps : ∀ b s, I s → P s → P (f b s)) :
    ∀ (l : List α) (s : State), I s → a ∈ l ∨ P s → P (forEach l f s)
  | [], _, _, h => h.resolve_left List.not_mem_nil
  | b :: l, s, hi, h => by
    refine forEach_brings inv brings keeps l (f b s) (inv b s hi) ?_
    rcases h with h | h
    · rcases List.mem_cons.mp h with rfl | h
      · exact .inr (brings s hi)
      · exact .inl h
    · exact .inr (keeps b s hi h)

/-- What every pass of a loop keeps, the loop keeps. -/
theorem forEach_invariant {α : Type} {I : State → Prop} {f : α → State → State} (h : ∀ a s, I s → I (f a s)) :
    ∀ (l : List α) (s : State), I s → I (forEach l f s)
  | [], _, hi => hi
  | a :: l, s, hi => forEach_invariant h l (f a s) (h a s hi)

/-- What the passes for other elements leave, a loop without the element leaves. -/
theorem forEach_of_not_mem {α β : Type} {v : State → β} {f : α → State → State} {a : α} (other : ∀ b s, a ≠ b → v (f b s) = v s) :
    ∀ (l : List α) (s : State), a ∉ l → v (forEach l f s) = v s
  | [], _, _ => rfl
  | b :: l, s, ha => by
    rw [List.mem_cons, not_or] at ha
    exact (forEach_of_not_mem other l (f b s) ha.2).trans (other b s ha.1)

/-- What the passes for other elements leave, and the pass for `a` changes from x to y, is y after a loop that holds `a` once. -/
theorem forEach_once {α β : Type} {I : State → Prop} {v : State → β} {f : α → State → State} {a : α} {x y : β}
    (inv : ∀ b s, I s → I (f b s)) (own : ∀ s, I s → v s = x → v (f a s) = y) (other : ∀ b s, a ≠ b → v (f b s) = v s) :
    ∀ (l : List α) (s : State), l.Nodup → a ∈ l → I s → v s = x → v (forEach l f s) = y
  | [], _, _, ha, _, _ => absurd ha List.not_mem_nil
  | b :: l, s, hn, ha, hi, hx => by
    obtain ⟨hb, hl⟩ := List.nodup_cons.mp hn
    rcases List.mem_cons.mp ha with rfl | ha
    · exact (forEach_of_not_mem other l _ hb).trans (own s hi hx)
    · exact forEach_once inv own other l (f b s) hl ha (inv b s hi) ((other b s fun h => hb (h ▸ ha)).trans hx)

theorem allEnds_nodup : allEnds.Nodup := by decide

/-! ## What the store holds after an erase (R24, R25) -/

/-- The state once the records of the scope are programmed and their damaged marks cleared. -/
def blanked (c : EraseScope) (s : State) : State := clearMarks (inScope c) (s.setStore (erasedStore c s.store))

theorem blanked_store (c : EraseScope) (s : State) :
    (blanked c s).store = { erasedStore c s.store with damaged := s.store.damaged.filter fun r => !inScope c r } := by
  cases c <;> rfl

theorem execEraseCompletion_of_busy {s : State} {o : StoreOperation} {c : EraseScope} (hp : s.powered = true)
    (hb : s.store.state = .busy o) (ho : o.write = .erase c) :
    execEraseCompletion s = .next (finish (storeReady (erased c (reportWritten o (blanked c s))))) := by
  simp only [execEraseCompletion, hp, hb, ho, blanked]

/-- The working copy holds no entry. -/
def EntriesBlank (s : State) : Prop := ∀ i, s.entry i = .blank

theorem EntriesBlank.of_store {s t : State} (h : EntriesBlank s) (hs : t.store = s.store) : EntriesBlank t := fun i => by
  rw [State.entry, hs]
  exact h i

theorem EntriesBlank.assignedReach {s : State} (h : EntriesBlank s) (i : Slot) : assignedReach s i = .unserved := by
  rw [assignedReach_eq_unserved, h i]
  rintro ⟨hp, -⟩
  cases hp

/-! ## Every post becomes UNSERVED (R25) -/

theorem directoryErased_soft (s : State) : Soft ev false s (directoryErased s) := by
  refine .andThen (.settle (.andThen (.forEach (fun g t => .fixSegment g t) _ _) (.forEach .reassign _ _))) (.line s _ fun _ => ?_)
  exact ⟨rfl, rfl, rfl, rfl, rfl, rfl⟩

/-- No end has a farthest served post where no post is served. -/
theorem farthest_of_unserved {s : State} (h : ∀ i, (s.post i).reach = .unserved) (e : EndId) : farthest s e = none := by
  have served : servedBy s e = [] := by simp [servedBy, h]
  rw [farthest, served]
  rfl

theorem fixSuppressed_suppressed {s : State} (h : ∀ i, (s.post i).reach = .unserved) (e : EndId) :
    ((fixSuppressed e s).endRec e).suppressed = none := by
  unfold fixSuppressed
  split
  · rw [farthest_of_unserved h, if_neg nofun, modEnd_endRec_same]
  · assumption

theorem Calm.fixSuppressed (e : EndId) (s : State) : Calm s (Machine.fixSuppressed e s) := by
  unfold Machine.fixSuppressed
  split
  · exact .of_ite (.refl s) (.modEnd e _ s fun _ _ => rfl)
  · exact .refl s

theorem fixSegment_suppressed {s : State} (h : ∀ i, (s.post i).reach = .unserved) (e : EndId) :
    ((fixSegment e.seg s).endRec e).suppressed = none := by
  obtain ⟨seg, side⟩ := e
  have first := Calm.fixSuppressed ⟨seg, .a⟩ s
  cases side with
  | a => exact (Calm.fixSuppressed ⟨seg, .b⟩ _).unsuppressed _ (fixSuppressed_suppressed h _)
  | b => exact fixSuppressed_suppressed (fun i => (first.reach i).trans (h i)) _

/-- No post is suppressed once each segment's are looked at, where no post is served. -/
theorem fixSegments_suppressed {s : State} (h : ∀ i, (s.post i).reach = .unserved) (e : EndId) :
    ((forEach (allFin 8) fixSegment s).endRec e).suppressed = none :=
  forEach_brings (I := fun t => ∀ i, (t.post i).reach = .unserved) (P := fun t => (t.endRec e).suppressed = none)
    (fun g t ht i => ((Calm.fixSegment g t).reach i).trans (ht i)) (fun _ ht => fixSegment_suppressed ht e)
    (fun g t _ => (Calm.fixSegment g t).unsuppressed e) (allFin 8) s h (.inl (mem_allFin e.seg))

theorem reassigns_burstsOnlyEnd : ∀ (l : List Slot) (s : State), EntriesBlank s → BurstsOnlyEnd s (forEach l reassign s)
  | [], s, _ => .refl s
  | i :: l, s, h => .trans (.reassign_unserved (h.assignedReach i)) (reassigns_burstsOnlyEnd l _ (h.of_store (reassign_store i s)))

/-- Every post is UNSERVED, and no hop map, no suppressed post and no running burst is left. -/
structure DirectoryGone (s : State) : Prop where
  reach : ∀ i, (s.post i).reach = .unserved
  hopMap : ∀ g, s.hopMap g = []
  suppressed : ∀ e, (s.endRec e).suppressed = none
  bursts : ∀ e, burstRuns s e = false

theorem DirectoryGone.calm {s t : State} (h : DirectoryGone s) (k : Calm s t) (hb : BurstsOnlyEnd s t) : DirectoryGone t :=
  ⟨fun i => (k.reach i).trans (h.reach i), fun g => (k.hopMap g).trans (h.hopMap g), fun e => k.unsuppressed e (h.suppressed e),
    fun e => hb e (h.bursts e)⟩

theorem directoryErased_gone {s : State} (h : EntriesBlank s) (hb : ∀ e, burstRuns s e = false) : DirectoryGone (directoryErased s) := by
  let u := s.onLine fun l => { l with hopMaps := Vector.replicate 8 [] }
  have maps : ∀ g, u.hopMap g = [] := fun g => nth_replicate _ g
  have blank : EntriesBlank u := h
  have reach : ∀ i, ((forEach (allFin 256) reassign u).post i).reach = .unserved := fun i =>
    (reassigned_unserved_iff i (allFin 256) u (.inl (mem_allFin i))).mpr (assignedReach_eq_unserved.mp (blank.assignedReach i))
  have mapped := Mapped.forEach reassign_mapped (allFin 256) u
  have ended := reassigns_burstsOnlyEnd (allFin 256) u blank
  have fixed := Calm.forEach Calm.fixSegment (allFin 8) (forEach (allFin 256) reassign u)
  have fixedBursts := BurstsOnlyEnd.forEach BurstsOnlyEnd.fixSegment (allFin 8) (forEach (allFin 256) reassign u)
  have gone : DirectoryGone (forEach (allFin 8) fixSegment (forEach (allFin 256) reassign u)) :=
    ⟨fun i => (fixed.reach i).trans (reach i), fun g => (fixed.hopMap g).trans ((mapped.hopMap g).trans (maps g)),
      fixSegments_suppressed reach, fun e => fixedBursts e (ended e (hb e))⟩
  exact gone.calm (.settle _ _) (.settle _ _)

/-! ## The bursts end (R25, R142) -/

theorem abortAll_soft (s : State) : Soft ev on s (abortAll s) := .forEach (fun e t => .endBurst e _ t) _ s

theorem abortAll_burstRuns (s : State) (e : EndId) : burstRuns (abortAll s) e = false := by
  refine forEach_brings (a := e) (I := fun _ => True) (P := fun t => burstRuns t e = false) (fun _ _ => id) (fun t _ => ?_) (fun d t _ => ?_)
    allEnds s trivial (.inl (mem_allEnds e))
  · exact BurstsOnlyEnd.endBurst_burstRuns e _ t
  · exact BurstsOnlyEnd.endBurst d _ t e

/-! ## An end goes UNFITTED (R25) -/

/-- The record of an end after an erase of scope ALL, less its command list, its scan position and its suppressed post. -/
def EndRecord.erased (r : EndRecord) : EndRecord :=
  if r.state = .unfitted then r
  else { EndRecord.powerOn with previous := some r.state, cause := some .erase }

theorem EndRecord.core_state (r : EndRecord) : r.core.state = r.state := rfl

theorem EndRecord.erased_state (r : EndRecord) : r.erased.state = .unfitted := by
  unfold EndRecord.erased
  split
  · assumption
  · rfl

/-- The end's record is cleared; its burst and its channels are as they were. -/
def unfittedEnd (e : EndId) (s : State) : State := clearEnd e (changeEnd e .unfitted .none .erase s)

theorem eraseEnd_of_fitted {e : EndId} {s : State} (h : (s.endRec e).state ≠ .unfitted) :
    eraseEnd e s = stopEnd e (abortEnd e .endUnfitted (unfittedEnd e s)) := if_neg h

theorem eraseEnd_of_unfitted {e : EndId} {s : State} (h : (s.endRec e).state = .unfitted) : eraseEnd e s = s := if_pos h

theorem eraseEnd_soft {e : EndId} {s : State} (h : (s.endRec e).state ≠ .unfitted) : Soft ev on (unfittedEnd e s) (eraseEnd e s) := by
  rw [eraseEnd_of_fitted h]
  exact .andThen (.stopEnd e _) (.endBurst e _ _)

theorem unfittedEnd_core (e : EndId) (s : State) :
    ((unfittedEnd e s).endRec e).core = { EndRecord.powerOn with previous := some (s.endRec e).state, cause := some .erase } := by
  simp [unfittedEnd, clearEnd, clearTimers, changeEnd_endRec_same, EndRecord.core, EndRecord.powerOn]

theorem unfittedEnd_endRec_ne {d e : EndId} (h : e ≠ d) (s : State) : (unfittedEnd d s).endRec e = s.endRec e := by
  simp [unfittedEnd, clearEnd, clearTimers, changeEnd, h.symm]

theorem unfittedEnd_chan (d e : EndId) (s : State) : (unfittedEnd d s).chan e = s.chan e := by
  simp [unfittedEnd, clearEnd, clearTimers, changeEnd]

theorem eraseEnd_core (e : EndId) (s : State) : ((eraseEnd e s).endRec e).core = (s.endRec e).core.erased := by
  by_cases h : (s.endRec e).state = .unfitted
  · rw [eraseEnd_of_unfitted h, EndRecord.erased, if_pos (by exact h)]
  · rw [(eraseEnd_soft (ev := false) (on := true) h).frame.core e, unfittedEnd_core, EndRecord.erased, if_neg (by exact h)]
    rfl

theorem eraseEnd_core_ne {d e : EndId} (h : e ≠ d) (s : State) : ((eraseEnd d s).endRec e).core = (s.endRec e).core := by
  by_cases hd : (s.endRec d).state = .unfitted
  · rw [eraseEnd_of_unfitted hd]
  · rw [(eraseEnd_soft (ev := false) (on := true) hd).frame.core e, unfittedEnd_endRec_ne h]

/-- The state once every end is UNFITTED. -/
def endsErased (s : State) : State := forEach allEnds eraseEnd s

theorem endsErased_core (s : State) (e : EndId) : ((endsErased s).endRec e).core = (s.endRec e).core.erased :=
  forEach_once (a := e) (I := fun _ => True) (v := fun t => (t.endRec e).core) (fun _ _ => id) (fun t _ hx => by rw [eraseEnd_core, hx])
    (fun _ t hd => eraseEnd_core_ne hd t) allEnds s allEnds_nodup (mem_allEnds e) trivial rfl

theorem endsErased_state (s : State) (e : EndId) : ((endsErased s).endRec e).state = .unfitted := by
  rw [← EndRecord.core_state, endsErased_core, EndRecord.erased_state]

/-- An UNFITTED end holds no channel (R74). -/
def UnfittedFree (s : State) (e : EndId) : Prop := (s.endRec e).state = .unfitted → s.chan e = .powerOn

theorem UnfittedFree.of_endsOk {s : State} (h : EndsOk s) (e : EndId) : UnfittedFree s e := fun hu => by
  obtain ⟨-, free, -⟩ := h e
  exact (free (by rw [hu]; rfl)).2

theorem UnfittedFree.soft {s t : State} {e : EndId} (h : UnfittedFree s e) (hst : Soft ev on s t) : UnfittedFree t e := fun hu => by
  rw [hst.state] at hu
  exact hst.chan_powerOn (by rw [hu]; rfl) (h hu)

theorem UnfittedFree.eraseEnd {s : State} {e : EndId} (h : UnfittedFree s e) (d : EndId) : UnfittedFree (eraseEnd d s) e := by
  by_cases hd : (s.endRec d).state = .unfitted
  · rwa [eraseEnd_of_unfitted hd]
  · by_cases hed : e = d
    · subst hed
      rw [eraseEnd_of_fitted hd]
      exact fun _ => stopEnd_chan e _
    · have cleared : UnfittedFree (unfittedEnd d s) e := fun hu => by
        rw [unfittedEnd_endRec_ne hed] at hu
        rw [unfittedEnd_chan]
        exact h hu
      exact cleared.soft (eraseEnd_soft (ev := false) (on := true) hd)

theorem endsErased_chan {s : State} {e : EndId} (h : UnfittedFree s e) : (endsErased s).chan e = .powerOn :=
  forEach_invariant (I := fun t => UnfittedFree t e) (fun d _ ht => ht.eraseEnd d) allEnds s h (endsErased_state s e)

/-! ## The effects of an erase, part by part -/

theorem unfittedEnd_reporting (e : EndId) (s : State) : Reporting s (unfittedEnd e s) := by
  unfold unfittedEnd clearEnd clearTimers changeEnd
  dsimp only
  rw [if_neg (by rintro ⟨h, -⟩; cases h)]
  exact .quiet rfl rfl rfl fun x => by cases x <;> rfl

theorem unfittedEnd_bursts (e : EndId) (s : State) : (unfittedEnd e s).line.bursts = s.line.bursts := by
  unfold unfittedEnd clearEnd clearTimers changeEnd
  dsimp only
  rw [if_neg (by rintro ⟨h, -⟩; cases h)]
  rfl

theorem eraseEnd_reporting (e : EndId) (s : State) : Reporting s (eraseEnd e s) := by
  by_cases h : (s.endRec e).state = .unfitted
  · rw [eraseEnd_of_unfitted h]
    exact (SoftFrame.refl (ev := false) s).reporting
  · exact (unfittedEnd_reporting e s).trans (eraseEnd_soft (ev := false) (on := true) h).frame.reporting

theorem BurstsOnlyEnd.eraseEnd (e : EndId) (s : State) : BurstsOnlyEnd s (Machine.eraseEnd e s) :=
  .of_ite (.refl s) (.andThen (.stopEnd e _) (.andThen (.endBurst e _ _) (.of_bursts (unfittedEnd_bursts e s))))

theorem Reporting.forEach {α : Type} {f : α → State → State} (h : ∀ a s, Reporting s (f a s)) :
    ∀ (l : List α) (s : State), Reporting s (Machine.forEach l f s)
  | [], s => (SoftFrame.refl (ev := false) s).reporting
  | a :: l, s => (h a s).trans (Reporting.forEach h l (f a s))

/-- The state of an erase of scope ALL before its ends' reports. -/
def allEmptied (s : State) : State := forEach allEnds emptyCommands (directoryErased (endsErased (abortAll s)))

/-- The state of an erase of scope ALL before the failure counts are held to the new threshold. -/
def allReported (s : State) : State := fixOverflowTimers (forEach allEnds (reportErased s) (allEmptied s))

theorem erased_all (s : State) : erased .all s = lowerCounts (allReported s) := by
  simp only [erased, allReported, allEmptied, endsErased]

theorem lowerCounts_endRec (s : State) (e : EndId) : (lowerCounts s).endRec e = s.endRec e := rfl
theorem lowerCounts_chan (s : State) (e : EndId) : (lowerCounts s).chan e = s.chan e := rfl

theorem lowerCounts_reporting (s : State) : Reporting s (lowerCounts s) := .quiet rfl rfl rfl fun x => by cases x <;> rfl

theorem allEmptied_soft (s : State) : Soft ev false (endsErased (abortAll s)) (allEmptied s) :=
  .andThen (.forEach (fun e t => .emptyCommands e t) _ _) (directoryErased_soft _)

theorem allReported_soft (s : State) : Soft ev on (allEmptied s) (allReported s) :=
  .andThen (.fixOverflowTimers _) (.forEach (fun e t => .of_ite (.refl t) (.reportEndState e t)) _ _)

/-- Reports and overflow timers are not in the line block. -/
theorem allReported_line (s : State) : (allReported s).line = (allEmptied s).line := by
  have timers (u : State) : (fixOverflowTimers u).line = u.line := forEach_unchanged State.line (fun i t => by
    unfold fixOverflowTimer
    split
    · split <;> rfl
    · rfl) _ u
  have reports (u : State) : (forEach allEnds (reportErased s) u).line = u.line := forEach_unchanged State.line (fun e t => by
    unfold reportErased
    split
    · rfl
    · exact reportBoth_line _ t) _ u
  exact (timers _).trans (reports _)

theorem allEmptied_commands (s : State) (e : EndId) : ((allEmptied s).endRec e).commands = [] := by
  refine forEach_brings (a := e) (I := fun _ => True) (P := fun t => (t.endRec e).commands = []) (fun _ _ => id) (fun t _ => ?_)
    (fun d t _ h => ?_) allEnds _ trivial (.inl (mem_allEnds e))
  · simp [emptyCommands]
  · by_cases hd : d = e
    · simp [emptyCommands, hd]
    · simpa [emptyCommands, hd] using h

theorem erased_reporting (c : EraseScope) (s : State) : Reporting s (erased c s) := by
  cases c with
  | groups => exact (SoftFrame.refl (ev := false) s).reporting
  | directory => exact (Soft.andThen (directoryErased_soft (ev := false) _) (abortAll_soft s)).frame.reporting
  | all =>
    have ends := ((abortAll_soft (ev := false) (on := true) s).frame.reporting).trans (Reporting.forEach eraseEnd_reporting allEnds _)
    have rest := (Soft.andThen (allReported_soft (ev := false) s) (allEmptied_soft s)).frame.reporting
    rw [erased_all]
    exact (ends.trans rest).trans (lowerCounts_reporting _)

theorem DirectoryGone.lowerCounts {s : State} (h : DirectoryGone s) : DirectoryGone (lowerCounts s) :=
  ⟨fun i => by simpa [Machine.lowerCounts, State.post] using h.reach i, h.hopMap, h.suppressed, h.bursts⟩

/-- An erase of the directory, of its own or in scope ALL, leaves nothing of it in use. -/
theorem erased_gone {c : EraseScope} {s : State} (hc : c ≠ .groups) (h : EntriesBlank s) : DirectoryGone (erased c s) := by
  have blank : EntriesBlank (abortAll s) := h.of_store (abortAll_unwritten s).store
  cases c with
  | groups => exact absurd rfl hc
  | directory => exact directoryErased_gone blank (abortAll_burstRuns s)
  | all =>
    have store : (endsErased (abortAll s)).store = (abortAll s).store := (Unwritten.forEach eraseEnd_unwritten allEnds _).store
    have ended : BurstsOnlyEnd (abortAll s) (endsErased (abortAll s)) := .forEach .eraseEnd allEnds _
    have gone := directoryErased_gone (blank.of_store store) fun e => ended e (abortAll_burstRuns s e)
    have emptied : DirectoryGone (allEmptied s) := gone.calm (.forEach .emptyCommands _ _) (.forEach (fun e t => .modEnd e _ t) _ _)
    rw [erased_all]
    exact (emptied.calm (.outside (allReported_line s)) (.of_line (allReported_line s))).lowerCounts

theorem DirectoryGone.completion {s : State} (h : DirectoryGone s) : DirectoryGone (finish (storeReady s)) :=
  h.calm (.completion s) (.trans (t := storeReady s) (.of_bursts rfl) (.of_agree (agree_finish _)))

/-- An erase of another scope than ALL touches of the ends' records no more than the suppressed post and the command list. -/
theorem erased_core {c : EraseScope} (hc : c ≠ .all) (s : State) (e : EndId) : ((erased c s).endRec e).core = (s.endRec e).core := by
  cases c with
  | groups => rfl
  | directory => exact (Soft.andThen (directoryErased_soft (ev := false) _) (abortAll_soft s)).frame.core e
  | all => exact absurd rfl hc

theorem erased_all_core (s : State) (e : EndId) : ((erased .all s).endRec e).core = (s.endRec e).core.erased := by
  have rest := (Soft.andThen (allReported_soft (ev := false) s) (allEmptied_soft s)).frame.core e
  rw [erased_all, lowerCounts_endRec, rest, endsErased_core, (abortAll_soft (ev := false) (on := true) s).frame.core e]

theorem erased_all_commands (s : State) (e : EndId) : ((erased .all s).endRec e).commands = [] := by
  rw [erased_all, lowerCounts_endRec, State.endRec, allReported_line]
  exact allEmptied_commands s e

theorem erased_all_chan {s : State} {e : EndId} (h : UnfittedFree s e) : UnfittedFree (erased .all s) e := by
  have ends : UnfittedFree (endsErased (abortAll s)) e := fun _ => endsErased_chan (h.soft (abortAll_soft (ev := false) (on := true) s))
  rw [erased_all, UnfittedFree, lowerCounts_endRec, lowerCounts_chan]
  exact ends.soft (Soft.andThen (allReported_soft (ev := false) s) (allEmptied_soft s))

/-! ## The completion -/

theorem blanked_link (c : EraseScope) (s : State) (y : LinkId) : (blanked c s).link y = s.link y := by cases y <;> rfl

/-- The reports of a completion change the links alone. -/
theorem reportWritten_eq (o : StoreOperation) (s : State) :
    reportWritten o s = { s with linkA := (reportWritten o s).linkA, linkB := (reportWritten o s).linkB } := by
  obtain ⟨w, x, tag⟩ := o
  cases x <;> rfl

/-- What a step agrees with but for transactions it leaves otherwise as it was. -/
theorem Agree.outside {s t : State} (h : Agree t s) : t.store = s.store ∧ t.linkA = s.linkA ∧ t.linkB = s.linkB :=
  ⟨(congrArg State.store h :), (congrArg State.linkA h :), (congrArg State.linkB h :)⟩

/-- An erase of scope GROUPS changes the store and tells the links of it. -/
theorem groupsErased_agree {c : EraseScope} {o : StoreOperation} {s t : State} (hc : c = .groups)
    (ht : t = finish (storeReady (erased c (reportWritten o (blanked c s))))) :
    Agree t { s with store := t.store, linkA := t.linkA, linkB := t.linkB } := by
  subst hc
  have same : Agree t (storeReady (reportWritten o (blanked .groups s))) := agree_of_finish ht
  obtain ⟨hstore, ha, hb⟩ := same.outside
  rw [hstore, ha, hb]
  refine same.trans ?_
  rw [reportWritten_eq]
  exact .refl _

theorem EntriesBlank.erasedStore {c : EraseScope} (hc : c ≠ .groups) {s t : State} (hs : t.store = (blanked c s).store) : EntriesBlank t := by
  intro i
  rw [State.entry, hs, blanked_store]
  cases c with
  | groups => exact absurd rfl hc
  | directory => exact nth_replicate _ i
  | all => exact nth_replicate _ i

theorem storeReady_post (s : State) (i : Slot) : (storeReady s).post i = s.post i := rfl

/-- No failure count is above the default threshold once it is in force (R10). -/
theorem allErased_failures {s : State} (hs : s.store.site.global = .default) (i : Slot) :
    ((finish (storeReady (erased .all s))).post i).failures ≤ GlobalRecord.default.threshold := by
  have lowered := lowerCounts_failuresOk (allReported s) i
  have store : (lowerCounts (allReported s)).store = s.store := by rw [← erased_all, (erased_reporting .all s).store]
  rw [store, hs] at lowered
  have ended := (Soft.finish (ev := false) (on := true) (storeReady (lowerCounts (allReported s)))).failures_le i
  rw [storeReady_post] at ended
  rw [erased_all]
  exact ended.trans lowered

theorem UnfittedFree.storeReady {s : State} {e : EndId} (h : UnfittedFree s e) : UnfittedFree (storeReady s) e := h

theorem allErased_chan {s : State} {e : EndId} (h : UnfittedFree s e) : (finish (storeReady (erased .all s))).chan e = .powerOn := by
  have free := (erased_all_chan h).storeReady.soft (Soft.finish (ev := false) (on := true) _)
  refine free ?_
  rw [← EndRecord.core_state, completion_core, erased_all_core, EndRecord.erased_state]

/-- Settles O49: the store by the scope, the line by what each part of the erase brings about. -/
theorem eraseCompletionBlanksTheScope : Obligations.eraseCompletionBlanksTheScope := by
  intro s o c hpow hbusy hw
  refine ⟨_, execEraseCompletion_of_busy hpow hbusy hw, ?_⟩
  obtain ⟨hstore, hnow, hslots, -⟩ := (erased_reporting c (reportWritten o (blanked c s))).completion (blanked_link c s)
  have line : (reportWritten o (blanked c s)).line = s.line := reportWritten_line o _
  have arbiter : (reportWritten o (blanked c s)).arbiter = s.arbiter := by rw [reportWritten_eq]; rfl
  have store := reportWritten_store o (blanked c s)
  have groups := fun hc => groupsErased_agree (c := c) (o := o) (s := s) hc rfl
  have gone := fun hc => (erased_gone hc (EntriesBlank.erasedStore hc store)).completion
  have core := completion_core (erased c (reportWritten o (blanked c s)))
  have commands := completion_commands (erased c (reportWritten o (blanked c s)))
  have failures : c = .all → ∀ i, ((finish (storeReady (erased c (reportWritten o (blanked c s))))).post i).failures ≤ _ := fun hc => by
    subst hc
    exact allErased_failures (congrArg (fun b : StoreBlock => b.site.global) store)
  have free : c = .all → EndsOk s → ∀ e, (finish (storeReady (erased c (reportWritten o (blanked c s))))).chan e = .powerOn := fun hc h e => by
    subst hc
    refine allErased_chan fun hu => ?_
    rw [State.chan, arbiter]
    refine UnfittedFree.of_endsOk h e ?_
    rwa [State.endRec, line] at hu
  generalize finish (storeReady (erased c (reportWritten o (blanked c s)))) = t at *
  generalize reportWritten o (blanked c s) = w at *
  have endRec : ∀ e, w.endRec e = s.endRec e := fun e => by rw [State.endRec, line]; rfl
  rw [blanked_store] at hstore
  refine ⟨by rw [hstore], ?_, ?_, ?_, ?_, groups, fun hc => ?_, fun hc e => ?_,
    fun hc => ⟨failures hc, fun e => ⟨?_, fun h => ?_, fun h => ?_, fun h => ?_⟩⟩, hnow, hslots⟩
  · simp only [State.entry, hstore]
    cases c <;> simp [erasedStore, Site.blank]
  · simp only [State.membership, hstore]
    cases c <;> simp [erasedStore, Site.blank]
  · simp only [State.segment, hstore]
    cases c <;> simp [erasedStore, Site.blank]
  · rw [hstore]
    refine List.filter_congr fun r _ => ?_
    cases c <;> cases r <;> rfl
  · obtain ⟨reach, hopMap, suppressed, bursts⟩ := gone hc
    exact ⟨reach, hopMap, fun e => ⟨bursts e, suppressed e⟩⟩
  · rw [core, erased_core hc, endRec]
  · subst hc
    rw [commands, erased_all_commands]
  · exact free hc h e
  · subst hc
    rw [core, erased_all_core, endRec, EndRecord.erased, if_pos (by exact h)]
  · subst hc
    rw [core, erased_all_core, endRec, EndRecord.erased, if_neg (by exact h)]
    rfl

end Sys2Proof.Machine
end

