-- ==== Sys2Proof/Proofs/Loading.lean ====
section
/-! PROOF. The line block at the end of the load (O5): the hop maps, the ends of the fitted segments, and their posts. With no live call
nothing outside the line block changes. -/

namespace Sys2Proof.Machine

/-! ## Changes of the line block alone -/

/-- Nothing outside the line block changes. -/
def LineOnly (s t : State) : Prop := t = { s with line := t.line }

theorem LineOnly.refl (s : State) : LineOnly s s := rfl

theorem LineOnly.trans {s t u : State} (h : LineOnly s t) (k : LineOnly t u) : LineOnly s u := by
  unfold LineOnly at *
  rw [k, h]

theorem LineOnly.store {s t : State} (h : LineOnly s t) : t.store = s.store := by rw [h]
theorem LineOnly.site {s t : State} (h : LineOnly s t) : t.store.site = s.store.site := by rw [h]
theorem LineOnly.calls {s t : State} (h : LineOnly s t) : t.calls = s.calls := by rw [h]
theorem LineOnly.onLine (s : State) (f : LineBlock → LineBlock) : LineOnly s (s.onLine f) := rfl

theorem LineOnly.forEach {α : Type} {f : α → State → State} (h : ∀ a s, LineOnly s (f a s)) (l : List α) (s : State) :
    LineOnly s (forEach l f s) := forEach_invariant (I := LineOnly s) (fun a t ht => ht.trans (h a t)) l s (.refl s)

/-- An event that changes the line block alone leaves nothing to settle. -/
theorem LineOnly.settle {s t : State} (h : LineOnly s t) : settle s t = t :=
  settle_of_quiet (by rw [h]) (by rw [h]) (by rw [h])

/-! ## The hop maps (R17) -/

theorem rehop_of_unserved {i : Slot} {s : State} (h : (s.post i).reach = .unserved) (g : SegId) : rehop g i s = s := by
  simp only [rehop, h]

theorem rebuild_of_unserved {s : State} (h : ∀ i, (s.post i).reach = .unserved) (g : SegId) : rebuild g s = s.setHopMap g (hopMapOf s g) := by
  have mapped : ∀ i, ((s.setHopMap g (hopMapOf s g)).post i).reach = .unserved := h
  generalize hu : s.setHopMap g (hopMapOf s g) = u at *
  rw [rebuild, hu, forEach_eq_self fun i => rehop_of_unserved (mapped i) g]

/-- Where no post is served the rebuild of every hop map changes the maps alone. -/
structure Rebuilt (s t : State) : Prop where
  outside : LineOnly s t
  posts : t.line.posts = s.line.posts
  ends : t.line.ends = s.line.ends

theorem rebuilds_rebuilt {s : State} (h : ∀ i, (s.post i).reach = .unserved) : Rebuilt s (forEach (allFin 8) rebuild s) := by
  refine forEach_invariant (I := Rebuilt s) (fun g t ht => ?_) _ s ⟨.refl s, rfl, rfl⟩
  obtain ⟨outside, posts, ends⟩ := ht
  have unserved : ∀ i, (t.post i).reach = .unserved := fun i => by rw [State.post, posts]; exact h i
  rw [rebuild_of_unserved unserved]
  exact ⟨outside.trans (.onLine t _), posts, ends⟩

/-! ## The ends of the fitted segments (R30) -/

theorem startEnd_of_fitted {e : EndId} {s : State} (h : (s.segment e.seg).fitted = true) :
    startEnd e s = (changeEnd e .serving .full .startUp s).modEnd e fun r => { r with scanPosition := 0 } := if_pos h

theorem startEnd_of_not_fitted {e : EndId} {s : State} (h : (s.segment e.seg).fitted = false) : startEnd e s = s := if_neg (by simp [h])

/-- Posts and hop maps stay, and everything outside the line block. -/
structure EndsOnly (s t : State) : Prop where
  outside : LineOnly s t
  posts : t.line.posts = s.line.posts
  hopMaps : t.line.hopMaps = s.line.hopMaps

theorem EndsOnly.refl (s : State) : EndsOnly s s := ⟨.refl s, rfl, rfl⟩

theorem EndsOnly.trans {s t u : State} (h : EndsOnly s t) (k : EndsOnly t u) : EndsOnly s u :=
  ⟨h.outside.trans k.outside, k.posts.trans h.posts, k.hopMaps.trans h.hopMaps⟩

theorem EndsOnly.forEach {α : Type} {f : α → State → State} (h : ∀ a s, EndsOnly s (f a s)) (l : List α) (s : State) :
    EndsOnly s (forEach l f s) := forEach_invariant (I := EndsOnly s) (fun a t ht => ht.trans (h a t)) l s (.refl s)

theorem EndsOnly.modEnd (e : EndId) (f : EndRecord → EndRecord) (s : State) : EndsOnly s (s.modEnd e f) := ⟨rfl, rfl, rfl⟩

theorem startEnd_endsOnly (e : EndId) (s : State) : EndsOnly s (startEnd e s) := by
  unfold startEnd changeEnd
  split
  · dsimp only
    split
    · exact ⟨rfl, rfl, rfl⟩
    · exact ⟨rfl, rfl, rfl⟩
  · exact .refl s

/-- The record of an end of a fitted segment at the end of the load. -/
def EndRecord.started : EndRecord :=
  { EndRecord.powerOn with state := .serving, reach := .full, previous := some .unfitted, cause := some .startUp }

theorem startEnd_endRec {e : EndId} {s : State} (hf : (s.segment e.seg).fitted = true) (h : s.endRec e = .powerOn) :
    (startEnd e s).endRec e = .started := by
  rw [startEnd_of_fitted hf, modEnd_endRec_same, changeEnd_endRec_same, h]
  rfl

theorem startEnd_endRec_ne {d e : EndId} (h : e ≠ d) (s : State) : (startEnd d s).endRec e = s.endRec e := by
  unfold startEnd changeEnd
  split
  · dsimp only
    split <;> simp [h.symm]
  · rfl

/-- The state once the hop maps are built and the ends started. -/
def endsStarted (s : State) : State := forEach allEnds startEnd (forEach (allFin 8) rebuild s)

section
variable {s : State} (h : BlocksAtPowerOn s)
include h

theorem BlocksAtPowerOn.unserved (i : Slot) : (s.post i).reach = .unserved := by rw [h.post]; rfl

theorem endsStarted_endRec (e : EndId) :
    (endsStarted s).endRec e = if (s.segment e.seg).fitted then .started else .powerOn := by
  have rebuilt := rebuilds_rebuilt h.unserved
  unfold endsStarted
  generalize forEach (allFin 8) rebuild s = u at *
  have old : u.endRec e = .powerOn := by rw [State.endRec, rebuilt.ends]; exact h.endRec e
  have same (t : State) (ht : LineOnly u t) : t.segment e.seg = s.segment e.seg := by
    rw [State.segment, ht.store, rebuilt.outside.store]; rfl
  refine forEach_once (I := LineOnly u) (v := fun t => t.endRec e) (fun d t ht => ht.trans (startEnd_endsOnly d t).outside)
    (fun t ht hx => ?_) (fun d t hd => startEnd_endRec_ne hd t) allEnds u allEnds_nodup (mem_allEnds e) (.refl u) old
  by_cases hf : (s.segment e.seg).fitted = true
  · rw [if_pos hf]
    exact startEnd_endRec (by rwa [same t ht]) hx
  · rw [if_neg hf, startEnd_of_not_fitted (by rwa [same t ht, ← Bool.not_eq_true])]
    exact hx

theorem endsStarted_outside : LineOnly s (endsStarted s) :=
  (rebuilds_rebuilt h.unserved).outside.trans (EndsOnly.forEach startEnd_endsOnly allEnds _).outside

theorem endsStarted_post (i : Slot) : (endsStarted s).post i = .powerOn := by
  rw [State.post, endsStarted, (EndsOnly.forEach startEnd_endsOnly allEnds _).posts, (rebuilds_rebuilt h.unserved).posts]
  exact h.post i

omit h in
theorem endsStarted_hopMap (g : SegId) : (endsStarted s).hopMap g = hopMapOf s g := by
  rw [State.hopMap, endsStarted, (EndsOnly.forEach startEnd_endsOnly allEnds _).hopMaps, ← State.hopMap, rebuilds_hopMap,
    if_pos (mem_allFin g)]

end

/-! ## The posts of the fitted segments (R69, R30) -/

/-- There is no live call, and the ends of each fitted segment serve in FULL. -/
structure ReadyToServe (s : State) : Prop where
  calls : s.calls = .powerOn
  ends : ∀ e : EndId, (s.segment e.seg).fitted = true → (s.endRec e).state = .serving ∧ (s.endRec e).reach = .full

/-- The row of a post at the end of the load, where the hop maps stand in s. -/
def startedRow (s : State) (i : Slot) : PostRow :=
  if (s.entry i).place.present = true ∧ (s.segment (s.entry i).place.seg).fitted = true then
    { PostRow.powerOn with reach := .served (primaryEnd s i), hop := hopFrom s (primaryEnd s i) i }
  else .powerOn

theorem callOf_of_noCalls {s : State} (h : s.calls = .powerOn) (i : Slot) : s.callOf i = none := by
  simp [State.callOf, State.liveCall, State.record, h, CallBlock.powerOn]

theorem heldOn_of_noCalls {s : State} (h : s.calls = .powerOn) (i : Slot) : heldOn s i = none := by
  unfold heldOn
  rw [callOf_of_noCalls h]
  split
  · simp
  · rfl
  · rfl

/-- With no live call each post of a fitted segment is given its primary end. -/
theorem ReadyToServe.assignedReach {s : State} (h : ReadyToServe s) (i : Slot) : assignedReach s i = (startedRow s i).reach := by
  unfold startedRow
  split
  · rename_i hf
    obtain ⟨hp, hf⟩ := hf
    obtain ⟨serving, full⟩ := h.ends (primaryEnd s i) hf
    have free : available s (primaryEnd s i) (s.entry i).place.position = true := by
      rw [available, serving, full]
      rfl
    unfold Machine.assignedReach
    dsimp only
    rw [heldOn_of_noCalls h.calls, hp, hf, free]
    rfl
  · rename_i hf
    exact assignedReach_eq_unserved.mpr hf

theorem callPostServed_of_noCalls {s : State} (h : s.calls = .powerOn) (i : Slot) : callPostServed i s = s := by
  rw [callPostServed, callOf_of_noCalls h]

theorem moveCommands_endsOnly (i : Slot) (e : EndId) (s : State) : EndsOnly s (moveCommands i e s) := by
  have dropped : EndsOnly s (dropCommands i s) := by
    unfold dropCommands
    exact .forEach (fun d t => .modEnd d _ t) _ s
  exact dropped.trans (.modEnd e _ _)

/-- The posts are assigned one by one: u is the state before the first. Each row stands as it was or as it will be. -/
structure Assigning (u t : State) : Prop where
  outside : LineOnly u t
  hopMaps : t.line.hopMaps = u.line.hopMaps
  core : ∀ e, (t.endRec e).core = (u.endRec e).core
  rows : ∀ i, t.post i = .powerOn ∨ t.post i = startedRow u i

/-- A row is read from the working copy and the hop maps. -/
theorem startedRow_eq {s t : State} (hs : t.store.site = s.store.site) (i : Slot) :
    startedRow t i =
      if (s.entry i).place.present = true ∧ (s.segment (s.entry i).place.seg).fitted = true then
        { PostRow.powerOn with reach := .served (primaryEnd s i), hop := hopFrom t (primaryEnd s i) i }
      else .powerOn := by
  have entry : t.entry = s.entry := funext fun j => by simp only [State.entry, hs]
  have segment : t.segment = s.segment := funext fun g => by simp only [State.segment, hs]
  have primary : primaryEnd t i = primaryEnd s i := by simp only [primaryEnd, entry, segment]
  simp only [startedRow, entry, segment, primary]

theorem startedRow_congr {s t : State} (hs : t.store.site = s.store.site) (hm : t.line.hopMaps = s.line.hopMaps) (i : Slot) :
    startedRow t i = startedRow s i := by
  have hop (e : EndId) : hopFrom t e i = hopFrom s e i := hopFrom_congr (by simp [State.hopMap, hm]) i
  rw [startedRow_eq hs, startedRow, hop]

theorem Assigning.ready {u t : State} (h : Assigning u t) (hu : ReadyToServe u) : ReadyToServe t := by
  refine ⟨h.outside.calls.trans hu.calls, fun e hf => ?_⟩
  rw [State.segment, h.outside.store] at hf
  obtain ⟨serving, full⟩ := hu.ends e hf
  have state : (t.endRec e).state = (u.endRec e).state := (congrArg EndRecord.state (h.core e) :)
  have reach : (t.endRec e).reach = (u.endRec e).reach := (congrArg EndRecord.reach (h.core e) :)
  exact ⟨state.trans serving, reach.trans full⟩

/-- An update of the ends that keeps their cores. -/
theorem Assigning.endsOnly {u t v : State} (h : Assigning u t) (k : EndsOnly t v) (hc : ∀ e, (v.endRec e).core = (t.endRec e).core) :
    Assigning u v :=
  ⟨h.outside.trans k.outside, k.hopMaps.trans h.hopMaps, fun e => (hc e).trans (h.core e), fun i => by
    rw [State.post, k.posts]; exact h.rows i⟩

/-- The row of a post of a fitted segment at the end of the load. -/
theorem startedRow_cases (s : State) (i : Slot) : startedRow s i = .powerOn
    ∨ startedRow s i = { PostRow.powerOn with reach := .served (primaryEnd s i), hop := hopFrom s (primaryEnd s i) i } := by
  unfold startedRow
  split
  · exact .inr rfl
  · exact .inl rfl

/-- With no live call a post that goes from UNSERVED to an end takes its row, and its commands follow it. -/
theorem reassign_of_unserved {s : State} (hc : s.calls = .powerOn) {i : Slot} {e : EndId} (hold : (s.post i).reach = .unserved)
    (hnew : assignedReach s i = .served e) : reassign i s = moveCommands i e (setReach i (.served e) s) := by
  have calls : (moveCommands i e (setReach i (.served e) s)).calls = .powerOn := (moveCommands_endsOnly i e _).outside.calls.trans hc
  unfold reassign
  dsimp only
  rw [hold, hnew, if_neg nofun]
  exact callPostServed_of_noCalls calls i

/-- What the assignment of a post does to the rows. -/
structure AssignedRow (u t : State) (i : Slot) (v : State) : Prop where
  outside : LineOnly t v
  own : v.post i = startedRow u i
  other : ∀ j, i ≠ j → v.post j = t.post j

/-- The assignment of one post gives it its row, or finds it there. -/
theorem Assigning.reassign_row {u t : State} (h : Assigning u t) (hu : ReadyToServe u) (i : Slot) : AssignedRow u t i (reassign i t) := by
  have row : startedRow t i = startedRow u i := startedRow_congr h.outside.site h.hopMaps i
  have ready := h.ready hu
  have new := ready.assignedReach i
  have stays (hr : t.post i = startedRow u i) : AssignedRow u t i (reassign i t) := by
    have same : reassign i t = t := if_pos (by rw [new, row, hr])
    rw [same]
    exact ⟨.refl t, hr, fun _ _ => rfl⟩
  rcases h.rows i with old | old
  · rcases startedRow_cases t i with none | served
    · exact stays (by rw [old, ← row, none])
    · have unserved : (t.post i).reach = .unserved := by rw [old]; rfl
      rw [served] at new
      have moved := moveCommands_endsOnly i (primaryEnd t i) (setReach i (.served (primaryEnd t i)) t)
      have set : EndsOnly (setReach i (.served (primaryEnd t i)) t) (reassign i t) := by rwa [reassign_of_unserved ready.calls unserved new]
      refine ⟨LineOnly.trans (.onLine t _) set.outside, ?_, fun j hj => ?_⟩
      · rw [State.post, set.posts, ← State.post, setReach, modPost_post_same, old, ← row, served]
        rfl
      · rw [State.post, set.posts, ← State.post, setReach, modPost_post_ne _ _ hj]
  · exact stays old

theorem Assigning.reassign {u t : State} (h : Assigning u t) (hu : ReadyToServe u) (i : Slot) : Assigning u (reassign i t) := by
  obtain ⟨outside, own, other⟩ := h.reassign_row hu i
  refine ⟨h.outside.trans outside, (reassign_mapped i t).hopMaps.trans h.hopMaps, fun e => ?_, fun j => ?_⟩
  · exact ((Soft.reassign i t).frame.core e).trans (h.core e)
  · by_cases hj : i = j
    · exact .inr (hj ▸ own)
    · rw [other j hj]; exact h.rows j

theorem fixSegment_endsOnly (g : SegId) (s : State) : EndsOnly s (fixSegment g s) := by
  refine .forEach (fun e t => ?_) _ s
  unfold fixSuppressed
  split
  · split
    · exact .refl t
    · exact .modEnd e _ t
  · exact .refl t

/-- The assignment of a segment, with nothing to settle at its end. -/
theorem Assigning.assignSegment_eq {u t : State} (h : Assigning u t) (hu : ReadyToServe u) (g : SegId) :
    Assigning u (forEach (presentOn t g) Machine.reassign t)
      ∧ assignSegment g t = fixSegment g (forEach (presentOn t g) Machine.reassign t) := by
  have loop : Assigning u (forEach (presentOn t g) Machine.reassign t) ∧ LineOnly t (forEach (presentOn t g) Machine.reassign t) :=
    forEach_invariant (I := fun v => Assigning u v ∧ LineOnly t v)
      (fun i v ⟨hv, hl⟩ => ⟨hv.reassign hu i, hl.trans (hv.reassign_row hu i).outside⟩) _ t ⟨h, .refl t⟩
  exact ⟨loop.1, (loop.2.trans (fixSegment_endsOnly g _).outside).settle⟩

theorem Assigning.assignSegment {u t : State} (h : Assigning u t) (hu : ReadyToServe u) (g : SegId) : Assigning u (assignSegment g t) := by
  obtain ⟨assigned, eq⟩ := h.assignSegment_eq hu g
  rw [eq]
  exact assigned.endsOnly (fixSegment_endsOnly g _) (Soft.fixSegment (ev := false) (on := true) g _).frame.core

/-- A post of the segment has its row once the segment is assigned, and a post that has it keeps it. -/
theorem Assigning.assignSegment_post {u t : State} (h : Assigning u t) (hu : ReadyToServe u) {g : SegId} {i : Slot}
    (hi : i ∈ presentOn t g ∨ t.post i = startedRow u i) : (Machine.assignSegment g t).post i = startedRow u i := by
  rw [(h.assignSegment_eq hu g).2, State.post, (fixSegment_endsOnly _ _).posts]
  refine forEach_brings (a := i) (I := Assigning u) (P := fun v => v.post i = startedRow u i) (fun j v hv => hv.reassign hu j)
    (fun v hv => (hv.reassign_row hu i).own) (fun j v hv hr => ?_) _ t h hi
  by_cases hj : j = i
  · exact hj ▸ (hv.reassign_row hu j).own
  · exact ((hv.reassign_row hu j).other i hj).trans hr

/-- Once every segment is assigned every post has its row. -/
theorem Assigning.segments {u : State} (hu : ReadyToServe u) (h : Assigning u u) :
    Assigning u (forEach (allFin 8) Machine.assignSegment u)
      ∧ ∀ i, (forEach (allFin 8) Machine.assignSegment u).post i = startedRow u i := by
  refine ⟨forEach_invariant (fun g t ht => ht.assignSegment hu g) _ u h, fun i => ?_⟩
  refine forEach_brings (a := (u.entry i).place.seg) (I := Assigning u) (P := fun v => v.post i = startedRow u i)
    (fun g v hv => hv.assignSegment hu g) (fun v hv => hv.assignSegment_post hu ?_)
    (fun g v hv hr => hv.assignSegment_post hu (.inr hr)) _ u h (.inl (mem_allFin _))
  by_cases hp : (u.entry i).place.present = true
  · left
    rw [mem_presentOn, State.entry, hv.outside.store]
    exact ⟨hp, rfl⟩
  · right
    have none : startedRow u i = .powerOn := if_neg fun hf => hp hf.1
    rcases hv.rows i with old | old
    · rw [old, none]
    · exact old

/-! ## The line block at the end of the load -/

/-- What the end of the load makes of the line block. -/
structure Loaded (s t : State) : Prop where
  outside : LineOnly s t
  hopMap : ∀ g, t.hopMap g = hopMapOf s g
  core : ∀ e, (t.endRec e).core = if (s.segment e.seg).fitted then .started else .powerOn
  posts : ∀ i, t.post i = startedRow t i

theorem loadedSegments_loaded {s : State} (h : BlocksAtPowerOn s) : Loaded s (loadedSegments s) := by
  have outside := endsStarted_outside h
  have core := endsStarted_endRec h
  have hopMap := endsStarted_hopMap (s := s)
  have posts := endsStarted_post h
  have eq : loadedSegments s = forEach (allFin 8) assignSegment (endsStarted s) := by simp only [loadedSegments, endsStarted]
  rw [eq]
  generalize endsStarted s = u at *
  have ready : ReadyToServe u := by
    refine ⟨outside.calls.trans h.2.2.1, fun e hf => ?_⟩
    rw [State.segment, outside.store] at hf
    rw [core, if_pos (by exact hf)]
    exact ⟨rfl, rfl⟩
  obtain ⟨assigned, rows⟩ := Assigning.segments ready ⟨.refl u, rfl, fun _ => rfl, fun i => .inl (posts i)⟩
  generalize forEach (allFin 8) assignSegment u = t at *
  refine ⟨outside.trans assigned.outside, fun g => ?_, fun e => ?_, fun i => ?_⟩
  · rw [State.hopMap, assigned.hopMaps]
    exact hopMap g
  · rw [assigned.core, core]
    split <;> rfl
  · rw [rows, startedRow_congr assigned.outside.site assigned.hopMaps]

end Sys2Proof.Machine
end

