-- ==== Sys2Proof/Proofs/StartUp.lean ====
section
/-! PROOF. The end of the load (O5): the held LINK START and the END STATE reports of the ends that went SERVING. -/

namespace Sys2Proof.Machine

/-! ## Reports to the links -/

/-- Nothing but the links changes. -/
def LinksOnly (s t : State) : Prop := t = { s with linkA := t.linkA, linkB := t.linkB }

theorem LinksOnly.refl (s : State) : LinksOnly s s := rfl

theorem LinksOnly.trans {s t u : State} (h : LinksOnly s t) (k : LinksOnly t u) : LinksOnly s u := by
  unfold LinksOnly at *
  rw [k, h]

theorem LinksOnly.modLink (s : State) (x : LinkId) (f : LinkRecord → LinkRecord) : LinksOnly s (s.modLink x f) := by cases x <;> rfl

theorem LinksOnly.line {s t : State} (h : LinksOnly s t) : t.line = s.line := by rw [h]
theorem LinksOnly.store {s t : State} (h : LinksOnly s t) : t.store = s.store := by rw [h]

/-- A link with room takes the reports in their order. -/
theorem foldl_enqueue {α : Type} (r : α → Report) :
    ∀ (l : List α) (k : LinkRecord), k.up = true → k.gap = false → k.queue.length + l.length ≤ 64 →
      l.foldl (fun k a => enqueue (r a) k) k = { k with queue := k.queue ++ l.map fun a => .report false (r a) }
  | [], k, _, _, _ => by simp
  | a :: l, k, hup, hgap, hroom => by
    rw [List.length_cons] at hroom
    have first := enqueue_of_room (r a) hup (by omega)
    rw [List.foldl_cons, first, foldl_enqueue r l _ (by exact hup) rfl (by simp; omega)]
    simp [hgap]

/-! ## The held LINK START (R151) -/

theorem releaseStart_linksOnly (x : LinkId) (s : State) : LinksOnly s (releaseStart x s) := by
  unfold releaseStart
  split
  · exact (LinksOnly.modLink s x _).trans (.modLink _ x _)
  · exact .refl s

theorem releaseStart_link_ne {x y : LinkId} (h : y ≠ x) (s : State) : (releaseStart y s).link x = s.link x := by
  unfold releaseStart
  split
  · rw [report_link, if_neg h, link_modLink, if_neg h]
  · rfl

theorem releaseStart_link {x : LinkId} {s : State} {r : LinkStart} (h : (s.link x).heldStart = some r) :
    (releaseStart x s).link x = enqueue (.linkStart (fillDamaged s r)) { s.link x with heldStart := none } := by
  have eq : releaseStart x s = report x (.linkStart (fillDamaged s r)) (s.modLink x fun l => { l with heldStart := none }) := by
    simp only [releaseStart, h]
  rw [eq, report_link, if_pos rfl, link_modLink, if_pos rfl]

/-- The state once the held LINK STARTs are placed. -/
def startsReleased (s : State) : State := releaseStart .b (releaseStart .a s)

theorem startsReleased_linksOnly (s : State) : LinksOnly s (startsReleased s) :=
  (releaseStart_linksOnly .a s).trans (releaseStart_linksOnly .b _)

theorem fillDamaged_congr {s t : State} (h : t.store.damaged = s.store.damaged) (r : LinkStart) : fillDamaged t r = fillDamaged s r := by
  simp only [fillDamaged, h]

theorem startsReleased_link {x : LinkId} {s : State} {r : LinkStart} (h : (s.link x).heldStart = some r) :
    (startsReleased s).link x = enqueue (.linkStart (fillDamaged s r)) { s.link x with heldStart := none } := by
  cases x with
  | a => rw [startsReleased, releaseStart_link_ne (by nofun), releaseStart_link h]
  | b =>
    have other : (releaseStart .a s).link .b = s.link .b := releaseStart_link_ne (by nofun) s
    have held : ((releaseStart .a s).link .b).heldStart = some r := by rw [other, h]
    rw [startsReleased, releaseStart_link held, other, fillDamaged_congr (congrArg StoreBlock.damaged (releaseStart_linksOnly .a s).store)]

/-! ## The END STATE reports (R30) -/

/-- An end's report is read from its record and the posts. -/
theorem endStateOf_congr {s t : State} (e : EndId) (hp : t.line.posts = s.line.posts)
    (he : { t.endRec e with scanPosition := 0 } = { s.endRec e with scanPosition := 0 }) : endStateOf t e = endStateOf s e := by
  have post : t.post = s.post := funext fun i => by simp only [State.post, hp]
  have served : servedBy t e = servedBy s e := by simp only [servedBy, post]
  simp only [EndRecord.mk.injEq] at he
  simp only [endStateOf, served, he]

theorem reportEndState_linksOnly (e : EndId) (s : State) : LinksOnly s (reportEndState e s) :=
  (LinksOnly.modLink s .a _).trans (.modLink _ .b _)

theorem reportEndState_link (e : EndId) (s : State) (x : LinkId) :
    (reportEndState e s).link x = enqueue (.endState (endStateOf s e)) (s.link x) := by
  cases x <;> simp [reportEndState, reportBoth, report_link]

theorem reportStarted_linksOnly (e : EndId) (s : State) : LinksOnly s (reportStarted e s) := by
  unfold reportStarted
  split
  · exact reportEndState_linksOnly e s
  · exact .refl s

theorem reportsStarted_linksOnly (l : List EndId) (s : State) : LinksOnly s (forEach l reportStarted s) :=
  forEach_invariant (I := LinksOnly s) (fun e _ ht => ht.trans (reportStarted_linksOnly e _)) l s (.refl s)

/-- Each link is told of the ends that went SERVING, in ascending order: s is the state before the first report. -/
theorem reportsStarted_link (s : State) (x : LinkId) : ∀ (l : List EndId) (t : State), LinksOnly s t →
    (forEach l reportStarted t).link x =
      (l.filter fun e => (s.segment e.seg).fitted).foldl (fun k e => enqueue (.endState (endStateOf s e)) k) (t.link x)
  | [], _, _ => rfl
  | e :: l, t, ht => by
    have segment : t.segment e.seg = s.segment e.seg := by simp only [State.segment, ht.store]
    have state : endStateOf t e = endStateOf s e := endStateOf_congr e (by rw [ht.line]) (by simp only [State.endRec, ht.line])
    rw [forEach_cons, reportsStarted_link s x l _ (ht.trans (reportStarted_linksOnly e t))]
    by_cases hf : (s.segment e.seg).fitted = true
    · have told : reportStarted e t = reportEndState e t := if_pos (by rwa [segment])
      rw [List.filter_cons_of_pos (by exact hf), List.foldl_cons, told, reportEndState_link, state]
    · have silent : reportStarted e t = t := if_neg (by rwa [segment])
      rw [List.filter_cons_of_neg (by exact hf), silent]

/-- The LINK START and the reports that follow it, on an UP link that has room for them. -/
theorem started_link {s : State} {x : LinkId} {r : LinkStart} (hup : (s.link x).up = true) (hroom : (s.link x).queue.length ≤ 47)
    (hheld : (s.link x).heldStart = some r) :
    (forEach allEnds reportStarted (startsReleased s)).link x =
      { s.link x with
        heldStart := none, gap := false
        queue := (s.link x).queue ++ .report (s.link x).gap (.linkStart (fillDamaged s r)) ::
          ((allEnds.filter fun e => (s.segment e.seg).fitted).map fun e => .report false (.endState (endStateOf s e))) } := by
  have few : (allEnds.filter fun e => (s.segment e.seg).fitted).length ≤ 16 := List.length_filter_le _ allEnds
  rw [reportsStarted_link s x allEnds _ (startsReleased_linksOnly s), startsReleased_link hheld,
    enqueue_of_room _ (by exact hup) (by show (s.link x).queue.length < 64; omega),
    foldl_enqueue _ _ _ (by exact hup) rfl (by simp only [List.length_append, List.length_singleton]; omega)]
  simp

/-! ## The end of the load -/

/-- What idle ports begin touches no post and no hop map, and of an end's record the scan position alone. -/
structure Agree.Line (s t : State) : Prop where
  posts : t.line.posts = s.line.posts
  hopMaps : t.line.hopMaps = s.line.hopMaps
  ends : ∀ e, { t.endRec e with scanPosition := 0 } = { s.endRec e with scanPosition := 0 }

theorem Agree.line {s t : State} (h : Agree t s) : Agree.Line s t := by
  have line : t.line.settled = s.line.settled := congrArg State.line h
  refine ⟨(congrArg LineBlock.posts line :), (congrArg LineBlock.hopMaps line :), fun e => ?_⟩
  have same := congrArg (fun l : LineBlock => nth l.ends (endIdx e)) line
  simpa only [LineBlock.settled, nth_map, State.endRec] using same

/-- What the end of the load leaves outside the line block, the store and the links. -/
structure OutsideKept (s t : State) : Prop where
  now : t.now = s.now
  arbiter : t.arbiter = s.arbiter
  calls : t.calls = s.calls
  groups : t.groups = s.groups
  pending : t.pending = s.pending
  powered : t.powered = s.powered

theorem OutsideKept.trans {s t u : State} (h : OutsideKept s t) (k : OutsideKept t u) : OutsideKept s u :=
  ⟨k.now.trans h.now, k.arbiter.trans h.arbiter, k.calls.trans h.calls, k.groups.trans h.groups, k.pending.trans h.pending,
    k.powered.trans h.powered⟩

theorem LineOnly.outsideKept {s t : State} (h : LineOnly s t) : OutsideKept s t := by
  rw [h]
  exact ⟨rfl, rfl, rfl, rfl, rfl, rfl⟩

theorem LinksOnly.outsideKept {s t : State} (h : LinksOnly s t) : OutsideKept s t := by
  rw [h]
  exact ⟨rfl, rfl, rfl, rfl, rfl, rfl⟩

theorem Agree.outsideKept {s t : State} (h : Agree t s) : OutsideKept s t :=
  ⟨(congrArg State.now h :), (congrArg State.arbiter h :), (congrArg State.calls h :), (congrArg State.groups h :),
    (congrArg State.pending h :), (congrArg State.powered h :)⟩

theorem storeReady_outsideKept (s : State) : OutsideKept s (storeReady s) := ⟨rfl, rfl, rfl, rfl, rfl, rfl⟩

theorem storeReady_line (s : State) : (storeReady s).line = s.line := rfl
theorem storeReady_link (s : State) (x : LinkId) : (storeReady s).link x = s.link x := by cases x <;> rfl
theorem storeReady_store (s : State) : (storeReady s).store = { s.store with state := .ready } := rfl

/-- Settles O5: the line block by what the load makes of it, the links by the reports that follow. -/
theorem startUpLoadEndStartsService : Obligations.startUpLoadEndStartsService := by
  intro s hpow hstart h
  refine ⟨startedUp s, (execStartUpLoadEnd_eq s).trans (by rw [if_pos ⟨hpow, hstart⟩]), ?_⟩
  have loaded := loadedSegments_loaded h
  have store := startedUp_store s
  have links := (startsReleased_linksOnly (storeReady (loadedSegments s))).trans (reportsStarted_linksOnly allEnds _)
  have told := fun x r => started_link (s := storeReady (loadedSegments s)) (x := x) (r := r)
  have agree : Agree (startedUp s) (forEach allEnds reportStarted (startsReleased (storeReady (loadedSegments s)))) := agree_finish _
  have ready := storeReady_outsideKept (loadedSegments s)
  have readyStore := storeReady_store (loadedSegments s)
  have readyLine := storeReady_line (loadedSegments s)
  have readyLink := storeReady_link (loadedSegments s)
  generalize startedUp s = t at *
  generalize forEach allEnds reportStarted (startsReleased (storeReady (loadedSegments s))) = v at *
  generalize storeReady (loadedSegments s) = w at *
  generalize loadedSegments s = l at *
  obtain ⟨now, arbiter, calls, groups, pending, powered⟩ :=
    ((loaded.outside.outsideKept.trans ready).trans links.outsideKept).trans agree.outsideKept
  obtain ⟨-, linkA, linkB⟩ := agree.outside
  obtain ⟨posts, hopMaps, ends⟩ := agree.line
  rw [links.line, readyLine] at posts hopMaps
  have link : ∀ x, w.link x = s.link x := fun x => (readyLink x).trans (by rw [loaded.outside]; cases x <;> rfl)
  have site : t.store.site = s.store.site := by rw [store]
  refine ⟨store, now, arbiter, calls, groups, pending, powered.trans hpow, fun g => ?_, fun e => ?_, fun i => ?_, fun x hup hroom r hheld => ?_⟩
  · rw [State.hopMap, hopMaps]
    exact loaded.hopMap g
  · have core : (t.endRec e).core = (v.endRec e).core := (congrArg EndRecord.core (ends e) :)
    rw [core, State.endRec, links.line, readyLine]
    exact loaded.core e
  · rw [State.post, posts, ← State.post, loaded.posts, ← startedRow_congr (loaded.outside.site ▸ site) hopMaps, startedRow_eq site]
  · rw [← link] at hup hroom hheld
    have same : t.link x = v.link x := by cases x; exacts [linkA, linkB]
    have segment : w.segment = s.segment := funext fun g => by rw [State.segment, readyStore, loaded.outside]; rfl
    have damaged : w.store.damaged = s.store.damaged := by rw [readyStore, loaded.outside]
    have state : endStateOf w = endStateOf t := funext fun e => by
      refine (endStateOf_congr e (by rw [posts, readyLine]) ?_).symm
      rw [ends e, State.endRec, links.line]
      rfl
    rw [same, told x r hup hroom hheld, link, segment, fillDamaged_congr damaged, state]

end Sys2Proof.Machine
end

