-- ==== Sys2Proof/Proofs/LoopCurrent.lean ====
section
/-! PROOF. The loop-current sense (O57) and an end's entry to TESTING, in closed form. -/

namespace Sys2Proof.Machine

/-! ## Two updates of one record -/

theorem modNth_modNth {α : Type} {n : Nat} (t : Vector α n) (i : Fin n) (f g : α → α) :
    modNth (modNth t i f) i g = modNth t i fun a => g (f a) := by
  simp [modNth, nth]

theorem modNth_congr {α : Type} {n : Nat} (t : Vector α n) (i : Fin n) {f g : α → α} (h : f (nth t i) = g (nth t i)) :
    modNth t i f = modNth t i g := by
  simp only [modNth, h]

theorem modEnd_modEnd (s : State) (e : EndId) (f g : EndRecord → EndRecord) :
    (s.modEnd e f).modEnd e g = s.modEnd e fun r => g (f r) := by
  simp [State.modEnd, State.onLine, modNth_modNth]

theorem modPort_congr {s : State} {e : EndId} {f g : Port → Port} (h : f (s.port e) = g (s.port e)) : s.modPort e f = s.modPort e g := by
  simp only [State.modPort, State.onLine, modNth_congr s.line.ports (endIdx e) (f := f) (g := g) h]

/-! ## The sense (R32) -/

theorem senseActive_iff (s : State) (e : EndId) : senseActive s e = true ↔ (s.endRec e).state = .serving := by
  by_cases hm : (s.endRec (otherEnd e)).measurement = .running <;> cases hs : (s.endRec e).state <;> simp [senseActive, portMode, hs, hm]

/-! ## Entry to TESTING (R57) -/

/-- The record of an end that goes TESTING. -/
def EndRecord.goneTesting (cause : EndCause) (r : EndRecord) : EndRecord :=
  { r with state := .testing, busyCount := 0, retryWait := none, retest := none, measurement := .waiting
           previous := some r.state, cause := some cause }

theorem goTesting_eq (e : EndId) (cause : EndCause) (s : State) :
    goTesting e cause s = reportEndState e (endBurst e (.aborted .endTesting) (s.modEnd e (EndRecord.goneTesting cause))) := by
  simp only [goTesting, abortEnd, clearTimers, changeEnd, reduceCtorEq, false_and, if_false, modEnd_modEnd]
  rfl

/-! ## Loss and return of the current (R33, R50) -/

theorem execLoopCurrentRestored_of_powered {s : State} (hp : s.powered = true) (e : EndId) :
    exec (.loopCurrentRestored e) s = .next (s.modPort e fun p =>
      { p with current := true, reading := if senseActive s e then .present else p.reading }) := by
  simp only [exec, execLoopCurrentRestored, hp, Bool.true_and]

/-- The reading turns to LOST where the sense is active, and that is seen where it read PRESENT. -/
theorem execLoopLossEvent_of_powered {s : State} (hp : s.powered = true) (e : EndId) :
    exec (.loopLossEvent e) s = .next
      (if senseActive s e = true ∧ (s.port e).reading = .present
        then finish (goTesting e .loopLoss (s.modPort e fun p => { p with current := false, reading := .lost }))
        else s.modPort e fun p => { p with current := false, reading := if senseActive s e then .lost else p.reading }) := by
  simp only [exec, execLoopLossEvent, hp, if_true, Bool.and_eq_true, decide_eq_true_eq]
  by_cases h : senseActive s e = true ∧ (s.port e).reading = .present
  · simp only [h, and_self, if_true]
  · simp only [h, if_false]

/-- Settles O57: the four clauses are the branches of the two commands. -/
theorem loopCurrentIsSensed : Obligations.loopCurrentIsSensed := by
  intro e s hp
  refine ⟨execLoopCurrentRestored_of_powered hp e, fun hoff => ?_, fun hon hlost => ?_, fun hon hpresent => ?_, senseActive_iff s e⟩
  · rw [execLoopLossEvent_of_powered hp]
    simp only [hoff, Bool.false_eq_true, false_and, if_false]
  · rw [execLoopLossEvent_of_powered hp, if_neg (by simp [hlost])]
    exact congrArg _ (modPort_congr (by simp [hon, hlost]))
  · refine ⟨_, (execLoopLossEvent_of_powered hp e).trans (by rw [if_pos ⟨hon, hpresent⟩]), ?_⟩
    rw [goTesting_eq]
    exact agree_finish _

end Sys2Proof.Machine
end

