-- ==== Sys2Proof/Proofs/NextTransaction.lean ====
section
/-! PROOF. The next transactions that the end of a step chooses (O56). Each end's choice rests on its own records and on the posts, and
touches its own records alone, so `finish` makes for each end the choice of the state before it. -/

namespace Sys2Proof.Machine

/-! ## The cyclic poll (R42) -/

/-- A chosen post is of lowest hop in the list. -/
def LowestIn (s : State) (l : List Slot) (i : Slot) : Prop := i ∈ l ∧ ∀ j ∈ l, (s.post i).hop ≤ (s.post j).hop

theorem lowestHop_spec (s : State) : ∀ l : List Slot, match lowestHop s l with
    | none => l = []
    | some i => LowestIn s l i
  | [] => rfl
  | i :: l => by
    have ih := lowestHop_spec s l
    unfold lowestHop
    cases h : lowestHop s l with
    | none =>
      simp only [h] at ih
      simp [LowestIn, ih]
    | some j =>
      simp only [h] at ih
      obtain ⟨hj, least⟩ := ih
      dsimp only
      by_cases hij : (s.post i).hop ≤ (s.post j).hop
      · rw [if_pos hij]
        refine ⟨List.mem_cons_self, fun k hk => ?_⟩
        rcases List.mem_cons.mp hk with rfl | hk
        · exact le_rfl
        · exact hij.trans (least k hk)
      · rw [if_neg hij]
        refine ⟨List.mem_cons_of_mem i hj, fun k hk => ?_⟩
        rcases List.mem_cons.mp hk with rfl | hk
        · exact (not_le.mp hij).le
        · exact least k hk

theorem lowestHop_eq_none {s : State} {l : List Slot} (h : lowestHop s l = none) : l = [] := by
  simpa [h] using lowestHop_spec s l

theorem lowestHop_eq_some {s : State} {l : List Slot} {i : Slot} (h : lowestHop s l = some i) : LowestIn s l i := by
  simpa [h] using lowestHop_spec s l

theorem mem_servedBy {s : State} {e : EndId} {i : Slot} : i ∈ servedBy s e ↔ (s.post i).reach = .served e := by
  simp only [servedBy, List.mem_filter, mem_allFin, true_and, decide_eq_true_eq]

/-- Post `i` is the next in the scan of the end: the lowest hop above the scan position, or the lowest hop (R42). -/
def NextInScan (s : State) (e : EndId) (i : Slot) : Prop :=
  (s.post i).reach = .served e ∧ ∀ j, (s.post j).reach = .served e →
    if (s.endRec e).scanPosition < (s.post i).hop
    then (s.endRec e).scanPosition < (s.post j).hop → (s.post i).hop ≤ (s.post j).hop
    else (s.post j).hop ≤ (s.endRec e).scanPosition ∧ (s.post i).hop ≤ (s.post j).hop

theorem cyclicPost_eq_none {s : State} {e : EndId} (h : ∀ i, (s.post i).reach ≠ .served e) : cyclicPost s e = none := by
  have empty : servedBy s e = [] := List.eq_nil_iff_forall_not_mem.mpr fun i hi => h i (mem_servedBy.mp hi)
  unfold cyclicPost
  rw [empty]
  rfl

theorem cyclicPost_of_served {s : State} {e : EndId} (h : ∃ i, (s.post i).reach = .served e) :
    ∃ i, cyclicPost s e = some i ∧ NextInScan s e i := by
  unfold cyclicPost
  split
  · next i hi =>
    obtain ⟨mem, least⟩ := lowestHop_eq_some hi
    simp only [List.mem_filter, mem_servedBy, decide_eq_true_eq] at mem least
    exact ⟨i, rfl, mem.1, fun j hj => by rw [if_pos mem.2]; exact fun above => least j ⟨hj, above⟩⟩
  · next none =>
    have below : ∀ j, (s.post j).reach = .served e → (s.post j).hop ≤ (s.endRec e).scanPosition := by
      simpa [List.filter_eq_nil_iff, mem_servedBy] using lowestHop_eq_none none
    cases hl : lowestHop s (servedBy s e) with
    | none =>
      obtain ⟨i, hi⟩ := h
      exact absurd (mem_servedBy.mpr hi) (by simp [lowestHop_eq_none hl])
    | some i =>
      obtain ⟨mem, least⟩ := lowestHop_eq_some hl
      rw [mem_servedBy] at mem
      exact ⟨i, rfl, mem, fun j hj => by
        rw [if_neg (not_lt.mpr (below i mem))]
        exact ⟨below j hj, least j (mem_servedBy.mpr hj)⟩⟩

/-! ## What the choice of an end reads and touches -/

/-- The records of an end's port that the choice of its next transaction touches. -/
structure PortView where
  port : Port
  burst : BurstRecord
  endRec : EndRecord
  counters : Counters

def portView (e : EndId) (s : State) : PortView := ⟨s.port e, s.burst e, s.endRec e, s.counters e⟩

theorem portView_sendPoll_ne {d e : EndId} (h : d ≠ e) (i : Slot) (s : State) : portView e (sendPoll d i s) = portView e s := by
  simp [portView, sendPoll, h]

theorem portView_pumpEnd_ne {d e : EndId} (h : d ≠ e) (s : State) : portView e (pumpEnd d s) = portView e s := by
  unfold pumpEnd nextTransaction
  split
  · split
    · simp [portView, sendTest, modRunning, h]
    · split
      · exact portView_sendPoll_ne h _ s
      · split
        · next i _ => exact .trans (by simp [portView, h]) (portView_sendPoll_ne h i s)
        · rfl
  · rfl

theorem pumpEnd_posts (d : EndId) (s : State) : (pumpEnd d s).line.posts = s.line.posts := (agree_pumpEnd d s).line.posts

theorem otherEnd_otherEnd (e : EndId) : otherEnd (otherEnd e) = e := by
  obtain ⟨seg, side⟩ := e
  cases side <;> rfl

/-- What stands of the other records in the choice of an end: the posts, the mode of its port, and whether the other end may measure. -/
structure SameFor (e : EndId) (s t : State) : Prop where
  posts : t.line.posts = s.line.posts
  mode : portMode t e = portMode s e
  measures : mayMeasure t (otherEnd e) = mayMeasure s (otherEnd e)

theorem SameFor.trans {e : EndId} {s t u : State} (h : SameFor e s t) (k : SameFor e t u) : SameFor e s u :=
  ⟨k.posts.trans h.posts, k.mode.trans h.mode, k.measures.trans h.measures⟩

theorem pumpEnd_endRec (d e : EndId) (s : State) :
    ((pumpEnd d s).endRec e).state = (s.endRec e).state ∧ ((pumpEnd d s).endRec e).measurement = (s.endRec e).measurement := by
  have same := (agree_pumpEnd d s).line.ends e
  exact ⟨(congrArg EndRecord.state same :), (congrArg EndRecord.measurement same :)⟩

theorem mayMeasure_of_serving {s : State} {e : EndId} (h : (s.endRec e).state = .serving) : mayMeasure s e = false := by
  simp [mayMeasure, h]

/-- Each choice leaves what that of end `e` reads of other records: an end that begins a transaction is SERVING and so does not measure, and
the end beyond it may not either. -/
theorem pumpEnd_sameFor (d e : EndId) (s : State) : SameFor e s (pumpEnd d s) := by
  have same := fun x => pumpEnd_endRec d x s
  refine ⟨pumpEnd_posts d s, by simp only [portMode, (same e).1, (same (otherEnd e)).2], ?_⟩
  by_cases hm : portMode s d = .scanning ∧ (s.port d).transaction = none ∧ mayMeasure s (otherEnd d) = false
  · obtain ⟨mode, idle, waits⟩ := hm
    have serving : (s.endRec d).state = .serving := by
      rw [← senseActive_iff]
      simp [senseActive, mode]
    by_cases hd : d = otherEnd e
    · subst hd
      rw [mayMeasure_of_serving serving, mayMeasure_of_serving ((same _).1.trans serving)]
    · have own := congrArg PortView.port (portView_pumpEnd_ne hd s)
      simp only [portView] at own
      by_cases he : d = e
      · subst he
        rw [waits]
        simp only [mayMeasure, otherEnd_otherEnd, idle, (same _).1, (same _).2, own] at waits ⊢
        simp_all
      · have other := congrArg PortView.port (portView_pumpEnd_ne he s)
        simp only [portView] at other
        simp only [mayMeasure, otherEnd_otherEnd, (same _).1, (same _).2, own, other]
  · rw [pumpEnd, if_neg hm]

/-- What the choice of an end gives its records. -/
theorem portView_pumpEnd {e : EndId} {s t : State} (h : SameFor e s t) (hv : portView e t = portView e s) :
    portView e (pumpEnd e t) = portView e (pumpEnd e s) := by
  obtain ⟨hport, hburst, hend, hcounters⟩ : t.port e = s.port e ∧ t.burst e = s.burst e ∧ t.endRec e = s.endRec e
    ∧ t.counters e = s.counters e := by simpa [portView] using hv
  have hpost : t.post = s.post := funext fun i => by simp [State.post, h.posts]
  have hserved : servedBy t e = servedBy s e := by simp only [servedBy, hpost]
  have hlowest : lowestHop t = lowestHop s := funext fun l => by
    induction l with
    | nil => rfl
    | cons i l ih => simp only [lowestHop, ih, hpost]
  have hdue : testDue t e = testDue s e := by simp only [testDue, hburst]
  have heligible : oldestEligible t e = oldestEligible s e := by simp only [oldestEligible, hend, servedFrom, hpost]
  have hcyclic : cyclicPost t e = cyclicPost s e := by
    unfold cyclicPost
    rw [hlowest, hserved, hend, hpost]
  have holdest : ∀ i, oldestOf t e i = oldestOf s e i := fun i => by simp only [oldestOf, hend]
  unfold pumpEnd nextTransaction
  simp only [h.mode, h.measures, hport, hdue, heligible, hcyclic]
  split
  · split
    · simp [portView, sendTest, modRunning, hburst, hport, hend, hcounters, hpost]
    · split
      · simp [portView, sendPoll, hburst, hport, hend, hcounters, hpost, holdest]
      · split
        · simp [portView, sendPoll, hburst, hport, hend, hcounters, hpost, holdest]
        · exact hv
  · exact hv

theorem portView_noteFirst (e : EndId) (g : SegId) (s : State) : portView e (noteFirst g s) = portView e s := by
  have h (b : Bool) (d : Option Side) :
      portView e (if b then s else s.onLine fun l => { l with first := modNth l.first g fun _ => d }) = portView e s := by cases b <;> rfl
  exact h _ _

/-- The end of a step makes for each end the choice that the state before it gives. -/
theorem portView_finish (e : EndId) (s : State) : portView e (finish s) = portView e (pumpEnd e s) := by
  refine (forEach_unchanged (portView e) (portView_noteFirst e) _ _).trans ?_
  exact forEach_once (I := SameFor e s) (v := portView e) (fun d t ht => ht.trans (pumpEnd_sameFor d e t))
    (fun t ht hv => portView_pumpEnd ht hv) (fun d t hd => portView_pumpEnd_ne hd.symm t) allEnds s allEnds_nodup (mem_allEnds e)
    ⟨rfl, rfl, rfl⟩ rfl

/-! ## The choice, case by case (R41) -/

theorem pumpEnd_of_idle {s : State} {e : EndId} (ht : (s.port e).transaction = none) (hm : portMode s e = .scanning)
    (hw : mayMeasure s (otherEnd e) = false) : pumpEnd e s = nextTransaction e s := if_pos ⟨hm, ht, hw⟩

theorem portView_finish_of_idle {s : State} {e : EndId} (ht : (s.port e).transaction = none) (hm : portMode s e = .scanning)
    (hw : mayMeasure s (otherEnd e) = false) : portView e (finish s) = portView e (nextTransaction e s) := by
  rw [portView_finish, pumpEnd_of_idle ht hm hw]

theorem testDue_eq_some {s : State} {e : EndId} {b : Burst} (hb : s.burst e = .running b) (hl : b.last = .poll) : testDue s e = some b := by
  simp only [testDue, hb, if_pos hl]

theorem testDue_eq_none {s : State} {e : EndId} (h : ∀ b, s.burst e = .running b → b.last ≠ .poll) : testDue s e = none := by
  unfold testDue
  split
  · next b hb => exact if_neg (h b hb)
  · rfl
  · rfl

theorem portView_sendTest {s : State} {e : EndId} {b : Burst} (hb : s.burst e = .running b) : portView e (sendTest e b s) =
    ⟨{ s.port e with transaction := some (.test b.target (s.post b.target).hop (b.frameNumber + 1) b.pattern true) },
      .running { b with frameNumber := b.frameNumber + 1, sent := satInc b.sent }, s.endRec e, s.counters e⟩ := by
  simp [portView, sendTest, modRunning, hb]

theorem portView_sendPoll (e : EndId) (i : Slot) (s : State) : portView e (sendPoll e i s) =
    ⟨{ s.port e with transaction := some (.poll i (s.post i).hop ((oldestOf s e i).map fun y => (y.command, y.age))) }, s.burst e,
      s.endRec e, { s.counters e with pollsSent := satInc (s.counters e).pollsSent }⟩ := by
  simp [portView, sendPoll]

/-- An entry that a poll may carry now: its post is served by the end and not NO REPLY. -/
theorem oldestEligible_eq_some {s : State} {e : EndId} {before after : List CommandEntry} {c : CommandEntry}
    (hl : (s.endRec e).commands = before ++ c :: after)
    (hb : ∀ d ∈ before, (s.post d.slot).reach ≠ .served e ∨ (s.post d.slot).reply = .noReply)
    (hs : (s.post c.slot).reach = .served e) (hr : (s.post c.slot).reply ≠ .noReply) : oldestEligible s e = some c := by
  rw [oldestEligible, hl, List.find?_append, List.find?_eq_none.mpr, Option.none_or, List.find?_cons_of_pos]
  · simp [servedFrom, hs, hr]
  · intro d hd
    rcases hb d hd with h | h <;> simp [servedFrom, h]

theorem oldestEligible_eq_none {s : State} {e : EndId}
    (h : ∀ d ∈ (s.endRec e).commands, (s.post d.slot).reach ≠ .served e ∨ (s.post d.slot).reply = .noReply) : oldestEligible s e = none := by
  refine List.find?_eq_none.mpr fun d hd => ?_
  rcases h d hd with h | h <;> simp [servedFrom, h]

/-- Settles O56: the choice of the end is that of the state before it (`portView_finish`), and the cases are those of R41. -/
theorem nextTransactionChosen : Obligations.nextTransactionChosen := by
  intro s e
  refine ⟨fun h => ?_, fun ht hm hw => ⟨fun b hb hl => ?_, fun hnot => ?_⟩⟩
  · have keeps : portView e (finish s) = portView e s := by
      rw [portView_finish, pumpEnd, if_neg]
      rintro ⟨mode, idle, waits⟩
      rcases h with h | h | h
      · exact h idle
      · exact h mode
      · simp [waits] at h
    simpa [portView] using keeps
  · have chosen := portView_finish_of_idle ht hm hw
    simp only [nextTransaction, testDue_eq_some hb hl, portView_sendTest hb] at chosen
    simp only [portView, PortView.mk.injEq] at chosen
    obtain ⟨port, burst, endRec, counters⟩ := chosen
    exact ⟨by rw [port], burst, endRec, counters⟩
  · have chosen := portView_finish_of_idle ht hm hw
    simp only [nextTransaction, testDue_eq_none hnot] at chosen
    refine ⟨?_, fun before c after hl hb hs hr => ?_, fun hnone => ⟨fun hunserved => ?_, fun hserved => ?_⟩⟩
    · refine (congrArg PortView.burst chosen).trans ?_
      dsimp only [portView]
      split
      · rfl
      · split <;> rfl
    · simp only [oldestEligible_eq_some hl hb hs hr, portView_sendPoll] at chosen
      simp only [portView, PortView.mk.injEq] at chosen
      obtain ⟨port, burst, endRec, counters⟩ := chosen
      exact ⟨by rw [port], endRec, counters⟩
    · simp only [oldestEligible_eq_none hnone, cyclicPost_eq_none hunserved, portView, PortView.mk.injEq] at chosen
      exact ⟨chosen.1, chosen.2.2.1⟩
    · obtain ⟨i, hi, hreach, hnext⟩ := cyclicPost_of_served hserved
      have sent : portView e ((sendPoll e i s).modEnd e fun r => { r with scanPosition := (s.post i).hop }) =
          { portView e (sendPoll e i s) with endRec := { s.endRec e with scanPosition := (s.post i).hop } } := by
        simp [portView, sendPoll]
      simp only [oldestEligible_eq_none hnone, hi, sent, portView_sendPoll] at chosen
      simp only [portView, PortView.mk.injEq] at chosen
      obtain ⟨port, burst, endRec, counters⟩ := chosen
      exact ⟨i, hreach, by rw [port], endRec, counters, hnext⟩

end Sys2Proof.Machine
end

