-- ==== Sys2Proof/Proofs/PollEndings.lean ====
section
/-! PROOF. How a scan poll ends, as an equation for each outcome, and the failures of a post that is still there (O51). -/

namespace Sys2Proof.Machine

/-! ## The state in which an outcome is handled (R35, R36, R134, R139) -/

/-- The transaction is over, the outcome is counted, and a running burst's last transaction is POLL. -/
def pollClosed (e : EndId) (o : PollOutcome) (s : State) : State := (lastWasPoll e (endTransaction e s)).modCounters e (countOutcome o)

section
variable (e : EndId) (o : PollOutcome) (s : State)

@[simp] theorem pollClosed_store : (pollClosed e o s).store = s.store := rfl
@[simp] theorem pollClosed_now : (pollClosed e o s).now = s.now := rfl
@[simp] theorem pollClosed_calls : (pollClosed e o s).calls = s.calls := rfl
@[simp] theorem pollClosed_groups : (pollClosed e o s).groups = s.groups := rfl
@[simp] theorem pollClosed_arbiter : (pollClosed e o s).arbiter = s.arbiter := rfl
@[simp] theorem pollClosed_stamps : (pollClosed e o s).line.stampCounter = s.line.stampCounter := rfl
@[simp] theorem pollClosed_posts : (pollClosed e o s).line.posts = s.line.posts := rfl
@[simp] theorem pollClosed_post (i : Slot) : (pollClosed e o s).post i = s.post i := rfl
@[simp] theorem pollClosed_endRec (d : EndId) : (pollClosed e o s).endRec d = s.endRec d := rfl
@[simp] theorem pollClosed_entry (i : Slot) : (pollClosed e o s).entry i = s.entry i := rfl
@[simp] theorem pollClosed_link (x : LinkId) : (pollClosed e o s).link x = s.link x := by cases x <;> rfl
@[simp] theorem pollClosed_nameBlock (i : Slot) : nameBlock (pollClosed e o s) i = nameBlock s i := rfl
end

theorem execPollWindowExpiry_of_poll {e : EndId} {s : State} {i : Slot} {hop : Nat} {carried : Option (Command × Nat)}
    (hp : s.powered = true) (ht : (s.port e).transaction = some (.poll i hop carried)) :
    exec (.pollWindowExpiry e) s = .next (pollEnds e i hop carried .silent s) := by
  simp only [exec, execPollWindowExpiry, hp, ht]

theorem execPollReply_of_poll {e : EndId} {s : State} {i : Slot} {hop : Nat} {carried : Option (Command × Nat)}
    (hp : s.powered = true) (ht : (s.port e).transaction = some (.poll i hop carried)) (os : List Byte) :
    exec (.pollReply e os) s = .next (pollEnds e i hop carried (pollOutcome carried os) s) := by
  simp only [exec, execPollReply, hp, ht]

theorem pollOutcome_of_none {carried : Option (Command × Nat)} {os : List Byte} (h : pollReplyOf carried.isSome os = none) :
    pollOutcome carried os = .corrupt := by simp only [pollOutcome, h]

theorem pollOutcome_of_some {carried : Option (Command × Nat)} {os : List Byte} {r : Reply} (h : pollReplyOf carried.isSome os = some r) :
    pollOutcome carried os = .good r := by simp only [pollOutcome, h]

theorem stillThere_iff {s : State} {e : EndId} {i : Slot} {hop : Nat} :
    stillThere s e i hop = true ↔ (s.post i).reach = .served e ∧ (s.post i).hop = hop := by
  simp [stillThere, servedFrom]

section
variable {e : EndId} {i : Slot} {hop : Nat} {s : State}

theorem pollEnds_good (hr : (s.post i).reach = .served e) (hh : (s.post i).hop = hop) (carried : Option (Command × Nat)) (r : Reply) :
    pollEnds e i hop carried (.good r) s = finish (goodPoll e i carried r (pollClosed e (.good r) s)) :=
  congrArg finish (if_pos (stillThere_iff.mpr ⟨hr, hh⟩))

theorem pollEnds_failed (hr : (s.post i).reach = .served e) (hh : (s.post i).hop = hop) (carried : Option (Command × Nat)) {o : PollOutcome}
    (ho : o = .corrupt ∨ o = .silent) : pollEnds e i hop carried o s = finish (failedPoll e i (pollClosed e o s)) := by
  rcases ho with rfl | rfl <;> exact congrArg finish (if_pos (stillThere_iff.mpr ⟨hr, hh⟩))

theorem pollEnds_moved (h : (s.post i).reach ≠ .served e ∨ (s.post i).hop ≠ hop) (carried : Option (Command × Nat)) (o : PollOutcome) :
    pollEnds e i hop carried o s = finish (movedPoll e i o (pollClosed e o s)) := by
  refine congrArg finish (if_neg fun there => ?_)
  obtain ⟨hr, hh⟩ := stillThere_iff.mp there
  rcases h with h | h
  · exact h hr
  · exact h hh

/-- A good reply of a post that is still there, to a poll. -/
theorem execPollReply_good {carried : Option (Command × Nat)} {os : List Byte} {r : Reply} (hp : s.powered = true)
    (ht : (s.port e).transaction = some (.poll i hop carried)) (hr : (s.post i).reach = .served e) (hh : (s.post i).hop = hop)
    (ho : pollReplyOf carried.isSome os = some r) :
    exec (.pollReply e os) s = .next (finish (goodPoll e i carried r (pollClosed e (.good r) s))) := by
  rw [execPollReply_of_poll hp ht, pollOutcome_of_some ho, pollEnds_good hr hh]

end

/-! ## Reports to both links, and the name block in them -/

theorem reportBoth_link (r : Report) (s : State) (y : LinkId) : (reportBoth r s).link y = enqueue r (s.link y) := by
  cases y <;> simp [reportBoth, report_link]

/-- A name block reads of the post table the reach, the hop and the identity flag of its post. -/
theorem nameBlock_congr {s t : State} {i : Slot} (hs : t.store = s.store) (hr : (t.post i).reach = (s.post i).reach)
    (hh : (t.post i).hop = (s.post i).hop) (hu : (t.post i).unverified = (s.post i).unverified) : nameBlock t i = nameBlock s i := by
  have entry : t.entry i = s.entry i := by rw [State.entry, hs]; rfl
  have segment : t.segment = s.segment := funext fun g => by rw [State.segment, hs]; rfl
  simp only [nameBlock, entry, segment, hr, hh, hu]

theorem highestHop_congr {s t : State} (h : ∀ i, (t.post i).hop = (s.post i).hop) (l : List Slot) : highestHop t l = highestHop s l := by
  induction l with
  | nil => rfl
  | cons i l ih => simp only [highestHop, ih, h]

theorem farthest_congr {s t : State} (hr : ∀ i, (t.post i).reach = (s.post i).reach) (hh : ∀ i, (t.post i).hop = (s.post i).hop) (e : EndId) :
    farthest t e = farthest s e := by
  simp only [farthest, servedBy, hr, highestHop_congr hh]

/-! ## A failure (R43) -/

/-- The failure count after a failure, for the threshold `m`. -/
def failedCount (m n : Nat) : Nat := if n < m then n + 1 else n

/-- The row of a post after a failure. -/
def PostRow.failed (m : Nat) (r : PostRow) : PostRow :=
  { r with failures := failedCount m r.failures
           reply := if failedCount m r.failures = m then .noReply else r.reply
           silenceReported := r.silenceReported || decide (failedCount m r.failures = m ∧ r.reply ≠ .noReply) }

theorem modPost_congr {s : State} {i : Slot} {f g : PostRow → PostRow} (h : f (s.post i) = g (s.post i)) : s.modPost i f = s.modPost i g := by
  simp only [State.modPost, State.onLine, modNth_congr s.line.posts i (f := f) (g := g) h]

theorem modPost_modPost (s : State) (i : Slot) (f g : PostRow → PostRow) : (s.modPost i f).modPost i g = s.modPost i fun r => g (f r) := by
  simp [State.modPost, State.onLine, modNth_modNth]

section
variable (i : Slot) (s : State)

/-- The state with the failure in the row of its post. -/
def failedRow : State := s.modPost i (PostRow.failed s.store.site.global.threshold)

theorem failedRow_steady : ((failedRow i s).post i).reach = (s.post i).reach ∧ ((failedRow i s).post i).hop = (s.post i).hop
    ∧ ((failedRow i s).post i).unverified = (s.post i).unverified := by
  simp [failedRow, PostRow.failed]

theorem failedRow_nameBlock : nameBlock (failedRow i s) i = nameBlock s i := by
  obtain ⟨reach, hop, unverified⟩ := failedRow_steady i s
  exact nameBlock_congr rfl reach hop unverified

theorem failedRow_farthest (e : EndId) : farthest (failedRow i s) e = farthest s e := by
  obtain ⟨reach, hop, -⟩ := failedRow_steady i s
  refine farthest_congr (fun j => ?_) (fun j => ?_) e
  · by_cases h : i = j
    · exact h ▸ reach
    · simp [failedRow, h]
  · by_cases h : i = j
    · exact h ▸ hop
    · simp [failedRow, h]

/-- A failure changes the row of its post, and tells both links where the post turns NO REPLY and that has not been told (R43). -/
theorem postFails_eq : postFails i s =
    if failedCount s.store.site.global.threshold (s.post i).failures = s.store.site.global.threshold ∧ (s.post i).reply ≠ .noReply
        ∧ (s.post i).silenceReported = false
    then reportBoth (.alarmSilent (nameBlock s i) (failedCount s.store.site.global.threshold (s.post i).failures)) (failedRow i s)
    else failedRow i s := by
  generalize hm : s.store.site.global.threshold = m
  generalize hn : failedCount m (s.post i).failures = n
  have name := failedRow_nameBlock i s
  have spelled : postFails i s =
      if n = m ∧ (s.post i).reply ≠ .noReply then
        let u := s.modPost i fun r => { r with failures := failedCount m r.failures, reply := .noReply, silenceReported := true }
        if (s.post i).silenceReported then u else reportBoth (.alarmSilent (nameBlock u i) n) u
      else s.modPost i fun r => { r with failures := failedCount m r.failures } := by
    subst hm hn
    simp only [postFails, modPost_post_same, modPost_modPost]
    rfl
  rw [spelled]
  by_cases h : n = m ∧ (s.post i).reply ≠ .noReply
  · have same : (s.modPost i fun r => { r with failures := failedCount m r.failures, reply := .noReply, silenceReported := true }) =
        failedRow i s := modPost_congr (by simp [PostRow.failed, hm, hn, h])
    rw [if_pos h, same]
    cases ht : (s.post i).silenceReported <;> simp [h, name]
  · have same : (s.modPost i fun r => { r with failures := failedCount m r.failures }) = failedRow i s := modPost_congr (by
      simp only [PostRow.failed, PostRow.mk.injEq, and_true, true_and, hm, hn, h, decide_false, Bool.or_false]
      split
      · next same => exact not_not.mp fun k => h ⟨same, k⟩
      · rfl)
    rw [if_neg h, same, if_neg fun k => h ⟨k.1, k.2.1⟩]

end

/-! ## The suspect end (R49, R57) -/

/-- Calls, groups and channels stay. -/
structure CallsKept (s t : State) : Prop where
  calls : t.calls = s.calls
  groups : t.groups = s.groups
  arbiter : t.arbiter = s.arbiter

theorem CallsKept.trans {s t u : State} (h : CallsKept s t) (k : CallsKept t u) : CallsKept s u :=
  ⟨k.calls.trans h.calls, k.groups.trans h.groups, k.arbiter.trans h.arbiter⟩

theorem CallsKept.report (x : LinkId) (r : Report) (s : State) : CallsKept s (report x r s) :=
  ⟨by simp [Machine.report], by simp [Machine.report], by simp [Machine.report]⟩

theorem CallsKept.reportBoth (r : Report) (s : State) : CallsKept s (reportBoth r s) := (report .a r s).trans (report .b r _)

theorem CallsKept.setIdle (p : Activity → Bool) (i : Slot) (s : State) : CallsKept s (setIdle p i s) := by
  unfold Machine.setIdle
  split <;> exact ⟨rfl, rfl, rfl⟩

theorem CallsKept.endBurst (e : EndId) (x : BurstEnding) (s : State) : CallsKept s (endBurst e x s) := by
  unfold Machine.endBurst
  split
  · refine .trans ?_ (.report _ _ _)
    refine .trans ?_ (.setIdle _ _ _)
    exact ⟨rfl, rfl, rfl⟩
  · exact ⟨rfl, rfl, rfl⟩
  · exact ⟨rfl, rfl, rfl⟩

theorem CallsKept.finish (s : State) : CallsKept s (finish s) :=
  ⟨(agree_finish s).outsideKept.calls, (agree_finish s).outsideKept.groups, (agree_finish s).outsideKept.arbiter⟩

theorem CallsKept.postFails (i : Slot) (s : State) : CallsKept s (postFails i s) := by
  rw [postFails_eq]
  split
  · exact .trans (t := failedRow i s) ⟨rfl, rfl, rfl⟩ (.reportBoth _ _)
  · exact ⟨rfl, rfl, rfl⟩

/-- The conditions of R49, for the count after the failure. -/
def Suspect (s : State) (e : EndId) (i : Slot) (n : Nat) : Prop :=
  (s.endRec e).state = .serving ∧ farthest s e = some i ∧ n = s.store.site.global.threshold ∧ (s.endRec e).suppressed ≠ some i

theorem postFails_line (i : Slot) (s : State) : (postFails i s).line = (failedRow i s).line := by
  rw [postFails_eq]
  split
  · rw [reportBoth_line]
  · rfl

theorem postFails_store (i : Slot) (s : State) : (postFails i s).store = s.store := by
  rw [postFails_eq]
  split
  · exact (Soft.reportBoth (ev := false) (on := true) _ _).frame.store
  · rfl

theorem postFails_now (i : Slot) (s : State) : (postFails i s).now = s.now := by
  rw [postFails_eq]
  split
  · exact (Soft.reportBoth (ev := false) (on := true) _ _).frame.now
  · rfl

theorem postFails_post (i : Slot) (s : State) : (postFails i s).post i = PostRow.failed s.store.site.global.threshold (s.post i) := by
  rw [State.post, postFails_line]
  exact modPost_post_same s i _

theorem postFails_post_ne {i j : Slot} (h : j ≠ i) (s : State) : (postFails i s).post j = s.post j := by
  rw [State.post, postFails_line]
  exact modPost_post_ne s _ h.symm

theorem postFails_endRec (i : Slot) (s : State) (e : EndId) : (postFails i s).endRec e = s.endRec e := by
  rw [State.endRec, postFails_line]
  rfl

theorem postFails_link (i : Slot) (s : State) (y : LinkId) : (postFails i s).link y =
    if failedCount s.store.site.global.threshold (s.post i).failures = s.store.site.global.threshold ∧ (s.post i).reply ≠ .noReply
        ∧ (s.post i).silenceReported = false
    then enqueue (.alarmSilent (nameBlock s i) (failedCount s.store.site.global.threshold (s.post i).failures)) (s.link y)
    else s.link y := by
  rw [postFails_eq]
  split
  · exact reportBoth_link _ _ y
  · rfl

theorem postFails_farthest (i : Slot) (s : State) (e : EndId) : farthest (postFails i s) e = farthest s e := by
  rw [← failedRow_farthest i s e]
  have posts : (postFails i s).post = (failedRow i s).post := funext fun j => by rw [State.post, postFails_line]; rfl
  exact farthest_congr (fun j => by rw [posts]) (fun j => by rw [posts]) e

theorem suspect_postFails {s : State} {e : EndId} {i : Slot} :
    (((postFails i s).endRec e).state = .serving ∧ farthest (postFails i s) e = some i
        ∧ ((postFails i s).post i).failures = (postFails i s).store.site.global.threshold ∧ ((postFails i s).endRec e).suppressed ≠ some i)
      ↔ Suspect s e i (failedCount s.store.site.global.threshold (s.post i).failures) := by
  rw [postFails_endRec, postFails_farthest, postFails_post, postFails_store]
  rfl

theorem failedPoll_of_suspect {s : State} {e : EndId} {i : Slot}
    (h : Suspect s e i (failedCount s.store.site.global.threshold (s.post i).failures)) :
    failedPoll e i s = goTesting e .suspectFailure (postFails i s) := if_pos (suspect_postFails.mpr h)

theorem failedPoll_of_not_suspect {s : State} {e : EndId} {i : Slot}
    (h : ¬ Suspect s e i (failedCount s.store.site.global.threshold (s.post i).failures)) : failedPoll e i s = postFails i s :=
  if_neg fun k => h (suspect_postFails.mp k)

/-- The way of an end to TESTING, after its record has changed (R57). -/
theorem goTesting_soft {ev on : Bool} (e : EndId) (c : EndCause) (s : State) :
    Soft ev on (s.modEnd e (EndRecord.goneTesting c)) (goTesting e c s) := by
  rw [goTesting_eq]
  exact .andThen (.reportEndState e _) (.endBurst e _ _)

theorem goTesting_calm (e : EndId) (c : EndCause) (s : State) : Calm (s.modEnd e (EndRecord.goneTesting c)) (goTesting e c s) := by
  rw [goTesting_eq]
  exact .andThen (.reportEndState e _) (.endBurst e _ _)

theorem goTesting_callsKept (e : EndId) (c : EndCause) (s : State) : CallsKept s (goTesting e c s) := by
  rw [goTesting_eq]
  have record : CallsKept s (s.modEnd e (EndRecord.goneTesting c)) := ⟨rfl, rfl, rfl⟩
  exact (record.trans (.endBurst e _ _)).trans (.reportBoth _ _)

theorem goTesting_burstRuns (e : EndId) (c : EndCause) (s : State) : burstRuns (goTesting e c s) e = false := by
  rw [goTesting_eq]
  exact BurstsOnlyEnd.reportBoth _ _ e (BurstsOnlyEnd.endBurst_burstRuns e _ _)

/-- What a failed poll leaves, whether the end goes TESTING or not: of the rows all but activity and stamp, of the ends' records all but
those of a suspect end, and of each link what the failure itself reports comes first. -/
structure FailedPoll (u t : State) : Prop where
  rows : ∀ j, (t.post j).steady = (u.post j).steady
  told : ∀ y, OnlyReports (u.link y).queue (t.link y).queue
  store : t.store = u.store
  now : t.now = u.now
  kept : CallsKept u t

theorem failedPoll_spec (e : EndId) (i : Slot) (s : State) : FailedPoll (postFails i s) (finish (failedPoll e i s)) := by
  have finished := Soft.finish (ev := false) (on := true) (failedPoll e i s)
  by_cases h : Suspect s e i (failedCount s.store.site.global.threshold (s.post i).failures)
  · rw [failedPoll_of_suspect h] at *
    have soft := ((goTesting_soft e .suspectFailure (postFails i s)).trans finished).frame
    exact ⟨((goTesting_calm e .suspectFailure _).trans (.finish _)).rows, fun y => (soft.told y).1, soft.store, soft.now,
      (goTesting_callsKept e _ _).trans (.finish _)⟩
  · rw [failedPoll_of_not_suspect h] at *
    exact ⟨(Calm.finish _).rows, fun y => (finished.frame.told y).1, finished.frame.store, finished.frame.now, .finish _⟩

theorem execFailed {e : EndId} {s : State} {i : Slot} {hop : Nat} {carried : Option (Command × Nat)} {c : Instr} (hp : s.powered = true)
    (ht : (s.port e).transaction = some (.poll i hop carried)) (hr : (s.post i).reach = .served e) (hh : (s.post i).hop = hop)
    (hc : c = .pollWindowExpiry e ∨ ∃ os, c = .pollReply e os ∧ pollReplyOf carried.isSome os = none) :
    ∃ o, exec c s = .next (finish (failedPoll e i (pollClosed e o s))) := by
  rcases hc with rfl | ⟨os, rfl, ho⟩
  · exact ⟨.silent, by rw [execPollWindowExpiry_of_poll hp ht, pollEnds_failed hr hh carried (.inr rfl)]⟩
  · exact ⟨.corrupt, by rw [execPollReply_of_poll hp ht, pollOutcome_of_none ho, pollEnds_failed hr hh carried (.inl rfl)]⟩

/-- Settles O51: the row of the post by `postFails`, and the end by the test of R49 after it. -/
theorem failedPollsCountAndSuspect : Obligations.failedPollsCountAndSuspect := by
  intro e s i hop carried c hp ht hr hh hc m n suspect
  obtain ⟨o, hexec⟩ := execFailed hp ht hr hh hc
  refine ⟨_, hexec, ?_⟩
  have closedPost := fun j => pollClosed_post e o s j
  have closedLink := fun y => pollClosed_link e o s y
  have closedEnd := fun d => pollClosed_endRec e o s d
  have closedStore := pollClosed_store e o s
  have hsuspect : Suspect (pollClosed e o s) e i n ↔ suspect := by
    rw [Suspect, closedEnd, farthest_congr (s := s) (fun j => by rw [closedPost]) (fun j => by rw [closedPost]), closedStore]
  have kept : CallsKept s (pollClosed e o s) := ⟨rfl, rfl, rfl⟩
  have closedName := pollClosed_nameBlock e o s i
  have closedNow := pollClosed_now e o s
  generalize pollClosed e o s = u at *
  have spec := failedPoll_spec e i u
  have hm : u.store.site.global.threshold = m := by rw [closedStore]
  have hn : failedCount u.store.site.global.threshold (u.post i).failures = n := by rw [hm, closedPost]; rfl
  have row := spec.rows i
  rw [postFails_post, hm] at row
  simp only [PostRow.steady, PostRow.failed, PostRow.mk.injEq, closedPost] at row
  obtain ⟨-, -, hreply, hfailures, hsilence, -⟩ := row
  refine ⟨hfailures, hreply, hsilence, fun hs => ?_, fun hs => ⟨?_, fun hnot => ?_⟩, fun y hnm hreply hold hup hroom => ?_, fun j hj => ?_,
    ?_, ?_, ?_, ?_, ?_⟩
  · rw [← hsuspect, ← hn] at hs
    rw [failedPoll_of_suspect hs]
    have core := ((goTesting_soft (ev := false) (on := true) e .suspectFailure (postFails i u)).trans (.finish _)).frame.core e
    refine ⟨?_, BurstsOnlyEnd.of_agree (agree_finish _) e (goTesting_burstRuns e _ _)⟩
    rw [core, modEnd_endRec_same, postFails_endRec, closedEnd]
    have serving : (s.endRec e).state = .serving := by rw [← closedEnd]; exact hs.1
    simp [EndRecord.goneTesting, EndRecord.core, serving]
  · rw [← hsuspect, ← hn] at hs
    rw [failedPoll_of_not_suspect hs, (Soft.finish (ev := false) (on := true) _).frame.core e, postFails_endRec, closedEnd]
  · rw [← hsuspect, ← hn] at hs
    rw [failedPoll_of_not_suspect hs]
    have link : ∀ y, (finish (postFails i u)).link y = s.link y := fun y => by
      have same : (finish (postFails i u)).link y = (postFails i u).link y := by
        obtain ⟨-, a, b⟩ := (agree_finish (postFails i u)).outside
        cases y; exacts [a, b]
      rw [same, postFails_link, if_neg, closedLink]
      rintro ⟨h1, h2, -⟩
      rw [hn, hm] at h1
      rw [closedPost] at h2
      rcases hnot with h | h
      · exact h h1
      · exact h2 h
    exact ⟨link .a, link .b⟩
  · have told := spec.told y
    have cond : failedCount u.store.site.global.threshold (u.post i).failures = u.store.site.global.threshold ∧ (u.post i).reply ≠ .noReply
        ∧ (u.post i).silenceReported = false := by
      rw [hn, hm, closedPost]
      exact ⟨hnm, hreply, hold⟩
    rw [postFails_link, if_pos cond, hn, closedLink, closedName, enqueue_of_room _ hup hroom] at told
    exact told
  · have row := spec.rows j
    rw [postFails_post_ne hj, closedPost] at row
    exact row
  · exact spec.store.trans ((postFails_store i u).trans closedStore)
  · exact ((kept.trans (.postFails i u)).trans spec.kept).calls
  · exact ((kept.trans (.postFails i u)).trans spec.kept).groups
  · exact ((kept.trans (.postFails i u)).trans spec.kept).arbiter
  · exact spec.now.trans ((postFails_now i u).trans closedNow)

end Sys2Proof.Machine
end

