-- ==== Sys2Proof/Proofs/Moves.lean ====
section
/-! PROOF. The operations that the handling of a reply starts, as chains of moves that say exactly which update each of them makes: what a
chain leaves of ports, counters, bursts, rows, command lists, call records and members is then read off the moves (Effects.lean).
Laws/Soft.lean has the same operations with wider updates, for what every step keeps. -/

namespace Sys2Proof.Machine

/-- What a move may make of a live call. With neither mark, calls that need an end alone are changed, and of those no more than their line,
and a PARKED one to CONNECTING. -/
structure CallMoves (homes new : Bool) (k k' : LiveCall) : Prop where
  slot : k'.slot = k.slot
  grant : homes = false → new = false → needsItsEnd k.state = true ∧ k'.stamp = k.stamp ∧ k'.timer = k.timer ∧ k'.parties = k.parties
    ∧ (k.state = .connecting → k'.state = .connecting)

/-- What a chain without new calls places for a post: a command of the announcement, or one of the post's live call for its line. -/
def PlacedFor (s : State) (i : Slot) (c : Command) : Prop :=
  c.family = .announcement ∨ c.family = .voice ∧ ∃ (j : CallIdx) (k : LiveCall), s.liveCall j = some k ∧ k.slot = i

/-- The moves and their chains. With the first mark posts may take another home, with all that follows for calls and members; with the second
new calls may begin and be offered. -/
inductive Moves (homes new : Bool) : State → State → Prop
  | refl (s : State) : Moves homes new s s
  | trans {s t u : State} : Moves homes new s t → Moves homes new t u → Moves homes new s u
  | link (s : State) (x : LinkId) (f : LinkRecord → LinkRecord) : Moves homes new s (s.modLink x f)
  | ordered (before s : State) : Moves homes new s (orderReports before s)
  | chan (s : State) (e : EndId) (f : ChannelEnd → ChannelEnd) : Moves homes new s (s.modChan e f)
  | place (s : State) (i : Slot) (c : Command) (h : new = false → PlacedFor s i c) : Moves homes new s (placeCommand i c s)
  | ended (s : State) (e : EndId) (b : Burst) (x : BurstEnding) (h : s.burst e = .running b) :
      Moves homes new s (s.modBurst e fun _ => .ended b x)
  | uncounted (s : State) (e : EndId) : Moves homes new s (s.modPort e fun p => { p with transaction := p.transaction.map uncount })
  | idle (s : State) (p : Activity → Bool) (i : Slot) (h : homes = false → new = false → p .calling = false) :
      Moves homes new s (setIdle p i s)
  | group (s : State) (g : GroupId) (f : GroupRun → GroupRun) (h : ∀ r, (f r).active = r.active ∧ (f r).members = r.members) :
      Moves homes new s (s.modGroup g f)
  | member (s : State) (g : GroupId) (i : Slot) (f : Member → Member) (hf : ∀ m, (f m).slot = m.slot)
      (h : homes = false → (s.group g).active = true → takingPart s g i = true ∨ ∀ m, unsettled (f m).outcome = false) :
      Moves homes new s (modMember g i f s)
  | call (s : State) (i : CallIdx) (f : LiveCall → LiveCall) (h : ∀ k, s.liveCall i = some k → CallMoves homes new k (f k)) :
      Moves homes new s (s.modCall i f)
  | home (s : State) (i : Slot) (r : PostReach) (h : homes = true) : Moves homes new s (setReach i r s)
  | carry (s : State) (i : Slot) (e : EndId) (h : homes = true) : Moves homes new s (moveCommands i e s)
  | unsuppress (s : State) (e : EndId) : Moves homes new s (s.modEnd e fun r => { r with suppressed := none })
  | calling (s : State) (i : Slot) (p : Option Stamp) (h : new = true) : Moves homes new s (setActivity i .calling p s)
  | makeLive (s : State) (i : CallIdx) (k : LiveCall) (h : new = true) (free : s.liveCall i = none) : Moves homes new s (makeLive i k s)
  | overflow (s : State) (l : List OverflowEntry) (h : new = true) : Moves homes new s (s.setOverflow l)

namespace Moves

variable {homes new : Bool} {s t u : State}

/-- A chain after another, read as the operations are nested. -/
theorem andThen (k : Moves homes new t u) (h : Moves homes new s t) : Moves homes new s u := h.trans k

theorem of_ite {c : Prop} [Decidable c] (ht : c → Moves homes new s t) (hu : Moves homes new s u) :
    Moves homes new s (if c then t else u) := by
  split
  · next h => exact ht h
  · exact hu

theorem forEach {α : Type} {f : α → State → State} (h : ∀ a s, Moves homes new s (f a s)) :
    ∀ (l : List α) (s : State), Moves homes new s (Machine.forEach l f s)
  | [], s => .refl s
  | a :: l, s => (h a s).trans (forEach h l (f a s))

/-- A loop whose passes are moves while a fact holds of the state that each pass keeps. -/
theorem forEach_of {α : Type} {I : State → Prop} {f : α → State → State} (l : List α) (keeps : ∀ a s, I s → I (f a s))
    (h : ∀ a ∈ l, ∀ s, I s → Moves homes new s (f a s)) (s : State) (hi : I s) : Moves homes new s (Machine.forEach l f s) := by
  induction l generalizing s with
  | nil => exact .refl s
  | cons a l ih => exact (h a List.mem_cons_self s hi).trans (ih (fun b hb => h b (List.mem_cons_of_mem a hb)) (f a s) (keeps a s hi))

/-! ## Reports and trunk slots -/

theorem report (x : LinkId) (r : Report) (s : State) : Moves homes new s (Machine.report x r s) := .link s x _
theorem reportInTurn (x : LinkId) (r : Report) (s : State) : Moves homes new s (Machine.reportInTurn x r s) := .link s x _
theorem reportBoth (r : Report) (s : State) : Moves homes new s (Machine.reportBoth r s) := (report .a r s).trans (report .b r _)

theorem reportBothInTurn (r : Report) (s : State) : Moves homes new s (Machine.reportBothInTurn r s) :=
  (reportInTurn .a r s).trans (reportInTurn .b r _)

theorem reportCall (i : CallIdx) (v : CallEvent) (n : CallReason) (b : Bool) (l : List LinkId) (s : State) :
    Moves homes new s (Machine.reportCall i v n b l s) := by
  unfold Machine.reportCall
  split
  · exact forEach (fun x t => report x _ t) l s
  · exact .refl s

theorem reportParties (i : CallIdx) (v : CallEvent) (n : CallReason) (s : State) : Moves homes new s (Machine.reportParties i v n s) :=
  reportCall i v n false _ s

theorem freeParties (ref : CallRef) (l : List Party) (s : State) : Moves homes new s (Machine.freeParties ref l s) :=
  forEach (fun p t => .link t p.link _) l s

/-! ## Activity and bursts -/

theorem idleFromAnnouncement (i : Slot) (s : State) : Moves homes new s (Machine.idleFromAnnouncement i s) := .idle s _ i fun _ _ => rfl
theorem idleFromBurst (i : Slot) (s : State) : Moves homes new s (Machine.idleFromBurst i s) := .idle s _ i fun _ _ => rfl

theorem endBurst (e : EndId) (x : BurstEnding) (s : State) : Moves homes new s (Machine.endBurst e x s) := by
  unfold Machine.endBurst
  split
  · next b hb => exact andThen (report _ _ _) (andThen (idleFromBurst _ _) (andThen (.uncounted _ e) (.ended s e b x hb)))
  · exact .refl s
  · exact .refl s

theorem abortTarget (i : Slot) (r : AbortReason) (s : State) : Moves homes new s (Machine.abortTarget i r s) :=
  forEach (fun e t => by
    split
    · exact .of_ite (fun _ => endBurst e _ t) (.refl t)
    · exact .refl t
    · exact .refl t) _ s

/-! ## Grants -/

theorem announcement (i : Slot) (c : Command) (h : c.family = .announcement) (s : State) : Moves homes new s (placeCommand i c s) :=
  .place s i c fun _ => .inl h

/-- A call takes a channel; with neither mark it is one that may have a line (R100). -/
theorem callTakesChannel (i : CallIdx) (e : EndId) (c : Chan) (s : State) (h : homes = false → new = false → OnLine s i) :
    Moves homes new s (Machine.callTakesChannel i e c s) := by
  unfold Machine.callTakesChannel
  split
  · next k hk =>
    dsimp only
    have taken : Moves homes new s (s.modCall i fun k' => { k' with
        channel := some (e, c), request := none, state := if k.state == .parked then .connecting else k'.state,
        resuming := k.state == .parked || k'.resuming }) := by
      refine .call s i _ fun k' hk' => ⟨rfl, fun h1 h2 => ⟨h h1 h2 k' hk', rfl, rfl, rfl, fun hc => ?_⟩⟩
      simp [hc]
    generalize hv : s.modCall i _ = v at taken ⊢
    have live : ∃ k', v.liveCall i = some k' ∧ k'.slot = k.slot := by simp [← hv, hk]
    refine andThen ?_ taken
    have told : ∀ w : State, w.liveCall i = v.liveCall i → Moves homes new w (Machine.placeCommand k.slot (.connect c) w) := fun w hw => by
      obtain ⟨k', hk', slot⟩ := live
      exact .place w _ _ fun _ => .inr ⟨rfl, i, k', hw.trans hk', slot⟩
    split
    · refine andThen (told _ ?_) (reportParties _ _ _ v)
      unfold Machine.reportParties Machine.reportCall
      split
      · exact forEach_unchanged (fun w => w.liveCall i) (fun x w => by simp [Machine.report]) _ v
      · rfl
    · exact told v rfl
  · exact .refl s

theorem setOutcome (g : GroupId) (i : Slot) (o : MemberOutcome) (b : Bool) (s : State)
    (h : homes = false → (s.group g).active = true → takingPart s g i = true ∨ unsettled o = false) :
    Moves homes new s (Machine.modMember g i (fun m => { m with outcome := o, leaving := b }) s) := by
  refine .member s g i _ (fun _ => rfl) fun h1 h2 => (h h1 h2).imp id fun ho _ => ho

theorem startLate (g : GroupId) (s : State) : Moves homes new s (Machine.startLate g s) :=
  .group s g _ fun r => by split <;> exact ⟨rfl, rfl⟩

end Moves

theorem freeRecord?_free {s : State} {i : CallIdx} (h : s.freeRecord? = some i) : s.liveCall i = none := by
  simpa using List.find?_some h

/-! ## What placing a command touches -/

theorem placeCommand_eq (i : Slot) (c : Command) (s : State) :
    ∃ ends placings, placeCommand i c s = s.onLine fun l => { l with ends := ends, placings := placings } := by
  unfold placeCommand
  split
  · exact ⟨s.line.ends, s.line.placings, rfl⟩
  · dsimp only
    split
    · exact ⟨_, _, rfl⟩
    · exact ⟨_, _, rfl⟩

theorem placeCommand_group (i : Slot) (c : Command) (s : State) (g : GroupId) : (placeCommand i c s).group g = s.group g := by
  obtain ⟨ends, placings, h⟩ := placeCommand_eq i c s
  rw [h]
  rfl

theorem startLate_group (g h : GroupId) (s : State) :
    ((startLate g s).group h).active = (s.group h).active ∧ ((startLate g s).group h).members = (s.group h).members := by
  by_cases hg : g = h
  · subst hg
    unfold startLate
    rw [modGroup_group_same]
    split <;> exact ⟨rfl, rfl⟩
  · simp [startLate, hg]

theorem takingPart_congr {s t : State} {g : GroupId} (ha : (t.group g).active = (s.group g).active)
    (hm : (t.group g).members = (s.group g).members) (i : Slot) : takingPart t g i = takingPart s g i := by
  simp only [takingPart, ha, hm]

theorem takingPart_iff {s : State} {g : GroupId} {i : Slot} :
    takingPart s g i = true ↔ (s.group g).active = true ∧ ∃ m ∈ (s.group g).members, m.slot = i ∧ unsettled m.outcome = true := by
  simp [takingPart]

@[simp] theorem modMember_group_ne {g h : GroupId} (hg : g ≠ h) (i : Slot) (f : Member → Member) (s : State) :
    (modMember g i f s).group h = s.group h := modGroup_group_ne s _ hg

theorem modMember_group_same (g : GroupId) (i : Slot) (f : Member → Member) (s : State) :
    (modMember g i f s).group g = { s.group g with members := (s.group g).members.map fun m => if m.slot = i then f m else m } :=
  modGroup_group_same s g _

/-- A member that takes an unsettled outcome, and every other, takes part as before. -/
theorem takingPart_modMember {s : State} {g : GroupId} {i j : Slot} {f : Member → Member} (hf : ∀ m, (f m).slot = m.slot)
    (hu : ∀ m, unsettled (f m).outcome = true) (h : takingPart s g j = true) : takingPart (modMember g i f s) g j = true := by
  obtain ⟨ha, m, hm, hj, hu'⟩ := takingPart_iff.mp h
  rw [takingPart_iff, modMember_group_same]
  refine ⟨ha, if m.slot = i then f m else m, List.mem_map_of_mem hm, ?_⟩
  split
  · exact ⟨(hf m).trans hj, hu m⟩
  · exact ⟨hj, hu'⟩

theorem commandMember_takingPart {s : State} {g : GroupId} {j : Slot} (c : Chan) (i : Slot) (h : takingPart s g j = true) :
    takingPart (commandMember g c i s) g j = true := by
  unfold commandMember
  dsimp only
  rw [takingPart_congr (startLate_group g g _).1 (startLate_group g g _).2]
  refine takingPart_modMember (fun _ => rfl) (fun _ => rfl) ?_
  exact (takingPart_congr (congrArg _ (placeCommand_group i _ s g)) (congrArg _ (placeCommand_group i _ s g)) j).trans h

theorem commandMember_active (g : GroupId) (c : Chan) (i : Slot) (s : State) : ((commandMember g c i s).group g).active = (s.group g).active := by
  unfold commandMember
  dsimp only
  rw [(startLate_group g g _).1, modMember_group_same, placeCommand_group]

theorem takingPart_of_awaiting {s : State} {g : GroupId} {e : EndId} {i : Slot} (h : i ∈ awaitingOn s g e) (ha : (s.group g).active = true) :
    takingPart s g i = true := by
  simp only [awaitingOn, List.mem_map, List.mem_filter, Bool.and_eq_true, decide_eq_true_eq] at h
  obtain ⟨m, ⟨hm, ho, -⟩, rfl⟩ := h
  exact takingPart_iff.mpr ⟨ha, m, hm, rfl, by rw [ho]; rfl⟩

namespace Moves

variable {homes new : Bool} {s t u : State}

theorem commandMember (g : GroupId) (c : Chan) (i : Slot) (s : State)
    (h : homes = false → (s.group g).active = true → takingPart s g i = true) : Moves homes new s (Machine.commandMember g c i s) := by
  unfold Machine.commandMember
  dsimp only
  refine andThen (startLate g _) (andThen (setOutcome g i _ _ _ fun h1 h2 => .inl ?_) (announcement i _ rfl s))
  have group := placeCommand_group i (.announce c) s g
  rw [group] at h2
  exact (takingPart_congr (congrArg _ group) (congrArg _ group) i).trans (h h1 h2)

/-- The AWAITING members of an end are commanded (R119). -/
theorem commandAwaiting (g : GroupId) (e : EndId) (c : Chan) (s : State) :
    Moves homes new s (Machine.forEach (awaitingOn s g e) (Machine.commandMember g c) s) := by
  refine forEach_of (I := fun t => ∀ j ∈ awaitingOn s g e, (t.group g).active = true → takingPart t g j = true) _
    (fun i t ht j hj ha => commandMember_takingPart c i (ht j hj (by rwa [commandMember_active] at ha)))
    (fun i hi t ht => commandMember g c i t fun _ => ht i hi) s fun j hj ha => takingPart_of_awaiting hj ha

theorem groupTakesChannel (g : GroupId) (e : EndId) (c : Chan) (s : State) : Moves homes new s (Machine.groupTakesChannel g e c s) :=
  andThen (commandAwaiting g e c _) (.group s g _ fun _ => ⟨rfl, rfl⟩)

theorem handOver (e : EndId) (c : Chan) : ∀ (l : List Waiter) (s : State), Moves homes new s (Machine.handOver e c l s)
  | [], s => andThen (.chan _ e _) (.chan s e _)
  | .call _ ref slot _ :: l, s => by
    unfold Machine.handOver
    refine .of_ite (fun h => ?_) (handOver e c l s)
    refine andThen (callTakesChannel _ _ _ _ fun _ _ => ?_) (andThen (.chan _ e _) (.chan s e _))
    exact Soft.onLine_of_callWants (s := s) h
  | .announce g _ :: l, s => by
    unfold Machine.handOver
    refine .of_ite (fun _ => andThen (groupTakesChannel _ _ _ _) (andThen (.chan _ e _) (.chan s e _))) ?_
    exact andThen (handOver e c l _) (.group s g _ fun _ => ⟨rfl, rfl⟩)

theorem release (e : EndId) (c : Chan) (h : Holder) (s : State) : Moves homes new s (Machine.release e c h s) :=
  .of_ite (fun _ => handOver e c _ s) (.refl s)

/-! ## Members of announcements -/

theorem reportMember (g : GroupId) (p : Option CallRef) (i : Slot) (s : State) : Moves homes new s (Machine.reportMember g p i s) := by
  unfold Machine.reportMember
  dsimp only
  split
  · exact .of_ite (fun _ => reportBothInTurn _ s) (.refl s)
  · exact .refl s

theorem changeMember (g : GroupId) (i : Slot) (o : MemberOutcome) (p : Option CallRef) (s : State)
    (h : homes = false → (s.group g).active = true → takingPart s g i = true ∨ unsettled o = false) :
    Moves homes new s (Machine.changeMember g i o p s) := andThen (reportMember g p i _) (setOutcome g i o _ s h)

theorem testReady (g : GroupId) (s : State) : Moves homes new s (Machine.testReady g s) :=
  .of_ite (fun _ => andThen (reportBoth _ _) (.group s g _ fun _ => ⟨rfl, rfl⟩)) (.refl s)

theorem settle (before s : State) : Moves homes new s (Machine.settle before s) := andThen (forEach testReady _ _) (.ordered before s)

theorem dropHeld (g : GroupId) (e : EndId) (s : State) : Moves homes new s (Machine.dropHeld g e s) := .group s g _ fun _ => ⟨rfl, rfl⟩

theorem releaseIfDone (g : GroupId) (e : EndId) (s : State) : Moves homes new s (Machine.releaseIfDone g e s) := by
  unfold Machine.releaseIfDone
  split
  · exact .of_ite (fun _ => andThen (release _ _ _ _) (dropHeld g e s)) (.refl s)
  · exact .refl s

theorem releases (g : GroupId) (s : State) : Moves homes new s (Machine.releases g s) := forEach (releaseIfDone g) _ s

theorem memberLeftForCall {tell : Telling} (ht : ∀ b s, Moves homes new s (tell b s)) (i : Slot) (s : State) :
    Moves homes new s (Machine.memberLeftForCall tell i s) := by
  refine andThen (forEach releases _ _) (andThen (ht s _) (forEach (fun g t => ?_) _ s))
  exact andThen (changeMember g i _ _ _ fun _ _ => .inr rfl) (announcement i _ rfl t)

theorem dropMember (g : GroupId) (o : MemberOutcome) (p : Option CallRef) (i : Slot) (ho : unsettled o = false) (s : State) :
    Moves homes new s (Machine.dropMember g o p i s) :=
  andThen (changeMember g i o p _ fun _ _ => .inr ho)
    (.trans (announcement i _ rfl s) (.of_ite (fun _ => idleFromAnnouncement i _) (.refl _)))

theorem groupPreempted (g : GroupId) (e : EndId) (ref : CallRef) (s : State) : Moves homes new s (Machine.groupPreempted g e ref s) :=
  andThen (releases g _) (andThen (forEach (fun i t => dropMember g _ _ i rfl t) _ _) (dropHeld g e s))

/-! ## Posts that take another home -/

theorem joinWaiting (g : GroupId) (e : EndId) (s : State) : Moves homes new s (Machine.joinWaiting g e s) :=
  .group s g _ fun r => by split <;> exact ⟨rfl, rfl⟩

theorem requestForGroup (g : GroupId) (e : EndId) (s : State) : Moves true new s (Machine.requestForGroup g e s) := by
  unfold Machine.requestForGroup
  refine .of_ite (fun _ => ?_) (.refl s)
  split
  · exact forEach (fun i t => changeMember (homes := true) g i _ _ t nofun) _ s
  · split
    · exact commandAwaiting g e _ s
    · refine .of_ite (fun _ => joinWaiting g e s) ?_
      split
      · exact andThen (groupTakesChannel _ _ _ _) (.chan s e _)
      · exact andThen (joinWaiting g e _) (.chan s e _)

theorem quitChannel (g : GroupId) (i : Slot) (s : State) : Moves homes new s (Machine.quitChannel g i s) :=
  .trans (.of_ite (fun _ => announcement i _ rfl s) (.refl s)) (.of_ite (fun _ => idleFromAnnouncement i _) (.refl _))

theorem moveMember (i : Slot) (e : EndId) (g : GroupId) (s : State) : Moves true new s (Machine.moveMember i e g s) := by
  unfold Machine.moveMember
  split
  · exact (commandMember (homes := true) g _ i s nofun).trans (.of_ite (fun _ => idleFromAnnouncement i _) (.refl _))
  · refine .of_ite (fun _ => ?_) ?_
    · exact (quitChannel g i s).trans (changeMember (homes := true) g i _ _ _ nofun)
    · exact ((quitChannel g i s).trans (changeMember (homes := true) g i _ _ _ nofun)).trans (.of_ite (fun _ => .refl _) (requestForGroup g e _))

theorem memberMoved (i : Slot) (s : State) : Moves true new s (Machine.memberMoved i s) := by
  unfold Machine.memberMoved
  split
  · exact forEach (fun g t => .of_ite (fun _ => (moveMember i _ g t).trans (releases g _)) (.refl t)) _ s
  · exact .refl s

theorem callAs (i : CallIdx) (f : LiveCall → LiveCall) (s : State) (h : ∀ k, (f k).slot = k.slot) : Moves true new s (s.modCall i f) :=
  .call s i f fun k _ => ⟨h k, nofun⟩

theorem callLosesChannel (ref : CallRef) (r : CallReason) (s : State) : Moves true new s (Machine.callLosesChannel ref r s) := by
  unfold Machine.callLosesChannel
  split
  · refine .of_ite (fun _ => andThen (reportParties _ _ _ _) ?_) ?_
    · exact callAs _ _ s fun _ => rfl
    · exact callAs _ _ s fun _ => rfl
  · exact .refl s

theorem callLosesEntry (ref : CallRef) (s : State) : Moves true new s (Machine.callLosesEntry ref s) := by
  unfold Machine.callLosesEntry
  split
  · exact callAs _ _ s fun _ => rfl
  · exact .refl s

theorem postLeft (i : Slot) (e : EndId) (r : CallReason) (s : State) : Moves true new s (Machine.postLeft i e r s) := by
  have entry (t : State) : Moves true new t (match entryOfPost i (t.chan e).waiting with
      | some ref => Machine.callLosesEntry ref (Machine.withdrawCall e ref t)
      | none => t) := by
    split
    · exact andThen (callLosesEntry _ _) (.chan t e _)
    · exact .refl _
  refine andThen (entry _) ?_
  split
  · exact (release _ _ _ s).trans (callLosesChannel _ _ _)
  · exact .refl s

theorem callWaits (i : CallIdx) (e : EndId) (kd : RequestKind) (s : State) : Moves true new s (Machine.callWaits i e kd s) :=
  callAs i _ s fun _ => rfl

theorem preempt (i : CallIdx) (slot : Slot) (e : EndId) (c : Chan) (g : GroupId) (s : State) :
    Moves true new s (Machine.preempt i slot e c g s) := by
  unfold Machine.preempt
  dsimp only
  exact andThen (callTakesChannel (homes := true) _ _ _ _ nofun) (andThen (groupPreempted _ _ _ _) (andThen (.chan _ e _) (.chan s e _)))

theorem grantOrWait (i : CallIdx) (k : LiveCall) (kd : RequestKind) (e : EndId) (s : State) :
    Moves true new s (Machine.grantOrWait i k kd e s) := by
  unfold Machine.grantOrWait
  dsimp only
  split
  · exact andThen (callTakesChannel (homes := true) _ _ _ _ nofun) (.chan s e _)
  · split
    · exact preempt _ _ _ _ _ s
    · exact andThen (callWaits _ _ _ _) (.chan s e _)

theorem requestForCall (i : CallIdx) (kd : RequestKind) (e : EndId) (s : State) : Moves true new s (Machine.requestForCall i kd e s) := by
  unfold Machine.requestForCall
  split
  · exact .refl s
  · refine .of_ite (fun _ => .refl s) ?_
    split
    · exact callTakesChannel (homes := true) _ _ _ s nofun
    · refine .of_ite (fun _ => callWaits _ _ _ s) ?_
      exact andThen (grantOrWait _ _ _ _ _) (forEach (fun x t => .of_ite (fun _ => postLeft _ x _ t) (.refl t)) _ s)

theorem requestOnServing (i : CallIdx) (kd : RequestKind) (s : State) : Moves true new s (Machine.requestOnServing i kd s) := by
  unfold Machine.requestOnServing
  split
  · split
    · exact requestForCall _ _ _ s
    · exact .refl s
  · exact .refl s

theorem callPostMoved (i : Slot) (s : State) : Moves true new s (Machine.callPostMoved i s) := by
  unfold Machine.callPostMoved
  split
  · split
    · exact .of_ite (fun _ => requestOnServing _ _ s) (.of_ite (fun _ => requestOnServing _ _ s) (.refl s))
    · exact .refl s
  · exact .refl s

/-- A post goes from one end to the other (R70). -/
theorem rehomed (i : Slot) (e f : EndId) (s : State) : Moves true new s (reachEffects i (.served e) (.served f) s) := by
  unfold reachEffects
  dsimp only
  exact andThen (memberMoved i _) (andThen (callPostMoved i _) (andThen (postLeft i e _ _) (andThen (abortTarget i _ _) (.carry s i f rfl))))

theorem fixSegment (g : SegId) (s : State) : Moves homes new s (Machine.fixSegment g s) :=
  forEach (fun e t => by
    unfold fixSuppressed
    split
    · exact .of_ite (fun _ => .refl t) (.unsuppress t e)
    · exact .refl t) _ s

theorem heldPostReleased (i : Slot) (s : State) : Moves true new s (Machine.heldPostReleased i s) := by
  unfold Machine.heldPostReleased
  split
  · exact .of_ite (fun _ => andThen (fixSegment _ _) (andThen (rehomed i _ _ _) (.home s i _ rfl))) (.refl s)
  · exact .refl s
  · exact .refl s

theorem leftItsEnd (st : CallState) (i : Slot) (s : State) : Moves true new s (Machine.leftItsEnd st i s) :=
  .of_ite (fun _ => heldPostReleased i s) (.refl s)

/-! ## What a freed record gives up -/

theorem giveUpLine (ref : CallRef) (k : LiveCall) (s : State) : Moves homes new s (Machine.giveUpLine ref k s) := by
  have withdrawn (t : State) : Moves homes new t (match k.request with
      | some (e, _) => Machine.withdrawCall e ref t
      | none => t) := by
    split
    · exact .chan t _ _
    · exact .refl t
  refine andThen (withdrawn _) ?_
  split
  · exact release _ _ _ s
  · exact .refl s

theorem giveUp (ref : CallRef) (k : LiveCall) (s : State) : Moves homes new s (Machine.giveUp ref k s) :=
  andThen (freeParties _ _ _) (giveUpLine ref k s)

/-! ## New calls and offers -/

theorem callNew (i : CallIdx) (f : LiveCall → LiveCall) (s : State) (h : ∀ k, (f k).slot = k.slot) : Moves homes true s (s.modCall i f) :=
  .call s i f fun k _ => ⟨h k, nofun⟩

theorem joinOffered_slot (s : State) (x : LinkId) (k : LiveCall) : (joinOffered s x k).slot = k.slot := by
  unfold joinOffered
  split <;> rfl

theorem offerTo {place : Placing} (hp : ∀ x r s, Moves homes true s (place x r s)) (i : CallIdx) (x : LinkId) (s : State) :
    Moves homes true s (Machine.offerTo place i x s) := by
  have sent (t : State) : Moves homes true t (sendOffer place i x t) := by
    unfold sendOffer
    split
    · exact hp _ _ _
    · exact .refl t
  unfold Machine.offerTo
  split
  · exact .of_ite (fun _ => andThen (sent _) (callNew i _ s (joinOffered_slot s x))) (.refl s)
  · exact .refl s

theorem offerBy {place : Placing} (hp : ∀ x r s, Moves homes true s (place x r s)) (i : CallIdx) (s : State) :
    Moves homes true s (Machine.offerBy place i s) := by
  unfold Machine.offerBy
  split
  · exact andThen (offerTo hp _ _ _) (offerTo hp _ _ s)
  · exact .refl s

theorem offer (i : CallIdx) (s : State) : Moves homes true s (Machine.offer i s) := offerBy report i s
theorem offerInTurn (i : CallIdx) (s : State) : Moves homes true s (Machine.offerInTurn i s) := offerBy reportInTurn i s

theorem beginCalling {tell : Telling} (ht : ∀ b s, Moves homes true s (tell b s)) (i : Slot) (p : Stamp) (s : State) :
    Moves homes true s (Machine.beginCalling tell i p s) :=
  andThen (memberLeftForCall ht i _) (andThen (.place _ i _ nofun) (.calling s i _ rfl))

theorem newCall {tell : Telling} (ht : ∀ b s, Moves homes true s (tell b s)) (i : CallIdx) (slot : Slot) (b : Button) (p : Stamp) (s : State)
    (free : s.liveCall i = none) : Moves homes true s (Machine.newCall tell i slot b p s) :=
  andThen (beginCalling ht slot p _) (.makeLive s i _ rfl free)

theorem joinOverflow {tell : Telling} (ht : ∀ b s, Moves homes true s (tell b s)) (slot : Slot) (b : Button) (p : Stamp) (s : State) :
    Moves homes true s (Machine.joinOverflow tell slot b p s) := andThen (beginCalling ht slot p _) (.overflow s _ rfl)

theorem later (before s : State) : Moves homes new s (Machine.later before s) := .refl s

theorem takeDeferred (slot : Slot) (b : Button) (p : Stamp) (s : State) : Moves homes true s (Machine.takeDeferred slot b p s) := by
  unfold Machine.takeDeferred
  split
  · next hi => exact andThen (offerInTurn _ _) (newCall later _ slot b p s (freeRecord?_free hi))
  · exact joinOverflow later slot b p s

theorem takeFromOverflow (i : CallIdx) (o : OverflowEntry) (s : State) (free : s.liveCall i = none) :
    Moves homes true s (Machine.takeFromOverflow i o s) :=
  andThen (offerInTurn _ _) (andThen (memberLeftForCall later _ _) (.makeLive s i _ rfl free))

theorem giveToOverflow (i : CallIdx) (s : State) : Moves homes true s (Machine.giveToOverflow i s) := by
  unfold Machine.giveToOverflow
  split
  · next free _ => exact andThen (takeFromOverflow i _ _ free) (.overflow s _ rfl)
  · exact .refl s

end Moves

end Sys2Proof.Machine
end

