-- ==== Sys2Proof/Proofs/Effects.lean ====
section
/-! PROOF. What a chain of moves (Moves.lean) leaves as it was: ports, counters, bursts and the sensed part of the rows; with the marks
cleared also the rest of the rows, the waiting commands, the calls that have no line and the posts that take no part in announcements. -/

namespace Sys2Proof.Machine

/-! ## Ports, counters, bursts, hook and button -/

/-- No counter is moved, an idle port stays idle, a burst stays as it is or ends, and hook and button of a post stay. -/
structure Undisturbed (s t : State) : Prop where
  counters : ∀ e, t.counters e = s.counters e
  idle : ∀ e, (s.port e).transaction = none → (t.port e).transaction = none
  bursts : ∀ e, t.burst e = s.burst e ∨ ∃ b x, s.burst e = .running b ∧ t.burst e = .ended b x
  sensed : ∀ i, (t.post i).hook = (s.post i).hook ∧ (t.post i).button = (s.post i).button

namespace Undisturbed

variable {s t u : State}

/-- A change of the line block that touches none of the four tables. -/
theorem of_tables (hc : t.line.counters = s.line.counters) (hp : t.line.ports = s.line.ports) (hb : t.line.bursts = s.line.bursts)
    (hr : t.line.posts = s.line.posts) : Undisturbed s t :=
  ⟨fun e => by rw [State.counters, hc]; rfl, fun e h => by rw [State.port, hp]; exact h, fun e => .inl (by rw [State.burst, hb]; rfl),
    fun i => by rw [State.post, hr]; exact ⟨rfl, rfl⟩⟩

theorem of_line (h : t.line = s.line) : Undisturbed s t := .of_tables (by rw [h]) (by rw [h]) (by rw [h]) (by rw [h])

theorem refl (s : State) : Undisturbed s s := of_line rfl

theorem trans (h : Undisturbed s t) (k : Undisturbed t u) : Undisturbed s u := by
  refine ⟨fun e => (k.counters e).trans (h.counters e), fun e he => k.idle e (h.idle e he), fun e => ?_,
    fun i => ⟨(k.sensed i).1.trans (h.sensed i).1, (k.sensed i).2.trans (h.sensed i).2⟩⟩
  rcases k.bursts e with same | ⟨b, x, runs, ends⟩
  · exact same ▸ h.bursts e
  · rcases h.bursts e with same | ⟨c, y, -, ended⟩
    · exact .inr ⟨b, x, same ▸ runs, ends⟩
    · exact nomatch ended.symm.trans runs

/-- A change of a row that is not sensed. -/
theorem modPost (s : State) (i : Slot) (f : PostRow → PostRow) (h : ∀ r, (f r).hook = r.hook ∧ (f r).button = r.button) :
    Undisturbed s (s.modPost i f) := by
  refine ⟨fun _ => rfl, fun _ => id, fun _ => .inl rfl, fun j => ?_⟩
  by_cases hj : i = j
  · subst hj; simp [h]
  · simp [hj]

end Undisturbed

theorem setIdle_undisturbed (p : Activity → Bool) (i : Slot) (s : State) : Undisturbed s (setIdle p i s) := by
  unfold setIdle
  split
  · exact .modPost s i _ fun _ => ⟨rfl, rfl⟩
  · exact .refl s

/-- The tables of the line block that placing and carrying commands leave. -/
theorem placeCommand_undisturbed (i : Slot) (c : Command) (s : State) : Undisturbed s (placeCommand i c s) := by
  obtain ⟨ends, placings, h⟩ := placeCommand_eq i c s
  rw [h]
  exact .of_tables rfl rfl rfl rfl

theorem forEach_modEnd {α : Type} (l : List α) (e : α → EndId) (f : α → EndRecord → EndRecord) (s : State) :
    ∃ ends, forEach l (fun a s => s.modEnd (e a) (f a)) s = s.onLine fun v => { v with ends := ends } := by
  induction l generalizing s with
  | nil => exact ⟨s.line.ends, rfl⟩
  | cons a l ih =>
    obtain ⟨ends, h⟩ := ih (s.modEnd (e a) (f a))
    exact ⟨ends, h.trans rfl⟩

theorem moveCommands_eq (i : Slot) (e : EndId) (s : State) :
    ∃ ends, moveCommands i e s = s.onLine fun v => { v with ends := ends } := by
  obtain ⟨ends, h⟩ := forEach_modEnd allEnds id (fun _ r => { r with commands := r.commands.filter fun c => decide (c.slot ≠ i) }) s
  have dropped : dropCommands i s = s.onLine fun v => { v with ends := ends } := h
  unfold moveCommands
  rw [dropped]
  exact ⟨_, rfl⟩

theorem moveCommands_undisturbed (i : Slot) (e : EndId) (s : State) : Undisturbed s (moveCommands i e s) := by
  obtain ⟨ends, h⟩ := moveCommands_eq i e s
  rw [h]
  exact .of_tables rfl rfl rfl rfl

theorem Moves.undisturbed {homes new : Bool} {s t : State} (h : Moves homes new s t) : Undisturbed s t := by
  induction h with
  | refl s => exact .refl s
  | trans _ _ a b => exact a.trans b
  | link s x f => exact .of_line (by simp)
  | place s i c _ => exact placeCommand_undisturbed i c s
  | ended s e b x hb =>
    refine ⟨fun _ => rfl, fun _ => id, fun d => ?_, fun _ => ⟨rfl, rfl⟩⟩
    by_cases hd : e = d
    · subst hd
      exact .inr ⟨b, x, hb, by simp⟩
    · exact .inl (by simp [hd])
  | uncounted s e =>
    refine ⟨fun _ => rfl, fun d hd => ?_, fun _ => .inl rfl, fun _ => ⟨rfl, rfl⟩⟩
    by_cases he : e = d
    · subst he
      simp [hd]
    · simpa [he] using hd
  | idle s p i _ => exact setIdle_undisturbed p i s
  | home s i r _ => exact .modPost s i _ fun _ => ⟨rfl, rfl⟩
  | carry s i e _ => exact moveCommands_undisturbed i e s
  | calling s i p _ => exact .modPost s i _ fun _ => ⟨rfl, rfl⟩
  | _ => exact .of_tables rfl rfl rfl rfl

/-! ## Rows, where no post takes another home -/

theorem setIdle_steady (p : Activity → Bool) (i : Slot) (s : State) (j : Slot) : ((setIdle p i s).post j).steady = (s.post j).steady :=
  (Calm.setIdle p i s).rows j

theorem Moves.rows {new : Bool} {s t : State} (h : Moves false new s t) (i : Slot) : (t.post i).steady = (s.post i).steady := by
  induction h with
  | refl => rfl
  | trans _ _ a b => exact b.trans a
  | link s x f => simp [State.post]
  | place s j c _ => exact (Calm.placeCommand j c s).rows i
  | idle s p j _ => exact setIdle_steady p j s i
  | home s j r h => exact nomatch h
  | carry s j e h => exact nomatch h
  | calling s j p _ => exact (Calm.setActivity j .calling p s).rows i
  | _ => rfl

/-- A post keeps its place, its reply status and the mark of its identity. -/
theorem Moves.row {new : Bool} {s t : State} (h : Moves false new s t) (i : Slot) : (t.post i).reach = (s.post i).reach
    ∧ (t.post i).hop = (s.post i).hop ∧ (t.post i).reply = (s.post i).reply ∧ (t.post i).unverified = (s.post i).unverified := by
  have steady := h.rows i
  simp only [PostRow.steady, PostRow.mk.injEq] at steady
  obtain ⟨reach, hop, reply, -, -, unverified, -⟩ := steady
  exact ⟨reach, hop, reply, unverified⟩

theorem Moves.nameBlock {new : Bool} {s t : State} (h : Moves false new s t) (store : t.store = s.store) (i : Slot) :
    Machine.nameBlock t i = Machine.nameBlock s i := by
  obtain ⟨reach, hop, -, unverified⟩ := h.row i
  exact nameBlock_congr store reach hop unverified

/-! ## Call records -/

theorem Moves.generation {homes new : Bool} {s t : State} (h : Moves homes new s t) (i : CallIdx) :
    (t.record i).generation = (s.record i).generation := by
  induction h with
  | refl => rfl
  | trans _ _ a b => exact b.trans a
  | link s x f => simp
  | place s j c _ => rw [State.record, (placeCommand_eq j c s).choose_spec.choose_spec]; rfl
  | idle s p j _ => rw [State.record, (CallsKept.setIdle p j s).calls]; rfl
  | call s j f _ =>
    by_cases hj : j = i
    · subst hj; simp [State.modCall]
    · simp [hj]
  | makeLive s j k _ _ =>
    by_cases hj : j = i
    · subst hj; simp [Machine.makeLive]
    · simp [Machine.makeLive, hj]
  | carry s j e _ => rw [State.record, (moveCommands_eq j e s).choose_spec]; rfl
  | _ => rfl

/-- A live record stays live, with its post. -/
theorem Moves.live {homes new : Bool} {s t : State} (h : Moves homes new s t) (i : CallIdx) :
    ∀ k, s.liveCall i = some k → ∃ k', t.liveCall i = some k' ∧ k'.slot = k.slot := by
  induction h with
  | refl => exact fun k h => ⟨k, h, rfl⟩
  | trans _ _ a b =>
    intro k h
    obtain ⟨k', h', slot⟩ := a k h
    obtain ⟨k'', h'', slot'⟩ := b k' h'
    exact ⟨k'', h'', slot'.trans slot⟩
  | link s x f => exact fun k h => ⟨k, by simpa using h, rfl⟩
  | place s j c _ => exact fun k h => ⟨k, by rw [(placeCommand_eq j c s).choose_spec.choose_spec]; exact h, rfl⟩
  | idle s p j _ => exact fun k h => ⟨k, by rw [State.liveCall, State.record, (CallsKept.setIdle p j s).calls]; exact h, rfl⟩
  | call s j f hf =>
    intro k h
    by_cases hj : j = i
    · subst hj
      exact ⟨f k, by simp [h], (hf k h).slot⟩
    · exact ⟨k, by simpa [hj] using h, rfl⟩
  | makeLive s j k _ free =>
    intro k' h
    by_cases hj : j = i
    · subst hj
      exact nomatch free.symm.trans h
    · exact ⟨k', by simpa [Machine.makeLive, State.liveCall, hj] using h, rfl⟩
  | carry s j e _ => exact fun k h => ⟨k, by rw [(moveCommands_eq j e s).choose_spec]; exact h, rfl⟩
  | _ => exact fun k h => ⟨k, h, rfl⟩

/-- Where no call begins, a free record stays free and the overflow list stays as it is. -/
theorem Moves.noNewCall {homes : Bool} {s t : State} (h : Moves homes false s t) :
    t.calls.overflow = s.calls.overflow ∧ ∀ i, s.liveCall i = none → t.liveCall i = none := by
  induction h with
  | refl => exact ⟨rfl, fun _ => id⟩
  | trans _ _ a b => exact ⟨b.1.trans a.1, fun i h => b.2 i (a.2 i h)⟩
  | link s x f => exact ⟨by simp, fun i h => by simpa using h⟩
  | place s j c _ =>
    rw [(placeCommand_eq j c s).choose_spec.choose_spec]
    exact ⟨rfl, fun _ => id⟩
  | idle s p j _ =>
    have calls := (CallsKept.setIdle p j s).calls
    exact ⟨by rw [calls], fun i h => by rw [State.liveCall, State.record, calls]; exact h⟩
  | call s j f _ =>
    refine ⟨rfl, fun i h => ?_⟩
    by_cases hj : j = i
    · subst hj; simp [h]
    · simpa [hj] using h
  | carry s j e _ =>
    rw [(moveCommands_eq j e s).choose_spec]
    exact ⟨rfl, fun _ => id⟩
  | calling s j p h => exact nomatch h
  | makeLive s j k h _ => exact nomatch h
  | overflow s l h => exact nomatch h
  | _ => exact ⟨rfl, fun _ => id⟩

/-- What a chain without marks makes of a live call: nothing of one that needs no end; a CONNECTING one keeps its stamp, timer and parties. -/
theorem Moves.offLine {s t : State} (h : Moves false false s t) (i : CallIdx) :
    ∀ k, s.liveCall i = some k → needsItsEnd k.state = false → t.liveCall i = some k := by
  induction h with
  | refl => exact fun _ h _ => h
  | trans _ _ a b => exact fun k h n => b k (a k h n) n
  | link s x f => exact fun k h _ => by simpa using h
  | place s j c _ => exact fun k h _ => by rw [(placeCommand_eq j c s).choose_spec.choose_spec]; exact h
  | idle s p j _ => exact fun k h _ => by rw [State.liveCall, State.record, (CallsKept.setIdle p j s).calls]; exact h
  | call s j f hf =>
    intro k h n
    by_cases hj : j = i
    · subst hj
      obtain ⟨needs, -⟩ := (hf k h).grant rfl rfl
      exact absurd (needs.symm.trans n) nofun
    · simpa [hj] using h
  | home s j r h => exact nomatch h
  | carry s j e h => exact nomatch h
  | calling s j p h => exact nomatch h
  | makeLive s j k h _ => exact nomatch h
  | _ => exact fun _ h _ => h

theorem Moves.connecting {s t : State} (h : Moves false false s t) (i : CallIdx) :
    ∀ k, s.liveCall i = some k → k.state = .connecting →
      ∃ k', t.liveCall i = some k' ∧ k'.state = .connecting ∧ k'.stamp = k.stamp ∧ k'.timer = k.timer ∧ k'.parties = k.parties := by
  induction h with
  | refl => exact fun k h c => ⟨k, h, c, rfl, rfl, rfl⟩
  | trans _ _ a b =>
    intro k h c
    obtain ⟨k', h', c', stamp, timer, parties⟩ := a k h c
    obtain ⟨k'', h'', c'', stamp', timer', parties'⟩ := b k' h' c'
    exact ⟨k'', h'', c'', stamp'.trans stamp, timer'.trans timer, parties'.trans parties⟩
  | link s x f => exact fun k h c => ⟨k, by simpa using h, c, rfl, rfl, rfl⟩
  | place s j _ _ => exact fun k h c => ⟨k, by rw [(placeCommand_eq j _ s).choose_spec.choose_spec]; exact h, c, rfl, rfl, rfl⟩
  | idle s p j _ =>
    exact fun k h c => ⟨k, by rw [State.liveCall, State.record, (CallsKept.setIdle p j s).calls]; exact h, c, rfl, rfl, rfl⟩
  | call s j f hf =>
    intro k h c
    by_cases hj : j = i
    · subst hj
      obtain ⟨-, stamp, timer, parties, stays⟩ := (hf k h).grant rfl rfl
      exact ⟨f k, by simp [h], stays c, stamp, timer, parties⟩
    · exact ⟨k, by simpa [hj] using h, c, rfl, rfl, rfl⟩
  | home s j r h => exact nomatch h
  | carry s j e h => exact nomatch h
  | calling s j p h => exact nomatch h
  | makeLive s j k h _ => exact nomatch h
  | _ => exact fun k h c => ⟨k, h, c, rfl, rfl, rfl⟩

/-! ## The activity of a post that calls -/

theorem Moves.calling_kept {s t : State} (h : Moves false false s t) (i : Slot) :
    (s.post i).activity = .calling → (t.post i).activity = .calling ∧ (t.post i).stamp = (s.post i).stamp := by
  induction h with
  | refl => exact fun h => ⟨h, rfl⟩
  | trans _ _ a b =>
    intro h
    obtain ⟨c, stamp⟩ := a h
    obtain ⟨c', stamp'⟩ := b c
    exact ⟨c', stamp'.trans stamp⟩
  | link s x f => exact fun h => by simpa [State.post] using h
  | place s j c _ => exact fun h => by rw [(placeCommand_eq j c s).choose_spec.choose_spec]; exact ⟨h, rfl⟩
  | idle s p j hp =>
    intro h
    unfold setIdle
    split
    · next hj =>
      by_cases same : j = i
      · subst same
        exact absurd ((congrArg p h).symm.trans hj) (by simp [hp rfl rfl])
      · simp [Machine.setActivity, same, h]
    · exact ⟨h, rfl⟩
  | home s j r h => exact nomatch h
  | carry s j e h => exact nomatch h
  | calling s j p h => exact nomatch h
  | _ => exact fun h => ⟨h, rfl⟩

/-! ## Waiting commands -/

/-- A command waits for a post in the list of an end. -/
def WaitsOn (s : State) (e : EndId) (i : Slot) (c : Command) : Prop := ∃ y, y ∈ (s.endRec e).commands ∧ y.slot = i ∧ y.command = c

theorem WaitsOn.congr {s t : State} {e : EndId} {i : Slot} {c : Command} (h : (t.endRec e).commands = (s.endRec e).commands) :
    WaitsOn t e i c ↔ WaitsOn s e i c := by rw [WaitsOn, h]; rfl

theorem WaitsOn.modEnd {s : State} {e d : EndId} {f : EndRecord → EndRecord} (h : (f (s.endRec e)).commands = (s.endRec e).commands)
    (i : Slot) (c : Command) : WaitsOn (s.modEnd e f) d i c ↔ WaitsOn s d i c := by
  by_cases hd : e = d
  · subst hd
    exact congr (by rw [modEnd_endRec_same, h])
  · exact congr (by rw [modEnd_endRec_ne _ _ hd])

/-- A command placed leaves each entry of another post or family. -/
theorem WaitsOn.place {s : State} {e : EndId} {i j : Slot} {c d : Command} (h : WaitsOn s e i c) (hn : j ≠ i ∨ d.family ≠ c.family) :
    WaitsOn (placeCommand j d s) e i c := by
  obtain ⟨y, hy, rfl, rfl⟩ := h
  unfold placeCommand
  split
  · exact ⟨y, hy, rfl, rfl⟩
  · next f _ =>
    have other : sameFamily j d y = false := by
      rcases hn with h | h
      · simp [sameFamily, Ne.symm h]
      · simp [sameFamily, Ne.symm h]
    dsimp only
    by_cases he : f = e
    · subst he
      split
      · exact ⟨y, by rw [modEnd_endRec_same]; exact List.mem_map.mpr ⟨y, hy, by simp [other]⟩, rfl, rfl⟩
      · refine ⟨y, ?_, rfl, rfl⟩
        rw [modEnd_endRec_same]
        exact List.mem_append_left _ hy
    · split
      · exact ⟨y, by rwa [modEnd_endRec_ne _ _ he], rfl, rfl⟩
      · refine ⟨y, ?_, rfl, rfl⟩
        rw [modEnd_endRec_ne _ _ he]
        exact hy

/-- A command placed for a served post waits at the post's end. -/
theorem waitsOn_placeCommand {s : State} {e : EndId} {i : Slot} (h : (s.post i).reach = .served e) (c : Command) :
    WaitsOn (placeCommand i c s) e i c := by
  have list : listFor s i = some e := by simp [listFor, h]
  unfold placeCommand
  rw [list]
  dsimp only
  split
  · next any =>
    obtain ⟨y, hy, same⟩ := List.any_eq_true.mp any
    have slot : y.slot = i := by
      simp only [sameFamily, Bool.and_eq_true, decide_eq_true_eq] at same
      exact same.1
    exact ⟨{ y with command := c }, by rw [modEnd_endRec_same]; exact List.mem_map.mpr ⟨y, hy, by simp [same]⟩, slot, rfl⟩
  · refine ⟨⟨i, c, s.line.placings + 1⟩, ?_, rfl, rfl⟩
    rw [modEnd_endRec_same]
    exact List.mem_append_right _ (by simp)

theorem mem_insertByAge {x y : CommandEntry} {l : List CommandEntry} : y ∈ insertByAge x l ↔ y = x ∨ y ∈ l := by
  induction l with
  | nil => simp [insertByAge]
  | cons z l ih =>
    unfold insertByAge
    split
    · simp
    · simp only [List.mem_cons, ih]
      tauto

theorem mem_foldl_insertByAge {y : CommandEntry} (l m : List CommandEntry) :
    y ∈ l.foldl (fun cs x => insertByAge x cs) m ↔ y ∈ l ∨ y ∈ m := by
  induction l generalizing m with
  | nil => simp
  | cons x l ih =>
    simp only [List.foldl_cons, ih, mem_insertByAge, List.mem_cons]
    tauto

theorem dropCommands_commands (i : Slot) (s : State) (e : EndId) :
    ((dropCommands i s).endRec e).commands = (s.endRec e).commands.filter fun c => decide (c.slot ≠ i) := by
  refine forEach_once (I := fun _ => True) (v := fun t : State => (t.endRec e).commands) (a := e) (x := (s.endRec e).commands)
    (fun _ _ => id) (fun t _ ht => ?_) (fun d t hd => ?_) _ s allEnds_nodup (mem_allEnds e) trivial rfl
  · simpa using congrArg (List.filter fun c => decide (c.slot ≠ i)) ht
  · simp [hd.symm]

theorem mem_entriesOf {s : State} {i : Slot} {y : CommandEntry} : y ∈ entriesOf s i ↔ ∃ e, y ∈ (s.endRec e).commands ∧ y.slot = i := by
  simp [entriesOf, mem_allEnds]

/-- Carried with its post or not, a command waits on. -/
theorem WaitsOn.moved {s : State} {i j : Slot} {c : Command} {e d : EndId} (h : WaitsOn s d i c) :
    ∃ d, WaitsOn (moveCommands j e s) d i c := by
  obtain ⟨y, hy, hi, hc⟩ := h
  by_cases hj : i = j
  · refine ⟨e, y, ?_, hi, hc⟩
    unfold moveCommands
    dsimp only
    rw [modEnd_endRec_same]
    exact (mem_foldl_insertByAge _ _).mpr (.inl (mem_entriesOf.mpr ⟨d, hy, hi.trans hj⟩))
  · have stays : y ∈ ((dropCommands j s).endRec d).commands := by
      rw [dropCommands_commands]
      exact List.mem_filter.mpr ⟨hy, by simp [hi, hj]⟩
    refine ⟨d, y, ?_, hi, hc⟩
    unfold moveCommands
    dsimp only
    by_cases hd : e = d
    · subst hd
      rw [modEnd_endRec_same]
      exact (mem_foldl_insertByAge _ _).mpr (.inr stays)
    · rwa [modEnd_endRec_ne _ _ hd]

/-- No live call is one of the post. -/
def NoCallOf (s : State) (i : Slot) : Prop := ∀ j k, s.liveCall j = some k → k.slot ≠ i

theorem Moves.noCallOf {homes : Bool} {s t : State} (h : Moves homes false s t) {i : Slot} (hs : NoCallOf s i) : NoCallOf t i := by
  intro j k hk
  cases hj : s.liveCall j with
  | none => exact nomatch (h.noNewCall.2 j hj).symm.trans hk
  | some k' =>
    obtain ⟨k'', hk'', slot⟩ := h.live j k' hj
    cases hk.symm.trans hk''
    exact slot ▸ hs j k' hj

/-- The entry is one that a chain without new calls leaves: a lamp's, or one for the line of a post that has no call. -/
def Untouched (s : State) (i : Slot) (c : Command) : Prop := c.family = .lamp ∨ c.family = .voice ∧ NoCallOf s i

theorem Untouched.place {s : State} {i j : Slot} {c d : Command} (h : Untouched s i c) (hp : PlacedFor s j d) : j ≠ i ∨ d.family ≠ c.family := by
  rcases h with h | ⟨h, free⟩
  · refine .inr fun same => ?_
    rcases hp with hp | ⟨hp, -⟩ <;> exact nomatch (hp.symm.trans same).trans h
  · rcases hp with hp | ⟨-, n, k, hk, slot⟩
    · exact .inr fun same => nomatch (hp.symm.trans same).trans h
    · exact .inl fun same => free n k hk (slot.trans same)

theorem Moves.untouched {homes : Bool} {s t : State} (h : Moves homes false s t) {i : Slot} {c : Command} (hs : Untouched s i c) :
    Untouched t i c := hs.imp id fun ⟨family, free⟩ => ⟨family, h.noCallOf free⟩

/-- Such an entry stays in its list where no post takes another home. -/
theorem Moves.waits {s t : State} (h : Moves false false s t) {e : EndId} {i : Slot} {c : Command} (hc : Untouched s i c)
    (hw : WaitsOn s e i c) : WaitsOn t e i c := by
  induction h with
  | refl => exact hw
  | trans h _ a b => exact b (h.untouched hc) (a hc hw)
  | link s x f => exact (WaitsOn.congr (by simp [State.endRec])).mpr hw
  | place s j d hp => exact hw.place (hc.place (hp rfl))
  | idle s p j _ =>
    refine (WaitsOn.congr ?_).mpr hw
    unfold setIdle
    split <;> rfl
  | unsuppress s d => exact (WaitsOn.modEnd (by rfl) i c).mpr hw
  | home s j r h => exact nomatch h
  | carry s j e h => exact nomatch h
  | calling s j p h => exact nomatch h
  | makeLive s j k h _ => exact nomatch h
  | overflow s l h => exact nomatch h
  | _ => exact hw

/-- Such an entry stays in some list. -/
theorem Moves.waitsSomewhere {homes : Bool} {s t : State} (h : Moves homes false s t) {i : Slot} {c : Command} (hc : Untouched s i c)
    (hw : ∃ e, WaitsOn s e i c) : ∃ e, WaitsOn t e i c := by
  induction h with
  | refl => exact hw
  | trans h _ a b => exact b (h.untouched hc) (a hc hw)
  | link s x f => exact hw.imp fun e => (WaitsOn.congr (by simp [State.endRec])).mpr
  | place s j d hp => exact hw.imp fun e h => h.place (hc.place (hp rfl))
  | idle s p j _ =>
    refine hw.imp fun e => (WaitsOn.congr ?_).mpr
    unfold setIdle
    split <;> rfl
  | unsuppress s d => exact hw.imp fun e => (WaitsOn.modEnd (by rfl) i c).mpr
  | carry s j e _ =>
    obtain ⟨d, h⟩ := hw
    exact h.moved
  | calling s j p h => exact nomatch h
  | makeLive s j k h _ => exact nomatch h
  | overflow s l h => exact nomatch h
  | _ => exact hw

/-! ## Posts that take no part in announcements -/

/-- Where no post takes another home, a post takes no part in a group in which it took none. -/
theorem Moves.notTaking {new : Bool} {s t : State} (h : Moves false new s t) {g : GroupId} {i : Slot} (hs : takingPart s g i = false) :
    takingPart t g i = false := by
  induction h with
  | refl => exact hs
  | trans _ _ a b => exact b (a hs)
  | link s x f => exact (takingPart_congr (by simp) (by simp) i).trans hs
  | place s j c _ =>
    have group := placeCommand_group j c s g
    exact (takingPart_congr (congrArg _ group) (congrArg _ group) i).trans hs
  | idle s p j _ =>
    have groups := (CallsKept.setIdle p j s).groups
    exact (takingPart_congr (by rw [State.group, groups]; rfl) (by rw [State.group, groups]; rfl) i).trans hs
  | group s k f hf =>
    by_cases hk : k = g
    · subst hk
      obtain ⟨active, members⟩ := hf (s.group k)
      exact (takingPart_congr (by rw [modGroup_group_same, active]) (by rw [modGroup_group_same, members]) i).trans hs
    · exact (takingPart_congr (by rw [modGroup_group_ne s f hk]) (by rw [modGroup_group_ne s f hk]) i).trans hs
  | member s k j f hslot hf =>
    by_cases hk : k = g
    · subst hk
      refine Bool.eq_false_iff.mpr fun taking => ?_
      rw [takingPart_iff, modMember_group_same] at taking
      obtain ⟨active, m', hm', slot, part⟩ := taking
      obtain ⟨m, hm, rfl⟩ := List.mem_map.mp hm'
      have settled : m.slot = i → unsettled m.outcome = false := fun h =>
        Bool.eq_false_iff.mpr fun u => Bool.eq_false_iff.mp hs (takingPart_iff.mpr ⟨active, m, hm, h, u⟩)
      split at slot
      · next hj =>
        rw [if_pos hj] at part
        rw [hslot] at slot
        rcases hf rfl active with taking | settles
        · exact Bool.eq_false_iff.mp hs (hj.symm.trans slot ▸ taking)
        · exact nomatch (settles m).symm.trans part
      · next hj =>
        rw [if_neg hj] at part
        exact nomatch (settled slot).symm.trans part
    · exact (takingPart_congr (by rw [modMember_group_ne hk]) (by rw [modMember_group_ne hk]) i).trans hs
  | home s j r h => exact nomatch h
  | carry s j e h => exact nomatch h
  | _ => exact hs

/-- Where no post takes another home, a group that is ACTIVE stays so. -/
theorem Moves.active {new : Bool} {s t : State} (h : Moves false new s t) (g : GroupId) : (t.group g).active = (s.group g).active := by
  induction h with
  | refl => rfl
  | trans _ _ a b => exact b.trans a
  | link s x f => simp
  | place s j c _ => rw [placeCommand_group]
  | idle s p j _ => rw [State.group, (CallsKept.setIdle p j s).groups]; rfl
  | group s k f hf =>
    by_cases hk : k = g
    · subst hk; rw [modGroup_group_same, (hf _).1]
    · rw [modGroup_group_ne s f hk]
  | member s k j f _ _ =>
    by_cases hk : k = g
    · subst hk; rw [modMember_group_same]
    · rw [modMember_group_ne hk]
  | home s j r h => exact nomatch h
  | carry s j e h => exact nomatch h
  | _ => rfl

end Sys2Proof.Machine
end

