-- ==== Sys2Proof/Proofs/ReplySteps.lean ====
section
/-! PROOF. The steps of a good reply (R48) one by one: what identity and sensors leave (`Noticed`), that the blocks told of results and of
hook and button disturb no port, counter or burst, and the outcome of a poll counted once (O50). -/

namespace Sys2Proof.Machine

/-! ## Updates that change nothing, and updates in a row -/

theorem modNth_id {α : Type} {n : Nat} (t : Vector α n) (i : Fin n) : modNth t i (fun a => a) = t := by
  ext j hj
  simp [modNth, nth]

theorem modCounters_modCounters (s : State) (e : EndId) (f g : Counters → Counters) :
    (s.modCounters e f).modCounters e g = s.modCounters e fun c => g (f c) := by
  simp [State.modCounters, State.onLine, modNth_modNth]

theorem modCounters_id (s : State) (e : EndId) : s.modCounters e (fun c => c) = s := by
  simp [State.modCounters, State.onLine, modNth_id]

/-! ## The mismatch counter (R44, R134) -/

/-- The mismatches after a reply with a serial number. -/
def mismatchCounted (s : State) (i : Slot) (serial : Nat) (c : Counters) : Counters :=
  { c with mismatches := if (s.entry i).place.present = true ∧ serial ≠ (s.entry i).place.serial then satInc c.mismatches else c.mismatches }

theorem countMismatch_eq (e : EndId) (i : Slot) (n : Nat) (s : State) :
    countMismatch e i n s = s.modCounters e (mismatchCounted s i n) := by
  unfold countMismatch heldSerial mismatchCounted
  by_cases present : (s.entry i).place.present = true
  · by_cases differs : n = (s.entry i).place.serial
    · simp [present, differs, modCounters_id]
    · simp [present, differs]
  · simp [present, modCounters_id]

/-! ## Identity and sensors (R44, R45) -/

/-- A row less what the first four steps of a good reply may change. -/
def PostRow.unread (r : PostRow) : PostRow :=
  { r with failures := 0, reply := .unproven, silenceReported := false, unverified := false, sensors := ⟨false, false, false⟩ }

/-- What a step of a good reply ahead of its result leaves, for at most `n` reports to each link. -/
structure Noticed (n : Nat) (s t : State) : Prop where
  soft : ∀ ev on, Soft ev on s t
  kept : CallsKept s t
  ports : t.line.ports = s.line.ports
  bursts : t.line.bursts = s.line.bursts
  commands : ∀ d, (t.endRec d).commands = (s.endRec d).commands
  rows : ∀ j, (t.post j).unread = (s.post j).unread
  room : ∀ y, (t.link y).queue.length ≤ (s.link y).queue.length + n

namespace Noticed

variable {m n : Nat} {s t u : State}

theorem trans (h : Noticed m s t) (k : Noticed n t u) : Noticed (m + n) s u :=
  ⟨fun ev on => (h.soft ev on).trans (k.soft ev on), h.kept.trans k.kept, k.ports.trans h.ports, k.bursts.trans h.bursts,
    fun d => (k.commands d).trans (h.commands d), fun j => (k.rows j).trans (h.rows j), fun y => by
      have first := h.room y
      have second := k.room y
      omega⟩

/-- A step after another, read as the steps are nested. -/
theorem andThen (k : Noticed n t u) (h : Noticed m s t) : Noticed (m + n) s u := h.trans k

/-- A step that tells no link. -/
theorem quiet (soft : ∀ ev on, Soft ev on s t) (kept : CallsKept s t) (ports : t.line.ports = s.line.ports)
    (bursts : t.line.bursts = s.line.bursts) (commands : ∀ d, (t.endRec d).commands = (s.endRec d).commands)
    (rows : ∀ j, (t.post j).unread = (s.post j).unread) (links : ∀ y, t.link y = s.link y) : Noticed n s t :=
  ⟨soft, kept, ports, bursts, commands, rows, fun y => by rw [links]; exact Nat.le_add_right _ _⟩

theorem refl (s : State) : Noticed n s s :=
  quiet (fun _ _ => .refl s) ⟨rfl, rfl, rfl⟩ rfl rfl (fun _ => rfl) (fun _ => rfl) fun _ => rfl

theorem of_ite {c : Prop} [Decidable c] (ht : Noticed n s t) (hu : Noticed n s u) : Noticed n s (if c then t else u) := by
  split
  · exact ht
  · exact hu

theorem enqueue_room (r : Report) (l : LinkRecord) : (enqueue r l).queue.length ≤ l.queue.length + 1 := by
  unfold enqueue
  split
  · split
    · simp
    · exact Nat.le_succ _
  · exact Nat.le_succ _

theorem reportBoth (r : Report) (s : State) : Noticed 1 s (Machine.reportBoth r s) := by
  have line := reportBoth_line r s
  refine ⟨fun _ _ => .reportBoth r s, .reportBoth r s, by rw [line], by rw [line], fun d => by rw [State.endRec, line]; rfl,
    fun j => by rw [State.post, line]; rfl, fun y => ?_⟩
  rw [reportBoth_link]
  exact enqueue_room r _

theorem modPost (s : State) (i : Slot) (f : PostRow → PostRow) (hf : ∀ r, (f r).failures ≤ r.failures) (h : ∀ r, (f r).unread = r.unread) :
    Noticed n s (s.modPost i f) := by
  refine quiet (fun _ _ => .post s i f hf) ⟨rfl, rfl, rfl⟩ rfl rfl (fun _ => rfl) (fun j => ?_) fun y => by cases y <;> rfl
  by_cases hj : i = j
  · subst hj; simp [h]
  · simp [hj]

theorem countMismatch (e : EndId) (i : Slot) (serial : Nat) (s : State) : Noticed n s (Machine.countMismatch e i serial s) := by
  rw [countMismatch_eq]
  refine quiet (fun _ _ => .counters s e _ fun c hc => ?_) ⟨rfl, rfl, rfl⟩ rfl rfl (fun _ => rfl) (fun _ => rfl) fun y => by cases y <;> rfl
  obtain ⟨h1, h2, h3, h4, h5, h6⟩ := hc
  refine ⟨h1, h2, h3, h4, ?_, h6⟩
  unfold mismatchCounted
  dsimp only
  split
  · exact Soft.satInc_le h5
  · exact h5

theorem answered (i : Slot) (s : State) : Noticed 1 s (Machine.answered i s) := by
  unfold Machine.answered
  dsimp only
  exact andThen (m := 0) (.of_ite (.reportBoth _ _) (.refl _)) (.modPost s i _ (fun _ => Nat.zero_le _) fun _ => rfl)

theorem releaseSuppression (e : EndId) (i : Slot) (s : State) : Noticed n s (Machine.releaseSuppression e i s) := by
  refine quiet (fun _ _ => .endRec s e _ fun _ => rfl) ⟨rfl, rfl, rfl⟩ rfl rfl (fun d => ?_) (fun _ => rfl) fun y => by cases y <;> rfl
  by_cases hd : e = d
  · subst hd; simp [Machine.releaseSuppression]
  · simp [Machine.releaseSuppression, hd]

theorem checkIdentity (e : EndId) (i : Slot) (serial : Nat) (s : State) : Noticed 1 s (Machine.checkIdentity e i serial s) := by
  unfold Machine.checkIdentity
  split
  · dsimp only
    refine andThen (m := 0) (n := 1) (.of_ite (.refl _) ?_) (.countMismatch e i serial s)
    exact andThen (m := 0) (.reportBoth _ _) (.modPost _ i _ (fun _ => Nat.le_refl _) fun _ => rfl)
  · exact .refl s

theorem checkSensors (i : Slot) (new : Sensors) (s : State) : Noticed 1 s (Machine.checkSensors i new s) := by
  unfold Machine.checkSensors
  dsimp only
  exact .of_ite (.refl s) (andThen (m := 0) (.reportBoth _ _) (.modPost _ i _ (fun _ => Nat.le_refl _) fun _ => rfl))

theorem row (h : Noticed n s t) (i : Slot) : (t.post i).reach = (s.post i).reach ∧ (t.post i).hop = (s.post i).hop
    ∧ (t.post i).hook = (s.post i).hook ∧ (t.post i).button = (s.post i).button ∧ (t.post i).activity = (s.post i).activity
    ∧ (t.post i).stamp = (s.post i).stamp := by
  have same := h.rows i
  simp only [PostRow.unread, PostRow.mk.injEq] at same
  tauto

end Noticed

/-- Steps 2 to 4 of R48, which the replies to polls and to test frames have in common. -/
def reread (e : EndId) (i : Slot) (r : Reply) (s : State) : State :=
  checkSensors i r.sensors (checkIdentity e i r.serial (releaseSuppression e i s))

/-- Steps 1 to 4 of R48. -/
def noted (e : EndId) (i : Slot) (r : Reply) (s : State) : State := reread e i r (answered i s)

theorem reread_noticed (e : EndId) (i : Slot) (r : Reply) (s : State) : Noticed 2 s (reread e i r s) :=
  (Noticed.releaseSuppression (n := 0) e i s).trans (.trans (m := 1) (.checkIdentity e i _ _) (.checkSensors i _ _))

theorem noted_noticed (e : EndId) (i : Slot) (r : Reply) (s : State) : Noticed 3 s (noted e i r s) :=
  (Noticed.answered i s).trans (reread_noticed e i r _)

theorem goodPoll_eq (e : EndId) (i : Slot) (carried : Option (Command × Nat)) (r : Reply) (s : State) :
    goodPoll e i carried r s = hookAndButton i r.hook r.button (passResult e i carried r.result (noted e i r s)) := rfl

theorem goodTest_eq (e : EndId) (i : Slot) (r : Reply) (s : State) :
    goodTest e i r s = hookAndButton i r.hook r.button (reread e i r s) := rfl

theorem noted_stamps (e : EndId) (i : Slot) (r : Reply) (s : State) : (noted e i r s).line.stampCounter = s.line.stampCounter :=
  ((noted_noticed e i r s).soft false true).frame.stamps

/-- Of the counters, the steps move the mismatches of the end alone. -/
theorem noted_counters (e : EndId) (i : Slot) (r : Reply) (s : State) :
    (noted e i r s).counters e = mismatchCounted s i r.serial (s.counters e) := by
  have sensors (t : State) : (checkSensors i r.sensors t).counters e = t.counters e := by
    unfold checkSensors
    dsimp only
    split
    · rfl
    · rw [State.counters, reportBoth_line]
      rfl
  have identity (t : State) : (checkIdentity e i r.serial t).counters e = (countMismatch e i r.serial t).counters e := by
    unfold checkIdentity
    split
    · dsimp only
      split
      · rfl
      · rw [State.counters, reportBoth_line]
        rfl
    · next absent => rw [countMismatch, absent]
  have first : (answered i s).counters e = s.counters e := by
    unfold answered
    dsimp only
    split
    · rw [State.counters, reportBoth_line]
      rfl
    · rfl
  have store := ((Noticed.answered i s).soft false true).frame.store
  have entry : mismatchCounted (releaseSuppression e i (answered i s)) i r.serial = mismatchCounted s i r.serial := by
    funext c
    have same : (releaseSuppression e i (answered i s)).entry i = s.entry i := by
      rw [State.entry]
      exact congrArg (fun b : StoreBlock => nth b.site.entries i) store
    rw [mismatchCounted, same]
    rfl
  rw [noted, reread, sensors, identity, countMismatch_eq, modCounters_counters_same, entry]
  exact congrArg _ first

/-! ## What the blocks disturb that are told of results, hook and button -/

namespace Undisturbed

variable {s t u : State}

theorem andThen (k : Undisturbed t u) (h : Undisturbed s t) : Undisturbed s u := h.trans k

theorem of_ite {c : Prop} [Decidable c] (ht : Undisturbed s t) (hu : Undisturbed s u) : Undisturbed s (if c then t else u) := by
  split
  · exact ht
  · exact hu

theorem placeCommand (i : Slot) (c : Command) (s : State) : Undisturbed s (Machine.placeCommand i c s) := placeCommand_undisturbed i c s

/-- An operation read as moves of any kind. -/
theorem moves (h : Moves true true s t) : Undisturbed s t := h.undisturbed

theorem freeing (i : CallIdx) (s : State) : Undisturbed s (Machine.freeing i s) := by
  unfold Machine.freeing
  split
  · next k _ =>
    have deferred (t : State) : Moves true true t (match k.deferred with
        | some (b, stamp) => takeDeferred k.slot b stamp t
        | none => t) := by
      split
      · exact .takeDeferred _ _ _ t
      · exact .refl t
    refine moves (.andThen (.giveToOverflow i _) (.andThen (deferred _) (.andThen (.leftItsEnd _ _ _) (.andThen (.idle _ _ _ nofun) ?_))))
      |>.andThen (of_line (t := retire i s) rfl)
    exact .giveUp _ _ _
  · exact .refl s

theorem freeRecord (i : CallIdx) (s : State) : Undisturbed s (Machine.freeRecord i s) := andThen (moves (.settle s _)) (freeing i s)

theorem missOverflow (i : Slot) (s : State) : Undisturbed s (Machine.missOverflow i s) := by
  unfold Machine.missOverflow
  split
  · exact moves (.andThen (.reportBoth _ _) (.overflow s _ rfl))
  · exact .refl s

theorem idleFromCall (i : Slot) (s : State) : Undisturbed s (Machine.idleFromCall i s) := setIdle_undisturbed _ i s

theorem lampOffInbound (k : LiveCall) (s : State) : Undisturbed s (Machine.lampOffInbound k s) := by
  unfold Machine.lampOffInbound
  split
  · exact placeCommand _ _ s
  · exact .refl s

/-- A call that the post clears, in a state in which it has parties or a line (R94). -/
theorem clearedByPost (i : CallIdx) (slot : Slot) (k : LiveCall) (s : State) : Undisturbed s
    (Machine.freeRecord i (Machine.lampOffInbound k (Machine.placeCommand slot .release
      (reportCall i .clearedByPost .none true (partyLinks s i) s)))) :=
  andThen (freeRecord i _) (andThen (lampOffInbound k _) (andThen (placeCommand slot _ _) (moves (.reportCall _ _ _ _ _ s))))

theorem onHook (slot : Slot) (s : State) : Undisturbed s (Machine.onHook slot s) := by
  unfold Machine.onHook
  split
  · next i _ =>
    split
    · next k _ =>
      cases k.state with
      | offered => exact andThen (freeRecord i _) (andThen (placeCommand slot _ _) (moves (.reportBoth _ s)))
      | clearing => exact .of_line rfl
      | ringing => exact .refl s
      | connecting | connected | parked | lineLost => exact clearedByPost i slot k s
    · exact .refl s
  · exact of_ite (andThen (idleFromCall slot _) (andThen (placeCommand slot _ _) (missOverflow slot s))) (.refl s)

theorem sendOffer (i : CallIdx) (x : LinkId) (s : State) : Undisturbed s (Machine.sendOffer report i x s) := by
  unfold Machine.sendOffer
  split
  · exact moves (.report _ _ s)
  · exact .refl s

theorem upgrade (i : CallIdx) (k : LiveCall) (b : Button) (s : State) : Undisturbed s (Machine.upgrade i k b s) := by
  unfold Machine.upgrade
  refine of_ite ?_ (.refl s)
  exact andThen (of_ite (sendOffer i .b _) (.refl _)) (andThen (of_ite (sendOffer i .a _) (.refl _)) (.of_line rfl))

theorem answeredByPost (i : CallIdx) (p : Stamp) (s : State) : Undisturbed s (Machine.answeredByPost i p s) := by
  unfold Machine.answeredByPost
  split
  · next k _ =>
    refine andThen (moves (.reportParties i _ _ _)) (andThen (moves (.settle s _)) (andThen (moves (.requestOnServing i _ _)) ?_))
    exact .trans (t := s.modCall i _) (.of_line rfl) (.modPost _ k.slot _ fun _ => ⟨rfl, rfl⟩)
  · exact .refl s

theorem callEvent (slot : Slot) (b : Button) (p : Stamp) (s : State) : Undisturbed s (Machine.callEvent slot b p s) := by
  unfold Machine.callEvent
  split
  · next i _ =>
    split
    · next k _ =>
      cases k.state with
      | offered => exact upgrade i k b s
      | ringing => exact answeredByPost i p s
      | clearing => exact .of_line rfl
      | connecting | connected | parked | lineLost => exact .refl s
    · exact .refl s
  · refine of_ite (.of_line rfl) ?_
    split
    · next i hi => exact andThen (moves (.offer i _)) (moves (.newCall .settle i slot b p s (freeRecord?_free hi)))
    · exact moves (.joinOverflow .settle slot b p s)

theorem takeStamp (s : State) : Undisturbed s (Machine.takeStamp s) := .of_tables rfl rfl rfl rfl

theorem passCallEvent (i : Slot) (b : Button) (s : State) : Undisturbed s (Machine.passCallEvent i b s) :=
  andThen (moves (.abortTarget i _ _)) (andThen (callEvent i b _ _) (takeStamp s))

theorem ringRefused (i : Slot) (s : State) : Undisturbed s (Machine.ringRefused i s) := by
  unfold Machine.ringRefused
  split
  · exact of_ite (andThen (answeredByPost _ _ _) (takeStamp s)) (.refl s)
  · exact .refl s

theorem connectDone (i : Slot) (ch : Chan) (s : State) : Undisturbed s (Machine.connectDone i ch s) := by
  unfold Machine.connectDone
  split
  · split
    · exact of_ite (andThen (moves (.reportParties _ _ _ _)) (.of_line rfl)) (.refl s)
    · exact .refl s
  · exact .refl s

theorem releaseDone (i : Slot) (s : State) : Undisturbed s (Machine.releaseDone i s) := by
  unfold Machine.releaseDone
  split
  · exact of_ite (freeRecord _ s) (.refl s)
  · exact .refl s

/-- A member that takes a settled outcome, with what follows (R120, R121). -/
theorem memberSettles (g : GroupId) (i : Slot) (o : MemberOutcome) (before s : State) :
    Undisturbed s (releases g (settle before (changeMember g i o none s))) :=
  moves (.andThen (.releases g _) (.andThen (.settle before _) (.changeMember g i o none s nofun)))

theorem announceResult (i : Slot) (c : Chan) (r : CommandResult) (s : State) : Undisturbed s (Machine.announceResult i c r s) := by
  unfold Machine.announceResult
  split
  · exact andThen (memberSettles _ i _ s _) (andThen (moves (.abortTarget i _ _)) (.modPost s i _ fun _ => ⟨rfl, rfl⟩))
  · exact memberSettles _ i _ s s
  · exact memberSettles _ i _ s s
  · exact of_ite (.refl s) (placeCommand i _ s)
  · exact .refl s
  · exact .refl s

theorem commandResult (i : Slot) (c : Command) (r : CommandResult) (s : State) : Undisturbed s (Machine.commandResult i c r s) := by
  cases c with
  | connect ch => exact connectDone i ch s
  | ring => exact of_ite (ringRefused i s) (.refl s)
  | release => exact releaseDone i s
  | announce ch => exact announceResult i ch r s
  | lampOn | lampOff | announceEnd => exact .refl s

theorem passResult (e : EndId) (i : Slot) (carried : Option (Command × Nat)) (r : Option CommandResult) (s : State) :
    Undisturbed s (Machine.passResult e i carried r s) := by
  unfold Machine.passResult
  split
  · exact andThen (commandResult i _ _ _) (.of_tables rfl rfl rfl rfl)
  · exact .refl s

end Undisturbed

/-- The row of a post with the hook and button that a reply has sensed: the button is none on-hook (R46). -/
def sensedRow (hook : Hook) (button : Button) (r : PostRow) : PostRow := { r with hook := hook, button := if hook = .on then .none else button }

theorem modPost_id (s : State) (i : Slot) : s.modPost i (fun r => r) = s := by simp [State.modPost, State.onLine, modNth_id]

section
variable {i : Slot} {button : Button} {s : State}

theorem sensedRow_on {r : PostRow} (h : r.hook = .on) : { r with button := .none } = sensedRow .on button r := by
  cases r
  cases h
  rfl

theorem sensedRow_off {r : PostRow} (h : r.hook = .off) : { r with button := button } = sensedRow .off button r := by
  cases r
  cases h
  rfl

theorem hookAndButton_on_on (h : (s.post i).hook = .on) : hookAndButton i .on button s = s.modPost i (sensedRow .on button) := by
  unfold hookAndButton
  dsimp only
  rw [h]
  exact modPost_congr (sensedRow_on h)

theorem hookAndButton_off_on (h : (s.post i).hook = .off) :
    hookAndButton i .on button s = onHook i (s.modPost i (sensedRow .on button)) := by
  unfold hookAndButton
  dsimp only
  rw [h]
  exact congrArg (onHook i) (modPost_congr rfl)

/-- A call event: a lift, or another button with the handset off (R46). -/
theorem hookAndButton_event (h : (s.post i).hook = .on ∨ button ≠ (s.post i).button) :
    hookAndButton i .off button s = passCallEvent i button (s.modPost i (sensedRow .off button)) := by
  unfold hookAndButton
  dsimp only
  cases hook : (s.post i).hook with
  | on => exact congrArg (passCallEvent i button) (modPost_congr rfl)
  | off =>
    have other : button ≠ (s.post i).button := h.resolve_left (by rw [hook]; nofun)
    dsimp only
    rw [if_neg other]
    exact congrArg (passCallEvent i button) (modPost_congr (sensedRow_off hook))

/-- The handset stays off with the same button. -/
theorem hookAndButton_same (hook : (s.post i).hook = .off) (same : button = (s.post i).button) :
    hookAndButton i .off button s = s.modPost i (sensedRow .off button) := by
  have row : sensedRow .off button (s.post i) = s.post i := by
    rw [← sensedRow_off hook, same]
  have kept : s.modPost i (sensedRow .off button) = s.modPost i fun r => r := modPost_congr row
  rw [kept, modPost_id]
  unfold hookAndButton
  dsimp only
  rw [hook]
  exact if_pos same

end

/-- Step 6 of R48: the row takes hook and button, and what else is done disturbs nothing. -/
theorem hookAndButton_undisturbed (i : Slot) (hook : Hook) (button : Button) (s : State) :
    Undisturbed (s.modPost i (sensedRow hook button)) (hookAndButton i hook button s) := by
  cases hook with
  | on =>
    cases h : (s.post i).hook with
    | on =>
      rw [hookAndButton_on_on h]
      exact .refl _
    | off =>
      rw [hookAndButton_off_on h]
      exact .onHook i _
  | off =>
    by_cases event : (s.post i).hook = .on ∨ button ≠ (s.post i).button
    · rw [hookAndButton_event event]
      exact .passCallEvent i button _
    · rw [not_or, not_not] at event
      obtain ⟨off, same⟩ := event
      rw [hookAndButton_same (by cases h : (s.post i).hook with | on => exact absurd h off | off => rfl) same]
      exact .refl _

/-! ## The outcome of a scan poll (R36, R134) -/

theorem pollClosed_port (e : EndId) (o : PollOutcome) (s : State) : ((pollClosed e o s).port e).transaction = none := by
  simp [pollClosed, endTransaction, lastWasPoll, modRunning]

theorem pollClosed_counters (e : EndId) (o : PollOutcome) (s : State) : (pollClosed e o s).counters e = countOutcome o (s.counters e) := by
  simp [pollClosed, endTransaction, lastWasPoll, modRunning]

theorem pollClosed_burst {e : EndId} {s : State} {b : Burst} (o : PollOutcome) (h : s.burst e = .running b) :
    (pollClosed e o s).burst e = .running { b with last := .poll } := by
  simp [pollClosed, endTransaction, lastWasPoll, modRunning, h]

/-- What O50 says of a poll that ends, for the counters of the end after it. -/
def OutcomeCounted (e : EndId) (s u : State) (count : Counters → Counters) : Prop :=
  (u.port e).transaction = none ∧ u.counters e = count (s.counters e)
    ∧ ∀ b, s.burst e = .running b → u.burst e = .running { b with last := .poll } ∨ ∃ x, u.burst e = .ended { b with last := .poll } x

theorem pollClosed_outcomeCounted (e : EndId) (o : PollOutcome) (s : State) : OutcomeCounted e s (pollClosed e o s) (countOutcome o) :=
  ⟨pollClosed_port e o s, pollClosed_counters e o s, fun _ h => .inl (pollClosed_burst o h)⟩

theorem OutcomeCounted.congr {e : EndId} {s v u : State} {count count' : Counters → Counters} (h : OutcomeCounted e s v count)
    (hp : u.line.ports = v.line.ports) (hb : u.line.bursts = v.line.bursts) (hc : u.counters e = count' (s.counters e)) :
    OutcomeCounted e s u count' := by
  obtain ⟨idle, -, bursts⟩ := h
  refine ⟨?_, hc, fun b hs => ?_⟩
  · rw [State.port, hp]
    exact idle
  · rw [State.burst, hb]
    exact bursts b hs

theorem OutcomeCounted.trans {e : EndId} {s v u : State} {count : Counters → Counters} (h : OutcomeCounted e s v count)
    (k : Undisturbed v u) : OutcomeCounted e s u count := by
  obtain ⟨idle, counted, bursts⟩ := h
  refine ⟨k.idle e idle, (k.counters e).trans counted, fun b hs => ?_⟩
  rcases k.bursts e with same | ⟨c, x, running, ended⟩
  · rw [same]
    exact bursts b hs
  · rcases bursts b hs with runs | ⟨y, ended⟩
    · cases running.symm.trans runs
      exact .inr ⟨x, ended⟩
    · exact nomatch running.symm.trans ended

theorem postFails_undisturbed (i : Slot) (s : State) : Undisturbed s (postFails i s) := by
  refine .trans (t := failedRow i s) (.modPost s i _ fun _ => ⟨rfl, rfl⟩) (.of_line (postFails_line i s))

theorem failedPoll_undisturbed (e : EndId) (i : Slot) (s : State) : Undisturbed s (failedPoll e i s) := by
  refine .andThen (t := postFails i s) ?_ (postFails_undisturbed i s)
  unfold failedPoll suspectTest
  refine .of_ite ?_ (.refl _)
  rw [goTesting_eq]
  exact .andThen (.moves (.reportBoth _ _)) (.andThen (.moves (.endBurst e _ _)) (.of_tables rfl rfl rfl rfl))

/-- The counters after a good reply with a serial number. -/
def goodCounted (s : State) (i : Slot) (r : Reply) (c : Counters) : Counters := mismatchCounted s i r.serial (countOutcome (.good r) c)

section
variable {e : EndId} {i : Slot} {hop : Nat} {s : State}

/-- A poll that fails: the outcome is counted, and that is all for a post that has moved. -/
theorem pollEnds_failure_counted (carried : Option (Command × Nat)) {o : PollOutcome} (ho : o = .corrupt ∨ o = .silent) :
    ∃ u, pollEnds e i hop carried o s = finish u ∧ OutcomeCounted e s u (countOutcome o)
      ∧ ((s.post i).reach ≠ .served e ∨ (s.post i).hop ≠ hop → u = pollClosed e o s) := by
  have closed := pollClosed_outcomeCounted e o s
  by_cases there : (s.post i).reach = .served e ∧ (s.post i).hop = hop
  · obtain ⟨hr, hh⟩ := there
    exact ⟨_, pollEnds_failed hr hh carried ho, closed.trans (failedPoll_undisturbed e i _), fun moved => absurd moved (by simp [hr, hh])⟩
  · refine ⟨pollClosed e o s, ?_, closed, fun _ => rfl⟩
    rw [pollEnds_moved (not_and_or.mp there)]
    rcases ho with rfl | rfl <;> rfl

/-- A good reply: the outcome and a mismatch are counted, and that is all for a post that has moved. -/
theorem pollEnds_good_counted (carried : Option (Command × Nat)) (r : Reply) :
    ∃ u, pollEnds e i hop carried (.good r) s = finish u ∧ OutcomeCounted e s u (goodCounted s i r)
      ∧ ((s.post i).reach ≠ .served e ∨ (s.post i).hop ≠ hop →
          u = (pollClosed e (.good r) s).modCounters e (mismatchCounted s i r.serial)) := by
  have closed := pollClosed_outcomeCounted e (.good r) s
  by_cases there : (s.post i).reach = .served e ∧ (s.post i).hop = hop
  · obtain ⟨hr, hh⟩ := there
    have steps := noted_noticed e i r (pollClosed e (.good r) s)
    have counted := noted_counters e i r (pollClosed e (.good r) s)
    rw [pollClosed_counters] at counted
    have passed : OutcomeCounted e s (passResult e i carried r.result (noted e i r (pollClosed e (.good r) s))) (goodCounted s i r) :=
      (closed.congr steps.ports steps.bursts counted).trans (.passResult e i carried r.result _)
    exact ⟨_, pollEnds_good hr hh carried r, OutcomeCounted.trans (v := State.modPost _ i _) passed (hookAndButton_undisturbed i _ _ _),
      fun moved => absurd moved (by simp [hr, hh])⟩
  · refine ⟨(pollClosed e (.good r) s).modCounters e (mismatchCounted s i r.serial), ?_, closed.congr rfl rfl ?_, fun _ => rfl⟩
    · rw [pollEnds_moved (not_and_or.mp there), movedPoll, countMismatch_eq]
      rfl
    · rw [modCounters_counters_same, pollClosed_counters]
      rfl

end

/-- Settles O50: a poll ends by the equation of its outcome, and what is then done for the post disturbs no port, counter or burst. -/
theorem pollOutcomesAreCounted : Obligations.pollOutcomesAreCounted := by
  intro e s i hop carried hp ht
  refine ⟨?_, fun os ho => ?_, fun os r ho => ?_⟩
  · obtain ⟨u, ends, ⟨idle, counted, bursts⟩, moved⟩ := pollEnds_failure_counted (e := e) (i := i) (hop := hop) (s := s) carried (.inr rfl)
    exact ⟨u, by rw [execPollWindowExpiry_of_poll hp ht, ends], idle, counted, bursts, moved⟩
  · obtain ⟨u, ends, ⟨idle, counted, bursts⟩, moved⟩ := pollEnds_failure_counted (e := e) (i := i) (hop := hop) (s := s) carried (.inl rfl)
    exact ⟨u, by rw [execPollReply_of_poll hp ht, pollOutcome_of_none ho, ends], idle, counted, bursts, moved⟩
  · obtain ⟨u, ends, ⟨idle, counted, bursts⟩, moved⟩ := pollEnds_good_counted (e := e) (i := i) (hop := hop) (s := s) carried r
    refine ⟨u, by rw [execPollReply_of_poll hp ht, pollOutcome_of_some ho, ends], idle, counted, bursts, fun h => ?_⟩
    rw [moved h, pollClosed, modCounters_modCounters]
    rfl

end Sys2Proof.Machine
end

