-- ==== Sys2Proof/Proofs/Stamps.lean ====
section
/-! PROOF. The stamp counter (R47): no operation moves it but `takeStamp` and power, operation by operation and then command by command;
what a good reply takes of it, and O25. -/

namespace Sys2Proof.Machine

/-! ## Operations that take no stamp -/

section
variable {ev on : Bool} {s t : State}

theorem Soft.stamps (h : Soft ev on s t) : t.line.stampCounter = s.line.stampCounter := h.frame.stamps

theorem Moves.stamps {homes new : Bool} (h : Moves homes new s t) : t.line.stampCounter = s.line.stampCounter := by
  induction h with
  | trans _ _ a b => exact b.trans a
  | link s x f => simp
  | place s i c _ => exact (Soft.placeCommand (ev := true) (on := true) i c s).stamps
  | idle s p i _ => exact (Soft.setIdle (ev := true) (on := true) p i s).stamps
  | carry s i e _ => exact (Soft.moveCommands (ev := true) (on := true) i e s).stamps
  | _ => rfl

end

theorem forEach_stamps {α : Type} {f : α → State → State} (h : ∀ a s, (f a s).line.stampCounter = s.line.stampCounter) (l : List α)
    (s : State) : (forEach l f s).line.stampCounter = s.line.stampCounter :=
  forEach_unchanged (fun t => t.line.stampCounter) h l s

section
variable (s : State)

@[simp] theorem finish_stamps : (finish s).line.stampCounter = s.line.stampCounter := (Soft.finish (ev := true) (on := true) s).stamps

@[simp] theorem settle_stamps (before : State) : (settle before s).line.stampCounter = s.line.stampCounter :=
  (Moves.settle (homes := true) (new := true) before s).stamps

@[simp] theorem report_stamps (x : LinkId) (r : Report) : (report x r s).line.stampCounter = s.line.stampCounter := by simp [report]

@[simp] theorem reportBoth_stamps (r : Report) : (reportBoth r s).line.stampCounter = s.line.stampCounter := by rw [reportBoth_line]

@[simp] theorem reportEndState_stamps (e : EndId) : (reportEndState e s).line.stampCounter = s.line.stampCounter := reportBoth_stamps s _

@[simp] theorem reportCall_stamps (i : CallIdx) (v : CallEvent) (n : CallReason) (b : Bool) (l : List LinkId) :
    (reportCall i v n b l s).line.stampCounter = s.line.stampCounter := (Soft.reportCall (ev := true) (on := true) i v n b l s).stamps

@[simp] theorem requestOnServing_stamps (i : CallIdx) (k : RequestKind) :
    (requestOnServing i k s).line.stampCounter = s.line.stampCounter := (Moves.requestOnServing (new := true) i k s).stamps

@[simp] theorem withdrawOffers_stamps (i : CallIdx) (r : WithdrawReason) (l : LinkSet) :
    (withdrawOffers i r l s).line.stampCounter = s.line.stampCounter := (Soft.withdrawOffers (ev := true) (on := true) i r l s).stamps

@[simp] theorem takeTrunk_stamps (x : LinkId) (t : Trunk) (u : TrunkUse) : (takeTrunk x t u s).line.stampCounter = s.line.stampCounter := by
  simp [takeTrunk]

@[simp] theorem leaveCall_stamps (x : LinkId) (i : CallIdx) : (leaveCall x i s).line.stampCounter = s.line.stampCounter :=
  ((Soft.removeParty (ev := true) (on := true) i x s).trans (.reportParties _ _ _ _)).stamps

@[simp] theorem clearing_stamps (i : CallIdx) (k : LiveCall) (l : List LinkId) (x : LinkId) :
    (clearing i k l x s).line.stampCounter = s.line.stampCounter := (Soft.clearing i k l x s).stamps

@[simp] theorem dismiss_stamps (i : CallIdx) (k : LiveCall) (x : LinkId) : (dismiss i k x s).line.stampCounter = s.line.stampCounter :=
  (Soft.dismiss (ev := true) i k x s).stamps

@[simp] theorem placeCall_stamps (x : LinkId) (i : CallIdx) (slot : Slot) (t : Trunk) :
    (placeCall x i slot t s).line.stampCounter = s.line.stampCounter := by
  have placed (u : State) : (memberLeftForCall settle slot (placeCommand slot .ring (setActivity slot .ringing none u))).line.stampCounter
      = u.line.stampCounter :=
    (Soft.andThen (ev := true) (on := true) (.memberLeftForCall .settle slot _) (.andThen (.placeCommand _ _ _) (.setActivity _ _ _ u))).stamps
  exact (placed _).trans (takeTrunk_stamps _ _ _ _)

@[simp] theorem offer_stamps (i : CallIdx) : (offer i s).line.stampCounter = s.line.stampCounter :=
  (Soft.offer (ev := true) (on := true) i s).stamps

@[simp] theorem ringExpires_stamps (i : CallIdx) (k : LiveCall) : (ringExpires i k s).line.stampCounter = s.line.stampCounter :=
  (Soft.ringExpires (ev := true) i k s).stamps

@[simp] theorem freeRecord_stamps (i : CallIdx) : (freeRecord i s).line.stampCounter = s.line.stampCounter :=
  (Soft.freeRecord (ev := true) i s).stamps

@[simp] theorem endGroup_stamps (g : GroupId) (r : EndReason) : (endGroup g r s).line.stampCounter = s.line.stampCounter :=
  (Soft.endGroup (ev := true) (on := true) g r s).stamps

@[simp] theorem startGroup_stamps (g : GroupId) (x : LinkId) (t : Trunk) : (startGroup g x t s).line.stampCounter = s.line.stampCounter := by
  have request (e : EndId) (u : State) : (requestIfServing g e u).line.stampCounter = u.line.stampCounter :=
    (Soft.of_ite (ev := true) (on := true) (.refl u) (.requestForGroup g e u)).stamps
  have told (i : Slot) (u : State) : (reportMember g none i u).line.stampCounter = u.line.stampCounter :=
    (Soft.reportMember (on := true) g none i u).stamps
  unfold startGroup
  dsimp only
  rw [settle_stamps, forEach_stamps told, forEach_stamps request, takeTrunk_stamps]
  rfl

@[simp] theorem windowExpires_stamps (g : GroupId) : (windowExpires g s).line.stampCounter = s.line.stampCounter :=
  (Soft.windowExpires (ev := true) (on := true) g s).stamps

@[simp] theorem lateExpires_stamps (g : GroupId) : (lateExpires g s).line.stampCounter = s.line.stampCounter :=
  (Soft.lateExpires (ev := true) (on := true) g s).stamps

@[simp] theorem changeEnd_stamps (e : EndId) (st : EndState) (r : EndReach) (c : EndCause) :
    (changeEnd e st r c s).line.stampCounter = s.line.stampCounter := by
  unfold changeEnd
  dsimp only
  split <;> rfl

@[simp] theorem clearTimers_stamps (e : EndId) : (clearTimers e s).line.stampCounter = s.line.stampCounter := rfl

@[simp] theorem endBurst_stamps (e : EndId) (x : BurstEnding) : (endBurst e x s).line.stampCounter = s.line.stampCounter :=
  (Soft.endBurst (ev := true) (on := true) e x s).stamps

@[simp] theorem abortEnd_stamps (e : EndId) (r : AbortReason) : (abortEnd e r s).line.stampCounter = s.line.stampCounter := endBurst_stamps s e _

@[simp] theorem stopEnd_stamps (e : EndId) : (stopEnd e s).line.stampCounter = s.line.stampCounter :=
  (Soft.stopEnd (ev := true) (on := true) e s).stamps

@[simp] theorem assignSegment_stamps (g : SegId) : (assignSegment g s).line.stampCounter = s.line.stampCounter :=
  (Soft.assignSegment (ev := true) g s).stamps

@[simp] theorem isolationAlarms_stamps (before : State) : (isolationAlarms before s).line.stampCounter = s.line.stampCounter :=
  (Soft.isolationAlarms (ev := true) (on := true) before s).stamps

@[simp] theorem goTesting_stamps (e : EndId) (c : EndCause) : (goTesting e c s).line.stampCounter = s.line.stampCounter := by
  simp [goTesting]

@[simp] theorem rebuild_stamps (g : SegId) : (rebuild g s).line.stampCounter = s.line.stampCounter :=
  (Soft.rebuild (ev := true) (on := true) g s).stamps

@[simp] theorem fixSegment_stamps (g : SegId) : (fixSegment g s).line.stampCounter = s.line.stampCounter :=
  (Soft.fixSegment (ev := true) (on := true) g s).stamps

end

/-! ## Requests -/

/-- Where the outcome of a command is a next state, the stamp counter is as it was. -/
def OutcomeUnstamped (s : State) (o : Host.Outcome State Fault Refusal) : Prop :=
  ∀ t, o = .next t → t.line.stampCounter = s.line.stampCounter

theorem OutcomeUnstamped.next {s t : State} (h : t.line.stampCounter = s.line.stampCounter) : OutcomeUnstamped s (.next t) :=
  fun _ e => Host.Outcome.next.inj e ▸ h

/-- The answers of a responder take no stamp, as a placed response does. -/
def UnstampedAnswers (answer : Responder) : Prop := ∀ r b s, (answer r b s).line.stampCounter = s.line.stampCounter

theorem requested_unstamped {x : LinkId} {tag : Byte} {r : Request} {act : Responder → State → State} (s : State)
    (h : ∀ answer, UnstampedAnswers answer → ∀ t, (act answer t).line.stampCounter = t.line.stampCounter) :
    OutcomeUnstamped s (requested x tag r act s) := by
  have answers : UnstampedAnswers (respond x tag (requestType r)) := fun _ _ _ => by simp [respond]
  have popped : (popIntake x s).line.stampCounter = s.line.stampCounter := by simp [popIntake]
  refine .next ?_
  unfold takeRequest
  split
  · dsimp only
    split
    · exact (answers _ _ _).trans popped
    · exact (h _ answers _).trans popped
  · rfl

section
variable {answer : Responder} (ha : UnstampedAnswers answer) {s : State}
include ha

theorem withCall_stamps {index generation : Nat} {act : CallIdx → LiveCall → State}
    (h : ∀ i k, (act i k).line.stampCounter = s.line.stampCounter) :
    (withCall index generation answer s act).line.stampCounter = s.line.stampCounter := by
  unfold withCall
  split
  · exact ha _ _ _
  · split
    · exact ha _ _ _
    · exact h _ _

theorem withTrunk_stamps {x : LinkId} {slot : Nat} {act : Trunk → State} (h : ∀ t, (act t).line.stampCounter = s.line.stampCounter) :
    (withTrunk x slot answer s act).line.stampCounter = s.line.stampCounter := by
  unfold withTrunk
  split
  · exact ha _ _ _
  · split
    · exact h _
    · exact ha _ _ _

theorem withEnd_stamps {code : Nat} {act : EndId → State} (h : ∀ e, (act e).line.stampCounter = s.line.stampCounter) :
    (withEnd code answer s act).line.stampCounter = s.line.stampCounter := by
  unfold withEnd
  split
  · exact ha _ _ _
  · exact h _

theorem clearCall_stamps (x : LinkId) (i : CallIdx) (k : LiveCall) : (clearCall x i k answer s).line.stampCounter = s.line.stampCounter := by
  simp [clearCall, ha .ok]

theorem endService_stamps (code setting : Nat) : (endService code setting answer s).line.stampCounter = s.line.stampCounter := by
  refine withEnd_stamps ha fun e => ?_
  split
  · exact ha _ _ _
  · split <;> simp [endOff, ha _ _ s]
  · split <;> simp [ha _ _ s]

theorem checkWrite_stamps {latched : Bool} {act : State} (h : act.line.stampCounter = s.line.stampCounter) :
    (checkWrite latched answer s act).line.stampCounter = s.line.stampCounter := by
  unfold checkWrite
  split
  · exact ha _ _ _
  · split
    · exact ha _ _ _
    · exact h

theorem acceptWrite_stamps (w : StoreWrite) (x : LinkId) (tag : Byte) (body : ResponseBody) :
    (acceptWrite w x tag body answer s).line.stampCounter = s.line.stampCounter := ha _ _ _

end

theorem acceptAnswer_stamps (x : LinkId) (i : CallIdx) (k : LiveCall) (t : Trunk) (s : State) :
    (acceptAnswer x i k t s).line.stampCounter = s.line.stampCounter := by simp [acceptAnswer]

theorem addParty_stamps (x : LinkId) (i : CallIdx) (k : LiveCall) (t : Trunk) (s : State) :
    (addParty x i k t s).line.stampCounter = s.line.stampCounter := by simp [addParty]

section
variable (x : LinkId) (tag : Byte) (s : State)

theorem execAnswer_unstamped (index generation slot : Nat) : OutcomeUnstamped s (execAnswer x tag index generation slot s) := by
  refine requested_unstamped s fun answer ha u => withCall_stamps ha fun i k => ?_
  split
  · exact ha _ _ _
  · split
    · exact ha _ _ _
    · exact withTrunk_stamps ha fun t => by rw [finish_stamps, acceptAnswer_stamps, ha]

theorem execJoin_unstamped (index generation slot : Nat) : OutcomeUnstamped s (execJoin x tag index generation slot s) := by
  refine requested_unstamped s fun answer ha u => withCall_stamps ha fun i k => ?_
  have joined : (if isParty x k then answer .alreadyParty .empty u
      else withTrunk x slot answer u fun t => finish (addParty x i k t (answer .ok .empty u))).line.stampCounter = u.line.stampCounter := by
    split
    · exact ha _ _ _
    · exact withTrunk_stamps ha fun t => by rw [finish_stamps, addParty_stamps, ha]
  cases k.state with
  | offered | ringing | clearing => exact ha _ _ _
  | connecting | connected | parked | lineLost => exact joined

theorem execLeave_unstamped (index generation : Nat) : OutcomeUnstamped s (execLeave x tag index generation s) := by
  refine requested_unstamped s fun answer ha u => withCall_stamps ha fun i k => ?_
  split
  · split
    · rw [finish_stamps, leaveCall_stamps, ha]
    · exact clearCall_stamps ha x i k
  · exact ha _ _ _

theorem execClear_unstamped (index generation : Nat) : OutcomeUnstamped s (execClear x tag index generation s) := by
  refine requested_unstamped s fun answer ha u => withCall_stamps ha fun i k => ?_
  have dismissed : (finish (dismiss i k x (answer .ok .empty u))).line.stampCounter = u.line.stampCounter := by simp [ha .ok]
  have cleared := clearCall_stamps ha (s := u) x i k
  have refused := ha .notAParty .empty u
  have cleared : (if isParty x k then clearCall x i k answer u else answer .notAParty .empty u).line.stampCounter = u.line.stampCounter := by
    split
    · exact cleared
    · exact refused
  cases k.state with
  | offered =>
    dsimp only
    split
    · exact dismissed
    · exact refused
  | lineLost =>
    dsimp only
    split
    · exact dismissed
    · exact cleared
  | ringing | connecting | connected | parked => exact cleared
  | clearing => exact refused

theorem execCallPost_unstamped (post slot : Nat) : OutcomeUnstamped s (execCallPost x tag post slot s) := by
  refine requested_unstamped s fun answer ha u => ?_
  split
  · split
    · exact ha _ _ _
    · split
      · exact ha _ _ _
      · split
        · exact ha _ _ _
        · split
          · rw [finish_stamps, placeCall_stamps, ha]
          · exact ha _ _ _
  · exact ha _ _ _

theorem execAnnounceStart_unstamped (group slot : Nat) : OutcomeUnstamped s (execAnnounceStart x tag group slot s) := by
  refine requested_unstamped s fun answer ha u => ?_
  split
  · exact ha _ _ _
  · split
    · exact ha _ _ _
    · split
      · exact ha _ _ _
      · exact withTrunk_stamps ha fun t => by rw [finish_stamps, startGroup_stamps, ha]

theorem execAnnounceStop_unstamped (group : Nat) : OutcomeUnstamped s (execAnnounceStop x tag group s) := by
  refine requested_unstamped s fun answer ha u => ?_
  split
  · exact ha _ _ _
  · split
    · rw [finish_stamps, endGroup_stamps, ha]
    · exact ha _ _ _

theorem execLineTest_unstamped (code : Nat) : OutcomeUnstamped s (execLineTest x tag code s) := by
  refine requested_unstamped s fun answer ha u => withEnd_stamps ha fun e => ?_
  split <;> simp [ha _ _ u]

theorem execLineStats_unstamped (code flag : Nat) : OutcomeUnstamped s (execLineStats x tag code flag s) := by
  refine requested_unstamped s fun answer ha u => withEnd_stamps ha fun e => ?_
  dsimp only
  split <;> exact ha _ _ u

theorem execPostTest_unstamped (post count pattern : Nat) : OutcomeUnstamped s (execPostTest x tag post count pattern s) := by
  refine requested_unstamped s fun answer ha u => ?_
  split
  · split
    · exact ha _ _ _
    · split
      · exact ha _ _ _
      · split
        · exact ha _ _ _
        · split
          · exact ha _ _ _
          · rw [finish_stamps]
            exact ha .ok .empty u
  · exact ha _ _ _

theorem execPostTestStop_unstamped (code : Nat) : OutcomeUnstamped s (execPostTestStop x tag code s) :=
  requested_unstamped s fun answer ha u => withEnd_stamps ha fun e => by rw [finish_stamps, endBurst_stamps, ha]

theorem execGroupResult_unstamped (group first : Nat) : OutcomeUnstamped s (execGroupResult x tag group first s) := by
  refine requested_unstamped s fun _ ha u => ?_
  split <;> exact ha _ _ u

theorem execQueryPost_unstamped (post : Nat) : OutcomeUnstamped s (execQueryPost x tag post s) := by
  refine requested_unstamped s fun _ ha u => ?_
  split <;> exact ha _ _ u

theorem execDirectoryRead_unstamped (kind index first : Nat) : OutcomeUnstamped s (execDirectoryRead x tag kind index first s) := by
  refine requested_unstamped s fun _ ha u => ?_
  split <;> exact ha _ _ u

/-! ## Writes -/

theorem execDirectoryWriteName_unstamped (post : Nat) (fields : RawName) :
    OutcomeUnstamped s (execDirectoryWriteName x tag post fields s) := by
  refine requested_unstamped s fun answer ha u => checkWrite_stamps ha ?_
  split
  · exact ha _ _ u
  · exact ha _ _ u
  · exact acceptWrite_stamps ha _ x tag _

theorem execDirectoryWritePlace_unstamped (post : Nat) (fields : RawPlace) :
    OutcomeUnstamped s (execDirectoryWritePlace x tag post fields s) := by
  refine requested_unstamped s fun answer ha u => checkWrite_stamps ha ?_
  split
  · exact ha _ _ u
  · split
    · exact ha _ _ u
    · split
      · exact ha _ _ u
      · split
        · exact ha _ _ u
        · split
          · exact ha _ _ u
          · exact acceptWrite_stamps ha _ x tag _

theorem execSiteWriteSegment_unstamped (seg : Nat) (fields : RawSegment) :
    OutcomeUnstamped s (execSiteWriteSegment x tag seg fields s) := by
  refine requested_unstamped s fun answer ha u => checkWrite_stamps ha ?_
  split
  · split
    · exact ha _ _ u
    · split
      · exact ha _ _ u
      · exact acceptWrite_stamps ha _ x tag _
  · exact ha _ _ u

theorem execSiteWriteGlobal_unstamped (fields : RawGlobal) : OutcomeUnstamped s (execSiteWriteGlobal x tag fields s) :=
  requested_unstamped s fun _ ha _ => checkWrite_stamps ha (acceptWrite_stamps ha _ x tag _)

theorem execGroupEdit_unstamped (group operation : Nat) (slots : List Nat) :
    OutcomeUnstamped s (execGroupEdit x tag group operation slots s) := by
  refine requested_unstamped s fun answer ha u => checkWrite_stamps ha ?_
  split
  · exact ha _ _ u
  · split
    · exact ha _ _ u
    · exact acceptWrite_stamps ha _ x tag _

theorem execStoreErase_unstamped (scope : Nat) : OutcomeUnstamped s (execStoreErase x tag scope s) := by
  refine requested_unstamped s fun answer ha u => checkWrite_stamps ha ?_
  split
  · exact ha _ _ u
  · split
    · exact ha _ _ u
    · exact acceptWrite_stamps ha _ x tag _

theorem setLatch_stamps (b : Bool) : (setLatch x b s).line.stampCounter = s.line.stampCounter := by simp [setLatch]

end

/-! ## Completions -/

section
variable (s : State)

theorem storeReady_stamps : (storeReady s).line.stampCounter = s.line.stampCounter := rfl

theorem fixOverflowTimers_stamps : (fixOverflowTimers s).line.stampCounter = s.line.stampCounter := by
  unfold fixOverflowTimers
  refine forEach_stamps (fun i u => ?_) _ s
  unfold fixOverflowTimer
  split
  · split <;> rfl
  · rfl

theorem placeEffects_stamps (i : Slot) (old : PostRow) : (placeEffects i old s).line.stampCounter = s.line.stampCounter := by
  unfold placeEffects
  dsimp only
  split
  · split
    · split
      · rfl
      · exact (Soft.andThen (ev := true) (on := true) (.callHopMoved i _) (.abortTarget i _ s)).stamps
    · rfl
    · rfl
  · exact (Soft.reachEffects i _ _ s).stamps

theorem placed_stamps (i : Slot) (p : PlaceForm) (r : PostRow) : (placed i p r s).line.stampCounter = s.line.stampCounter := by
  have row (u : State) (q : PostReach) : (placedRow i q u).line.stampCounter = u.line.stampCounter := rfl
  unfold placed
  dsimp only
  rw [isolationAlarms_stamps, fixOverflowTimers_stamps, settle_stamps, forEach_stamps (f := fixSegment) (fun g u => fixSegment_stamps u g), placeEffects_stamps,
    row, forEach_stamps fun g u => rebuild_stamps u g]

theorem rewriteEnd_stamps (fitted : Bool) (e : EndId) : (rewriteEnd fitted e s).line.stampCounter = s.line.stampCounter := by
  have cleared (u : State) : (clearEnd e u).line.stampCounter = u.line.stampCounter := rfl
  have changed (u : State) (c : Prop) [Decidable c] (st : EndState × EndReach) :
      (if c then u else changeEnd e st.1 st.2 .segmentWrite u).line.stampCounter = u.line.stampCounter := by
    split
    · rfl
    · exact changeEnd_stamps u _ _ _ _
  unfold rewriteEnd
  dsimp only
  split
  · exact (abortEnd_stamps _ _ _).trans ((cleared _).trans (changed s _ _))
  · exact (stopEnd_stamps _ _).trans ((abortEnd_stamps _ _ _).trans ((cleared _).trans (changed s _ _)))
  · exact (cleared _).trans (changed s _ _)
  · exact (cleared _).trans (changed s _ _)
  · exact (cleared _).trans (changed s _ _)

theorem segmentWritten_stamps (g : SegId) : (segmentWritten g s).line.stampCounter = s.line.stampCounter := by
  have told (before : State) (e : EndId) (u : State) : (reportRewritten before e u).line.stampCounter = u.line.stampCounter := by
    unfold reportRewritten
    split
    · rfl
    · exact reportEndState_stamps u e
  have emptied (u : State) (fitted : Bool) :
      (if fitted then u else forEach (endsOf g) emptyCommands u).line.stampCounter = u.line.stampCounter := by
    split
    · rfl
    · exact forEach_stamps (f := emptyCommands) (fun _ _ => rfl) _ u
  unfold segmentWritten
  dsimp only
  rw [isolationAlarms_stamps, fixOverflowTimers_stamps, forEach_stamps (told s), emptied, assignSegment_stamps, rebuild_stamps,
    forEach_stamps fun e u => rewriteEnd_stamps u _ e]

theorem directoryErased_stamps : (directoryErased s).line.stampCounter = s.line.stampCounter := by
  have reassigned (u : State) : (forEach (allFin 256) reassign u).line.stampCounter = u.line.stampCounter := by
    refine forEach_stamps (fun i v => ?_) _ u
    exact (Soft.reassign i v).stamps
  have fixed (u : State) : (forEach (allFin 8) fixSegment u).line.stampCounter = u.line.stampCounter := by
    refine forEach_stamps (fun g v => ?_) _ u
    exact fixSegment_stamps v g
  unfold directoryErased
  dsimp only
  rw [settle_stamps, fixed, reassigned]
  rfl

theorem abortAll_stamps : (abortAll s).line.stampCounter = s.line.stampCounter := by
  unfold abortAll
  refine forEach_stamps (fun e v => ?_) _ s
  exact abortEnd_stamps v e _

theorem eraseEnd_stamps (e : EndId) : (eraseEnd e s).line.stampCounter = s.line.stampCounter := by
  unfold eraseEnd
  split
  · rfl
  · exact (stopEnd_stamps _ _).trans ((abortEnd_stamps _ _ _).trans (changeEnd_stamps s _ _ _ _))

theorem reportErased_stamps (before : State) (e : EndId) : (reportErased before e s).line.stampCounter = s.line.stampCounter := by
  unfold reportErased
  split
  · rfl
  · exact reportEndState_stamps s e

theorem lowerCounts_stamps : (lowerCounts s).line.stampCounter = s.line.stampCounter := rfl

theorem erased_stamps (c : EraseScope) : (erased c s).line.stampCounter = s.line.stampCounter := by
  cases c with
  | groups => rfl
  | directory =>
    unfold erased
    dsimp only
    rw [directoryErased_stamps, abortAll_stamps]
  | all =>
    have ends (u : State) : (forEach allEnds eraseEnd u).line.stampCounter = u.line.stampCounter :=
      forEach_stamps (fun e v => eraseEnd_stamps v e) allEnds u
    have emptied (u : State) : (forEach allEnds emptyCommands u).line.stampCounter = u.line.stampCounter :=
      forEach_stamps (f := emptyCommands) (fun _ _ => rfl) allEnds u
    have told (u : State) : (forEach allEnds (reportErased s) u).line.stampCounter = u.line.stampCounter :=
      forEach_stamps (fun e v => reportErased_stamps v s e) allEnds u
    unfold erased
    dsimp only
    rw [lowerCounts_stamps, fixOverflowTimers_stamps, told, emptied, directoryErased_stamps, ends, abortAll_stamps]

end

theorem reportWritten_stamps (o : StoreOperation) (s : State) : (reportWritten o s).line.stampCounter = s.line.stampCounter := by
  rw [reportWritten_line]

theorem execNameWriteCompletion_unstamped (s : State) : OutcomeUnstamped s (execNameWriteCompletion s) := by
  unfold execNameWriteCompletion
  split
  · split
    · exact .next (reportWritten_stamps _ _)
    · exact .next rfl
  · exact .next rfl

theorem execPlaceCompletion_unstamped (s : State) : OutcomeUnstamped s (execPlaceCompletion s) := by
  unfold execPlaceCompletion
  split
  · split
    · exact .next (by rw [finish_stamps, storeReady_stamps, placed_stamps, reportWritten_stamps]; rfl)
    · exact .next rfl
  · exact .next rfl

theorem execSegmentWriteCompletion_unstamped (s : State) : OutcomeUnstamped s (execSegmentWriteCompletion s) := by
  unfold execSegmentWriteCompletion
  split
  · split
    · exact .next (by rw [finish_stamps, storeReady_stamps, segmentWritten_stamps, reportWritten_stamps]; rfl)
    · exact .next rfl
  · exact .next rfl

theorem execGlobalWriteCompletion_unstamped (s : State) : OutcomeUnstamped s (execGlobalWriteCompletion s) := by
  unfold execGlobalWriteCompletion
  split
  · split
    · exact .next (reportWritten_stamps _ _)
    · exact .next rfl
  · exact .next rfl

theorem execGroupEditCompletion_unstamped (s : State) : OutcomeUnstamped s (execGroupEditCompletion s) := by
  unfold execGroupEditCompletion
  split
  · split
    · exact .next (reportWritten_stamps _ _)
    · exact .next rfl
  · exact .next rfl

theorem execEraseCompletion_unstamped (s : State) : OutcomeUnstamped s (execEraseCompletion s) := by
  unfold execEraseCompletion
  split
  · split
    · exact .next (by rw [finish_stamps, storeReady_stamps, erased_stamps, reportWritten_stamps]; rfl)
    · exact .next rfl
  · exact .next rfl

/-! ## Ports, measurements and expiries -/

theorem execOverflowTimerExpiry_unstamped (i : CallIdx) (s : State) : OutcomeUnstamped s (execOverflowTimerExpiry i s) := by
  unfold execOverflowTimerExpiry
  split
  · exact .next (offer_stamps _ _)
  · exact .next rfl

theorem execRingTimerExpiry_unstamped (i : CallIdx) (s : State) : OutcomeUnstamped s (execRingTimerExpiry i s) := by
  unfold execRingTimerExpiry
  split
  · exact .next ((finish_stamps _).trans (ringExpires_stamps _ _ _))
  · exact .next rfl

theorem execClearConfirmTimerExpiry_unstamped (i : CallIdx) (s : State) : OutcomeUnstamped s (execClearConfirmTimerExpiry i s) := by
  unfold execClearConfirmTimerExpiry
  split
  · exact .next ((finish_stamps _).trans (freeRecord_stamps _ _))
  · exact .next rfl

theorem execAcknowledgeWindowExpiry_unstamped (g : GroupId) (s : State) : OutcomeUnstamped s (execAcknowledgeWindowExpiry g s) := by
  unfold execAcknowledgeWindowExpiry
  split
  · exact .next ((finish_stamps _).trans (windowExpires_stamps _ _))
  · exact .next rfl

theorem execAcknowledgeLateExpiry_unstamped (g : GroupId) (s : State) : OutcomeUnstamped s (execAcknowledgeLateExpiry g s) := by
  unfold execAcknowledgeLateExpiry
  split
  · exact .next ((finish_stamps _).trans (lateExpires_stamps _ _))
  · exact .next rfl

theorem failedPoll_stamps (e : EndId) (i : Slot) (s : State) : (failedPoll e i s).line.stampCounter = s.line.stampCounter := by
  have failed : (postFails i s).line.stampCounter = s.line.stampCounter := by
    rw [postFails_line]
    rfl
  unfold failedPoll suspectTest
  split
  · exact (goTesting_stamps _ _ _).trans failed
  · exact failed

theorem pollEnds_failure_stamps (e : EndId) (i : Slot) (hop : Nat) (carried : Option (Command × Nat)) {o : PollOutcome}
    (ho : o = .corrupt ∨ o = .silent) (s : State) : (pollEnds e i hop carried o s).line.stampCounter = s.line.stampCounter := by
  by_cases there : (s.post i).reach = .served e ∧ (s.post i).hop = hop
  · rw [pollEnds_failed there.1 there.2 carried ho, finish_stamps, failedPoll_stamps, pollClosed_stamps]
  · rw [pollEnds_moved (not_and_or.mp there), finish_stamps]
    rcases ho with rfl | rfl <;> rfl

theorem execPollWindowExpiry_unstamped (e : EndId) (s : State) : OutcomeUnstamped s (execPollWindowExpiry e s) := by
  unfold execPollWindowExpiry
  split
  · exact .next (pollEnds_failure_stamps e _ _ _ (.inr rfl) s)
  · exact .next rfl

theorem testCounted_stamps (e : EndId) (counted : Bool) (o : EchoOutcome) (s : State) :
    (testCounted e counted o s).line.stampCounter = s.line.stampCounter := by
  unfold testCounted endIfDone
  split
  · split
    · split
      · exact endBurst_stamps _ _ _
      · rfl
    · rfl
    · rfl
  · rfl

theorem execTestFrameWindowExpiry_unstamped (e : EndId) (s : State) : OutcomeUnstamped s (execTestFrameWindowExpiry e s) := by
  unfold execTestFrameWindowExpiry
  split
  · exact .next ((finish_stamps _).trans (testCounted_stamps _ _ _ _))
  · exact .next rfl

theorem execLoopLossEvent_unstamped (e : EndId) (s : State) : OutcomeUnstamped s (execLoopLossEvent e s) := by
  unfold execLoopLossEvent
  split
  · dsimp only
    split
    · exact .next ((finish_stamps _).trans (goTesting_stamps _ _ _))
    · exact .next rfl
  · exact .next rfl

theorem execMeasurementBegin_unstamped (e : EndId) (s : State) : OutcomeUnstamped s (execMeasurementBegin e s) := by
  unfold execMeasurementBegin
  split
  · exact .next (finish_stamps _)
  · exact .next rfl

theorem takeResult_stamps (e : EndId) (kind : MeasKind) (delay : Nat) (coupled : Option SegId) (s : State) :
    (takeResult e kind delay coupled s).line.stampCounter = s.line.stampCounter := by
  have recorded : (takeRecord e kind delay coupled s).line.stampCounter = s.line.stampCounter := changeEnd_stamps s _ _ _ _
  unfold takeResult
  dsimp only
  rw [isolationAlarms_stamps, reportEndState_stamps, assignSegment_stamps]
  split
  · exact (stopEnd_stamps _ _).trans recorded
  · exact recorded

theorem execMeasurementResult_unstamped (e : EndId) (kind : MeasKind) (delay : Nat) (coupled : Option SegId) (s : State) :
    OutcomeUnstamped s (execMeasurementResult e kind delay coupled s) := by
  unfold execMeasurementResult
  split
  · split
    · exact .next (finish_stamps _)
    · exact .next ((finish_stamps _).trans (takeResult_stamps _ _ _ _ _))
  · exact .next rfl

theorem execRetryWaitExpiry_unstamped (e : EndId) (s : State) : OutcomeUnstamped s (execRetryWaitExpiry e s) := by
  unfold execRetryWaitExpiry
  split
  · exact .next (finish_stamps _)
  · exact .next rfl

theorem execRetestTimerExpiry_unstamped (e : EndId) (s : State) : OutcomeUnstamped s (execRetestTimerExpiry e s) := by
  have expired (t : State) : (retestExpires e t).line.stampCounter = t.line.stampCounter := by
    unfold retestExpires
    split
    · exact goTesting_stamps _ _ _
    · split
      · rfl
      · exact goTesting_stamps _ _ _
    · rfl
    · rfl
    · rfl
  unfold execRetestTimerExpiry
  split
  · exact .next ((finish_stamps _).trans (expired _))
  · exact .next rfl

/-! ## Links and power -/

section
variable (x : LinkId) (s : State)

theorem modLink_stamps (f : LinkRecord → LinkRecord) : (s.modLink x f).line.stampCounter = s.line.stampCounter := by rw [modLink_line]

theorem takeFrame_stamps (f : Frame) : (takeFrame x f s).line.stampCounter = s.line.stampCounter := by
  have started : (startSilence x s).line.stampCounter = s.line.stampCounter := modLink_stamps x s _
  unfold takeFrame
  dsimp only
  split
  · exact started
  · split
    · exact (modLink_stamps x _ _).trans started
    · exact (modLink_stamps x _ _).trans started

theorem linkUp_stamps : (linkUp x s).line.stampCounter = s.line.stampCounter := by
  unfold linkUp
  dsimp only
  rw [(Soft.offerAllTo (ev := true) (on := true) x _).stamps]
  split <;> simp [startSilence]

theorem execFrameReceived_unstamped (octets : List Byte) : OutcomeUnstamped s (execFrameReceived x octets s) := by
  unfold execFrameReceived
  split
  · split
    · refine .next ((takeFrame_stamps x _ _).trans ?_)
      split
      · rfl
      · exact linkUp_stamps x s
    · exact .next (modLink_stamps x s _)
  · exact .next rfl

theorem linkDown_stamps : (linkDown x s).line.stampCounter = s.line.stampCounter := by
  have lost (u : State) : (forEach (allFin 16) (sourceLost x) u).line.stampCounter = u.line.stampCounter := by
    refine forEach_stamps (fun g v => ?_) _ u
    exact (Soft.sourceLost (ev := true) (on := true) x g v).stamps
  have freed (u : State) : (freeTrunks x u).line.stampCounter = u.line.stampCounter := modLink_stamps x u _
  have closed : (closeLink x s).line.stampCounter = s.line.stampCounter := modLink_stamps x s _
  unfold linkDown
  rw [freed, lost, (Soft.callsLoseLink (ev := true) x _).stamps, closed]

theorem execLossOfFraming_unstamped : OutcomeUnstamped s (execLossOfFraming x s) := by
  unfold execLossOfFraming
  split
  · exact .next ((finish_stamps _).trans (linkDown_stamps x s))
  · exact .next rfl

theorem execSilenceTimerExpiry_unstamped : OutcomeUnstamped s (execSilenceTimerExpiry x s) := by
  unfold execSilenceTimerExpiry
  split
  · split
    · exact .next ((finish_stamps _).trans (linkDown_stamps x _))
    · exact .next rfl
  · exact .next rfl

theorem execReportFrameSent_unstamped : OutcomeUnstamped s (execReportFrameSent x s) := by
  unfold execReportFrameSent
  split
  · split <;> exact .next (modLink_stamps x s _)
  · exact .next rfl

theorem execBadRequestFrame_unstamped (tag typ : Byte) : OutcomeUnstamped s (execBadRequestFrame x tag typ s) := by
  unfold execBadRequestFrame
  split
  · exact .next ((modLink_stamps x _ _).trans (modLink_stamps x s _))
  · exact .next rfl

end

theorem execStartUpLoadEnd_unstamped (s : State) : OutcomeUnstamped s (execStartUpLoadEnd s) := by
  have rebuilt (u : State) : (forEach (allFin 8) rebuild u).line.stampCounter = u.line.stampCounter := by
    refine forEach_stamps (fun g v => ?_) _ u
    exact rebuild_stamps v g
  have started (u : State) : (forEach allEnds startEnd u).line.stampCounter = u.line.stampCounter := by
    refine forEach_stamps (fun e v => ?_) _ u
    unfold startEnd
    split
    · exact changeEnd_stamps v _ _ _ _
    · rfl
  have assigned (u : State) : (forEach (allFin 8) assignSegment u).line.stampCounter = u.line.stampCounter := by
    refine forEach_stamps (fun g v => ?_) _ u
    exact assignSegment_stamps v g
  have told (u : State) : (forEach allEnds reportStarted u).line.stampCounter = u.line.stampCounter := by
    refine forEach_stamps (fun e v => ?_) _ u
    unfold reportStarted
    split
    · exact reportEndState_stamps v e
    · rfl
  have released (x : LinkId) (u : State) : (releaseStart x u).line.stampCounter = u.line.stampCounter := by
    unfold releaseStart
    split
    · exact (report_stamps _ _ _).trans (modLink_stamps x u _)
    · rfl
  unfold execStartUpLoadEnd
  split
  · refine .next ?_
    rw [finish_stamps, told, released, released, storeReady_stamps, assigned, started, rebuilt]
  · exact .next rfl

/-! ## What a good reply takes (R46, R47, R108) -/

section
variable (i : Slot) (s : State)

theorem passCallEvent_stamps (b : Button) : (passCallEvent i b s).line.stampCounter = s.line.stampCounter + 1 := by
  unfold passCallEvent
  dsimp only
  rw [(Soft.abortTarget (ev := true) (on := true) i _ _).stamps, (Soft.callEvent (ev := true) i b _ _).stamps]
  rfl

/-- The reply does not tell of a call event, or the one that it tells of takes a stamp. -/
theorem hookAndButton_stamps (r : Reply) :
    (hookAndButton i r.hook r.button s).line.stampCounter = s.line.stampCounter + if tellsCallEvent s i r then 1 else 0 := by
  cases hook : r.hook with
  | on =>
    have quiet : tellsCallEvent s i r = false := by simp [tellsCallEvent, hook]
    rw [quiet, if_neg Bool.false_ne_true, add_zero]
    cases row : (s.post i).hook with
    | on =>
      rw [hookAndButton_on_on row]
      rfl
    | off =>
      rw [hookAndButton_off_on row, (Soft.onHook (ev := true) i _).stamps]
      rfl
  | off =>
    by_cases event : (s.post i).hook = .on ∨ r.button ≠ (s.post i).button
    · have tells : tellsCallEvent s i r = true := by simp [tellsCallEvent, hook, event]
      rw [hookAndButton_event event, passCallEvent_stamps, if_pos tells]
      rfl
    · rw [not_or, not_not] at event
      have quiet : tellsCallEvent s i r = false := by simp [tellsCallEvent, hook, event]
      have row : (s.post i).hook = .off := by
        cases h : (s.post i).hook with
        | on => exact absurd h event.1
        | off => rfl
      rw [hookAndButton_same row event.2, quiet, if_neg Bool.false_ne_true, add_zero]
      rfl

theorem ringRefused_stamps : (ringRefused i s).line.stampCounter =
    s.line.stampCounter + if (s.callOf i).bind s.callState = some .ringing then 1 else 0 := by
  unfold ringRefused
  cases hc : s.callOf i with
  | none => simp
  | some c =>
    by_cases ringing : s.callState c = some .ringing
    · simp only [ringing, Option.bind_some, if_pos]
      exact (Soft.answeredByPost (ev := true) (on := true) c _ (takeStamp s)).stamps
    · simp [ringing]

theorem connectDone_stamps (ch : Chan) : (connectDone i ch s).line.stampCounter = s.line.stampCounter := by
  unfold connectDone
  split
  · split
    · split
      · exact reportCall_stamps _ _ _ _ _ _
      · rfl
    · rfl
  · rfl

theorem releaseDone_stamps : (releaseDone i s).line.stampCounter = s.line.stampCounter := by
  unfold releaseDone
  split
  · split
    · exact freeRecord_stamps _ _
    · rfl
  · rfl

/-- The result of a command takes a stamp when it refuses the RING of a RINGING call. -/
theorem commandResult_stamps (c : Command) (result : CommandResult) : (commandResult i c result s).line.stampCounter =
    s.line.stampCounter + if c = .ring ∧ result = .offHook ∧ (s.callOf i).bind s.callState = some .ringing then 1 else 0 := by
  cases c with
  | connect ch => simpa [commandResult] using connectDone_stamps i s ch
  | ring =>
    by_cases refused : result = .offHook
    · simpa [commandResult, refused] using ringRefused_stamps i s
    · simp [commandResult, refused]
  | release => simpa [commandResult] using releaseDone_stamps i s
  | announce ch => simpa [commandResult] using (Soft.announceResult (ev := true) (on := true) i ch result s).stamps
  | lampOn | lampOff | announceEnd => simp [commandResult]

theorem passResult_stamps (e : EndId) (carried : Option (Command × Nat)) (r : Reply) :
    (passResult e i carried r.result s).line.stampCounter = s.line.stampCounter + if answersRing s i carried r then 1 else 0 := by
  cases carried with
  | none => simp [passResult, answersRing]
  | some ca =>
    obtain ⟨c, age⟩ := ca
    cases result : r.result with
    | none => simp [passResult, answersRing, result]
    | some result' =>
      simp only [passResult, answersRing, result, commandResult_stamps, Option.map_some, Option.some.injEq, Bool.and_eq_true,
        decide_eq_true_eq, and_assoc]
      rfl

end

theorem liveCall_congr {s t : State} (h : t.calls = s.calls) : t.liveCall = s.liveCall := funext fun c => by
  rw [State.liveCall, State.record, h]
  rfl

theorem callOf_congr {s t : State} (h : t.calls = s.calls) (i : Slot) : t.callOf i = s.callOf i := by
  simp only [State.callOf, liveCall_congr h]

theorem answersRing_congr {s t : State} (h : t.calls = s.calls) (i : Slot) (carried : Option (Command × Nat)) (r : Reply) :
    answersRing t i carried r = answersRing s i carried r := by
  have states : t.callState = s.callState := funext fun c => by rw [State.callState, liveCall_congr h]; rfl
  simp only [answersRing, callOf_congr h, states]

theorem tellsCallEvent_congr {s t : State} {i : Slot} (hook : (t.post i).hook = (s.post i).hook) (button : (t.post i).button = (s.post i).button)
    (r : Reply) : tellsCallEvent t i r = tellsCallEvent s i r := by simp only [tellsCallEvent, hook, button]

theorem Noticed.tells {n : Nat} {s t : State} (h : Noticed n s t) (i : Slot) (r : Reply) : tellsCallEvent t i r = tellsCallEvent s i r := by
  obtain ⟨-, -, hook, button, -⟩ := h.row i
  exact tellsCallEvent_congr hook button r

theorem goodPoll_stamps (e : EndId) (i : Slot) (carried : Option (Command × Nat)) (r : Reply) (s : State) :
    (goodPoll e i carried r s).line.stampCounter =
      s.line.stampCounter + (if answersRing s i carried r then 1 else 0) + if tellsCallEvent s i r then 1 else 0 := by
  have steps := noted_noticed e i r s
  have passed := (Undisturbed.passResult e i carried r.result (noted e i r s)).sensed i
  have tells := (tellsCallEvent_congr passed.1 passed.2 r).trans (steps.tells i r)
  rw [goodPoll_eq, hookAndButton_stamps, tells, passResult_stamps, noted_stamps, answersRing_congr steps.kept.calls]

/-- The stamp counter after a good reply to a poll. -/
theorem pollEnds_good_stamps (e : EndId) (i : Slot) (hop : Nat) (carried : Option (Command × Nat)) (r : Reply) (s : State) :
    (pollEnds e i hop carried (.good r) s).line.stampCounter =
      if (s.post i).reach = .served e ∧ (s.post i).hop = hop then
        s.line.stampCounter + (if answersRing s i carried r then 1 else 0) + if tellsCallEvent s i r then 1 else 0
      else s.line.stampCounter := by
  by_cases there : (s.post i).reach = .served e ∧ (s.post i).hop = hop
  · rw [pollEnds_good there.1 there.2, finish_stamps, goodPoll_stamps, if_pos there]
    rfl
  · rw [pollEnds_moved (not_and_or.mp there), finish_stamps, if_neg there, movedPoll, countMismatch_eq]
    rfl

theorem testCounted_sensed (e : EndId) (counted : Bool) (o : EchoOutcome) (s : State) (i : Slot) :
    ((testCounted e counted o s).post i).hook = (s.post i).hook ∧ ((testCounted e counted o s).post i).button = (s.post i).button := by
  unfold testCounted endIfDone
  split
  · split
    · split
      · exact (Moves.endBurst (homes := true) (new := true) e .done _).undisturbed.sensed i
      · exact ⟨rfl, rfl⟩
    · exact ⟨rfl, rfl⟩
    · exact ⟨rfl, rfl⟩
  · exact ⟨rfl, rfl⟩

theorem reread_stamps (e : EndId) (i : Slot) (r : Reply) (s : State) : (reread e i r s).line.stampCounter = s.line.stampCounter :=
  ((reread_noticed e i r s).soft true true).stamps

/-- The stamp counter after a reply to a test frame. -/
theorem execTestFrameReply_stamps {e : EndId} {os : List Byte} {s : State} {i : Slot} {hop : Nat} {n : BitVec 16} {p : Pattern}
    {counted : Bool} (hp : s.powered = true) (ht : (s.port e).transaction = some (.test i hop n p counted)) :
    ∃ t, exec (.testFrameReply e os) s = .next t ∧ t.line.stampCounter = match testReplyOf os with
      | some r => s.line.stampCounter + if tellsCallEvent s i r then 1 else 0
      | none => s.line.stampCounter := by
  have counts := testCounted_stamps e counted (echoOutcome n p (testReplyOf os)) (endTransaction e s)
  have sensed := testCounted_sensed e counted (echoOutcome n p (testReplyOf os)) (endTransaction e s) i
  simp only [exec, execTestFrameReply, hp, ht, Host.Outcome.next.injEq, exists_eq_left', finish_stamps]
  cases reply : testReplyOf os with
  | none =>
    rw [reply] at counts
    exact counts
  | some r =>
    rw [reply] at counts sensed
    have tells := tellsCallEvent_congr sensed.1 sensed.2 r
    dsimp only
    rw [goodTest_eq, hookAndButton_stamps, (reread_noticed e i r _).tells, tells, reread_stamps, counts]
    rfl

/-! ## The order of stamps -/

theorem earlier_iff (a b : Stamp) : earlier a b = true ↔ 1 ≤ (b - a).toNat ∧ (b - a).toNat ≤ 2147483647 := by simp [earlier]

theorem not_earlier_of_earlier {a b : Stamp} (h : earlier a b = true) : earlier b a = false := by
  rw [earlier_iff] at h
  rw [Bool.eq_false_iff, ne_eq, earlier_iff]
  have opposite : (a - b).toNat = (2 ^ 32 - (b - a).toNat) % 2 ^ 32 := by bv_omega
  omega

theorem earlier_add {n : Nat} (a : Stamp) (h1 : 1 ≤ n) (h2 : n ≤ 2147483647) : earlier a (a + BitVec.ofNat 32 n) = true := by
  have step : (a + BitVec.ofNat 32 n - a).toNat = n := by
    rw [add_sub_cancel_left, BitVec.toNat_ofNat]
    omega
  rw [earlier_iff, step]
  exact ⟨h1, h2⟩

/-! ## The advances of the counter -/

/-- What O25 says of the counter after a command: it is as it was, a good reply took a stamp of it, or power has gone. -/
def StampStep (c : Instr) (s t : State) : Prop :=
  t.line.stampCounter = s.line.stampCounter
    ∨ (∃ e os i hop carried r, c = .pollReply e os ∧ (s.port e).transaction = some (.poll i hop carried)
        ∧ pollReplyOf carried.isSome os = some r ∧ (answersRing s i carried r = true ∨ tellsCallEvent s i r = true))
    ∨ (∃ e os i hop n p counted r, c = .testFrameReply e os ∧ (s.port e).transaction = some (.test i hop n p counted)
        ∧ testReplyOf os = some r ∧ tellsCallEvent s i r = true)
    ∨ ((∃ n, c = .powerOnReset n ∨ c = .powerLoss n) ∧ t.line.stampCounter = 0)

theorem StampStep.of_unstamped {c : Instr} {s : State} (h : OutcomeUnstamped s (exec c s)) : ∀ t, exec c s = .next t → StampStep c s t :=
  fun t ht => .inl (h t ht)

theorem pollReply_stampStep (e : EndId) (os : List Byte) (s t : State) (h : exec (.pollReply e os) s = .next t) :
    StampStep (.pollReply e os) s t := by
  have exec_eq : exec (.pollReply e os) s = execPollReply e os s := rfl
  rw [exec_eq, execPollReply] at h
  split at h
  · next i hop carried hp ht =>
    cases Host.Outcome.next.inj h
    cases reply : pollReplyOf carried.isSome os with
    | none =>
      rw [pollOutcome_of_none reply]
      exact .inl (pollEnds_failure_stamps e i hop carried (.inl rfl) s)
    | some r =>
      rw [pollOutcome_of_some reply]
      by_cases takes : answersRing s i carried r = true ∨ tellsCallEvent s i r = true
      · exact .inr (.inl ⟨e, os, i, hop, carried, r, rfl, ht, reply, takes⟩)
      · rw [not_or, Bool.not_eq_true, Bool.not_eq_true] at takes
        refine .inl ?_
        rw [pollEnds_good_stamps, takes.1, takes.2]
        simp
  · cases Host.Outcome.next.inj h
    exact .inl rfl

theorem testFrameReply_stampStep (e : EndId) (os : List Byte) (s t : State) (h : exec (.testFrameReply e os) s = .next t) :
    StampStep (.testFrameReply e os) s t := by
  by_cases flight : ∃ i hop n p counted, s.powered = true ∧ (s.port e).transaction = some (.test i hop n p counted)
  · obtain ⟨i, hop, n, p, counted, hp, ht⟩ := flight
    obtain ⟨t', ht', stamps⟩ := execTestFrameReply_stamps (os := os) hp ht
    cases Host.Outcome.next.inj (ht'.symm.trans h)
    cases reply : testReplyOf os with
    | none =>
      rw [reply] at stamps
      exact .inl stamps
    | some r =>
      rw [reply] at stamps
      dsimp only at stamps
      cases tells : tellsCallEvent s i r with
      | true => exact .inr (.inr (.inl ⟨e, os, i, hop, n, p, counted, r, rfl, ht, reply, tells⟩))
      | false =>
        rw [tells] at stamps
        exact .inl (by simpa using stamps)
  · have exec_eq : exec (.testFrameReply e os) s = execTestFrameReply e os s := rfl
    rw [exec_eq, execTestFrameReply] at h
    split at h
    · next i hop n p counted hp ht => exact absurd ⟨i, hop, n, p, counted, hp, ht⟩ flight
    · cases Host.Outcome.next.inj h
      exact .inl rfl

theorem powerLoss_stampStep (n : Nat) (s t : State) (h : exec (.powerLoss n) s = .next t) : StampStep (.powerLoss n) s t := by
  have exec_eq : exec (.powerLoss n) s = execPowerLoss n s := rfl
  rw [exec_eq, execPowerLoss] at h
  split at h
  · cases Host.Outcome.next.inj h
    exact .inr (.inr (.inr ⟨⟨n, .inr rfl⟩, rfl⟩))
  · cases Host.Outcome.next.inj h
    exact .inl rfl

theorem exec_stampStep (c : Instr) (s : State) : ∀ t, exec c s = .next t → StampStep c s t := by
  cases c with
  | powerOnReset n => exact fun t h => .inr (.inr (.inr ⟨⟨n, .inl rfl⟩, Host.Outcome.next.inj h ▸ rfl⟩))
  | powerLoss n => exact powerLoss_stampStep n s
  | pollReply e os => exact pollReply_stampStep e os s
  | testFrameReply e os => exact testFrameReply_stampStep e os s
  | startUpLoadEnd => exact .of_unstamped (execStartUpLoadEnd_unstamped s)
  | frameReceived x os => exact .of_unstamped (execFrameReceived_unstamped x s os)
  | lossOfFraming x => exact .of_unstamped (execLossOfFraming_unstamped x s)
  | silenceTimerExpiry x => exact .of_unstamped (execSilenceTimerExpiry_unstamped x s)
  | reportFrameSent x => exact .of_unstamped (execReportFrameSent_unstamped x s)
  | badRequestFrame x tag typ => exact .of_unstamped (execBadRequestFrame_unstamped x s tag typ)
  | answer x tag i g n => exact .of_unstamped (execAnswer_unstamped x tag s i g n)
  | join x tag i g n => exact .of_unstamped (execJoin_unstamped x tag s i g n)
  | leave x tag i g => exact .of_unstamped (execLeave_unstamped x tag s i g)
  | clear x tag i g => exact .of_unstamped (execClear_unstamped x tag s i g)
  | callPost x tag p n => exact .of_unstamped (execCallPost_unstamped x tag s p n)
  | queryCalls x tag n => exact .of_unstamped (requested_unstamped s fun _ ha u => ha _ _ u)
  | announceStart x tag g n => exact .of_unstamped (execAnnounceStart_unstamped x tag s g n)
  | announceStop x tag g => exact .of_unstamped (execAnnounceStop_unstamped x tag s g)
  | groupEdit x tag g o l => exact .of_unstamped (execGroupEdit_unstamped x tag s g o l)
  | groupResult x tag g n => exact .of_unstamped (execGroupResult_unstamped x tag s g n)
  | endServiceOff x tag n f => exact .of_unstamped (requested_unstamped s fun _ ha _ => endService_stamps ha n f)
  | endServiceOn x tag n => exact .of_unstamped (requested_unstamped s fun _ ha _ => endService_stamps ha n 1)
  | lineTest x tag n => exact .of_unstamped (execLineTest_unstamped x tag s n)
  | lineStats x tag n f => exact .of_unstamped (execLineStats_unstamped x tag s n f)
  | postTest x tag p n f => exact .of_unstamped (execPostTest_unstamped x tag s p n f)
  | postTestStop x tag n => exact .of_unstamped (execPostTestStop_unstamped x tag s n)
  | queryPost x tag p => exact .of_unstamped (execQueryPost_unstamped x tag s p)
  | queryEnd x tag n => exact .of_unstamped (requested_unstamped s fun _ ha u => withEnd_stamps ha fun _ => ha _ _ u)
  | writeEnable x tag => exact .of_unstamped (requested_unstamped s fun _ ha u => (setLatch_stamps x _ true).trans (ha _ _ u))
  | writeDisable x tag => exact .of_unstamped (requested_unstamped s fun _ ha u => (setLatch_stamps x _ false).trans (ha _ _ u))
  | directoryWriteName x tag p f => exact .of_unstamped (execDirectoryWriteName_unstamped x tag s p f)
  | directoryWritePlace x tag p f => exact .of_unstamped (execDirectoryWritePlace_unstamped x tag s p f)
  | siteWriteSegment x tag g f => exact .of_unstamped (execSiteWriteSegment_unstamped x tag s g f)
  | siteWriteGlobal x tag f => exact .of_unstamped (execSiteWriteGlobal_unstamped x tag s f)
  | storeErase x tag n => exact .of_unstamped (execStoreErase_unstamped x tag s n)
  | directoryRead x tag k i n => exact .of_unstamped (execDirectoryRead_unstamped x tag s k i n)
  | nameWriteCompletion => exact .of_unstamped (execNameWriteCompletion_unstamped s)
  | placeCompletion => exact .of_unstamped (execPlaceCompletion_unstamped s)
  | segmentWriteCompletion => exact .of_unstamped (execSegmentWriteCompletion_unstamped s)
  | globalWriteCompletion => exact .of_unstamped (execGlobalWriteCompletion_unstamped s)
  | groupEditCompletion => exact .of_unstamped (execGroupEditCompletion_unstamped s)
  | eraseCompletion => exact .of_unstamped (execEraseCompletion_unstamped s)
  | pollWindowExpiry e => exact .of_unstamped (execPollWindowExpiry_unstamped e s)
  | testFrameWindowExpiry e => exact .of_unstamped (execTestFrameWindowExpiry_unstamped e s)
  | loopLossEvent e => exact .of_unstamped (execLoopLossEvent_unstamped e s)
  | loopCurrentRestored e => exact .of_unstamped (.next rfl)
  | measurementBegin e => exact .of_unstamped (execMeasurementBegin_unstamped e s)
  | measurementResult e k d g => exact .of_unstamped (execMeasurementResult_unstamped e k d g s)
  | retryWaitExpiry e => exact .of_unstamped (execRetryWaitExpiry_unstamped e s)
  | retestTimerExpiry e => exact .of_unstamped (execRetestTimerExpiry_unstamped e s)
  | overflowTimerExpiry i => exact .of_unstamped (execOverflowTimerExpiry_unstamped i s)
  | ringTimerExpiry i => exact .of_unstamped (execRingTimerExpiry_unstamped i s)
  | clearConfirmTimerExpiry i => exact .of_unstamped (execClearConfirmTimerExpiry_unstamped i s)
  | acknowledgeWindowExpiry g => exact .of_unstamped (execAcknowledgeWindowExpiry_unstamped g s)
  | acknowledgeLateExpiry g => exact .of_unstamped (execAcknowledgeLateExpiry_unstamped g s)

/-- Settles O25: the order of stamps is arithmetic, every command but the replies leaves the counter, and the replies are counted. -/
theorem stampsCountAndOrderEvents : Obligations.stampsCountAndOrderEvents := by
  refine ⟨fun a b n => ⟨earlier_iff a b, not_earlier_of_earlier, earlier_add a⟩, exec_stampStep, ?_, ?_⟩
  · intro e os s i hop carried r hp ht reply
    refine ⟨_, execPollReply_of_poll hp ht os, ?_⟩
    rw [pollOutcome_of_some reply, pollEnds_good_stamps]
  · intro e os s i hop n p counted r hp ht reply
    obtain ⟨t, exec_eq, stamps⟩ := execTestFrameReply_stamps (os := os) hp ht
    exact ⟨t, exec_eq, by rw [stamps, reply]⟩

end Sys2Proof.Machine
end

