-- ==== Sys2Proof/Proofs/RowSteps.lean ====
section
/-! PROOF. The steps of a good reply that update the row of its post (R43 to R45, R48), each as the state that it makes of the one before; they
read no port and no counter, so that the outcome of the poll may be counted, and its transaction ended, before or after them. -/

namespace Sys2Proof.Machine

/-! ## The steps of R48 as updates of a state whose ports and counters they do not read -/

/-- The state with other ports and counters. -/
def State.withGauges (p : Vector Port 16) (c : Vector Counters 16) (s : State) : State := s.onLine fun l => { l with ports := p, counters := c }

section
variable (p : Vector Port 16) (c : Vector Counters 16) (s : State) (i : Slot)

theorem report_withGauges (x : LinkId) (r : Report) : report x r (s.withGauges p c) = (report x r s).withGauges p c := by cases x <;> rfl

theorem reportBoth_withGauges (r : Report) : reportBoth r (s.withGauges p c) = (reportBoth r s).withGauges p c := by
  simp only [reportBoth, report_withGauges]

theorem modPost_withGauges (f : PostRow → PostRow) : (s.withGauges p c).modPost i f = (s.modPost i f).withGauges p c := rfl

theorem nameBlock_withGauges : nameBlock (s.withGauges p c) i = nameBlock s i := rfl

theorem post_withGauges : (s.withGauges p c).post i = s.post i := rfl

theorem answered_withGauges : answered i (s.withGauges p c) = (answered i s).withGauges p c := by
  unfold answered
  dsimp only
  rw [post_withGauges, modPost_withGauges, post_withGauges, nameBlock_withGauges, reportBoth_withGauges]
  split <;> rfl

/-- The identity flag of a post after a serial number (R44), and what is told of it; a mismatch is counted elsewhere. -/
def identified (i : Slot) (serial : Nat) (s : State) : State :=
  let present := (s.entry i).place.present
  let differs := present && decide (serial ≠ (s.entry i).place.serial)
  let u := s.modPost i fun v => { v with unverified := if present then differs else v.unverified }
  if present = false ∨ (s.post i).unverified = differs then u
  else reportBoth (.alarmIdentity (nameBlock u i) (s.entry i).place.serial serial) u

theorem checkIdentity_eq (e : EndId) (serial : Nat) : checkIdentity e i serial s = identified i serial (countMismatch e i serial s) := by
  unfold checkIdentity identified
  have entry : (countMismatch e i serial s).entry i = s.entry i := by
    rw [countMismatch_eq]
    rfl
  cases present : (s.entry i).place.present with
  | false =>
    have held : heldSerial s i = none := by simp [heldSerial, present]
    have counted : countMismatch e i serial s = s := by simp [countMismatch, held]
    simp only [held, counted, present]
    simp [modPost_id]
  | true =>
    have held : heldSerial s i = some (s.entry i).place.serial := by simp [heldSerial, present]
    have post : (countMismatch e i serial s).post i = s.post i := by
      rw [countMismatch_eq]
      rfl
    simp only [held, entry, present, Bool.true_and, Bool.true_eq_false, false_or, if_true, post]
    split
    · next same =>
      exact (modPost_eq_self (by rw [post, ← same])).symm
    · rfl

theorem identified_withGauges (serial : Nat) : identified i serial (s.withGauges p c) = (identified i serial s).withGauges p c := by
  unfold identified
  dsimp only
  have entry : (s.withGauges p c).entry i = s.entry i := rfl
  rw [post_withGauges, entry, modPost_withGauges, nameBlock_withGauges, reportBoth_withGauges]
  split <;> rfl

theorem checkSensors_withGauges (new : Sensors) : checkSensors i new (s.withGauges p c) = (checkSensors i new s).withGauges p c := by
  unfold checkSensors
  dsimp only
  rw [post_withGauges, modPost_withGauges, nameBlock_withGauges, reportBoth_withGauges]
  split <;> rfl

/-- The sensors of a row after a reply, and what is told of them (R45). -/
theorem checkSensors_eq (new : Sensors) : checkSensors i new s =
    if new = (s.post i).sensors then s.modPost i fun v => { v with sensors := new }
    else reportBoth (.alarmSensor (nameBlock (s.modPost i fun v => { v with sensors := new }) i) new (sensorsChanged (s.post i).sensors new))
      (s.modPost i fun v => { v with sensors := new }) := by
  unfold checkSensors
  dsimp only
  split
  · next same => exact (modPost_eq_self (by rw [same])).symm
  · rfl

/-- The steps of R48 ahead of the result, without the count of a mismatch. -/
def rowNoted (e : EndId) (i : Slot) (r : Reply) (s : State) : State :=
  checkSensors i r.sensors (identified i r.serial (releaseSuppression e i (answered i s)))

theorem rowNoted_withGauges (e : EndId) (r : Reply) : rowNoted e i r (s.withGauges p c) = (rowNoted e i r s).withGauges p c := by
  have release (u : State) : releaseSuppression e i (u.withGauges p c) = (releaseSuppression e i u).withGauges p c := rfl
  simp only [rowNoted, answered_withGauges, release, identified_withGauges, checkSensors_withGauges]

/-- A mismatch may be counted ahead of the steps. -/
theorem noted_eq (e : EndId) (r : Reply) : noted e i r s = rowNoted e i r (s.modCounters e (mismatchCounted s i r.serial)) := by
  have answers := (Noticed.answered i s).soft true true
  have ports := (Noticed.answered i s).ports
  have counters : (answered i s).line.counters = s.line.counters := by
    unfold answered
    dsimp only
    split
    · rw [reportBoth_line]
      rfl
    · rfl
  have entry : (releaseSuppression e i (answered i s)).entry i = s.entry i := by
    rw [State.entry]
    exact congrArg (fun b : StoreBlock => nth b.site.entries i) answers.frame.store
  have same : mismatchCounted (releaseSuppression e i (answered i s)) i r.serial = mismatchCounted s i r.serial := by
    funext c
    rw [mismatchCounted, entry]
    rfl
  have counted (u : State) (f : Counters → Counters) :
      u.modCounters e f = u.withGauges u.line.ports (modNth u.line.counters (endIdx e) f) := rfl
  have release (u : State) (p : Vector Port 16) (c : Vector Counters 16) :
      (releaseSuppression e i u).withGauges p c = releaseSuppression e i (u.withGauges p c) := rfl
  rw [noted, reread, checkIdentity_eq, countMismatch_eq, same, rowNoted, counted s, answered_withGauges, ← release, counted]
  have rest : (releaseSuppression e i (answered i s)).line.ports = s.line.ports := ports
  have rest' : (releaseSuppression e i (answered i s)).line.counters = s.line.counters := counters
  rw [rest, rest']

end

theorem rowNoted_modPort (e d : EndId) (i : Slot) (r : Reply) (f : Port → Port) (s : State) :
    rowNoted e i r (s.modPort d f) = (rowNoted e i r s).modPort d f := by
  have moved := rowNoted_withGauges (modNth s.line.ports (endIdx d) f) s.line.counters s i e r
  have same : rowNoted e i r s = (rowNoted e i r s).withGauges s.line.ports s.line.counters :=
    rowNoted_withGauges s.line.ports s.line.counters s i e r
  rw [same]
  exact moved

/-- A good reply of a post that was and stays on-hook, to a poll that carried nothing. -/
theorem execPollReply_onHook {e : EndId} {os : List Byte} {s : State} {i : Slot} {hop : Nat} {r : Reply} (hp : s.powered = true)
    (ht : (s.port e).transaction = some (.poll i hop none)) (hr : (s.post i).reach = .served e) (hh : (s.post i).hop = hop)
    (ho : pollReplyOf false os = some r) (hon : r.hook = .on) (hrow : (s.post i).hook = .on) :
    ∃ t, exec (.pollReply e os) s = .next t ∧ Agree t ((rowNoted e i r ((lastWasPoll e s).modCounters e (goodCounted s i r))).modPost i
      fun v => { v with button := .none }) := by
  have steps := noted_noticed e i r (pollClosed e (.good r) s)
  obtain ⟨-, -, hook, -⟩ := steps.row i
  have row : ((noted e i r (pollClosed e (.good r) s)).post i).hook = .on := hook.trans hrow
  have closed : (pollClosed e (.good r) s).modCounters e (mismatchCounted (pollClosed e (.good r) s) i r.serial) =
      ((lastWasPoll e s).modCounters e (goodCounted s i r)).modPort e fun p => { p with transaction := none } := by
    rw [pollClosed, modCounters_modCounters]
    rfl
  refine ⟨_, execPollReply_good hp ht hr hh ho, (agree_finish _).trans ?_⟩
  rw [goodPoll_eq, hon]
  have button : (hookAndButton i .on r.button (passResult e i none r.result (noted e i r (pollClosed e (.good r) s)))) =
      (noted e i r (pollClosed e (.good r) s)).modPost i fun v => { v with button := .none } :=
    (hookAndButton_on_on row).trans (modPost_congr (sensedRow_on row).symm)
  rw [button, noted_eq, closed, rowNoted_modPort]
  generalize rowNoted e i r ((lastWasPoll e s).modCounters e (goodCounted s i r)) = z
  exact agree_modPort (z.modPost i fun v => { v with button := .none }) e (fun p => { p with transaction := none }) fun _ => rfl

theorem reportBoth_post (r : Report) (s : State) (i : Slot) : (reportBoth r s).post i = s.post i := by
  rw [State.post, reportBoth_line]
  rfl

theorem reportBoth_store (r : Report) (s : State) : (reportBoth r s).store = s.store :=
  (Soft.reportBoth (ev := true) (on := true) r s).frame.store

/-- The row after step 1 of R48. -/
theorem answered_post (i : Slot) (s : State) : (answered i s).post i = { s.post i with
    failures := 0, reply := .answering,
    silenceReported := (s.post i).silenceReported && !((s.post i).silenceReported && decide ((s.post i).reply ≠ .answering)) } := by
  unfold answered
  dsimp only
  split
  · rw [reportBoth_post, modPost_post_same]
  · rw [modPost_post_same]

theorem identified_post_sensors (i : Slot) (n : Nat) (s : State) : ((identified i n s).post i).sensors = (s.post i).sensors := by
  unfold identified
  dsimp only
  split
  · rw [modPost_post_same]
  · rw [reportBoth_post, modPost_post_same]

end Sys2Proof.Machine
end

