-- ==== Sys2Proof/Proofs/Freeing.lean ====
section
/-! PROOF. The state in which a good reply has its result, its hook and its button handled (`Taken`); a report found in the queue of a link; and
what the freeing of a call record (R88) leaves, read off its moves. -/

namespace Sys2Proof.Machine

/-! ## Up to the result of a reply -/

/-- What a reply has left untouched when its result and its hook and button are handled; to each link at most three reports have gone. -/
structure Taken (s v : State) : Prop where
  calls : v.calls = s.calls
  groups : v.groups = s.groups
  arbiter : v.arbiter = s.arbiter
  store : v.store = s.store
  now : v.now = s.now
  stamps : v.line.stampCounter = s.line.stampCounter
  commands : ∀ d, (v.endRec d).commands = (s.endRec d).commands
  core : ∀ d, (v.endRec d).core = (s.endRec d).core
  told : ∀ y, OnlyTold (s.link y) (v.link y)
  room : ∀ y, (v.link y).queue.length ≤ (s.link y).queue.length + 3

theorem Noticed.taken {s v : State} (h : Noticed 3 s v) : Taken s v := by
  obtain ⟨calls, groups, arbiter⟩ := h.kept
  have frame := (h.soft false true).frame
  exact ⟨calls, groups, arbiter, frame.store, frame.now, frame.stamps, h.commands, frame.core, frame.onlyTold, h.room⟩

theorem OnlyTold.up {l m : LinkRecord} (h : OnlyTold l m) : m.up = l.up := by
  obtain ⟨-, -, rest⟩ := h
  simp only [LinkRecord.mk.injEq] at rest
  exact rest.1

theorem OnlyTold.overrun {l m : LinkRecord} (h : OnlyTold l m) : m.overrun = l.overrun := by
  obtain ⟨-, -, rest⟩ := h
  simp only [LinkRecord.mk.injEq] at rest
  tauto

namespace Taken

variable {s v : State}

theorem liveCall (h : Taken s v) : v.liveCall = s.liveCall := liveCall_congr h.calls

theorem record (h : Taken s v) (c : CallIdx) : v.record c = s.record c := by
  rw [State.record, h.calls]
  rfl

theorem refOfRecord (h : Taken s v) (c : CallIdx) : v.refOfRecord c = s.refOfRecord c := by rw [State.refOfRecord, h.record]; rfl

theorem callOf (h : Taken s v) (i : Slot) : v.callOf i = s.callOf i := callOf_congr h.calls i

theorem up (h : Taken s v) (y : LinkId) : (v.link y).up = (s.link y).up := (h.told y).up

/-- A change of a row is told to no other block. -/
theorem modPost (h : Taken s v) (i : Slot) (f : PostRow → PostRow) : Taken s (v.modPost i f) := by
  obtain ⟨calls, groups, arbiter, store, now, stamps, commands, core, told, room⟩ := h
  exact ⟨calls, groups, arbiter, store, now, stamps, commands, core, fun y => by cases y; exacts [told .a, told .b],
    fun y => by cases y; exacts [room .a, room .b]⟩

end Taken

/-- The state in which the result of a good reply to a scan poll is passed on. -/
theorem taken_noted (e : EndId) (i : Slot) (r : Reply) (o : PollOutcome) (s : State) : Taken s (noted e i r (pollClosed e o s)) := by
  obtain ⟨calls, groups, arbiter, store, now, stamps, commands, core, told, room⟩ := (noted_noticed e i r (pollClosed e o s)).taken
  refine ⟨calls, groups, arbiter, store, now, stamps, commands, core, fun y => ?_, fun y => ?_⟩
  · rw [← pollClosed_link e o s y]
    exact told y
  · rw [← pollClosed_link e o s y]
    exact room y

/-! ## Reports that a queue holds -/

/-- A report waits in the queue of a link. -/
def Waiting (s : State) (y : LinkId) (r : Report) : Prop := ∃ gap, QueueEntry.report gap r ∈ (s.link y).queue

theorem Waiting.later {s t : State} {y : LinkId} {r : Report} (h : Waiting s y r) (k : OnlyReports (s.link y).queue (t.link y).queue) :
    Waiting t y r := by
  obtain ⟨gap, mem⟩ := h
  obtain ⟨l, same⟩ := k
  exact ⟨gap, same ▸ List.mem_append_left _ mem⟩

theorem waiting_report {s : State} {y : LinkId} (r : Report) (up : (s.link y).up = true) (room : (s.link y).queue.length < 64) :
    Waiting (report y r s) y r := by
  refine ⟨(s.link y).gap, ?_⟩
  rw [report_link, if_pos rfl, enqueue_of_room r up room]
  exact List.mem_append_right _ (by simp)

theorem waiting_reportBoth {s : State} {y : LinkId} (r : Report) (up : (s.link y).up = true) (room : (s.link y).queue.length < 64) :
    Waiting (reportBoth r s) y r := by
  refine ⟨(s.link y).gap, ?_⟩
  rw [reportBoth_link, enqueue_of_room r up room]
  exact List.mem_append_right _ (by simp)

theorem report_callStateOf (x : LinkId) (r : Report) (s : State) (i : CallIdx) (k : LiveCall) (v : CallEvent) (n : CallReason) (b : Bool) :
    callStateOf (report x r s) i k v n b = callStateOf s i k v n b := by
  have name : nameBlock (report x r s) k.slot = nameBlock s k.slot :=
    nameBlock_congr (by simp [report]) (by simp [report]) (by simp [report]) (by simp [report])
  have ref : (report x r s).refOfRecord i = s.refOfRecord i := by simp [report, State.refOfRecord]
  simp only [callStateOf, name, ref]

/-- A loop of CALL STATE reports reaches each of its links that has room. -/
theorem waiting_callStates {i : CallIdx} {k : LiveCall} {v : CallEvent} {n : CallReason} {b : Bool} {y : LinkId} (l : List LinkId) :
    ∀ s : State, y ∈ l → (s.link y).up = true → (s.link y).queue.length < 64 →
      Waiting (forEach l (fun x s => report x (callStateOf s i k v n b) s) s) y (callStateOf s i k v n b) := by
  induction l with
  | nil => exact fun s h => absurd h List.not_mem_nil
  | cons x l ih =>
    intro s hy up room
    by_cases hx : x = y
    · subst hx
      have later := (Soft.forEach (ev := false) (on := true) (f := fun x s => report x (callStateOf s i k v n b) s)
        (fun x s => .report s x _) l (report x (callStateOf s i k v n b) s)).frame
      exact (waiting_report _ up room).later (later.told x).1
    · have link : (report x (callStateOf s i k v n b) s).link y = s.link y := by rw [report_link, if_neg hx]
      have rest := ih (report x (callStateOf s i k v n b) s) ((List.mem_cons.mp hy).resolve_left (Ne.symm hx)) (by rwa [link]) (by rwa [link])
      rwa [report_callStateOf] at rest

theorem waiting_reportCall {s : State} {i : CallIdx} {k : LiveCall} (hk : s.liveCall i = some k) (v : CallEvent) (n : CallReason) (b : Bool)
    {l : List LinkId} {y : LinkId} (hy : y ∈ l) (up : (s.link y).up = true) (room : (s.link y).queue.length < 64) :
    Waiting (reportCall i v n b l s) y (callStateOf s i k v n b) := by
  unfold reportCall
  rw [hk]
  exact waiting_callStates l s hy up room

/-- CALL STATE reports change the links alone. -/
theorem reportCall_line (i : CallIdx) (v : CallEvent) (n : CallReason) (b : Bool) (l : List LinkId) (s : State) :
    (reportCall i v n b l s).line = s.line ∧ (reportCall i v n b l s).calls = s.calls ∧ (reportCall i v n b l s).groups = s.groups
      ∧ (reportCall i v n b l s).arbiter = s.arbiter := by
  unfold reportCall
  split
  · refine ⟨forEach_unchanged (fun t => t.line) (fun x t => ?_) l s, forEach_unchanged (fun t => t.calls) (fun x t => ?_) l s,
      forEach_unchanged (fun t => t.groups) (fun x t => ?_) l s, forEach_unchanged (fun t => t.arbiter) (fun x t => ?_) l s⟩ <;> simp [report]
  · exact ⟨rfl, rfl, rfl, rfl⟩

/-! ## The freeing of a record (R88) -/

/-- What follows the deferred event of a record that is freed (R95). -/
def deferredTaken (k : LiveCall) (s : State) : State :=
  match k.deferred with
  | some (b, stamp) => takeDeferred k.slot b stamp s
  | none => s

/-- What a record gave up, before others take it. -/
def givenUp (i : CallIdx) (k : LiveCall) (s : State) : State := giveUp (s.refOfRecord i) k (retire i s)

theorem freeing_of_live {s : State} {i : CallIdx} {k : LiveCall} (hk : s.liveCall i = some k) :
    freeing i s = giveToOverflow i (deferredTaken k (leftItsEnd k.state k.slot (idleFromCall k.slot (givenUp i k s)))) := by
  unfold freeing
  rw [hk]
  cases h : k.deferred with
  | none => simp [deferredTaken, givenUp, h]
  | some d => simp [deferredTaken, givenUp, h]

theorem giveToOverflow_of_empty {s : State} (i : CallIdx) (h : s.calls.overflow = []) : giveToOverflow i s = s := by
  unfold giveToOverflow
  rw [h]
  cases s.liveCall i <;> rfl

theorem leftItsEnd_moves {homes new : Bool} {st : CallState} (h : needsItsEnd st = true → homes = true) (i : Slot) (s : State) :
    Moves homes new s (leftItsEnd st i s) := by
  refine .of_ite (fun needs => ?_) (.refl s)
  cases h needs
  exact .heldPostReleased i s

/-- The freeing of a record after it is emptied, as moves: no post takes another home for a call that needs no end, and no call begins
where none waits. -/
theorem freeRecord_moves {homes new : Bool} {s : State} {i : CallIdx} {k : LiveCall} (hk : s.liveCall i = some k)
    (one : homes = false → new = true) (hhome : needsItsEnd k.state = true → homes = true)
    (hnew : new = false → k.deferred = none ∧ s.calls.overflow = []) : Moves homes new (retire i s) (freeRecord i s) := by
  have left : Moves homes new (retire i s) (leftItsEnd k.state k.slot (idleFromCall k.slot (givenUp i k s))) :=
    .andThen (leftItsEnd_moves hhome _ _) (.andThen (.idle _ _ _ fun h0 h1 => absurd (one h0) (by simp [h1])) (.giveUp _ _ _))
  unfold freeRecord
  rw [freeing_of_live hk]
  refine .andThen (.settle s _) ?_
  cases new with
  | true =>
    have deferred (t : State) : Moves homes true t (deferredTaken k t) := by
      unfold deferredTaken
      split
      · exact .takeDeferred _ _ _ t
      · exact .refl t
    exact .andThen (.giveToOverflow i _) (.andThen (deferred _) left)
  | false =>
    obtain ⟨none, empty⟩ := hnew rfl
    have passed (t : State) : deferredTaken k t = t := by simp [deferredTaken, none]
    rw [passed, giveToOverflow_of_empty]
    · exact left
    · exact left.noNewCall.1.trans empty

theorem freeRecord_generation {s : State} {i : CallIdx} {k : LiveCall} (hk : s.liveCall i = some k) :
    ((freeRecord i s).record i).generation = (s.record i).generation + 1 := by
  rw [(freeRecord_moves (homes := true) (new := true) hk nofun (fun _ => rfl) nofun).generation]
  simp [retire]

theorem freeRecord_free {s : State} {i : CallIdx} {k : LiveCall} (hk : s.liveCall i = some k) (hd : k.deferred = none)
    (ho : s.calls.overflow = []) : (freeRecord i s).liveCall i = none := by
  refine (freeRecord_moves (homes := true) (new := false) hk nofun (fun _ => rfl) fun _ => ⟨hd, ho⟩).noNewCall.2 i ?_
  simp [retire, State.liveCall]

/-- A waiting entry that is left untouched outlasts the freeing. -/
theorem freeRecord_waits {s : State} {i : CallIdx} {k : LiveCall} {slot : Slot} {c : Command} (hk : s.liveCall i = some k)
    (hd : k.deferred = none) (ho : s.calls.overflow = []) (hc : Untouched (retire i s) slot c) (hw : ∃ e, WaitsOn s e slot c) :
    ∃ e, WaitsOn (freeRecord i s) e slot c :=
  (freeRecord_moves (homes := true) (new := false) hk nofun (fun _ => rfl) fun _ => ⟨hd, ho⟩).waitsSomewhere hc hw

/-! ## Trunk slots that a record gives up -/

theorem freeTrunk_trunk (p q : Party) (u : TrunkUse) (s : State) :
    nth ((freeTrunk p u s).link q.link).trunks q.trunk = nth (s.link q.link).trunks q.trunk
      ∨ nth ((freeTrunk p u s).link q.link).trunks q.trunk = .free :=
  ((Soft.freeTrunk (ev := false) (on := true) s p u).frame.told q.link).2.1 q.trunk

theorem freeTrunk_frees (p : Party) {u : TrunkUse} (h : u ≠ .free) (s : State) :
    nth ((freeTrunk p u s).link p.link).trunks p.trunk ≠ u := by
  simp only [freeTrunk, modLink_link_same, nth_modNth_same]
  split
  · exact h.symm
  · assumption

theorem freeParties_frees {ref : CallRef} {l : List Party} {p : Party} (hp : p ∈ l) (s : State) :
    nth ((freeParties ref l s).link p.link).trunks p.trunk ≠ .call ref := by
  refine forEach_brings (I := fun _ => True) (P := fun t : State => nth (t.link p.link).trunks p.trunk ≠ .call ref) (a := p)
    (fun _ _ => id) (fun t _ => freeTrunk_frees p (u := .call ref) nofun t) (fun q t _ h => ?_) l s trivial (.inl hp)
  rcases freeTrunk_trunk q p (.call ref) t with same | free
  · rwa [same]
  · rw [free]
    nofun

theorem settle_trunks (before s : State) (y : LinkId) (n : Trunk) :
    nth ((settle before s).link y).trunks n = nth (s.link y).trunks n ∨ nth ((settle before s).link y).trunks n = .free := by
  have tested := (Soft.forEach (ev := false) (on := true) Soft.testReady (changedGroups before s) (orderReports before s)).frame
  have ordered : ((orderReports before s).link y).trunks = (s.link y).trunks := by cases y <;> rfl
  rw [← ordered]
  exact (tested.told y).2.1 n

/-- The trunk slots of the parties of a freed record are no longer its (R88). -/
theorem freeRecord_trunks {s : State} {i : CallIdx} {k : LiveCall} (hk : s.liveCall i = some k) {p : Party} (hp : p ∈ k.parties) :
    nth ((freeRecord i s).link p.link).trunks p.trunk ≠ .call (s.refOfRecord i) := by
  have freed : nth ((givenUp i k s).link p.link).trunks p.trunk ≠ .call (s.refOfRecord i) := freeParties_frees hp _
  have deferred (t : State) : Soft true false t (deferredTaken k t) := by
    unfold deferredTaken
    split
    · exact .takeDeferred _ _ _ t
    · exact .refl t
  have rest : Soft true false (givenUp i k s) (freeing i s) := by
    rw [freeing_of_live hk]
    exact .andThen (.giveToOverflow i _) (.andThen (deferred _) (.andThen (.leftItsEnd _ _ _) (.idleFromCall _ _)))
  unfold freeRecord
  rcases settle_trunks s (freeing i s) p.link p.trunk with same | free
  · rw [same]
    rcases (rest.frame.told p.link).2.1 p.trunk with same | free
    · rwa [show nth ((freeing i s).link p.link).trunks p.trunk = nth ((givenUp i k s).link p.link).trunks p.trunk from same]
    · rw [show nth ((freeing i s).link p.link).trunks p.trunk = .free from free]
      nofun
  · rw [free]
    nofun

end Sys2Proof.Machine
end

