-- ==== Sys2Proof/Proofs/OnHook.lean ====
section
/-! PROOF. The on-hook event by the call of its post (R94), and a good reply of an on-hook post: O52. -/

namespace Sys2Proof.Machine

/-! ## The on-hook event, by call -/

section
variable {s : State} {i : Slot} {c : CallIdx} {k : LiveCall}

theorem liveCall_of_callOf (h : s.callOf i = some c) : ∃ k, s.liveCall c = some k ∧ k.slot = i := by
  have found := List.find?_some h
  cases hk : s.liveCall c with
  | none => simp [hk] at found
  | some k => exact ⟨k, rfl, by simpa [hk] using found⟩

theorem onHook_clearing (hc : s.callOf i = some c) (hk : s.liveCall c = some k) (hs : k.state = .clearing) :
    onHook i s = s.modCall c fun k => { k with deferred := none } := by
  simp only [onHook, hc, hk, hs]

theorem onHook_ringing (hc : s.callOf i = some c) (hk : s.liveCall c = some k) (hs : k.state = .ringing) : onHook i s = s := by
  simp only [onHook, hc, hk, hs]

theorem onHook_of_overflow (hc : s.callOf i = none) (ho : s.onOverflow i = true) :
    onHook i s = idleFromCall i (placeCommand i .lampOff (missOverflow i s)) := by
  unfold onHook
  simp only [hc, if_pos ho]

theorem onHook_of_none (hc : s.callOf i = none) (ho : s.onOverflow i = false) : onHook i s = s := by
  unfold onHook
  simp only [hc, ho, Bool.false_eq_true, if_false]

end

/-- A command placed changes no row and no block but the line's. -/
theorem placeCommand_kept (i : Slot) (c : Command) (s : State) : (placeCommand i c s).line.posts = s.line.posts
    ∧ (placeCommand i c s).calls = s.calls ∧ (placeCommand i c s).groups = s.groups ∧ (placeCommand i c s).arbiter = s.arbiter
    ∧ (placeCommand i c s).store = s.store ∧ ∀ y, (placeCommand i c s).link y = s.link y := by
  obtain ⟨ends, placings, h⟩ := placeCommand_eq i c s
  rw [h]
  exact ⟨rfl, rfl, rfl, rfl, rfl, fun y => by cases y <;> rfl⟩

theorem placeCommand_post (i : Slot) (c : Command) (s : State) (j : Slot) : (placeCommand i c s).post j = s.post j := by
  obtain ⟨posts, -⟩ := placeCommand_kept i c s
  rw [State.post, posts]
  rfl

/-- Calls, the store and the place of a post are what a report or a command leaves. -/
structure Beside (s v : State) : Prop where
  calls : v.calls = s.calls
  posts : v.line.posts = s.line.posts
  store : v.store = s.store

theorem Beside.trans {s v u : State} (h : Beside s v) (k : Beside v u) : Beside s u :=
  ⟨k.calls.trans h.calls, k.posts.trans h.posts, k.store.trans h.store⟩

theorem Beside.andThen {s v u : State} (k : Beside v u) (h : Beside s v) : Beside s u := h.trans k

theorem Beside.placeCommand (i : Slot) (c : Command) (s : State) : Beside s (placeCommand i c s) := by
  obtain ⟨posts, calls, -, -, store, -⟩ := placeCommand_kept i c s
  exact ⟨calls, posts, store⟩

theorem Beside.reportBoth (r : Report) (s : State) : Beside s (reportBoth r s) :=
  ⟨(CallsKept.reportBoth r s).calls, by rw [reportBoth_line], reportBoth_store r s⟩

theorem Beside.reportCall (i : CallIdx) (v : CallEvent) (n : CallReason) (b : Bool) (l : List LinkId) (s : State) :
    Beside s (reportCall i v n b l s) := by
  obtain ⟨line, calls, -⟩ := reportCall_line i v n b l s
  exact ⟨calls, by rw [line], (Soft.reportCall (ev := false) (on := true) i v n b l s).frame.store⟩

theorem Beside.lampOffInbound (k : LiveCall) (s : State) : Beside s (lampOffInbound k s) := by
  unfold Machine.lampOffInbound
  split
  · exact .placeCommand _ _ s
  · exact ⟨rfl, rfl, rfl⟩

theorem Beside.refOfRecord {s v : State} (h : Beside s v) (c : CallIdx) : v.refOfRecord c = s.refOfRecord c := by
  rw [State.refOfRecord, State.record, h.calls]
  rfl

theorem Beside.post {s v : State} (h : Beside s v) (j : Slot) : v.post j = s.post j := by
  rw [State.post, h.posts]
  rfl

/-- The state in which the record of an OFFERED call is freed by its post. -/
def abandoning (i : Slot) (c : CallIdx) (k : LiveCall) (s : State) : State :=
  placeCommand i .lampOff (reportUnanswered i k.cls (.abandoned (s.refOfRecord c)) s)

/-- The state in which the record of a call with parties or a line is freed by its post. -/
def clearingByPost (i : Slot) (c : CallIdx) (k : LiveCall) (s : State) : State :=
  lampOffInbound k (placeCommand i .release (reportCall c .clearedByPost .none true (partyLinks s c) s))

theorem abandoning_beside (i : Slot) (c : CallIdx) (k : LiveCall) (s : State) : Beside s (abandoning i c k s) :=
  .andThen (.placeCommand i .lampOff _) (.reportBoth _ s)

theorem clearingByPost_beside (i : Slot) (c : CallIdx) (k : LiveCall) (s : State) : Beside s (clearingByPost i c k s) :=
  .andThen (.lampOffInbound k _) (.andThen (.placeCommand i .release _) (.reportCall _ _ _ _ _ s))

section
variable {s : State} {i : Slot} {c : CallIdx} {k : LiveCall} {e : EndId}

theorem abandoning_waits (hr : (s.post i).reach = .served e) : WaitsOn (abandoning i c k s) e i .lampOff := by
  have reach := (Beside.reportBoth (.callUnanswered (nameBlock s i) k.cls (.abandoned (s.refOfRecord c))) s).post i
  exact waitsOn_placeCommand (by rw [reportUnanswered, reach]; exact hr) _

theorem clearingByPost_waits (hr : (s.post i).reach = .served e) : WaitsOn (clearingByPost i c k s) e i .release := by
  have reach := (Beside.reportCall c .clearedByPost .none true (partyLinks s c) s).post i
  have placed := waitsOn_placeCommand (s := reportCall c .clearedByPost .none true (partyLinks s c) s) (by rw [reach]; exact hr) .release
  unfold clearingByPost lampOffInbound
  split
  · exact placed.place (.inr nofun)
  · exact placed

/-- What a queue held when a record is freed it holds after. -/
theorem freeRecord_told (c : CallIdx) (s : State) (y : LinkId) : OnlyReports (s.link y).queue ((freeRecord c s).link y).queue :=
  ((Soft.freeRecord (ev := false) c s).frame.told y).1

theorem waiting_abandoned {y : LinkId} (up : (s.link y).up = true) (room : (s.link y).queue.length < 64) :
    Waiting (freeRecord c (abandoning i c k s)) y (.callUnanswered (nameBlock s i) k.cls (.abandoned (s.refOfRecord c))) := by
  have told : Waiting (abandoning i c k s) y (.callUnanswered (nameBlock s i) k.cls (.abandoned (s.refOfRecord c))) := by
    obtain ⟨gap, mem⟩ := waiting_reportBoth (.callUnanswered (nameBlock s i) k.cls (.abandoned (s.refOfRecord c))) up room
    obtain ⟨-, -, -, -, -, link⟩ := placeCommand_kept i .lampOff (reportUnanswered i k.cls (.abandoned (s.refOfRecord c)) s)
    exact ⟨gap, by rw [abandoning, link]; exact mem⟩
  exact told.later (freeRecord_told c _ y)

theorem waiting_clearedByPost (hk : s.liveCall c = some k) {p : Party} (hp : p ∈ k.parties) (up : (s.link p.link).up = true)
    (room : (s.link p.link).queue.length < 64) :
    Waiting (freeRecord c (clearingByPost i c k s)) p.link (callStateOf s c k .clearedByPost .none true) := by
  have parties : partyLinks s c = k.parties.map Party.link := by simp [partyLinks, hk]
  have told := waiting_reportCall hk .clearedByPost .none true (l := partyLinks s c) (by rw [parties]; exact List.mem_map_of_mem hp) up room
  refine (told.later ?_).later (freeRecord_told c _ _)
  have placed := (Soft.placeCommand (ev := false) (on := true) i .release (reportCall c .clearedByPost .none true (partyLinks s c) s)).trans
    (.lampOffInbound k _)
  exact (placed.frame.told p.link).1

/-- An OFFERED call's post keeps its place while the record is freed. -/
theorem freeRecord_nameBlock (hk : s.liveCall c = some k) (hs : needsItsEnd k.state = false) (j : Slot) :
    nameBlock (freeRecord c s) j = nameBlock s j :=
  (freeRecord_moves (homes := false) (new := true) hk (fun _ => rfl) (by simp [hs]) nofun).nameBlock (Soft.freeRecord (ev := false) c s).frame.store j

/-- The post of a call that the record names alone has no other call once the record is emptied. -/
theorem noCallOf_retire (h : ∀ j d, s.liveCall j = some d → d.slot = i → j = c) : NoCallOf (retire c s) i := by
  intro j d hd same
  by_cases hj : c = j
  · subst hj
    simp [retire, State.liveCall] at hd
  · have live : s.liveCall j = some d := by simpa [retire, State.liveCall, hj] using hd
    exact hj (h j d live same).symm

end

/-! ## The end of the step -/

section
variable (s : State)

theorem finish_calls : (finish s).calls = s.calls := (CallsKept.finish s).calls

theorem finish_post (j : Slot) : (finish s).post j = s.post j := by
  rw [State.post, (agree_finish s).line.posts]
  rfl

theorem finish_link (y : LinkId) : (finish s).link y = s.link y := by
  obtain ⟨-, a, b⟩ := (agree_finish s).outside
  cases y
  · exact a
  · exact b

theorem finish_commands (d : EndId) : ((finish s).endRec d).commands = (s.endRec d).commands := commands_of_agree (agree_finish s) d

theorem finish_core (d : EndId) : ((finish s).endRec d).core = (s.endRec d).core := (Soft.finish (ev := true) (on := true) s).frame.core d

theorem finish_store : (finish s).store = s.store := (Soft.finish (ev := true) (on := true) s).frame.store

theorem finish_now : (finish s).now = s.now := (Soft.finish (ev := true) (on := true) s).frame.now

theorem finish_nameBlock (j : Slot) : nameBlock (finish s) j = nameBlock s j :=
  nameBlock_congr (finish_store s) (by rw [finish_post]) (by rw [finish_post]) (by rw [finish_post])

theorem finish_record (c : CallIdx) : (finish s).record c = s.record c := by
  rw [State.record, finish_calls]
  rfl

theorem finish_liveCall (c : CallIdx) : (finish s).liveCall c = s.liveCall c := congrArg CallRecord.live (finish_record s c)

theorem finish_waitsOn {d : EndId} {i : Slot} {c : Command} : WaitsOn (finish s) d i c ↔ WaitsOn s d i c := WaitsOn.congr (finish_commands s d)

theorem finish_waiting {y : LinkId} {r : Report} : Waiting (finish s) y r ↔ Waiting s y r :=
  Iff.of_eq (by unfold Waiting; rw [finish_link])

end

/-! ## The state that hook and button are handled in -/

/-- The state in which an on-hook event of a post is passed, after a good reply to a poll that carried nothing. -/
def onHookState (e : EndId) (i : Slot) (r : Reply) (s : State) : State :=
  (noted e i r (pollClosed e (.good r) s)).modPost i (sensedRow .on r.button)

theorem onHookState_taken (e : EndId) (i : Slot) (r : Reply) (s : State) : Taken s (onHookState e i r s) := (taken_noted e i r _ s).modPost i _

section
variable {e : EndId} {i : Slot} {s : State} {r : Reply}

theorem onHookState_row : ((onHookState e i r s).post i).reach = (s.post i).reach ∧ ((onHookState e i r s).post i).hook = .on
    ∧ ((onHookState e i r s).post i).button = .none := by
  obtain ⟨reach, -⟩ := (noted_noticed e i r (pollClosed e (.good r) s)).row i
  simp [onHookState, sensedRow, reach]

theorem execPollReply_hangUp {os : List Byte} {hop : Nat} (hp : s.powered = true)
    (ht : (s.port e).transaction = some (.poll i hop none)) (hr : (s.post i).reach = .served e) (hh : (s.post i).hop = hop)
    (ho : pollReplyOf false os = some r) (hon : r.hook = .on) (hrow : (s.post i).hook = .off) :
    exec (.pollReply e os) s = .next (finish (onHook i (onHookState e i r s))) := by
  obtain ⟨-, -, hook, -⟩ := (noted_noticed e i r (pollClosed e (.good r) s)).row i
  have row : ((noted e i r (pollClosed e (.good r) s)).post i).hook = .off := hook.trans hrow
  rw [execPollReply_good hp ht hr hh ho, goodPoll_eq, hon]
  exact congrArg (fun u => Host.Outcome.next (finish u)) (hookAndButton_off_on row)

end

/-- What is found of a record that its post's on-hook event has freed, whichever state `b` it was freed in. -/
structure FreedFrom (c : CallIdx) (k : LiveCall) (s b t : State) : Prop where
  generation : (t.record c).generation = (s.record c).generation + 1
  trunks : ∀ p ∈ k.parties, nth (t.link p.link).trunks p.trunk ≠ .call (s.refOfRecord c)
  free : k.deferred = none → s.calls.overflow = [] → t.liveCall c = none
  waits : ∀ i cmd, k.deferred = none → s.calls.overflow = [] → Untouched (retire c b) i cmd → (∃ d, WaitsOn b d i cmd) → ∃ d, WaitsOn t d i cmd

theorem freedFrom {s b : State} {c : CallIdx} {k : LiveCall} (hk : s.liveCall c = some k) (hb : b.calls = s.calls) :
    FreedFrom c k s b (finish (freeRecord c b)) := by
  have live : b.liveCall c = some k := by rw [liveCall_congr hb]; exact hk
  have record : b.record c = s.record c := by rw [State.record, hb]; rfl
  have ref : b.refOfRecord c = s.refOfRecord c := by rw [State.refOfRecord, record]; rfl
  refine ⟨?_, fun p hp => ?_, fun hd ho => ?_, fun i cmd hd ho hu hw => ?_⟩
  · rw [finish_record, freeRecord_generation live, record]
  · rw [finish_link, ← ref]
    exact freeRecord_trunks live hp
  · rw [finish_liveCall]
    exact freeRecord_free live hd (by rw [hb]; exact ho)
  · obtain ⟨d, waits⟩ := freeRecord_waits live hd (by rw [hb]; exact ho) hu hw
    exact ⟨d, (finish_waitsOn _).mpr waits⟩

/-- An on-hook event frees the record of a call that is neither CLEARING nor RINGING. -/
theorem onHook_frees {v : State} {i : Slot} {c : CallIdx} {k : LiveCall} (hc : v.callOf i = some c) (hk : v.liveCall c = some k)
    (h1 : k.state ≠ .clearing) (h2 : k.state ≠ .ringing) :
    onHook i v = freeRecord c (if k.state = .offered then abandoning i c k v else clearingByPost i c k v) := by
  cases hs : k.state with
  | clearing => exact absurd hs h1
  | ringing => exact absurd hs h2
  | offered =>
    simp only [onHook, hc, hk, hs, if_pos]
    rfl
  | connecting | connected | parked | lineLost =>
    rw [if_neg nofun]
    simp only [onHook, hc, hk, hs]
    rfl

theorem missOverflow_of_some {s : State} {i : Slot} {o : OverflowEntry} (h : (s.calls.overflow.find? fun o => decide (o.slot = i)) = some o) :
    missOverflow i s = reportUnanswered i (classOf o.button (s.entry i).name.kind) (.missed i o.stamp)
      (s.setOverflow (s.calls.overflow.filter fun o => decide (o.slot ≠ i))) := by
  simp only [missOverflow, h]
  rfl

theorem idleFromCall_not_calling (i : Slot) (s : State) : ((idleFromCall i s).post i).activity ≠ .calling := by
  unfold idleFromCall setIdle
  split
  · simp [setActivity]
  · next h => exact fun calling => h (by simp [calling])

/-- What an on-hook event makes of the entry of its post on the overflow list (R91, R94). -/
theorem onHook_missed {s : State} {i : Slot} {o : OverflowEntry} (hc : s.callOf i = none) (ho : s.onOverflow i = true)
    (h : (s.calls.overflow.find? fun o => decide (o.slot = i)) = some o) :
    (onHook i s).calls = { s.calls with overflow := s.calls.overflow.filter fun o => decide (o.slot ≠ i) }
      ∧ ((onHook i s).post i).activity ≠ .calling
      ∧ ∀ y, (s.link y).up = true → (s.link y).queue.length < 64 →
        Waiting (onHook i s) y (.callUnanswered (nameBlock (onHook i s) i) (classOf o.button (s.entry i).name.kind) (.missed i o.stamp)) := by
  rw [onHook_of_overflow hc ho, missOverflow_of_some h]
  generalize hw : s.setOverflow (s.calls.overflow.filter fun o => decide (o.slot ≠ i)) = w
  generalize hr : classOf o.button (s.entry i).name.kind = cls
  have calls : w.calls = { s.calls with overflow := s.calls.overflow.filter fun o => decide (o.slot ≠ i) } := by rw [← hw]; rfl
  have link : ∀ y, w.link y = s.link y := fun y => by rw [← hw]; cases y <;> rfl
  have beside : Beside w (placeCommand i .lampOff (reportUnanswered i cls (.missed i o.stamp) w)) :=
    .andThen (.placeCommand i _ _) (.reportBoth _ w)
  have idle := CallsKept.setIdle (fun a => a == .calling || a == .ringing) i (placeCommand i .lampOff (reportUnanswered i cls (.missed i o.stamp) w))
  have rows := (Calm.idleFromCall i (placeCommand i .lampOff (reportUnanswered i cls (.missed i o.stamp) w))).rows i
  simp only [PostRow.steady, PostRow.mk.injEq, beside.post] at rows
  obtain ⟨reach, hop, -, -, -, unverified, -⟩ := rows
  have store := (Soft.idleFromCall (ev := false) (on := true) i (placeCommand i .lampOff (reportUnanswered i cls (.missed i o.stamp) w))).frame
  refine ⟨(idle.calls.trans beside.calls).trans calls, idleFromCall_not_calling i _, fun y up room => ?_⟩
  rw [nameBlock_congr (store.store.trans beside.store) reach hop unverified]
  have told := waiting_reportBoth (s := w) (.callUnanswered (nameBlock w i) cls (.missed i o.stamp)) (by rw [link]; exact up) (by rw [link]; exact room)
  refine told.later ?_
  have placed := (Soft.placeCommand (ev := false) (on := true) i .lampOff (reportUnanswered i cls (.missed i o.stamp) w)).frame
  exact ((placed.told y).1).trans (store.told y).1

/-- Settles O52: the row by the steps of R48, of which each is the one of the statement; the on-hook event by the state of the call. -/
theorem goodReplyUpdatesTheRow : Obligations.goodReplyUpdatesTheRow := by
  refine ⟨?_, ?_⟩
  · intro e os s i hop r hp ht hr hh ho hon hrow row present differs back u0 u1 u2 u3 u4 u5 u6 u7
    obtain ⟨t, hexec, agree⟩ := execPollReply_onHook hp ht hr hh ho hon hrow
    have spelled : rowNoted e i r ((lastWasPoll e s).modCounters e (goodCounted s i r)) = u7 := by
      have counted : (lastWasPoll e s).modCounters e (goodCounted s i r) = u0 := by
        refine congrArg _ (funext fun c => ?_)
        simp [goodCounted, mismatchCounted, countOutcome, differs, present]
      have first : answered i u0 = u2 := by
        unfold answered
        dsimp only
        rw [modPost_post_same]
        rfl
      have row2 : (u2.post i).unverified = row.unverified ∧ (u2.post i).sensors = row.sensors := by
        rw [← first, answered_post]
        exact ⟨rfl, rfl⟩
      have entry : u2.entry i = s.entry i := by
        have store : (answered i u0).store = s.store := ((Noticed.answered i u0).soft true true).frame.store
        rw [← first]
        exact congrArg (fun b : StoreBlock => nth b.site.entries i) store
      have second : identified i r.serial (releaseSuppression e i u2) = u5 := by
        unfold identified
        dsimp only
        have entry3 : (releaseSuppression e i u2).entry i = s.entry i := entry
        have row3 : ((releaseSuppression e i u2).post i).unverified = row.unverified := row2.1
        rw [entry3, row3]
        rfl
      have row5 : (u5.post i).sensors = row.sensors := by
        rw [← second, identified_post_sensors]
        exact row2.2
      rw [rowNoted, counted, first, second, checkSensors_eq, row5]
      rfl
    exact ⟨t, hexec, spelled ▸ agree⟩
  · intro e os s i hop r hp ht hr hh ho hon hrow
    refine ⟨_, execPollReply_hangUp hp ht hr hh ho hon hrow, ?_⟩
    have taken := onHookState_taken e i r s
    obtain ⟨reach, hook, button⟩ := onHookState_row (e := e) (i := i) (s := s) (r := r)
    generalize onHookState e i r s = v at *
    rw [hr] at reach
    have sensed := (Undisturbed.onHook i v).sensed i
    have soft := (Soft.onHook (ev := false) i v).frame
    refine ⟨?_, ?_, ?_, ?_, ?_, fun c k hc hk => ⟨fun h => ?_, fun h => ?_, fun h1 h2 => ?_⟩, fun o hc hover hfound => ⟨?_, ?_, fun y up room => ?_⟩,
      fun hc hover => ?_⟩
    · rw [finish_post, sensed.1, hook]
    · rw [finish_post, sensed.2, button]
    · rw [finish_store, soft.store, taken.store]
    · rw [finish_now, soft.now, taken.now]
    · rw [finish_stamps, soft.stamps, taken.stamps]
    · have live : v.liveCall c = some k := by rw [taken.liveCall]; exact hk
      rw [finish_calls, onHook_clearing ((taken.callOf i).trans hc) live h]
      simp [taken.calls]
    · have live : v.liveCall c = some k := by rw [taken.liveCall]; exact hk
      rw [finish_calls, onHook_ringing ((taken.callOf i).trans hc) live h]
      exact taken.calls
    · have live : v.liveCall c = some k := by rw [taken.liveCall]; exact hk
      have ref := taken.refOfRecord c
      rw [onHook_frees ((taken.callOf i).trans hc) live h1 h2]
      by_cases offered : k.state = .offered
      · rw [if_pos offered]
        have beside := abandoning_beside i c k v
        obtain ⟨generation, trunks, free, waits⟩ := freedFrom hk (beside.calls.trans taken.calls)
        refine ⟨generation, trunks, fun hd ho => ⟨free hd ho, fun only => ?_⟩, fun y _ up room => ?_, fun p _ other => absurd offered other⟩
        · obtain ⟨d, y, mem, slot, command⟩ := waits i .lampOff hd ho (.inl rfl) ⟨e, abandoning_waits reach⟩
          exact ⟨d, y, mem, slot, command.trans (if_pos offered).symm⟩
        · have bound := taken.room y
          have told := waiting_abandoned (s := v) (i := i) (c := c) (k := k) (y := y) ((taken.up y).trans up) (by omega)
          have name : nameBlock (freeRecord c (abandoning i c k v)) i = nameBlock v i := by
            have live' : (abandoning i c k v).liveCall c = some k := by rw [liveCall_congr beside.calls]; exact live
            refine (freeRecord_nameBlock live' (by rw [offered]; rfl) i).trans ?_
            exact nameBlock_congr beside.store (by rw [beside.post]) (by rw [beside.post]) (by rw [beside.post])
          rw [finish_nameBlock, name, ← ref]
          exact (finish_waiting _).mpr told
      · rw [if_neg offered]
        have beside := clearingByPost_beside i c k v
        obtain ⟨generation, trunks, free, waits⟩ := freedFrom hk (beside.calls.trans taken.calls)
        refine ⟨generation, trunks, fun hd ho => ⟨free hd ho, fun only => ?_⟩, fun y h => absurd h offered, fun p hp _ up room => ?_⟩
        · have alone : NoCallOf (retire c (clearingByPost i c k v)) i :=
            noCallOf_retire fun j d hd => only j d (by rw [← taken.liveCall, ← liveCall_congr beside.calls]; exact hd)
          obtain ⟨d, y, mem, slot, command⟩ := waits i .release hd ho (.inr ⟨rfl, alone⟩) ⟨e, clearingByPost_waits reach⟩
          exact ⟨d, y, mem, slot, command.trans (if_neg offered).symm⟩
        · have bound := taken.room p.link
          have told := waiting_clearedByPost (i := i) live hp ((taken.up p.link).trans up) (by omega)
          obtain ⟨gap, mem⟩ := (finish_waiting (freeRecord c (clearingByPost i c k v))).mpr told
          exact ⟨gap, _, rfl, ref, rfl, rfl, mem⟩
    · have found : (v.calls.overflow.find? fun o => decide (o.slot = i)) = some o := by rw [taken.calls]; exact hfound
      rw [finish_calls, (onHook_missed ((taken.callOf i).trans hc) (by rw [State.onOverflow, taken.calls]; exact hover) found).1, taken.calls]
    · have found : (v.calls.overflow.find? fun o => decide (o.slot = i)) = some o := by rw [taken.calls]; exact hfound
      rw [finish_post]
      exact (onHook_missed ((taken.callOf i).trans hc) (by rw [State.onOverflow, taken.calls]; exact hover) found).2.1
    · have found : (v.calls.overflow.find? fun o => decide (o.slot = i)) = some o := by rw [taken.calls]; exact hfound
      have bound := taken.room y
      have entry : v.entry i = s.entry i := congrArg (fun b : StoreBlock => nth b.site.entries i) taken.store
      have missed := (onHook_missed ((taken.callOf i).trans hc) (by rw [State.onOverflow, taken.calls]; exact hover) found).2.2 y
        ((taken.up y).trans up) (by omega)
      rw [finish_nameBlock, ← entry]
      exact (finish_waiting _).mpr missed
    · rw [finish_calls, onHook_of_none ((taken.callOf i).trans hc) (by rw [State.onOverflow, taken.calls]; exact hover)]
      exact taken.calls

end Sys2Proof.Machine
end

