-- ==== Sys2Proof/Proofs/CallEvents.lean ====
section
/-! PROOF. The call event of a post (R92, R93, R95, R108) and what its steps leave: the members of announcements that leave for the call, the
OFFER to the links that are due, the request of an answered ring; O53. -/

namespace Sys2Proof.Machine

/-! ## Bursts of a post that is taken from them (R142) -/

/-- No running burst has the post for its target. -/
def Untargeted (s : State) (i : Slot) : Prop := ∀ d b, s.burst d = .running b → b.target ≠ i

theorem Undisturbed.untargeted {s t : State} (h : Undisturbed s t) {i : Slot} (hs : Untargeted s i) : Untargeted t i := by
  intro d b hb
  rcases h.bursts d with same | ⟨b', x, -, ended⟩
  · exact hs d b (same ▸ hb)
  · exact nomatch ended.symm.trans hb

theorem endBurst_not_running (e : EndId) (x : BurstEnding) (s : State) (b : Burst) : (endBurst e x s).burst e ≠ .running b := by
  intro runs
  have ended := BurstsOnlyEnd.endBurst_burstRuns e x s
  simp [burstRuns, runs] at ended

theorem abortTarget_untargeted (i : Slot) (r : AbortReason) (s : State) : Untargeted (abortTarget i r s) i := by
  intro d
  unfold abortTarget
  refine forEach_brings (I := fun _ => True) (P := fun t => ∀ b, t.burst d = .running b → b.target ≠ i) (a := d)
    (fun _ _ => id) (fun t _ => ?_) (fun e t _ h => ?_) allEnds s trivial (.inl (mem_allEnds d))
  · intro b hb
    split at hb
    · next b' hb' =>
      split at hb
      · exact absurd hb (endBurst_not_running d _ t b)
      · next other =>
        cases hb'.symm.trans hb
        exact other
    · next hb' => exact nomatch hb'.symm.trans hb
    · next hb' => exact nomatch hb'.symm.trans hb
  · intro b hb
    split at hb
    · split at hb
      · rcases (Moves.endBurst (homes := true) (new := true) e (.aborted r) t).undisturbed.bursts d with same | ⟨b', x, -, ended⟩
        · exact h b (same ▸ hb)
        · exact nomatch ended.symm.trans hb
      · exact h b hb
    · exact h b hb
    · exact h b hb

theorem Untargeted.of_agree {s t : State} {i : Slot} (h : Untargeted s i) (agree : Agree t s) : Untargeted t i := by
  intro d b hb
  have line : t.line.settled = s.line.settled := congrArg State.line agree
  have same : (t.burst d).settled = (s.burst d).settled := by
    simpa only [LineBlock.settled, nth_map, State.burst] using congrArg (fun l : LineBlock => nth l.bursts (endIdx d)) line
  rw [hb] at same
  cases hs : s.burst d with
  | running b' =>
    rw [hs] at same
    simp only [BurstRecord.settled, BurstRecord.running.injEq, Burst.mk.injEq] at same
    obtain ⟨target, -⟩ := same
    exact target ▸ h d b' hs
  | none => rw [hs] at same; exact nomatch same
  | ended b' x => rw [hs] at same; exact nomatch same

theorem finish_untargeted {s : State} {i : Slot} (h : Untargeted s i) : Untargeted (finish s) i := h.of_agree (agree_finish s)

/-! ## What aborting a burst and settling leave of calls -/

theorem abortTarget_calls (i : Slot) (r : AbortReason) (s : State) : CallsKept s (abortTarget i r s) := by
  unfold abortTarget
  refine forEach_invariant (I := fun t => CallsKept s t) (fun e t h => ?_) allEnds s ⟨rfl, rfl, rfl⟩
  split
  · split
    · exact h.trans (.endBurst e _ t)
    · exact h
  · exact h
  · exact h

theorem settle_calls (before s : State) : (settle before s).calls = s.calls := by
  have tested (g : GroupId) (t : State) : (testReady g t).calls = t.calls := by
    unfold testReady
    dsimp only
    split
    · rw [(CallsKept.reportBoth _ _).calls]
      rfl
    · rfl
  exact forEach_unchanged (fun t => t.calls) tested (changedGroups before s) (orderReports before s)

/-! ## Members that leave for a call (R125) -/

/-- A member that leaves for a call takes no part in its group. -/
theorem changeMember_notTaking (g : GroupId) (i : Slot) {o : MemberOutcome} (ho : unsettled o = false) (p : Option CallRef) (s : State) :
    takingPart (changeMember g i o p s) g i = false := by
  have settled : takingPart (modMember g i (fun m => { m with outcome := o, leaving := false }) s) g i = false := by
    refine Bool.eq_false_iff.mpr fun taking => ?_
    rw [takingPart_iff, modMember_group_same] at taking
    obtain ⟨-, m', hm', slot, part⟩ := taking
    obtain ⟨m, -, rfl⟩ := List.mem_map.mp hm'
    split at part
    · exact nomatch ho.symm.trans part
    · next other =>
      rw [if_neg other] at slot
      exact other slot
  exact (Moves.reportMember (homes := false) (new := false) g p i _).notTaking settled

/-- The members of a post that leave for its call. -/
def membersLeave (i : Slot) (s : State) : State :=
  forEach ((allFin 16).filter fun g => takingPart s g i) (fun g s => changeMember g i .leftForCall none (placeCommand i .announceEnd s)) s

theorem memberLeaves_moves {homes new : Bool} (i : Slot) (g : GroupId) (s : State) :
    Moves homes new s (changeMember g i .leftForCall none (placeCommand i .announceEnd s)) :=
  .andThen (.changeMember g i _ _ _ fun _ _ => .inr rfl) (.announcement i _ rfl s)

theorem membersLeave_notTaking (i : Slot) (s : State) (g : GroupId) : takingPart (membersLeave i s) g i = false := by
  refine forEach_brings (I := fun _ => True) (P := fun t => takingPart t g i = false) (a := g) (fun _ _ => id)
    (fun t _ => changeMember_notTaking g i rfl none _) (fun k t _ h => (memberLeaves_moves (new := false) i k t).notTaking h) _ s trivial ?_
  cases taking : takingPart s g i with
  | true => exact .inl (List.mem_filter.mpr ⟨mem_allFin g, taking⟩)
  | false => exact .inr rfl

theorem memberLeftForCall_eq (tell : Telling) (i : Slot) (s : State) : memberLeftForCall tell i s =
    forEach ((allFin 16).filter fun g => takingPart s g i) releases (tell s (membersLeave i s)) := rfl

/-- A post that gets a call takes part in no announcement (R125). -/
theorem memberLeftForCall_notTaking (i : Slot) (s : State) (g : GroupId) : takingPart (memberLeftForCall settle i s) g i = false :=
  (Moves.andThen (homes := false) (new := false) (.forEach .releases _ _) (.settle s _)).notTaking (membersLeave_notTaking i s g)

/-- A post that takes part in none leaves none. -/
theorem memberLeftForCall_of_absent {i : Slot} {s : State} (h : ∀ g, takingPart s g i = false) : memberLeftForCall settle i s = s := by
  have groups : ((allFin 16).filter fun g => takingPart s g i) = [] := by simp [h]
  have left : membersLeave i s = s := by rw [membersLeave, groups]; rfl
  rw [memberLeftForCall_eq, left, groups, settle_of_quiet rfl rfl rfl]
  rfl

theorem memberLeftForCall_moves {homes new : Bool} (i : Slot) (s : State) : Moves homes new s (memberLeftForCall settle i s) :=
  .memberLeftForCall .settle i s

theorem outcome_settled {s : State} {g : GroupId} {i : Slot} {o : MemberOutcome} (h : takingPart s g i = false)
    (active : (s.group g).active = true) (ho : outcomeOf s g i = some o) : unsettled o = false := by
  refine Bool.eq_false_iff.mpr fun part => Bool.eq_false_iff.mp h ?_
  simp only [outcomeOf, Option.map_eq_some_iff] at ho
  obtain ⟨m, hm, rfl⟩ := ho
  exact takingPart_iff.mpr ⟨active, m, List.mem_of_find?_eq_some hm, by simpa using List.find?_some hm, part⟩

/-! ## Offers (R96, R97) -/

theorem offerTo_line (i : CallIdx) (x : LinkId) (s : State) : (offerTo report i x s).line = s.line ∧ (offerTo report i x s).groups = s.groups
    ∧ (offerTo report i x s).calls.overflow = s.calls.overflow := by
  unfold offerTo sendOffer
  split
  · split
    · split
      · simp [report]
      · exact ⟨rfl, rfl, rfl⟩
    · exact ⟨rfl, rfl, rfl⟩
  · exact ⟨rfl, rfl, rfl⟩

theorem offer_line (i : CallIdx) (s : State) : (offer i s).line = s.line ∧ (offer i s).groups = s.groups
    ∧ (offer i s).calls.overflow = s.calls.overflow := by
  unfold offer offerBy
  split
  · obtain ⟨line, groups, overflow⟩ := offerTo_line i (homeLinkOf s ‹LiveCall›.slot) s
    obtain ⟨line', groups', overflow'⟩ := offerTo_line i (otherLink (homeLinkOf s ‹LiveCall›.slot)) (offerTo report i (homeLinkOf s ‹LiveCall›.slot) s)
    exact ⟨line'.trans line, groups'.trans groups, overflow'.trans overflow⟩
  · exact ⟨rfl, rfl, rfl⟩

/-- A call as it begins to be offered: OFFERED to no link, with no timer and the overflowed flag clear (R92). -/
structure Fresh (k : LiveCall) : Prop where
  state : k.state = .offered
  offered : k.offered = .empty
  timer : k.timer = none
  flag : k.flags.overflowed = false

section
variable {s : State} {c : CallIdx} {k : LiveCall}

theorem liveCall_modCall (hk : s.liveCall c = some k) (f : LiveCall → LiveCall) : (s.modCall c f).liveCall c = some (f k) := by simp [hk]

theorem sendOffer_of_live (hk : s.liveCall c = some k) (place : Placing) (x : LinkId) : sendOffer place c x s = place x (offerOf s c k) s := by
  simp only [sendOffer, hk]

theorem homeLinkOf_congr {s t : State} (h : t.store = s.store) (i : Slot) : homeLinkOf t i = homeLinkOf s i := by
  simp only [homeLinkOf, State.segment, State.entry, h]

/-- A link that has the call offered gets the OFFER of the record as it then stands. -/
def offeredTo (c : CallIdx) (x : LinkId) (k : LiveCall) (s : State) : State :=
  report x (offerOf (s.modCall c (joinOffered s x)) c (joinOffered s x k)) (s.modCall c (joinOffered s x))

theorem offeredTo_eq (hk : s.liveCall c = some k) (x : LinkId) :
    sendOffer report c x (s.modCall c (joinOffered s x)) = offeredTo c x k s := sendOffer_of_live (liveCall_modCall hk _) report x

theorem offeredTo_liveCall (hk : s.liveCall c = some k) (x : LinkId) : (offeredTo c x k s).liveCall c = some (joinOffered s x k) := by
  simp [offeredTo, report, hk]

theorem offeredTo_up (x y : LinkId) : ((offeredTo c x k s).link y).up = (s.link y).up := by
  rw [offeredTo, report_link]
  have up (r : Report) (l : LinkRecord) : (enqueue r l).up = l.up := (enqueue_told r l).up
  split
  · rw [up]; cases y <;> rfl
  · cases y <;> rfl

/-- A fresh call is offered to its home link, or to the other while that is DOWN (R96). -/
theorem offer_fresh (hk : s.liveCall c = some k) (fresh : Fresh k) : offer c s =
    if (s.link (homeLinkOf s k.slot)).up = true then offeredTo c (homeLinkOf s k.slot) k s
    else if (s.link (otherLink (homeLinkOf s k.slot))).up = true then offeredTo c (otherLink (homeLinkOf s k.slot)) k s else s := by
  obtain ⟨state, offered, timer, flag⟩ := fresh
  generalize hx : homeLinkOf s k.slot = x
  have other : otherLink x ≠ x := by cases x <;> nofun
  have empty (y : LinkId) : k.offered.has y = false := by rw [offered]; cases y <;> rfl
  have offerTo_eq (y : LinkId) (due : dueTo s k y = true) :
      offerTo report c y s = if (s.link y).up = true then offeredTo c y k s else s := by
    simp only [offerTo, hk, state, empty, due, true_and, and_true, offeredTo_eq hk]
  have home : dueTo s k x = true := by simp [dueTo, hx]
  unfold offer offerBy
  rw [hk]
  dsimp only
  rw [hx, offerTo_eq x home]
  by_cases up : (s.link x).up = true
  · rw [if_pos up, if_pos up]
    have live := offeredTo_liveCall hk x
    have joined : joinOffered s x k = { k with offered := k.offered.put x true, timer := some (.overflow, s.after s.store.site.global.offerOverflow) } := by
      simp [joinOffered, hx, flag]
    have store : (offeredTo c x k s).store = s.store := by simp [offeredTo, report]
    have notDue : dueTo (offeredTo c x k s) (joinOffered s x k) (otherLink x) = false := by
      rw [joined]
      simp only [dueTo, homeLinkOf_congr store, hx, offeredTo_up, up, flag, other]
      rfl
    unfold offerTo
    rw [live]
    dsimp only
    rw [notDue]
    exact if_neg fun h => nomatch h.2.2.2
  · rw [if_neg up, if_neg up]
    have due : dueTo s k (otherLink x) = true := by simp [dueTo, hx, up]
    exact offerTo_eq _ due

/-- The record of a fresh call once it is offered. -/
def offeredRecord (s : State) (k : LiveCall) : LiveCall :=
  if (s.link (homeLinkOf s k.slot)).up = true then joinOffered s (homeLinkOf s k.slot) k
  else if (s.link (otherLink (homeLinkOf s k.slot))).up = true then joinOffered s (otherLink (homeLinkOf s k.slot)) k else k

theorem offer_record (hk : s.liveCall c = some k) (fresh : Fresh k) :
    (offer c s).record c = { generation := (s.record c).generation, live := some (offeredRecord s k) } := by
  have joined (x : LinkId) : (offeredTo c x k s).record c = { generation := (s.record c).generation, live := some (joinOffered s x k) } := by
    have live : (s.record c).live = some k := hk
    simp [offeredTo, report, State.modCall, live]
  have same : s.record c = { generation := (s.record c).generation, live := some k } := by
    have live : (s.record c).live = some k := hk
    rw [← live]
  rw [offer_fresh hk fresh]
  unfold offeredRecord
  split
  · exact joined _
  · split
    · exact joined _
    · exact same

theorem offeredRecord_spec (fresh : Fresh k) : (offeredRecord s k).slot = k.slot ∧ (offeredRecord s k).direction = k.direction
    ∧ (offeredRecord s k).state = .offered ∧ (offeredRecord s k).stamp = k.stamp ∧ (offeredRecord s k).parties = k.parties
    ∧ (offeredRecord s k).cls = k.cls
    ∧ (∀ y, (offeredRecord s k).offered.has y = true ↔ (s.link y).up = true ∧ (y = homeLinkOf s k.slot ∨ (s.link (homeLinkOf s k.slot)).up = false))
    ∧ (offeredRecord s k).timer = if (s.link (homeLinkOf s k.slot)).up then some (.overflow, s.now + 1000 * s.store.site.global.offerOverflow) else none := by
  obtain ⟨state, offered, timer, flag⟩ := fresh
  generalize hx : homeLinkOf s k.slot = x
  have other : otherLink x ≠ x := by cases x <;> nofun
  unfold offeredRecord
  rw [hx]
  by_cases up : (s.link x).up = true
  · rw [if_pos up]
    simp only [joinOffered, hx, flag, state, offered, up, State.after, if_pos, true_and]
    refine ⟨fun y => ?_, rfl⟩
    cases x <;> cases y <;> simp_all [LinkSet.put, LinkSet.has, LinkSet.empty]
  · rw [if_neg up]
    by_cases up' : (s.link (otherLink x)).up = true
    · rw [if_pos up']
      simp only [joinOffered, hx, if_neg other, state, offered, timer]
      refine ⟨trivial, trivial, trivial, trivial, trivial, trivial, fun y => ?_, ?_⟩
      · cases x <;> cases y <;> simp_all [LinkSet.put, LinkSet.has, LinkSet.empty, otherLink]
      · simp [up, stopOverflowTimer]
    · rw [if_neg up', offered]
      refine ⟨rfl, rfl, state, rfl, rfl, rfl, fun y => ?_, ?_⟩
      · cases x <;> cases y <;> simp_all [LinkSet.has, LinkSet.empty, otherLink]
      · simp [up, timer]

theorem offerOf_congr {t : State} (calls : t.calls = s.calls) (name : nameBlock t k.slot = nameBlock s k.slot) :
    offerOf t c k = offerOf s c k := by
  have ref : t.refOfRecord c = s.refOfRecord c := by
    rw [State.refOfRecord, State.record, calls]
    rfl
  have rank : queueRank t c = queueRank s c := by simp only [queueRank, liveCall_congr calls]
  simp only [offerOf, ref, rank, name]

theorem report_nameBlock (x : LinkId) (r : Report) (s : State) (i : Slot) : nameBlock (report x r s) i = nameBlock s i :=
  nameBlock_congr (by simp [report]) (by simp [report]) (by simp [report]) (by simp [report])

theorem waiting_offeredTo {x : LinkId} (up : (s.link x).up = true) (room : (s.link x).queue.length < 64) :
    Waiting (offeredTo c x k s) x (offerOf (offeredTo c x k s) c (joinOffered s x k)) := by
  have same : offerOf (offeredTo c x k s) c (joinOffered s x k) = offerOf (s.modCall c (joinOffered s x)) c (joinOffered s x k) :=
    offerOf_congr (by simp [offeredTo, report]) (report_nameBlock _ _ _ _)
  have link : (s.modCall c (joinOffered s x)).link x = s.link x := by cases x <;> rfl
  rw [same]
  exact waiting_report _ (by rw [link]; exact up) (by rw [link]; exact room)

/-- Each link that joins the offered set gets an OFFER of the record as it then stands (R96). -/
theorem waiting_offer (hk : s.liveCall c = some k) (fresh : Fresh k) {y : LinkId} (hy : (offeredRecord s k).offered.has y = true)
    (room : (s.link y).queue.length < 64) : Waiting (offer c s) y (offerOf (offer c s) c (offeredRecord s k)) := by
  obtain ⟨-, -, -, -, -, -, due, -⟩ := offeredRecord_spec (s := s) fresh
  obtain ⟨up, home⟩ := (due y).mp hy
  rw [offer_fresh hk fresh]
  unfold offeredRecord
  generalize homeLinkOf s k.slot = x at *
  by_cases hx : (s.link x).up = true
  · rw [if_pos hx, if_pos hx]
    obtain rfl := home.resolve_right (by simp [hx])
    exact waiting_offeredTo up room
  · rw [if_neg hx, if_neg hx]
    have other : y = otherLink x := by cases x <;> cases y <;> simp_all [otherLink]
    subst other
    rw [if_pos up, if_pos up]
    exact waiting_offeredTo up room

end

/-! ## A new call (R91, R92) -/

/-- The post that begins to call, before the members of announcements leave (R92). -/
def callingPost (i : Slot) (p : Stamp) (s : State) : State := placeCommand i .lampOn (setActivity i .calling (some p) s)

theorem beginCalling_eq (tell : Telling) (i : Slot) (p : Stamp) (s : State) :
    beginCalling tell i p s = memberLeftForCall tell i (callingPost i p s) := rfl

/-- What the post of a new call or overflow entry has got, and what its members of announcements have. -/
structure Calls (i : Slot) (e : EndId) (p : Stamp) (t : State) : Prop where
  activity : (t.post i).activity = .calling
  stamp : (t.post i).stamp = some p
  lamp : WaitsOn t e i .lampOn
  absent : ∀ g, takingPart t g i = false

theorem Calls.moves {i : Slot} {e : EndId} {p : Stamp} {s t : State} (h : Calls i e p s) (m : Moves false false s t) : Calls i e p t := by
  obtain ⟨activity, stamp, lamp, absent⟩ := h
  obtain ⟨calling, same⟩ := m.calling_kept i activity
  exact ⟨calling, same.trans stamp, m.waits (.inl rfl) lamp, fun g => m.notTaking (absent g)⟩

theorem Calls.of_line {i : Slot} {e : EndId} {p : Stamp} {s t : State} (h : Calls i e p s) (hl : t.line = s.line) (hg : t.groups = s.groups) :
    Calls i e p t := by
  obtain ⟨activity, stamp, lamp, absent⟩ := h
  have post : t.post i = s.post i := by rw [State.post, hl]; rfl
  refine ⟨by rw [post, activity], by rw [post, stamp], (WaitsOn.congr (by rw [State.endRec, hl]; rfl)).mpr lamp, fun g => ?_⟩
  have group : t.group g = s.group g := by rw [State.group, hg]; rfl
  exact (takingPart_congr (congrArg _ group) (congrArg _ group) i).trans (absent g)

theorem beginCalling_calls {i : Slot} {e : EndId} {s : State} (hr : (s.post i).reach = .served e) (p : Stamp) :
    Calls i e p (beginCalling settle i p s) := by
  have row : ((callingPost i p s).post i).activity = .calling ∧ ((callingPost i p s).post i).stamp = some p := by
    rw [callingPost, placeCommand_post]
    simp [setActivity]
  have lamp : WaitsOn (callingPost i p s) e i .lampOn := waitsOn_placeCommand (by simp [setActivity, hr]) _
  have moves := memberLeftForCall_moves (homes := false) (new := false) i (callingPost i p s)
  obtain ⟨calling, same⟩ := moves.calling_kept i row.1
  exact ⟨calling, same.trans row.2, moves.waits (.inl rfl) lamp, memberLeftForCall_notTaking i _⟩

/-- What beginning to call leaves of the calls: one that needs no end stays as it is. -/
theorem beginCalling_kept (i : Slot) (p : Stamp) (s : State) : (∀ c k, s.liveCall c = some k → needsItsEnd k.state = false →
      (beginCalling settle i p s).liveCall c = some k)
    ∧ (∀ c, ((beginCalling settle i p s).record c).generation = (s.record c).generation)
    ∧ (beginCalling settle i p s).calls.overflow = s.calls.overflow
    ∧ (∀ c, (s.liveCall c).isSome = true → ((beginCalling settle i p s).liveCall c).isSome = true) := by
  have moves := memberLeftForCall_moves (homes := false) (new := false) i (callingPost i p s)
  have calls : (callingPost i p s).calls = s.calls := by
    obtain ⟨-, placed, -⟩ := placeCommand_kept i .lampOn (setActivity i .calling (some p) s)
    exact placed
  have record (c : CallIdx) : (callingPost i p s).record c = s.record c := by rw [State.record, calls]; rfl
  refine ⟨fun c k hk hs => moves.offLine c k (by rw [liveCall_congr calls]; exact hk) hs, fun c => ?_, ?_, fun c hc => ?_⟩
  · rw [← record c]
    exact moves.generation c
  · rw [← calls]
    exact moves.noNewCall.1
  · obtain ⟨k, hk⟩ := Option.isSome_iff_exists.mp hc
    obtain ⟨k', hk', -⟩ := moves.live c k (by rw [liveCall_congr calls]; exact hk)
    rw [beginCalling_eq, hk']
    rfl

theorem inboundCall_fresh {s : State} {i : Slot} {e : EndId} (hr : (s.post i).reach = .served e) (b : Button) (p : Stamp) :
    Fresh (inboundCall s i b p) := by
  have serving : servingEnd s i = some e := by simp [servingEnd, hr]
  exact ⟨by simp [inboundCall, serving], rfl, rfl, rfl⟩

/-- The record that a new call has before it is offered. -/
theorem newCall_record {s : State} {i : Slot} {e : EndId} {c : CallIdx} (hr : (s.post i).reach = .served e) (b : Button) (p : Stamp) :
    (newCall settle c i b p s).liveCall c = some (inboundCall s i b p)
      ∧ ((newCall settle c i b p s).record c).generation = (s.record c).generation
      ∧ (newCall settle c i b p s).calls.overflow = s.calls.overflow := by
  obtain ⟨kept, generation, overflow, -⟩ := beginCalling_kept i p (makeLive c (inboundCall s i b p) s)
  have live : (makeLive c (inboundCall s i b p) s).liveCall c = some (inboundCall s i b p) := by simp [makeLive, State.liveCall]
  have state := (inboundCall_fresh hr b p).state
  refine ⟨kept c _ live (by rw [state]; rfl), (generation c).trans ?_, overflow⟩
  simp [makeLive]

end Sys2Proof.Machine
end

