-- ==== Sys2Proof/Proofs/AnsweredRing.lean ====
section
/-! PROOF. A ringing call that its post answers (R108): the request on the post's end, where the call uses no end yet, and what is then granted or
waited for (R76, R77, R100). -/

namespace Sys2Proof.Machine

/-! ## The grant or the wait of a CONNECTING call -/

section
variable {s : State} {i : CallIdx} {k : LiveCall}

/-- A CONNECTING call that takes a channel. -/
theorem callTakesChannel_connecting (hk : s.liveCall i = some k) (hs : k.state = .connecting) (e : EndId) (c : Chan) :
    ∃ l, (callTakesChannel i e c s).liveCall i = some l ∧ l.channel = some (e, c) := by
  have live : (callTakesChannel i e c s).calls = (s.modCall i fun k' => { k' with
      channel := some (e, c), request := none, state := k'.state, resuming := k'.resuming }).calls := by
    unfold callTakesChannel
    rw [hk]
    simp only [hs]
    exact (placeCommand_kept _ _ _).2.1
  refine ⟨{ k with channel := some (e, c), request := none }, ?_, rfl⟩
  rw [liveCall_congr live]
  simp [hk]

theorem callTakesChannel_moves {homes new : Bool} (hk : s.liveCall i = some k) (hs : k.state = .connecting) (e : EndId) (c : Chan) :
    Moves homes new s (callTakesChannel i e c s) :=
  .callTakesChannel i e c s fun _ _ k' hk' => by cases hk.symm.trans hk'; rw [hs]; rfl

theorem callWaits_moves {homes new : Bool} (hk : s.liveCall i = some k) (hs : k.state = .connecting) (e : EndId) (kd : RequestKind) :
    Moves homes new s (callWaits i e kd s) :=
  .call s i _ fun k' hk' => ⟨rfl, fun _ _ => by
    cases hk.symm.trans hk'
    exact ⟨by rw [hs]; rfl, rfl, rfl, rfl, id⟩⟩

/-- What a CONNECTING call has once it is granted a channel of an end or waits for one. -/
def Requested (i : CallIdx) (e : EndId) (s : State) : Prop :=
  ∃ l, s.liveCall i = some l ∧ ((∃ ch, l.channel = some (e, ch)) ∨ ∃ kind, l.request = some (e, kind))

theorem preempt_connects (hk : s.liveCall i = some k) (hs : k.state = .connecting) (slot : Slot) (e : EndId) (c : Chan) (g : GroupId) :
    Moves false false s (preempt i slot e c g s) ∧ Requested i e (preempt i slot e c g s) := by
  have before : Moves false false s (groupPreempted g e (s.refOfRecord i)
      (addPreempted e g (s.refOfRecord i) (setHolder e c (.call (s.refOfRecord i) slot) s))) :=
    .andThen (.groupPreempted _ _ _ _) (.andThen (.chan _ e _) (.chan s e _))
  obtain ⟨k', hk', hs', -⟩ := before.connecting i k hk hs
  obtain ⟨l, hl, channel⟩ := callTakesChannel_connecting hk' hs' e c
  exact ⟨before.trans (callTakesChannel_moves hk' hs' e c), l, hl, .inl ⟨c, channel⟩⟩

/-- A CONNECTING call gets a channel of the end or waits for one, and nothing else of the calls is touched but lines (R76, R77). -/
theorem grantOrWait_connects (hk : s.liveCall i = some k) (hs : k.state = .connecting) (k' : LiveCall) (kd : RequestKind) (e : EndId) :
    Moves false false s (grantOrWait i k' kd e s) ∧ Requested i e (grantOrWait i k' kd e s) := by
  unfold grantOrWait
  dsimp only
  split
  · next c _ =>
    have held : (setHolder e c (.call (s.refOfRecord i) k'.slot) s).liveCall i = some k := hk
    obtain ⟨l, hl, channel⟩ := callTakesChannel_connecting held hs e c
    exact ⟨.andThen (callTakesChannel_moves held hs e c) (.chan s e _), l, hl, .inl ⟨c, channel⟩⟩
  · split
    · exact preempt_connects hk hs _ e _ _
    · have waits : (setWaiting e (insertWaiter (.call kd (s.refOfRecord i) k'.slot k'.cls) (s.chan e).waiting) s).liveCall i = some k := hk
      exact ⟨.andThen (callWaits_moves waits hs e kd) (.chan s e _), _, liveCall_modCall waits _, .inr ⟨kd, rfl⟩⟩

end

/-! ## The request -/

theorem usesEnd_congr {s t : State} (h : t.arbiter = s.arbiter) (ref : CallRef) (e : EndId) : usesEnd t ref e = usesEnd s ref e := by
  simp only [usesEnd, heldByCall, State.chan, h]

theorem usesEnd_false {s : State} {ref : CallRef} {e : EndId} (h : usesEnd s ref e = false) :
    heldByCall s e ref = none ∧ (s.chan e).waiting.any (waitsFor ref) = false := by
  simpa [usesEnd] using h

/-- A call that uses no end requests on the end of its post, cases 4 to 6 of R76. -/
theorem requestOnServing_of_unused {s : State} {i : CallIdx} {k : LiveCall} {e : EndId} (hk : s.liveCall i = some k)
    (hr : (s.post k.slot).reach = .served e) (hh : holdsChannels (s.endRec e).state = true)
    (hu : ∀ d, usesEnd s (s.refOfRecord i) d = false) (kd : RequestKind) : requestOnServing i kd s = grantOrWait i k kd e s := by
  have serving : servingEnd s k.slot = some e := by simp [servingEnd, hr]
  obtain ⟨held, waiting⟩ := usesEnd_false (hu e)
  have left : forEach allEnds (fun x t => if x ≠ e ∧ usesEnd t (s.refOfRecord i) x = true then postLeft k.slot x .postMoved t else t) s = s := by
    refine forEach_eq_self (fun x => ?_) allEnds
    rw [hu x]
    exact if_neg fun h => nomatch h.2
  unfold requestOnServing
  rw [hk]
  dsimp only
  rw [serving]
  dsimp only
  unfold requestForCall
  rw [hk]
  dsimp only
  rw [if_neg (by simp [hh]), held]
  dsimp only
  rw [if_neg (by simp [waiting]), left]

/-! ## The answer (R108) -/

/-- The record of an answered ring before its request. -/
def answeredRecord (p : Stamp) (k : LiveCall) : LiveCall := { k with stamp := some p, timer := none, state := .connecting, resuming := false }

/-- The state in which an answered ring requests its channel. -/
def answering (i : CallIdx) (slot : Slot) (p : Stamp) (s : State) : State :=
  setActivity slot .calling (some p) (s.modCall i (answeredRecord p))

theorem answeredByPost_eq {s : State} {i : CallIdx} {k : LiveCall} (hk : s.liveCall i = some k) (p : Stamp) :
    answeredByPost i p s = reportParties i .answeredByPost .none (settle s (requestOnServing i .connect (answering i k.slot p s))) := by
  simp only [answeredByPost, hk]
  rfl

/-- What is found of a ring that its post has answered. -/
structure Answered (i : CallIdx) (slot : Slot) (e : EndId) (p : Stamp) (k : LiveCall) (t : State) : Prop where
  live : ∃ l, t.liveCall i = some l ∧ l.state = .connecting ∧ l.stamp = some p ∧ l.timer = none ∧ l.parties = k.parties
    ∧ ((∃ ch, l.channel = some (e, ch)) ∨ ∃ kind, l.request = some (e, kind))
  activity : (t.post slot).activity = .calling
  stamp : (t.post slot).stamp = some p

theorem Answered.later {i : CallIdx} {slot : Slot} {e : EndId} {p : Stamp} {k : LiveCall} {s t : State} (h : Answered i slot e p k s)
    (m : Moves false false s t) (calls : t.calls = s.calls) : Answered i slot e p k t := by
  obtain ⟨live, activity, stamp⟩ := h
  obtain ⟨calling, same⟩ := m.calling_kept slot activity
  exact ⟨by rw [liveCall_congr calls]; exact live, calling, same.trans stamp⟩

theorem answeredByPost_answered {s : State} {i : CallIdx} {k : LiveCall} {e : EndId} (hk : s.liveCall i = some k)
    (hr : (s.post k.slot).reach = .served e) (hh : holdsChannels (s.endRec e).state = true)
    (hu : ∀ d, usesEnd s (s.refOfRecord i) d = false) (p : Stamp) : Answered i k.slot e p k (answeredByPost i p s) := by
  have live : (answering i k.slot p s).liveCall i = some (answeredRecord p k) := liveCall_modCall hk (answeredRecord p)
  have ref : (answering i k.slot p s).refOfRecord i = s.refOfRecord i := by simp [answering, setActivity, State.refOfRecord, State.modCall]
  have reach : ((answering i k.slot p s).post k.slot).reach = .served e := by simpa [answering, setActivity, State.post] using hr
  have request := requestOnServing_of_unused live reach hh (fun d => by rw [ref]; exact hu d) .connect
  obtain ⟨moves, l, hl, line⟩ := grantOrWait_connects (e := e) live rfl (answeredRecord p k) .connect
  obtain ⟨l', hl', state, stamp, timer, parties⟩ := moves.connecting i _ live rfl
  cases hl.symm.trans hl'
  have calling : ((answering i k.slot p s).post k.slot).activity = .calling ∧ ((answering i k.slot p s).post k.slot).stamp = some p := by
    simp [answering, setActivity]
  obtain ⟨activity, same⟩ := moves.calling_kept k.slot calling.1
  have requested : Answered i k.slot e p k (requestOnServing i .connect (answering i k.slot p s)) := by
    rw [request]
    exact ⟨⟨l, hl, state, stamp, timer, parties, line⟩, activity, same.trans calling.2⟩
  rw [answeredByPost_eq hk]
  refine (requested.later (.settle s _) (settle_calls s _)).later (.reportParties _ _ _ _) ?_
  obtain ⟨-, calls, -⟩ := reportCall_line i .answeredByPost .none false (partyLinks (settle s (requestOnServing i .connect (answering i k.slot p s))) i)
    (settle s (requestOnServing i .connect (answering i k.slot p s)))
  exact calls

end Sys2Proof.Machine
end

