-- ==== Sys2Proof/Proofs/LiftedReplies.lean ====
section
/-! PROOF. A good reply that tells of a call event of its post (R46, R92 to R95, R108): O53. -/

namespace Sys2Proof.Machine

/-! ## The state that a call event is passed in -/

/-- The state in which the call event of a good reply to a poll that carried nothing is passed: its stamp is taken. -/
def liftState (e : EndId) (i : Slot) (r : Reply) (s : State) : State :=
  takeStamp ((noted e i r (pollClosed e (.good r) s)).modPost i (sensedRow .off r.button))

/-- The state after the call event, at the end of the step. -/
def liftDone (i : Slot) (b : Button) (p : Stamp) (v : State) : State := finish (abortTarget i .callEvent (callEvent i b p v))

section
variable {e : EndId} {i : Slot} {r : Reply} {s : State}

theorem checkSensors_reply (new : Sensors) : ((checkSensors i new s).post i).reply = (s.post i).reply := by
  rw [checkSensors_eq]
  split
  · rw [modPost_post_same]
  · rw [reportBoth_post, modPost_post_same]

theorem identified_reply (n : Nat) : ((identified i n s).post i).reply = (s.post i).reply := by
  unfold identified
  dsimp only
  split
  · rw [modPost_post_same]
  · rw [reportBoth_post, modPost_post_same]

theorem noted_reply : ((noted e i r s).post i).reply = .answering := by
  have released : ((releaseSuppression e i (answered i s)).post i).reply = ((answered i s).post i).reply := rfl
  rw [noted, reread, checkSensors_reply, checkIdentity_eq, identified_reply, countMismatch_eq, modCounters_post, released, answered_post]

/-- What a call event finds: nothing but the row and the stamp counter has changed since the reply. -/
structure Lifted (i : Slot) (r : Reply) (s v : State) : Prop where
  calls : v.calls = s.calls
  groups : v.groups = s.groups
  arbiter : v.arbiter = s.arbiter
  store : v.store = s.store
  now : v.now = s.now
  stamps : v.line.stampCounter = s.line.stampCounter + 1
  core : ∀ d, (v.endRec d).core = (s.endRec d).core
  up : ∀ y, (v.link y).up = (s.link y).up
  room : ∀ y, (v.link y).queue.length ≤ (s.link y).queue.length + 3
  reach : (v.post i).reach = (s.post i).reach
  hook : (v.post i).hook = .off
  button : (v.post i).button = r.button
  reply : (v.post i).reply = .answering

theorem Taken.lifted {u : State} (taken : Taken s u) (reach : (u.post i).reach = (s.post i).reach) (reply : (u.post i).reply = .answering) :
    Lifted i r s (takeStamp (u.modPost i (sensedRow .off r.button))) := by
  have up (y : LinkId) : (u.link y).up = (s.link y).up := taken.up y
  have row : (takeStamp (u.modPost i (sensedRow .off r.button))).post i = sensedRow .off r.button (u.post i) := modPost_post_same _ _ _
  have link (y : LinkId) : (takeStamp (u.modPost i (sensedRow .off r.button))).link y = u.link y := by cases y <;> rfl
  exact ⟨taken.calls, taken.groups, taken.arbiter, taken.store, taken.now, by rw [← taken.stamps]; rfl, taken.core,
    fun y => by rw [link]; exact up y, fun y => by rw [link]; exact taken.room y, by rw [row]; exact reach, by rw [row]; rfl,
    by rw [row]; rfl, by rw [row]; exact reply⟩

theorem liftState_lifted : Lifted i r s (liftState e i r s) := by
  obtain ⟨reach, -⟩ := (noted_noticed e i r (pollClosed e (.good r) s)).row i
  exact (taken_noted e i r (.good r) s).lifted reach noted_reply

namespace Lifted

variable {v : State}

theorem liveCall (h : Lifted i r s v) : v.liveCall = s.liveCall := liveCall_congr h.calls

theorem record (h : Lifted i r s v) (c : CallIdx) : v.record c = s.record c := by
  rw [State.record, h.calls]
  rfl

theorem callOf (h : Lifted i r s v) : v.callOf i = s.callOf i := callOf_congr h.calls i

theorem onOverflow (h : Lifted i r s v) : v.onOverflow i = s.onOverflow i := by rw [State.onOverflow, h.calls]; rfl

theorem freeRecord? (h : Lifted i r s v) : v.freeRecord? = s.freeRecord? := by simp only [State.freeRecord?, h.liveCall]

theorem entry (h : Lifted i r s v) : v.entry i = s.entry i := congrArg (fun b : StoreBlock => nth b.site.entries i) h.store

end Lifted

/-! ## The step of a call event -/

theorem execPollReply_lift {os : List Byte} {hop : Nat} (hp : s.powered = true)
    (ht : (s.port e).transaction = some (.poll i hop none)) (hr : (s.post i).reach = .served e) (hh : (s.post i).hop = hop)
    (ho : pollReplyOf false os = some r) (hoff : r.hook = .off) (event : (s.post i).hook = .on ∨ r.button ≠ (s.post i).button) :
    ∃ v, exec (.pollReply e os) s = .next (liftDone i r.button (s.line.stampCounter + 1) v) ∧ Lifted i r s v := by
  refine ⟨_, ?_, liftState_lifted (e := e)⟩
  obtain ⟨-, -, hook, button, -⟩ := (noted_noticed e i r (pollClosed e (.good r) s)).row i
  have stamps : (liftState e i r s).line.stampCounter = s.line.stampCounter + 1 := liftState_lifted.stamps
  have told : ((noted e i r (pollClosed e (.good r) s)).post i).hook = .on ∨
      r.button ≠ ((noted e i r (pollClosed e (.good r) s)).post i).button := by rw [hook, button]; exact event
  rw [execPollReply_good hp ht hr hh ho, goodPoll_eq, hoff, ← stamps]
  exact congrArg (fun u => Host.Outcome.next (finish u)) (hookAndButton_event told)

/-- What every call event leaves at the end of its step, whatever call it meets. -/
structure PassedOn (i : Slot) (r : Reply) (s t : State) : Prop where
  stamps : t.line.stampCounter = s.line.stampCounter + 1
  hook : (t.post i).hook = .off
  button : (t.post i).button = r.button
  untargeted : Untargeted t i
  store : t.store = s.store
  now : t.now = s.now
  core : ∀ d, (t.endRec d).core = (s.endRec d).core

theorem liftDone_passedOn {v : State} (h : Lifted i r s v) (p : Stamp) : PassedOn i r s (liftDone i r.button p v) := by
  unfold liftDone
  have soft := ((Soft.callEvent (ev := false) i r.button p v).trans (.abortTarget i .callEvent _)).frame
  have sensed := ((Moves.abortTarget (homes := false) (new := false) i .callEvent (callEvent i r.button p v)).undisturbed.sensed i)
  have called := (Undisturbed.callEvent i r.button p v).sensed i
  have alone := abortTarget_untargeted i .callEvent (callEvent i r.button p v)
  generalize abortTarget i .callEvent (callEvent i r.button p v) = u at *
  refine ⟨?_, ?_, ?_, finish_untargeted alone, ?_, ?_, fun d => ?_⟩
  · rw [finish_stamps, soft.stamps, h.stamps]
  · rw [finish_post, sensed.1, called.1, h.hook]
  · rw [finish_post, sensed.2, called.2, h.button]
  · rw [finish_store, soft.store, h.store]
  · rw [finish_now, soft.now, h.now]
  · rw [finish_core, soft.core, h.core]

/-- The calls at the end of the step are those that the call event leaves. -/
theorem liftDone_calls (b : Button) (p : Stamp) (v : State) : (liftDone i b p v).calls = (callEvent i b p v).calls := by
  rw [liftDone, finish_calls, (abortTarget_calls i .callEvent _).calls]

theorem liftDone_record (b : Button) (p : Stamp) (v : State) (c : CallIdx) : (liftDone i b p v).record c = (callEvent i b p v).record c := by
  rw [State.record, liftDone_calls]
  rfl

/-- A report that the call event has placed waits still at the end of the step. -/
theorem liftDone_waiting {b : Button} {p : Stamp} {v : State} {y : LinkId} {x : Report} (h : Waiting (callEvent i b p v) y x) :
    Waiting (liftDone i b p v) y x :=
  (finish_waiting _).mpr (h.later ((Soft.abortTarget (ev := false) (on := true) i .callEvent (callEvent i b p v)).frame.told y).1)

end

end Sys2Proof.Machine
end

