-- ==== Sys2Proof/Proofs/NewCalls.lean ====
section
/-! PROOF. The first call event of a post (R91, R92): what the new record or the new overflow entry holds at the end of the step; O53. -/

namespace Sys2Proof.Machine

section
variable {v : State} {i : Slot} {e : EndId} {c : CallIdx} {b : Button} {p : Stamp}

/-! ## The event, by whether a record is free -/

theorem callEvent_of_free (hc : v.callOf i = none) (ho : v.onOverflow i = false) (hf : v.freeRecord? = some c) :
    callEvent i b p v = offer c (newCall settle c i b p v) := by
  simp only [callEvent, hc, ho, hf, Bool.false_eq_true, if_false]

theorem callEvent_of_full (hc : v.callOf i = none) (ho : v.onOverflow i = false) (hf : v.freeRecord? = none) :
    callEvent i b p v = joinOverflow settle i b p v := by
  simp only [callEvent, hc, ho, hf, Bool.false_eq_true, if_false]

/-- Whichever it is, the post calls; nothing but what a new call may move has moved. -/
theorem callEvent_calls (reach : (v.post i).reach = .served e) (hc : v.callOf i = none) (ho : v.onOverflow i = false) :
    Calls i e p (callEvent i b p v) ∧ Moves false true v (callEvent i b p v) := by
  cases hf : v.freeRecord? with
  | some c =>
    rw [callEvent_of_free hc ho hf]
    obtain ⟨line, groups, -⟩ := offer_line c (newCall settle c i b p v)
    have begun : Calls i e p (newCall settle c i b p v) := beginCalling_calls (s := makeLive c (inboundCall v i b p) v) reach p
    exact ⟨begun.of_line line groups, .andThen (.offer c _) (.newCall .settle c i b p v (freeRecord?_free hf))⟩
  | none =>
    rw [callEvent_of_full hc ho hf]
    exact ⟨beginCalling_calls (s := v.setOverflow (insertOverflow ⟨i, p, b⟩ v.calls.overflow)) reach p, .joinOverflow .settle i b p v⟩

/-! ## The end of the step -/

theorem finish_group (s : State) (g : GroupId) : (Machine.finish s).group g = s.group g := by
  rw [State.group, (CallsKept.finish s).groups]
  rfl

theorem Calls.finish {s : State} (h : Calls i e p s) : Calls i e p (Machine.finish s) := by
  obtain ⟨activity, stamp, lamp, absent⟩ := h
  refine ⟨by rw [finish_post, activity], by rw [finish_post, stamp], (finish_waitsOn s).mpr lamp, fun g => ?_⟩
  exact (takingPart_congr (by rw [finish_group]) (by rw [finish_group]) i).trans (absent g)

theorem liftDone_begins (reach : (v.post i).reach = .served e) (hc : v.callOf i = none) (ho : v.onOverflow i = false) :
    Calls i e p (liftDone i b p v) ∧ ((liftDone i b p v).post i).reply = (v.post i).reply
      ∧ ∀ g, ((liftDone i b p v).group g).active = (v.group g).active := by
  obtain ⟨calls, moves⟩ := callEvent_calls (b := b) (p := p) reach hc ho
  have aborted : Moves false true (callEvent i b p v) (abortTarget i .callEvent (callEvent i b p v)) := .abortTarget i .callEvent _
  refine ⟨(calls.moves (.abortTarget i .callEvent _)).finish, ?_, fun g => ?_⟩
  · obtain ⟨-, -, reply, -⟩ := (moves.trans aborted).row i
    rw [liftDone, finish_post, reply]
  · rw [liftDone, finish_group]
    exact (moves.trans aborted).active g

/-! ## The record of a new call -/

/-- The state in which a new call is offered. -/
def beforeOffer (c : CallIdx) (i : Slot) (b : Button) (p : Stamp) (v : State) : State := newCall settle c i b p v

theorem beforeOffer_frame : SoftFrame false v (beforeOffer c i b p v) := (Soft.newCall (ev := false) Soft.settle c i b p v).frame

theorem beforeOffer_up (y : LinkId) : ((beforeOffer c i b p v).link y).up = (v.link y).up := by
  have told := (beforeOffer_frame (c := c) (i := i) (b := b) (p := p) (v := v)).told y
  exact told.up

theorem beforeOffer_live (reach : (v.post i).reach = .served e) : (beforeOffer c i b p v).liveCall c = some (inboundCall v i b p) :=
  (newCall_record reach b p).1

/-- The record that a new call has at the end of the step. -/
def newRecord (c : CallIdx) (i : Slot) (b : Button) (p : Stamp) (v : State) : LiveCall :=
  offeredRecord (beforeOffer c i b p v) (inboundCall v i b p)

theorem liftDone_newRecord (reach : (v.post i).reach = .served e) (hc : v.callOf i = none) (ho : v.onOverflow i = false)
    (hf : v.freeRecord? = some c) :
    (liftDone i b p v).record c = { generation := (v.record c).generation, live := some (newRecord c i b p v) } := by
  obtain ⟨live, generation, -⟩ := newCall_record (c := c) reach b p
  rw [liftDone_record, callEvent_of_free hc ho hf, offer_record live (inboundCall_fresh reach b p), generation]
  rfl

theorem newRecord_spec (reach : (v.post i).reach = .served e) : (newRecord c i b p v).slot = i ∧ (newRecord c i b p v).direction = .inbound
    ∧ (newRecord c i b p v).state = .offered ∧ (newRecord c i b p v).stamp = some p ∧ (newRecord c i b p v).parties = []
    ∧ (newRecord c i b p v).cls = classOf b (v.entry i).name.kind
    ∧ (∀ y, (newRecord c i b p v).offered.has y = true ↔ (v.link y).up = true ∧ (y = homeLinkOf v i ∨ (v.link (homeLinkOf v i)).up = false))
    ∧ (newRecord c i b p v).timer = if (v.link (homeLinkOf v i)).up then some (.overflow, v.now + 1000 * v.store.site.global.offerOverflow) else none := by
  have frame := beforeOffer_frame (c := c) (i := i) (b := b) (p := p) (v := v)
  have spec := offeredRecord_spec (s := beforeOffer c i b p v) (inboundCall_fresh reach b p)
  rw [homeLinkOf_congr frame.store, frame.now, frame.store] at spec
  simp only [beforeOffer_up] at spec
  exact spec

theorem liftDone_overflow_of_free (reach : (v.post i).reach = .served e) (hc : v.callOf i = none) (ho : v.onOverflow i = false)
    (hf : v.freeRecord? = some c) : (liftDone i b p v).calls.overflow = v.calls.overflow := by
  obtain ⟨-, -, overflow⟩ := newCall_record (c := c) reach b p
  obtain ⟨-, -, kept⟩ := offer_line c (newCall settle c i b p v)
  rw [liftDone_calls, callEvent_of_free hc ho hf, kept, overflow]

/-! ## Its OFFER (R96) -/

/-- Where the post takes part in no announcement, a new call touches no link before it is offered. -/
theorem beforeOffer_link (absent : ∀ g, takingPart v g i = false) (y : LinkId) : (beforeOffer c i b p v).link y = v.link y := by
  have group (g : GroupId) : (callingPost i p (makeLive c (inboundCall v i b p) v)).group g = v.group g := placeCommand_group _ _ _ g
  have live : (beforeOffer c i b p v) = callingPost i p (makeLive c (inboundCall v i b p) v) := memberLeftForCall_of_absent fun g =>
    (takingPart_congr (congrArg GroupRun.active (group g)) (congrArg GroupRun.members (group g)) i).trans (absent g)
  obtain ⟨-, -, -, -, -, link⟩ := placeCommand_kept i .lampOn (setActivity i .calling (some p) (makeLive c (inboundCall v i b p) v))
  rw [live, callingPost, link]
  cases y <;> rfl

/-- An OFFER reads the same at the end of the step as after the call event. -/
theorem liftDone_offer (l : LiveCall) (slot : l.slot = i) : offerOf (liftDone i b p v) c l = offerOf (callEvent i b p v) c l := by
  have aborted : Moves false false (callEvent i b p v) (abortTarget i .callEvent (callEvent i b p v)) := .abortTarget i .callEvent _
  have store := (Soft.abortTarget (ev := false) (on := true) i .callEvent (callEvent i b p v)).frame.store
  refine offerOf_congr (liftDone_calls b p v) ?_
  rw [slot, liftDone, finish_nameBlock]
  exact aborted.nameBlock store i

theorem liftDone_offers (reach : (v.post i).reach = .served e) (hc : v.callOf i = none) (ho : v.onOverflow i = false)
    (hf : v.freeRecord? = some c) (absent : ∀ g, takingPart v g i = false) {y : LinkId} (hy : (newRecord c i b p v).offered.has y = true)
    (room : (v.link y).queue.length < 64) :
    Waiting (liftDone i b p v) y (offerOf (liftDone i b p v) c (newRecord c i b p v)) := by
  obtain ⟨slot, -⟩ := newRecord_spec (c := c) (b := b) (p := p) reach
  have told : Waiting (callEvent i b p v) y (offerOf (callEvent i b p v) c (newRecord c i b p v)) := by
    rw [callEvent_of_free hc ho hf]
    exact waiting_offer (beforeOffer_live reach) (inboundCall_fresh reach b p) hy (by rw [beforeOffer_link absent]; exact room)
  rw [liftDone_offer _ slot]
  exact liftDone_waiting told

/-! ## The overflow list (R91) -/

theorem liftDone_overflow_of_full (hc : v.callOf i = none) (ho : v.onOverflow i = false) (hf : v.freeRecord? = none) :
    (liftDone i b p v).calls.overflow = insertOverflow ⟨i, p, b⟩ v.calls.overflow
      ∧ ∀ c, ((liftDone i b p v).liveCall c).isSome = true ∧ ((liftDone i b p v).record c).generation = (v.record c).generation := by
  obtain ⟨-, generation, overflow, live⟩ := beginCalling_kept i p (v.setOverflow (insertOverflow ⟨i, p, b⟩ v.calls.overflow))
  have calls : (liftDone i b p v).calls = (joinOverflow settle i b p v).calls := by rw [liftDone_calls, callEvent_of_full hc ho hf]
  have record (c : CallIdx) : (liftDone i b p v).record c = (joinOverflow settle i b p v).record c := by rw [State.record, calls]; rfl
  have full (c : CallIdx) : (v.liveCall c).isSome = true := by
    have taken := List.find?_eq_none.mp hf c (mem_allFin c)
    simpa [Option.isSome_iff_ne_none] using taken
  refine ⟨by rw [calls]; exact overflow, fun c => ⟨?_, ?_⟩⟩
  · rw [liveCall_congr calls]
    exact live c (full c)
  · rw [record]
    exact generation c

end

end Sys2Proof.Machine
end

