-- ==== Sys2Proof/Proofs/MetCalls.lean ====
section
/-! PROOF. A call event of a post that has a call (R92 to R95, R108), and O53. -/

namespace Sys2Proof.Machine

section
variable {v : State} {i : Slot} {c : CallIdx} {k : LiveCall} {b : Button} {p : Stamp}

/-! ## The event, by the state of the call -/

theorem callEvent_offered (hc : v.callOf i = some c) (hk : v.liveCall c = some k) (hs : k.state = .offered) :
    callEvent i b p v = upgrade c k b v := by simp only [callEvent, hc, hk, hs]

theorem callEvent_ringing (hc : v.callOf i = some c) (hk : v.liveCall c = some k) (hs : k.state = .ringing) :
    callEvent i b p v = answeredByPost c p v := by simp only [callEvent, hc, hk, hs]

theorem callEvent_clearing (hc : v.callOf i = some c) (hk : v.liveCall c = some k) (hs : k.state = .clearing) :
    callEvent i b p v = holdDeferred c b p v := by simp only [callEvent, hc, hk, hs]

theorem callEvent_ignored (hc : v.callOf i = some c) (hk : v.liveCall c = some k)
    (hs : k.state = .connecting ∨ k.state = .connected ∨ k.state = .parked ∨ k.state = .lineLost) : callEvent i b p v = v := by
  rcases hs with hs | hs | hs | hs <;> simp only [callEvent, hc, hk, hs]

/-! ## The upgrade (R93) -/

/-- An OFFERED call with its higher class. -/
def upgradedCall (cls : CallClass) (k : LiveCall) : LiveCall := { k with cls := cls, flags := { k.flags with upgraded := true } }

theorem upgrade_of_not_higher (h : ¬ k.cls.rank < (classOf b (v.entry k.slot).name.kind).rank) : upgrade c k b v = v := if_neg h

/-- The OFFER of a record to a link that is in its set. -/
def offeredAgain (c : CallIdx) (k l : LiveCall) (x : LinkId) (s : State) : State := if k.offered.has x then report x (offerOf s c l) s else s

theorem upgrade_of_higher (hk : v.liveCall c = some k) (h : k.cls.rank < (classOf b (v.entry k.slot).name.kind).rank) :
    upgrade c k b v = offeredAgain c k (upgradedCall (classOf b (v.entry k.slot).name.kind) k) .b
      (offeredAgain c k (upgradedCall (classOf b (v.entry k.slot).name.kind) k) .a
        (v.modCall c (upgradedCall (classOf b (v.entry k.slot).name.kind)))) := by
  unfold upgrade
  dsimp only
  rw [if_pos h]
  generalize classOf b (v.entry k.slot).name.kind = cls
  have live : (v.modCall c (upgradedCall cls)).liveCall c = some (upgradedCall cls k) := liveCall_modCall hk _
  have first : (if k.offered.a = true then sendOffer report c .a (v.modCall c (upgradedCall cls)) else v.modCall c (upgradedCall cls)) =
      offeredAgain c k (upgradedCall cls k) .a (v.modCall c (upgradedCall cls)) := by
    rw [sendOffer_of_live live]
    rfl
  have live' : (offeredAgain c k (upgradedCall cls k) .a (v.modCall c (upgradedCall cls))).liveCall c = some (upgradedCall cls k) := by
    unfold offeredAgain
    split
    · simpa [report] using live
    · exact live
  refine (congrArg (fun u => if k.offered.b = true then sendOffer report c .b u else u) first).trans ?_
  rw [sendOffer_of_live live']
  rfl

theorem offeredAgain_calls (l : LiveCall) (x : LinkId) (s : State) : (offeredAgain c k l x s).calls = s.calls := by
  unfold offeredAgain
  split
  · simp [report]
  · rfl

theorem offeredAgain_offer (l : LiveCall) (x : LinkId) (s : State) : offerOf (offeredAgain c k l x s) c l = offerOf s c l := by
  refine offerOf_congr (offeredAgain_calls l x s) ?_
  unfold offeredAgain
  split
  · exact report_nameBlock x _ s _
  · rfl

theorem offeredAgain_link_ne {x y : LinkId} (h : x ≠ y) (l : LiveCall) (s : State) : (offeredAgain c k l x s).link y = s.link y := by
  unfold offeredAgain
  split
  · rw [report_link, if_neg h]
  · rfl

theorem offeredAgain_told (l : LiveCall) (x y : LinkId) (s : State) :
    OnlyReports (s.link y).queue ((offeredAgain c k l x s).link y).queue := by
  unfold offeredAgain
  split
  · exact ((Soft.report (ev := false) (on := true) s x (offerOf s c l)).frame.told y).1
  · exact .refl _

theorem waiting_offeredAgain {l : LiveCall} {x : LinkId} {s : State} (due : k.offered.has x = true) (up : (s.link x).up = true)
    (room : (s.link x).queue.length < 64) : Waiting (offeredAgain c k l x s) x (offerOf s c l) := by
  rw [offeredAgain, if_pos due]
  exact waiting_report _ up room

/-- An upgraded call is offered again to its offered set, as it then stands. -/
theorem upgrade_offers (hk : v.liveCall c = some k) (h : k.cls.rank < (classOf b (v.entry k.slot).name.kind).rank) :
    (upgrade c k b v).calls = (v.modCall c (upgradedCall (classOf b (v.entry k.slot).name.kind))).calls
      ∧ ∀ y, k.offered.has y = true → (v.link y).up = true → (v.link y).queue.length < 64 →
        Waiting (upgrade c k b v) y (offerOf (upgrade c k b v) c (upgradedCall (classOf b (v.entry k.slot).name.kind) k)) := by
  rw [upgrade_of_higher hk h]
  generalize hl : upgradedCall (classOf b (v.entry k.slot).name.kind) k = l
  generalize hu : v.modCall c (upgradedCall (classOf b (v.entry k.slot).name.kind)) = u
  have link (y : LinkId) : u.link y = v.link y := by rw [← hu]; cases y <;> rfl
  refine ⟨by rw [offeredAgain_calls, offeredAgain_calls], fun y due up room => ?_⟩
  rw [offeredAgain_offer, offeredAgain_offer]
  cases y with
  | a => exact (waiting_offeredAgain due (by rw [link]; exact up) (by rw [link]; exact room)).later (offeredAgain_told l .b .a _)
  | b =>
    have same : (offeredAgain c k l .a u).link .b = v.link .b := (offeredAgain_link_ne (by decide) l u).trans (link .b)
    rw [← offeredAgain_offer (k := k) l .a u]
    exact waiting_offeredAgain due (by rw [same]; exact up) (by rw [same]; exact room)

end

/-- What a live record becomes depends on the record alone. -/
theorem modCall_calls_of_live {s v : State} {c : CallIdx} {k : LiveCall} {f g : LiveCall → LiveCall} (calls : v.calls = s.calls)
    (hk : s.liveCall c = some k) (h : f k = g k) : (v.modCall c f).calls = (s.modCall c g).calls := by
  have live : (nth s.calls.records c).live = some k := hk
  simp only [State.modCall, State.modRecord, State.setRecords, calls]
  rw [modNth_congr _ _ (g := fun r => { r with live := r.live.map g }) (by simp [live, h])]

/-! ## The end of the step -/

section
variable {v : State} {i : Slot} {e : EndId} {c : CallIdx} {k : LiveCall} {b : Button} {p : Stamp}

theorem Answered.finish {s : State} (h : Answered c i e p k s) : Answered c i e p k (Machine.finish s) := by
  obtain ⟨live, activity, stamp⟩ := h
  exact ⟨by rw [finish_liveCall]; exact live, by rw [finish_post, activity], by rw [finish_post, stamp]⟩

theorem liftDone_answered (hc : v.callOf i = some c) (hk : v.liveCall c = some k) (slot : k.slot = i) (hs : k.state = .ringing)
    (reach : (v.post i).reach = .served e) (serves : holdsChannels (v.endRec e).state = true)
    (unused : ∀ d, usesEnd v (v.refOfRecord c) d = false) : Answered c i e p k (liftDone i b p v) := by
  have answered : Answered c i e p k (answeredByPost c p v) := by
    have met := answeredByPost_answered hk (e := e) (by rw [slot]; exact reach) serves unused p
    rw [slot] at met
    exact met
  rw [liftDone, callEvent_ringing hc hk hs]
  exact (answered.later (.abortTarget i .callEvent _) (abortTarget_calls i .callEvent _).calls).finish

/-- Settles O53: the first call event of a post by whether a record is free, one of a post with a call by the state of the call. -/
theorem offHookReplyStartsACall : Obligations.offHookReplyStartsACall := by
  refine ⟨?_, ?_⟩
  · intro e os s i hop r hp ht hr hh ho hoff hon hc hover stamp
    obtain ⟨v, step, lifted⟩ := execPollReply_lift hp ht hr hh ho hoff (.inl hon)
    refine ⟨liftDone i r.button stamp v, step, ?_⟩
    have passed := liftDone_passedOn lifted stamp
    have reach := lifted.reach.trans hr
    have hc' := lifted.callOf.trans hc
    have hover' := lifted.onOverflow.trans hover
    obtain ⟨⟨activity, stamped, lamp, absent⟩, reply, groups⟩ := liftDone_begins (b := r.button) (p := stamp) reach hc' hover'
    refine ⟨passed.stamps, passed.hook, passed.button, reply.trans lifted.reply, activity, stamped, lamp, passed.untargeted,
      fun g o active member => outcome_settled (absent g) ?_ member, fun c hf => ?_, fun hf => ?_, passed.store, passed.now, passed.core⟩
    · exact (groups g).trans ((congrArg (fun t => (nth t g).active) lifted.groups).trans active)
    · have hf' := lifted.freeRecord?.trans hf
      obtain ⟨slot, direction, state, stamp', parties, cls, offered, timer⟩ := newRecord_spec (c := c) (b := r.button) (p := stamp) reach
      have record := liftDone_newRecord (b := r.button) (p := stamp) reach hc' hover' hf'
      rw [lifted.record] at record
      rw [lifted.entry] at cls
      simp only [homeLinkOf_congr lifted.store, lifted.up] at offered timer
      rw [lifted.now, lifted.store] at timer
      refine ⟨_, record, slot, direction, state, stamp', parties, cls, offered, timer, ?_, fun none y hy room => ?_⟩
      · rw [liftDone_overflow_of_free reach hc' hover' hf', lifted.calls]
      · have bound := lifted.room y
        refine liftDone_offers reach hc' hover' hf' (fun g => ?_) hy (by omega)
        exact (takingPart_congr (by rw [State.group, lifted.groups]; rfl) (by rw [State.group, lifted.groups]; rfl) i).trans (none g)
    · obtain ⟨overflow, records⟩ := liftDone_overflow_of_full (b := r.button) (p := stamp) hc' hover' (lifted.freeRecord?.trans hf)
      rw [lifted.calls] at overflow
      exact ⟨overflow, fun c => by rw [← lifted.record]; exact records c⟩
  · intro e os s i hop r c k hp ht hr hh ho hoff event hc hk stamp cls
    obtain ⟨v, step, lifted⟩ := execPollReply_lift hp ht hr hh ho hoff event
    refine ⟨liftDone i r.button stamp v, step, ?_⟩
    have passed := liftDone_passedOn lifted stamp
    have hc' := lifted.callOf.trans hc
    have hk' : v.liveCall c = some k := by rw [lifted.liveCall]; exact hk
    obtain ⟨_, found, slot⟩ := liveCall_of_callOf hc
    cases hk.symm.trans found
    have class' : classOf r.button (v.entry k.slot).name.kind = cls := by rw [slot, lifted.entry]
    refine ⟨passed.stamps, passed.hook, passed.button, passed.untargeted, fun hs low => ?_, fun hs high => ⟨?_, fun y due up room => ?_⟩,
      fun hs serves unused => ?_, fun hs => ?_, fun hs => ?_, passed.store, passed.now, passed.core⟩
    · rw [liftDone_calls, callEvent_offered hc' hk' hs, upgrade_of_not_higher (by rw [class']; exact low)]
      exact lifted.calls
    · rw [liftDone_calls, callEvent_offered hc' hk' hs, (upgrade_offers hk' (by rw [class']; exact high)).1, class']
      exact modCall_calls_of_live lifted.calls hk rfl
    · have bound := lifted.room y
      have told := (upgrade_offers hk' (by rw [class']; exact high)).2 y due ((lifted.up y).trans up) (by omega)
      rw [class', ← callEvent_offered (p := stamp) hc' hk' hs] at told
      have waits := liftDone_waiting told
      rw [← liftDone_offer (upgradedCall cls k) slot] at waits
      exact waits
    · have unused' : ∀ d, usesEnd v (v.refOfRecord c) d = false := fun d => by
        rw [usesEnd_congr lifted.arbiter, State.refOfRecord, lifted.record]
        exact unused d
      have state : (v.endRec e).state = (s.endRec e).state := by simpa [EndRecord.core] using congrArg EndRecord.state (lifted.core e)
      obtain ⟨⟨l, hl, state, stamp', timer, parties, line⟩, activity, stamped⟩ :=
        liftDone_answered (b := r.button) (p := stamp) hc' hk' slot hs (lifted.reach.trans hr) (by rw [state]; exact serves) unused'
      exact ⟨l, hl, state, stamp', timer, parties, line, activity, stamped⟩
    · rw [liftDone_calls, callEvent_clearing hc' hk' hs]
      exact modCall_calls_of_live lifted.calls hk (by cases held : k.deferred <;> rfl)
    · rw [liftDone_calls, callEvent_ignored hc' hk' hs]
      exact lifted.calls

end

end Sys2Proof.Machine
end

