-- ==== Sys2Proof/Proofs/CarriedCommands.lean ====
section
/-! PROOF. A good reply to a poll that carried a command, with hook and button as the row has them: the state in which the result is passed on,
and the results of CONNECT, RELEASE and RING (R39, R100, R106, R108); O54. -/

namespace Sys2Proof.Machine

/-! ## The state in which the result is passed on -/

/-- The list of an end without the entry that a poll carried. -/
def withoutEntry (i : Slot) (cmd : Command) (age : Nat) (l : List CommandEntry) : List CommandEntry :=
  l.filter fun x => !(decide (x.slot = i) && decide (x.age = age) && decide (x.command = cmd))

/-- What the result of a command finds: the entry has left the list, and to each link at most three reports have gone. -/
structure Arrived (e : EndId) (i : Slot) (cmd : Command) (age : Nat) (s v : State) : Prop where
  calls : v.calls = s.calls
  groups : v.groups = s.groups
  arbiter : v.arbiter = s.arbiter
  store : v.store = s.store
  now : v.now = s.now
  stamps : v.line.stampCounter = s.line.stampCounter
  core : ∀ d, (v.endRec d).core = (s.endRec d).core
  up : ∀ y, (v.link y).up = (s.link y).up
  room : ∀ y, (v.link y).queue.length ≤ (s.link y).queue.length + 3
  reach : (v.post i).reach = (s.post i).reach
  commands : (v.endRec e).commands = withoutEntry i cmd age (s.endRec e).commands

/-- The step's last state: the result, then hook and button as they were, then the next transactions. -/
def resultDone (i : Slot) (r : Reply) (cmd : Command) (result : CommandResult) (v : State) : State :=
  finish ((commandResult i cmd result v).modPost i (sensedRow r.hook r.button))

section
variable {e : EndId} {i : Slot} {cmd : Command} {age : Nat} {r : Reply} {result : CommandResult} {s u v : State}

theorem Taken.arrived (taken : Taken s u) (reach : (u.post i).reach = (s.post i).reach) :
    Arrived e i cmd age s (u.modEnd e fun v => { v with commands := withoutEntry i cmd age v.commands }) := by
  have up (y : LinkId) : (u.link y).up = (s.link y).up := taken.up y
  have link (y : LinkId) : (u.modEnd e fun v => { v with commands := withoutEntry i cmd age v.commands }).link y = u.link y := by cases y <;> rfl
  refine ⟨taken.calls, taken.groups, taken.arbiter, taken.store, taken.now, taken.stamps, fun d => ?_, fun y => by rw [link]; exact up y,
    fun y => by rw [link]; exact taken.room y, reach, ?_⟩
  · rw [← taken.core d]
    by_cases hd : e = d
    · subst hd
      rw [modEnd_endRec_same]
      rfl
    · rw [modEnd_endRec_ne _ _ hd]
  · rw [modEnd_endRec_same]
    exact congrArg (withoutEntry i cmd age) (taken.commands e)

/-- Hook and button that are as the row has them tell of no event. -/
theorem hookAndButton_quiet (hook : r.hook = (s.post i).hook) (button : r.button = (s.post i).button) :
    hookAndButton i r.hook r.button s = s.modPost i (sensedRow r.hook r.button) := by
  cases row : (s.post i).hook with
  | on =>
    rw [hook, row]
    exact hookAndButton_on_on row
  | off =>
    rw [hook, row]
    exact hookAndButton_same row button

theorem execPollReply_carried {os : List Byte} {hop : Nat} (hp : s.powered = true)
    (ht : (s.port e).transaction = some (.poll i hop (some (cmd, age)))) (hr : (s.post i).reach = .served e) (hh : (s.post i).hop = hop)
    (ho : pollReplyOf true os = some r) (hres : r.result = some result) (hook : r.hook = (s.post i).hook)
    (button : r.button = (s.post i).button) :
    ∃ v, exec (.pollReply e os) s = .next (resultDone i r cmd result v) ∧ Arrived e i cmd age s v := by
  obtain ⟨reach, -, hook', button', -⟩ := (noted_noticed e i r (pollClosed e (.good r) s)).row i
  refine ⟨_, ?_, (taken_noted e i r (.good r) s).arrived reach⟩
  rw [execPollReply_good hp ht hr hh ho, goodPoll_eq, hres]
  have sensed := (Undisturbed.passResult e i (some (cmd, age)) (some result) (noted e i r (pollClosed e (.good r) s))).sensed i
  exact congrArg (fun u => Host.Outcome.next (finish u)) (hookAndButton_quiet (hook.trans (hook'.symm.trans sensed.1.symm))
    (button.trans (button'.symm.trans sensed.2.symm)))

/-! ## What every result leaves -/

/-- The store, the time and the core of every end stay. -/
structure Outside (s t : State) : Prop where
  store : t.store = s.store
  now : t.now = s.now
  core : ∀ d, (t.endRec d).core = (s.endRec d).core

theorem Outside.refl (s : State) : Outside s s := ⟨rfl, rfl, fun _ => rfl⟩

theorem Outside.trans {s t u : State} (h : Outside s t) (k : Outside t u) : Outside s u :=
  ⟨k.store.trans h.store, k.now.trans h.now, fun d => (k.core d).trans (h.core d)⟩

theorem Outside.of_frame {ev : Bool} {s t : State} (h : SoftFrame ev s t) : Outside s t := ⟨h.store, h.now, h.core⟩

theorem Outside.of_ite {c : Prop} [Decidable c] {s t u : State} (ht : Outside s t) (hu : Outside s u) : Outside s (if c then t else u) := by
  split
  exacts [ht, hu]

theorem connectDone_outside (ch : Chan) (s : State) : Outside s (connectDone i ch s) := by
  unfold connectDone
  split
  · split
    · exact .of_ite (.trans (t := s.modCall _ _) ⟨rfl, rfl, fun _ => rfl⟩ (.of_frame (Soft.reportParties (ev := false) (on := true) _ _ _ _).frame)) (.refl s)
    · exact .refl s
  · exact .refl s

theorem ringRefused_outside (s : State) : Outside s (ringRefused i s) := by
  unfold ringRefused
  split
  · exact .of_ite (.trans (t := takeStamp s) ⟨rfl, rfl, fun _ => rfl⟩ (.of_frame (Soft.answeredByPost (ev := false) (on := true) _ _ (takeStamp s)).frame)) (.refl s)
  · exact .refl s

theorem releaseDone_outside (s : State) : Outside s (releaseDone i s) := by
  unfold releaseDone
  split
  · exact .of_ite (.of_frame (Soft.freeRecord (ev := false) _ s).frame) (.refl s)
  · exact .refl s

theorem commandResult_outside (cmd : Command) (result : CommandResult) (s : State) : Outside s (commandResult i cmd result s) := by
  cases cmd with
  | connect ch => exact connectDone_outside ch s
  | ring => exact .of_ite (ringRefused_outside s) (.refl s)
  | release => exact releaseDone_outside s
  | announce ch => exact .of_frame (Soft.announceResult (ev := false) (on := true) i ch result s).frame
  | lampOn | lampOff | announceEnd => exact .refl s

/-- The results of commands touch neither the store nor the time nor the core of an end. -/
theorem resultDone_outside (h : Arrived e i cmd age s v) : Outside s (resultDone i r cmd result v) := by
  obtain ⟨store, now, core⟩ := commandResult_outside (i := i) cmd result v
  refine ⟨(finish_store _).trans (store.trans h.store), (finish_now _).trans (now.trans h.now), fun d => ?_⟩
  exact (finish_core _ d).trans ((core d).trans (h.core d))

theorem resultDone_calls : (resultDone i r cmd result v).calls = (commandResult i cmd result v).calls := finish_calls _

theorem resultDone_groups : (resultDone i r cmd result v).groups = (commandResult i cmd result v).groups := by
  rw [resultDone, (CallsKept.finish _).groups]
  rfl

theorem resultDone_arbiter : (resultDone i r cmd result v).arbiter = (commandResult i cmd result v).arbiter := by
  rw [resultDone, (CallsKept.finish _).arbiter]
  rfl

theorem resultDone_commands (d : EndId) : ((resultDone i r cmd result v).endRec d).commands = ((commandResult i cmd result v).endRec d).commands :=
  finish_commands _ d

theorem resultDone_link (y : LinkId) : (resultDone i r cmd result v).link y = (commandResult i cmd result v).link y := by
  refine (finish_link _ y).trans ?_
  cases y <;> rfl

theorem resultDone_stamps : (resultDone i r cmd result v).line.stampCounter = (commandResult i cmd result v).line.stampCounter := by
  rw [resultDone, finish_stamps]
  rfl

theorem resultDone_record (c : CallIdx) : (resultDone i r cmd result v).record c = (commandResult i cmd result v).record c := finish_record _ c

theorem resultDone_liveCall (c : CallIdx) : (resultDone i r cmd result v).liveCall c = (commandResult i cmd result v).liveCall c := finish_liveCall _ c

theorem resultDone_post : (resultDone i r cmd result v).post i = sensedRow r.hook r.button ((commandResult i cmd result v).post i) := by
  rw [resultDone, finish_post, modPost_post_same]

theorem resultDone_waiting {y : LinkId} {x : Report} : Waiting (resultDone i r cmd result v) y x ↔ Waiting (commandResult i cmd result v) y x :=
  Iff.of_eq (by unfold Waiting; rw [resultDone_link])

theorem resultDone_nameBlock : nameBlock (resultDone i r cmd result v) i = nameBlock (commandResult i cmd result v) i := by
  refine nameBlock_congr (finish_store _) ?_ ?_ ?_ <;> rw [resultDone_post] <;> rfl

theorem Arrived.liveCall (h : Arrived e i cmd age s v) : v.liveCall = s.liveCall := liveCall_congr h.calls

theorem Arrived.record (h : Arrived e i cmd age s v) (c : CallIdx) : v.record c = s.record c := by
  rw [State.record, h.calls]
  rfl

theorem Arrived.refOfRecord (h : Arrived e i cmd age s v) (c : CallIdx) : v.refOfRecord c = s.refOfRecord c := by
  rw [State.refOfRecord, h.record]
  rfl

theorem Arrived.callOf (h : Arrived e i cmd age s v) : v.callOf i = s.callOf i := callOf_congr h.calls i

theorem mem_withoutEntry {y : CommandEntry} {l : List CommandEntry} :
    y ∈ withoutEntry i cmd age l ↔ y ∈ l ∧ ¬ (y.slot = i ∧ y.age = age ∧ y.command = cmd) := by
  simp only [withoutEntry, List.mem_filter, Bool.not_eq_true', Bool.and_eq_false_iff, decide_eq_false_iff_not]
  tauto

end

/-! ## The result of a CONNECT (R100) -/

/-- A call that its CONNECT has connected. -/
def connectedCall (k : LiveCall) : LiveCall := { k with state := .connected, resuming := false }

section
variable {i : Slot} {c : CallIdx} {k : LiveCall} {ch : Chan} {x : EndId} {v : State}

theorem connectDone_of_connecting (hc : v.callOf i = some c) (hk : v.liveCall c = some k) (hs : k.state = .connecting)
    (hch : k.channel = some (x, ch)) : connectDone i ch v =
      reportParties c (if k.resuming then .resumed else .connected) .none (v.modCall c connectedCall) := by
  have held : k.state = .connecting ∧ k.channel.map Prod.snd = some ch := ⟨hs, by rw [hch]; rfl⟩
  simp only [connectDone, hc, hk, if_pos held]
  rfl

/-- The report to each party of a call that its CONNECT has connected. -/
theorem waiting_connected (hk : v.liveCall c = some k) (event : CallEvent) {p : Party} (hp : p ∈ k.parties) (up : (v.link p.link).up = true)
    (room : (v.link p.link).queue.length < 64) : Waiting (reportParties c event .none (v.modCall c connectedCall)) p.link
      (callStateOf (v.modCall c connectedCall) c (connectedCall k) event .none false) := by
  have live : (v.modCall c connectedCall).liveCall c = some (connectedCall k) := liveCall_modCall hk _
  have link : (v.modCall c connectedCall).link p.link = v.link p.link := by cases p.link <;> rfl
  have party : p.link ∈ partyLinks (v.modCall c connectedCall) c := by
    rw [partyLinks, live]
    exact List.mem_map_of_mem hp
  exact waiting_reportCall live event .none false party (by rw [link]; exact up) (by rw [link]; exact room)

/-! ## The result of a RELEASE (R106) -/

theorem releaseDone_of_clearing (hc : v.callOf i = some c) (hk : v.liveCall c = some k) (hs : k.state = .clearing) :
    releaseDone i v = freeRecord c v := by
  have state : v.callState c = some .clearing := by simp [State.callState, hk, hs]
  simp only [releaseDone, hc, if_pos state]

theorem releaseDone_of_other (hc : v.callOf i = some c) (hk : v.liveCall c = some k) (hs : k.state ≠ .clearing) : releaseDone i v = v := by
  have state : ¬ v.callState c = some .clearing := by simpa [State.callState, hk] using hs
  simp only [releaseDone, hc, if_neg state]

/-! ## The result of a RING (R108) -/

theorem ringRefused_of_ringing (hc : v.callOf i = some c) (hk : v.liveCall c = some k) (hs : k.state = .ringing) :
    ringRefused i v = answeredByPost c (v.line.stampCounter + 1) (takeStamp v) := by
  have state : v.callState c = some .ringing := by simp [State.callState, hk, hs]
  simp only [ringRefused, hc, if_pos state]
  rfl

/-- A RING refused OFF-HOOK: at the end of the step its call is answered, with a stamp taken now. -/
theorem resultDone_answered {e : EndId} {age : Nat} {r : Reply} {s : State} (arrived : Arrived e i .ring age s v)
    (hr : (s.post i).reach = .served e) (hc : s.callOf i = some c) (hk : s.liveCall c = some k) (hs : k.state = .ringing)
    (serves : holdsChannels (s.endRec e).state = true) (unused : ∀ d, usesEnd s (s.refOfRecord c) d = false) :
    (resultDone i r .ring .offHook v).line.stampCounter = s.line.stampCounter + 1
      ∧ ∃ l, (resultDone i r .ring .offHook v).liveCall c = some l ∧ l.state = .connecting ∧ l.stamp = some (s.line.stampCounter + 1)
        ∧ l.timer = none ∧ l.parties = k.parties ∧ ((∃ ch, l.channel = some (e, ch)) ∨ ∃ kind, l.request = some (e, kind)) := by
  have hc' := arrived.callOf.trans hc
  have hk' : v.liveCall c = some k := by rw [arrived.liveCall]; exact hk
  obtain ⟨_, found, slot⟩ := liveCall_of_callOf hc
  cases hk.symm.trans found
  have result : commandResult i .ring .offHook v = answeredByPost c (v.line.stampCounter + 1) (takeStamp v) :=
    ringRefused_of_ringing hc' hk' hs
  have answered : Answered c k.slot e (v.line.stampCounter + 1) k (answeredByPost c (v.line.stampCounter + 1) (takeStamp v)) := by
    refine answeredByPost_answered (s := takeStamp v) hk' ?_ ?_ (fun d => ?_) _
    · rw [slot]
      exact arrived.reach.trans hr
    · have state : (v.endRec e).state = (s.endRec e).state := by simpa [EndRecord.core] using congrArg EndRecord.state (arrived.core e)
      exact (congrArg holdsChannels state).trans serves
    · have arbiter : (takeStamp v).arbiter = s.arbiter := arrived.arbiter
      have ref : (takeStamp v).refOfRecord c = s.refOfRecord c := arrived.refOfRecord c
      rw [usesEnd_congr arbiter, ref]
      exact unused d
  obtain ⟨⟨l, hl, state, stamp, timer, parties, line⟩, -⟩ := answered
  rw [arrived.stamps] at stamp
  refine ⟨?_, l, ?_, state, stamp, timer, parties, line⟩
  · rw [resultDone_stamps, result, (Soft.answeredByPost (ev := false) (on := true) c _ (takeStamp v)).frame.stamps, ← arrived.stamps]
    rfl
  · rw [resultDone_liveCall, result]
    exact hl

end

end Sys2Proof.Machine
end

