-- ==== Sys2Proof/Proofs/MemberOutcomes.lean ====
section
/-! PROOF. A member that takes an outcome (R120 to R122): what the release of the group's channels leaves of the group, READY, and the exception in
the order of the event's reports; O54. -/

namespace Sys2Proof.Machine

/-! ## The release of a group's channels (R121) -/

/-- The rows of posts, and of one group the members, the mark ACTIVE and the mark of READY. -/
structure GroupKept (g : GroupId) (s t : State) : Prop where
  posts : t.line.posts = s.line.posts
  members : (t.group g).members = (s.group g).members
  active : (t.group g).active = (s.group g).active
  ready : (t.group g).readySent = (s.group g).readySent

namespace GroupKept

variable {g h : GroupId} {s t u : State}

theorem of_group (posts : t.line.posts = s.line.posts) (group : t.group g = s.group g) : GroupKept g s t :=
  ⟨posts, by rw [group], by rw [group], by rw [group]⟩

theorem refl (g : GroupId) (s : State) : GroupKept g s s := ⟨rfl, rfl, rfl, rfl⟩

theorem trans (k : GroupKept g s t) (l : GroupKept g t u) : GroupKept g s u :=
  ⟨l.posts.trans k.posts, l.members.trans k.members, l.active.trans k.active, l.ready.trans k.ready⟩

theorem andThen (l : GroupKept g t u) (k : GroupKept g s t) : GroupKept g s u := k.trans l

theorem of_ite {c : Prop} [Decidable c] (ht : c → GroupKept g s t) (hu : GroupKept g s u) : GroupKept g s (if c then t else u) := by
  split
  · next h => exact ht h
  · exact hu

theorem servedFrom (k : GroupKept g s t) (e : EndId) (i : Slot) : Machine.servedFrom t e i = Machine.servedFrom s e i := by
  rw [Machine.servedFrom, State.post, k.posts]
  rfl

theorem wants (k : GroupKept g s t) (e : EndId) : groupWants t g e = groupWants s g e := by
  simp only [groupWants, awaitsChannel, k.active, k.members, k.servedFrom]

theorem modGroup (g h : GroupId) (f : GroupRun → GroupRun) (s : State)
    (hf : ∀ r, (f r).members = r.members ∧ (f r).active = r.active ∧ (f r).readySent = r.readySent) : GroupKept g s (s.modGroup h f) := by
  by_cases hg : h = g
  · subst hg
    obtain ⟨members, active, ready⟩ := hf (s.group h)
    exact ⟨rfl, by rw [modGroup_group_same, members], by rw [modGroup_group_same, active], by rw [modGroup_group_same, ready]⟩
  · exact of_group rfl (modGroup_group_ne s _ hg)

theorem placeCommand (g : GroupId) (i : Slot) (c : Command) (s : State) : GroupKept g s (placeCommand i c s) :=
  of_group (placeCommand_kept i c s).1 (placeCommand_group i c s g)

theorem reportCall (g : GroupId) (i : CallIdx) (v : CallEvent) (n : CallReason) (b : Bool) (l : List LinkId) (s : State) :
    GroupKept g s (reportCall i v n b l s) := by
  obtain ⟨line, -, groups, -⟩ := reportCall_line i v n b l s
  exact of_group (by rw [line]) (by rw [State.group, groups]; rfl)

theorem callTakesChannel (g : GroupId) (i : CallIdx) (e : EndId) (c : Chan) (s : State) : GroupKept g s (callTakesChannel i e c s) := by
  unfold Machine.callTakesChannel
  split
  · exact andThen (placeCommand g _ _ _) (andThen (of_ite (fun _ => reportCall g _ _ _ _ _ _) (refl g _)) (of_group rfl rfl))
  · exact refl g s

theorem commandMember (hg : h ≠ g) (c : Chan) (i : Slot) (s : State) : GroupKept g s (commandMember h c i s) := by
  have member (t : State) : GroupKept g t (modMember h i (fun m => { m with outcome := .pending .commanded, leaving := false }) t) :=
    of_group rfl (modMember_group_ne hg i _ t)
  have late (t : State) : GroupKept g t (startLate h t) := of_group rfl (modGroup_group_ne t _ hg)
  exact andThen (late _) (andThen (member _) (placeCommand g i _ s))

theorem groupTakesChannel (hg : h ≠ g) (e : EndId) (c : Chan) (s : State) : GroupKept g s (groupTakesChannel h e c s) := by
  unfold Machine.groupTakesChannel
  have taken (t : State) : GroupKept g t (t.modGroup h fun r => { r with
      held := r.held ++ [(e, c)], waiting := r.waiting.filter fun x => decide (x ≠ e) }) := modGroup g h _ t fun _ => ⟨rfl, rfl, rfl⟩
  exact forEach_invariant (I := GroupKept g s) (fun i t k => k.trans (commandMember hg c i t)) _ _ (taken s)

/-- A channel that a group no longer wants goes to others, and its members stay. -/
theorem handOver (e : EndId) (c : Chan) :
    ∀ (l : List Waiter) (s : State), groupWants s g e = false → GroupKept g s (Machine.handOver e c l s)
  | [], s, _ => of_group rfl rfl
  | .call _ ref slot _ :: l, s, h =>
    of_ite (fun _ => andThen (callTakesChannel g _ e c _) (of_group rfl rfl)) (handOver e c l s h)
  | .announce x _ :: l, s, h => by
    refine of_ite (fun wants => ?_) ?_
    · have other : x ≠ g := fun same => absurd wants (by rw [same, h]; nofun)
      exact andThen (groupTakesChannel other e c _) (of_group rfl rfl)
    · have left := modGroup g x (fun r => { r with waiting := r.waiting.filter fun y => decide (y ≠ e) }) s fun _ => ⟨rfl, rfl, rfl⟩
      exact left.trans (handOver e c l _ ((left.wants e).trans h))

theorem needless_wants_nothing {e : EndId} (h : needsChannel s g e = false) : groupWants s g e = false := by
  refine Bool.eq_false_iff.mpr fun wants => ?_
  simp only [groupWants, awaitsChannel, Bool.and_eq_true, List.any_eq_true, decide_eq_true_eq] at wants
  obtain ⟨-, m, hm, awaiting, served⟩ := wants
  simp only [needsChannel, List.any_eq_false] at h
  exact h m hm (by simp [awaiting, unsettled, served])

theorem releaseIfDone (g : GroupId) (e : EndId) (s : State) : GroupKept g s (releaseIfDone g e s) := by
  unfold Machine.releaseIfDone
  split
  · refine of_ite (fun done => ?_) (refl g s)
    simp only [Bool.and_eq_true, Bool.not_eq_true'] at done
    have dropped : GroupKept g s (dropHeld g e s) := modGroup g g _ s fun _ => ⟨rfl, rfl, rfl⟩
    refine dropped.trans (of_ite (fun _ => handOver e _ _ _ ?_) (refl g _))
    exact (dropped.wants e).trans (needless_wants_nothing done.2)
  · exact refl g s

/-- The releases of a group leave its members and its READY as they are. -/
theorem releases (g : GroupId) (s : State) : GroupKept g s (releases g s) :=
  forEach_invariant (I := GroupKept g s) (fun e t k => k.trans (releaseIfDone g e t)) allEnds s (refl g s)

end GroupKept

/-! ## READY (R122) -/

/-- A group that has sent READY when none of its members is PENDING. -/
def withReady (r : GroupRun) : GroupRun := { r with readySent := r.readySent || !anyPending r }

theorem testReady_group_same {g : GroupId} {s : State} (active : (s.group g).active = true) : (testReady g s).group g = withReady (s.group g) := by
  unfold testReady
  dsimp only
  split
  · next ready =>
    simp only [Bool.and_eq_true, Bool.not_eq_true'] at ready
    obtain ⟨⟨-, unsent⟩, settled⟩ := ready
    have groups (r : Report) (t : State) : (reportBoth r t).group g = t.group g := by rw [State.group, (CallsKept.reportBoth r t).groups]; rfl
    rw [groups, modGroup_group_same]
    simp [withReady, settled]
  · next unready =>
    have same : ((s.group g).readySent || !anyPending (s.group g)) = (s.group g).readySent := by
      cases sent : (s.group g).readySent with
      | true => rfl
      | false => simpa [active, sent] using unready
    rw [withReady, same]

theorem testReady_group_ne {g h : GroupId} (hg : h ≠ g) (s : State) : (testReady h s).group g = s.group g := by
  unfold testReady
  dsimp only
  split
  · rw [State.group, (CallsKept.reportBoth _ _).groups]
    exact modGroup_group_ne s _ hg
  · rfl

theorem withReady_withReady (r : GroupRun) : withReady (withReady r) = withReady r := by
  have pending : anyPending (withReady r) = anyPending r := rfl
  rw [withReady, pending]
  simp [withReady]

/-- READY of an ACTIVE group whose members have changed is tested at the end of the event. -/
theorem settle_group {g : GroupId} {before s : State} (active : (s.group g).active = true)
    (changed : (s.group g).members ≠ (before.group g).members) : (settle before s).group g = withReady (s.group g) := by
  have tested (t : State) (h : t.group g = s.group g ∨ t.group g = withReady (s.group g)) : (testReady g t).group g = withReady (s.group g) := by
    rcases h with h | h
    · rw [testReady_group_same (by rw [h]; exact active), h]
    · have stays : (t.group g).active = true := by rw [h]; exact active
      rw [testReady_group_same stays, h, withReady_withReady]
  refine forEach_brings (I := fun t => t.group g = s.group g ∨ t.group g = withReady (s.group g))
    (P := fun t => t.group g = withReady (s.group g)) (a := g) (fun h t k => ?_) tested (fun h t k done => ?_) (changedGroups before s)
    (orderReports before s) (.inl rfl) (.inl ?_)
  · by_cases hg : h = g
    · subst hg
      exact .inr (tested t k)
    · rw [testReady_group_ne hg]
      exact k
  · by_cases hg : h = g
    · subst hg
      exact tested t k
    · rw [testReady_group_ne hg]
      exact done
  · exact List.mem_filter.mpr ⟨mem_allFin g, by simp [active, changed]⟩

theorem settle_line (before s : State) : (settle before s).line = s.line := by
  have tested (g : GroupId) (t : State) : (testReady g t).line = t.line := by
    unfold testReady
    dsimp only
    split
    · rw [reportBoth_line]
      rfl
    · rfl
  exact forEach_unchanged (fun t => t.line) tested (changedGroups before s) (orderReports before s)

/-! ## The exception in the order of the event's reports -/

/-- A report but an OFFER that an event has placed, where none found the queue full, waits once the reports are in order. -/
theorem waiting_settle {before s : State} {y : LinkId} {x : Report} {fresh : List QueueEntry}
    (queue : (s.link y).queue = (before.link y).queue ++ fresh) (overrun : (s.link y).overrun = (before.link y).overrun)
    (placed : ∃ gap, QueueEntry.report gap x ∈ fresh) (same : ∀ t gap, refreshRank t (.report gap x) = .report gap x) :
    Waiting (settle before s) y x := by
  have ordered : Waiting (orderReports before s) y x := by
    have order : (orderLink (refreshRank s) (before.link y) (s.link y)).queue =
        (before.link y).queue ++ (inOrder fresh).map (refreshRank s) := by
      simp only [orderLink, queue, overrun, List.drop_length, List.map_nil, List.append_nil, List.take_left, List.drop_left]
      rw [← inOrder_length fresh, List.take_length]
    obtain ⟨gap, mem⟩ := mem_inOrder.mpr placed
    refine ⟨gap, ?_⟩
    rw [orderReports_link, order, ← same s gap]
    exact List.mem_append_right _ (List.mem_map_of_mem mem)
  have tests := Soft.forEach (ev := false) (on := true) (fun g t => Soft.testReady g t) (changedGroups before s) (orderReports before s)
  exact ordered.later (tests.frame.told y).1

theorem reportBothInTurn_link (r : Report) (s : State) (y : LinkId) : (reportBothInTurn r s).link y = enqueueInTurn r (s.link y) := by
  cases y <;> rfl

theorem enqueueInTurn_of_room {l : LinkRecord} (r : Report) (room : l.queue.length < 64) : enqueueInTurn r l = enqueue r l := by
  refine if_neg fun full => ?_
  have places : 64 ≤ l.queue.length := of_decide_eq_true (Bool.and_eq_true_iff.mp full).2
  omega

end Sys2Proof.Machine
end

