-- ==== Sys2Proof/Proofs/AnnounceResults.lean ====
section
/-! PROOF. The result of an ANNOUNCE command (R120, R122, R142), and O54. -/

namespace Sys2Proof.Machine

/-! ## A member that takes an outcome -/

/-- A member with the outcome it takes. -/
def withOutcome (o : MemberOutcome) (m : Member) : Member := { m with outcome := o, leaving := false }

/-- The group whose members of one post take an outcome. -/
def takeOutcome (i : Slot) (o : MemberOutcome) (l : List Member) : List Member := l.map fun m => if m.slot = i then withOutcome o m else m

section
variable {g : GroupId} {i : Slot} {e : EndId} {o : MemberOutcome} {u v w : State}

theorem takeOutcome_outcomes (l : List Member) :
    (takeOutcome i o l).map (fun m => (m.slot, m.outcome)) = l.map fun m => (m.slot, if m.slot = i then o else m.outcome) := by
  rw [takeOutcome, List.map_map]
  refine List.map_congr_left fun m _ => ?_
  by_cases h : m.slot = i <;> simp [h, withOutcome]

theorem takeOutcome_changes {o' : MemberOutcome} (was : outcomeOf v g i = some o') (other : o ≠ o') :
    takeOutcome i o (v.group g).members ≠ (v.group g).members := by
  intro same
  simp only [outcomeOf, memberOf, Option.map_eq_some_iff] at was
  obtain ⟨m, hm, rfl⟩ := was
  have slot : m.slot = i := by simpa using List.find?_some hm
  have each := List.map_eq_map_iff.mp (same.trans (List.map_id _).symm) m (List.mem_of_find?_eq_some hm)
  rw [if_pos slot] at each
  exact other (congrArg Member.outcome each)

theorem reportMember_line (p : Option CallRef) (w : State) : (reportMember g p i w).line = w.line ∧ (reportMember g p i w).groups = w.groups := by
  unfold reportMember
  dsimp only
  split
  · split
    · exact ⟨rfl, rfl⟩
    · exact ⟨rfl, rfl⟩
  · exact ⟨rfl, rfl⟩

theorem changeMember_line (p : Option CallRef) : (changeMember g i o p u).line = u.line := (reportMember_line p _).1

theorem changeMember_group (p : Option CallRef) :
    (changeMember g i o p u).group g = { u.group g with members := takeOutcome i o (u.group g).members } := by
  obtain ⟨-, groups⟩ := reportMember_line (g := g) (i := i) p (modMember g i (withOutcome o) u)
  have group : (changeMember g i o p u).group g = (modMember g i (withOutcome o) u).group g := congrArg (fun t => nth t g) groups
  rw [group, modMember_group_same]
  rfl

theorem outcomeOf_takes (h : (outcomeOf u g i).isSome = true) : outcomeOf (modMember g i (withOutcome o) u) g i = some o := by
  obtain ⟨o', ho⟩ := Option.isSome_iff_exists.mp h
  simp only [outcomeOf, memberOf, Option.map_eq_some_iff] at ho
  obtain ⟨m, hm, -⟩ := ho
  have slot : m.slot = i := by simpa using List.find?_some hm
  have slots : ((fun m : Member => decide (m.slot = i)) ∘ fun m => if m.slot = i then withOutcome o m else m) = fun m => decide (m.slot = i) :=
    funext fun m => by by_cases h : m.slot = i <;> simp [h, withOutcome]
  simp only [outcomeOf, memberOf, modMember_group_same, List.find?_map, slots, hm, Option.map_some, if_pos slot]
  rfl

/-- The change of a member's outcome is reported, as the post then stands. -/
theorem changeMember_reports (h : (outcomeOf u g i).isSome = true) (reported : isReported (u.group g).readySent o = true) (p : Option CallRef) :
    changeMember g i o p u = reportBothInTurn (.announceException g i o (u.group g).readySent (servingEnd u i) p (nameBlock u i))
      (modMember g i (withOutcome o) u) := by
  have sent : ((modMember g i (withOutcome o) u).group g).readySent = (u.group g).readySent := by rw [modMember_group_same]
  have line : servingEnd (modMember g i (withOutcome o) u) i = servingEnd u i := rfl
  have name : nameBlock (modMember g i (withOutcome o) u) i = nameBlock u i := rfl
  have taken : changeMember g i o p u = reportMember g p i (modMember g i (withOutcome o) u) := rfl
  rw [taken]
  unfold reportMember
  dsimp only
  rw [outcomeOf_takes h]
  dsimp only
  rw [sent, if_pos reported, line, name]

/-! ## The event of it, to the release of the group's channels -/

/-- A member takes an outcome, the event's reports are settled, and the group releases what it needs no more (R120 to R122). -/
def settling (g : GroupId) (i : Slot) (o : MemberOutcome) (before u : State) : State := releases g (settle before (changeMember g i o none u))

theorem settling_posts : (settling g i o v u).line.posts = u.line.posts := by
  rw [settling, (GroupKept.releases g _).posts, settle_line, changeMember_line]

theorem settling_post (j : Slot) : (settling g i o v u).post j = u.post j := by
  rw [State.post, settling_posts]
  rfl

theorem settling_undisturbed : Undisturbed u (settling g i o v u) := .memberSettles g i o v u

theorem Untargeted.modPost (h : Untargeted u i) (f : PostRow → PostRow) : Untargeted (u.modPost i f) i := h

theorem settling_nameBlock : nameBlock (settling g i o v u) i = nameBlock u i := by
  have tests := (Soft.forEach (ev := false) (on := true) (fun g t => Soft.testReady g t) (changedGroups v (changeMember g i o none u))
    (orderReports v (changeMember g i o none u))).frame.store
  have store : (settling g i o v u).store = u.store :=
    ((Soft.releases (ev := false) (on := true) g _).frame.store.trans tests).trans (Soft.changeMember (on := true) g i o none u).frame.store
  exact nameBlock_congr store (by rw [settling_post]) (by rw [settling_post]) (by rw [settling_post])

theorem settling_group (groups : u.groups = v.groups) (active : (v.group g).active = true) (was : outcomeOf v g i = some (.pending .commanded))
    (other : o ≠ .pending .commanded) : ((settling g i o v u).group g).members = takeOutcome i o (v.group g).members
      ∧ ((settling g i o v u).group g).readySent = ((v.group g).readySent || !anyPending ((settling g i o v u).group g)) := by
  have group : u.group g = v.group g := congrArg (fun t => nth t g) groups
  have changed := takeOutcome_changes was other
  have settled : (settle v (changeMember g i o none u)).group g =
      withReady { v.group g with members := takeOutcome i o (v.group g).members } := by
    rw [settle_group (by rw [changeMember_group, group]; exact active) (by rw [changeMember_group, group]; exact changed), changeMember_group, group]
  obtain ⟨-, members, -, ready⟩ := GroupKept.releases g (settle v (changeMember g i o none u))
  rw [settled] at members ready
  have pending : anyPending ((settling g i o v u).group g) = anyPending { v.group g with members := takeOutcome i o (v.group g).members } := by
    simp only [anyPending, settling, members]
    rfl
  exact ⟨members, by rw [pending]; exact ready⟩

theorem refreshRank_exception {g : GroupId} {i : Slot} {o : MemberOutcome} {late : Bool} {d : Option EndId} {p : Option CallRef}
    {n : NameBlock} (t : State) (gap : Bool) :
    refreshRank t (.report gap (.announceException g i o late d p n)) = .report gap (.announceException g i o late d p n) := rfl

/-- What an event has done before a member of it takes its outcome: it has placed reports, of which none found the queue full. -/
structure Before (v u : State) (y : LinkId) : Prop where
  told : OnlyReports (v.link y).queue (u.link y).queue
  overrun : (u.link y).overrun = (v.link y).overrun
  up : (u.link y).up = (v.link y).up
  room : (u.link y).queue.length < 64

theorem settling_reports {y : LinkId} (placed : Before v u y) (h : (outcomeOf u g i).isSome = true)
    (reported : isReported (u.group g).readySent o = true) (up : (v.link y).up = true) :
    Waiting (settling g i o v u) y (.announceException g i o (u.group g).readySent (servingEnd u i) none (nameBlock u i)) := by
  obtain ⟨⟨l, told⟩, overrun, same, room⟩ := placed
  generalize hx : Report.announceException g i o (u.group g).readySent (servingEnd u i) none (nameBlock u i) = x
  have link : (changeMember g i o none u).link y = enqueue x (u.link y) := by
    rw [changeMember_reports h reported, hx, reportBothInTurn_link]
    have before : (modMember g i (withOutcome o) u).link y = u.link y := by cases y <;> rfl
    rw [before, enqueueInTurn_of_room x room]
  rw [enqueue_of_room x (same.trans up) room] at link
  have waits : Waiting (settle v (changeMember g i o none u)) y x := by
    refine waiting_settle (fresh := (l.map fun p => .report p.1 p.2) ++ [.report (u.link y).gap x]) ?_ ?_ ⟨(u.link y).gap, by simp⟩ ?_
    · rw [link, ← List.append_assoc, ← told]
    · rw [link]
      exact overrun
    · subst hx
      exact fun t gap => refreshRank_exception t gap
  exact waits.later ((Soft.releases (ev := false) (on := true) g _).frame.told y).1

/-! ## What comes before the outcome HEARING (R142) -/

theorem setIdle_link (p : Activity → Bool) (j : Slot) (s : State) (y : LinkId) : (setIdle p j s).link y = s.link y := by
  unfold setIdle
  split <;> cases y <;> rfl

theorem endBurst_room (d : EndId) (x : BurstEnding) (s : State) (y : LinkId) :
    ((endBurst d x s).link y).queue.length ≤ (s.link y).queue.length + 1 := by
  unfold endBurst
  split
  · next b _ =>
    have idle (t : State) : (idleFromBurst b.target t).link y = t.link y := setIdle_link _ _ t y
    have ended : (((s.modBurst d fun _ => .ended b x).modPort d fun p => { p with transaction := p.transaction.map uncount }).link y) = s.link y := by
      cases y <;> rfl
    dsimp only
    rw [report_link]
    split
    · rw [idle, ended]
      exact Noticed.enqueue_room _ _
    · rw [idle, ended]
      exact Nat.le_succ _
  · exact Nat.le_succ _
  · exact Nat.le_succ _

theorem forEach_room {α : Type} {f : α → State → State} {y : LinkId} (h : ∀ a s, ((f a s).link y).queue.length ≤ (s.link y).queue.length + 1) :
    ∀ (l : List α) (s : State), ((forEach l f s).link y).queue.length ≤ (s.link y).queue.length + l.length
  | [], _ => le_rfl
  | a :: l, s => by
    have rest := forEach_room h l (f a s)
    have first := h a s
    rw [forEach_cons, List.length_cons]
    omega

/-- A burst on each end at most, and one TEST DONE for each. -/
theorem abortTarget_room (x : AbortReason) (s : State) (y : LinkId) :
    ((abortTarget i x s).link y).queue.length ≤ (s.link y).queue.length + 16 := by
  unfold abortTarget
  refine forEach_room (fun d t => ?_) allEnds s
  split
  · split
    · exact endBurst_room d _ t y
    · exact Nat.le_succ _
  · exact Nat.le_succ _
  · exact Nat.le_succ _

theorem setIdle_keeps {p : Activity → Bool} {j : Slot} {s : State} (h : p (s.post i).activity = false) : (setIdle p j s).post i = s.post i := by
  unfold setIdle
  split
  · next idles =>
    have other : j ≠ i := fun same => absurd idles (by rw [same, h]; nofun)
    exact modPost_post_ne _ _ other
  · rfl

/-- The end of a burst leaves the activity of a post that hears an announcement. -/
theorem endBurst_hearing (d : EndId) (x : BurstEnding) {s : State} (h : (s.post i).activity = .hearing) :
    ((endBurst d x s).post i).activity = .hearing := by
  unfold endBurst
  split
  · next b _ =>
    have idle (t : State) (ht : (t.post i).activity = .hearing) : ((idleFromBurst b.target t).post i).activity = .hearing := by
      rw [idleFromBurst, setIdle_keeps (by rw [ht]; rfl)]
      exact ht
    have told (y : LinkId) (r : Report) (t : State) : (report y r t).post i = t.post i := by cases y <;> rfl
    dsimp only
    rw [told]
    exact idle _ h
  · exact h
  · exact h

theorem abortTarget_hearing (x : AbortReason) {s : State} (h : (s.post i).activity = .hearing) :
    ((abortTarget i x s).post i).activity = .hearing := by
  unfold abortTarget
  refine forEach_invariant (I := fun t => (t.post i).activity = .hearing) (fun d t k => ?_) allEnds s h
  split
  · split
    · exact endBurst_hearing d _ k
    · exact k
  · exact k
  · exact k

end

/-! ## The result (R120) -/

/-- The outcome that a result of ANNOUNCE gives the member. -/
def resultOutcome : CommandResult → MemberOutcome
  | .done => .hearing
  | .speakerFault => .failed
  | .offHook => .leftForCall

/-- What the result does before the member takes its outcome: a post that hears is HEARING, and a burst of it ends. -/
def beforeOutcome (i : Slot) : CommandResult → State → State
  | .done, s => abortTarget i .announcement (setActivity i .hearing none s)
  | .speakerFault, s => s
  | .offHook, s => s

section
variable {g : GroupId} {i : Slot} {e : EndId} {ch : Chan} {result : CommandResult} {v : State}

theorem resultOutcome_settled (h : result ≠ .done) : isException (resultOutcome result) = true := by
  cases result with
  | done => exact absurd rfl h
  | speakerFault | offHook => rfl

theorem announceResult_of_commanded (h : commandedGroup v i ch = some g) :
    announceResult i ch result v = settling g i (resultOutcome result) v (beforeOutcome i result v) := by
  unfold announceResult
  rw [h]
  cases result <;> rfl

theorem announceResult_of_none (h : commandedGroup v i ch = none) :
    announceResult i ch result v = if result = .done ∧ inAnyGroup v i = false then placeCommand i .announceEnd v else v := by
  unfold announceResult
  rw [h]
  cases result with
  | done =>
    cases member : inAnyGroup v i with
    | true => rfl
    | false => rfl
  | speakerFault | offHook => rfl

theorem commandedGroup_spec (h : commandedGroup v i ch = some g) :
    (v.group g).active = true ∧ outcomeOf v g i = some (.pending .commanded) := by
  unfold commandedGroup at h
  split at h
  · have found := List.find?_some h
    simp only [Bool.and_eq_true, decide_eq_true_eq] at found
    obtain ⟨⟨active, outcome⟩, -⟩ := found
    exact ⟨active, outcome⟩
  · exact nomatch h

theorem commandedGroup_congr {s : State} (groups : v.groups = s.groups) (reach : (v.post i).reach = (s.post i).reach) :
    commandedGroup v i ch = commandedGroup s i ch := by
  have group : v.group = s.group := funext fun x => congrArg (fun t => nth t x) groups
  have serving : servingEnd v i = servingEnd s i := by
    rw [servingEnd, reach]
    rfl
  have outcome : outcomeOf v = outcomeOf s := funext fun x => funext fun j => by
    rw [outcomeOf, group]
    rfl
  unfold commandedGroup
  rw [serving, group, outcome]

theorem beforeOutcome_kept : (beforeOutcome i result v).groups = v.groups ∧ ((beforeOutcome i result v).post i).reach = (v.post i).reach := by
  cases result with
  | done =>
    obtain ⟨reach, -⟩ := (Moves.abortTarget (homes := false) (new := false) i .announcement (setActivity i .hearing none v)).row i
    refine ⟨(abortTarget_calls i .announcement _).groups, reach.trans ?_⟩
    rw [setActivity, modPost_post_same]
  | speakerFault | offHook => exact ⟨rfl, rfl⟩

theorem beforeOutcome_before {y : LinkId} (room : (v.link y).queue.length < if result = .done then 47 else 62) :
    Before v (beforeOutcome i result v) y := by
  cases result with
  | done =>
    have soft := (Soft.abortTarget (ev := false) (on := true) i .announcement (setActivity i .hearing none v)).frame
    have link : (setActivity i .hearing none v).link y = v.link y := by cases y <;> rfl
    have bound := abortTarget_room (i := i) .announcement (setActivity i .hearing none v) y
    have told := soft.told y
    have kept := soft.kept rfl y
    rw [link] at bound told kept
    rw [if_pos rfl] at room
    exact ⟨told.1, kept, told.up, lt_of_le_of_lt bound (by omega)⟩
  | speakerFault | offHook =>
    rw [if_neg nofun] at room
    exact ⟨.refl _, rfl, rfl, lt_trans room (by omega)⟩

/-! ## The end of the step -/

section
variable {age : Nat} {r : Reply} {s : State}

/-- A post whose member hears is HEARING, and no burst runs on it. -/
theorem resultDone_hears (h : commandedGroup v i ch = some g) : ((resultDone i r (.announce ch) .done v).post i).activity = .hearing
    ∧ Untargeted (resultDone i r (.announce ch) .done v) i := by
  have taken : commandResult i (.announce ch) .done v = settling g i .hearing v (beforeOutcome i .done v) := announceResult_of_commanded h
  have calm : ((setActivity i .hearing none v).post i).activity = .hearing := by rw [setActivity, modPost_post_same]
  have hears : ((beforeOutcome i .done v).post i).activity = .hearing := abortTarget_hearing .announcement calm
  have sensed (x : PostRow) : (sensedRow r.hook r.button x).activity = x.activity := rfl
  refine ⟨?_, finish_untargeted ?_⟩
  · rw [resultDone_post, taken, settling_post, sensed, hears]
  · rw [taken]
    exact ((settling_undisturbed (g := g)).untargeted (abortTarget_untargeted i .announcement _)).modPost _

/-- The change of the member's outcome is reported, where R122 reports it, as its post stands at the end of the step. -/
theorem resultDone_reports {y : LinkId} (arrived : Arrived e i (.announce ch) age s v) (hr : (s.post i).reach = .served e)
    (h : commandedGroup s i ch = some g) (late : result ≠ .done ∨ (s.group g).readySent = true) (up : (s.link y).up = true)
    (room : (s.link y).queue.length < if result = .done then 44 else 59) :
    Waiting (resultDone i r (.announce ch) result v) y (.announceException g i (resultOutcome result) (s.group g).readySent (some e) none
      (nameBlock (resultDone i r (.announce ch) result v) i)) := by
  have commanded : commandedGroup v i ch = some g := (commandedGroup_congr arrived.groups arrived.reach).trans h
  obtain ⟨-, outcome⟩ := commandedGroup_spec commanded
  obtain ⟨groups, reach⟩ := beforeOutcome_kept (i := i) (result := result) (v := v)
  have taken : commandResult i (.announce ch) result v = settling g i (resultOutcome result) v (beforeOutcome i result v) :=
    announceResult_of_commanded commanded
  have before : Before v (beforeOutcome i result v) y := beforeOutcome_before (by
    have bound := arrived.room y
    split at room
    · next done => rw [if_pos done]; omega
    · next done => rw [if_neg done]; omega)
  generalize beforeOutcome i result v = u at *
  have group : u.group g = s.group g := congrArg (fun t => nth t g) (groups.trans arrived.groups)
  have found : (outcomeOf u g i).isSome = true := by
    have same : u.group g = v.group g := congrArg (fun t => nth t g) groups
    have kept : outcomeOf u g i = outcomeOf v g i := by
      rw [outcomeOf, same]
      rfl
    rw [kept, outcome]
    rfl
  have reported : isReported (u.group g).readySent (resultOutcome result) = true := by
    rw [group]
    by_cases done : result = .done
    · have ready := late.resolve_left (not_not.mpr done)
      rw [ready, done]
      rfl
    · rw [isReported, resultOutcome_settled done, Bool.true_or]
  have told := settling_reports before found reported ((arrived.up y).trans up)
  have serving : servingEnd u i = some e := by simp [servingEnd, reach, arrived.reach, hr]
  have name : nameBlock (resultDone i r (.announce ch) result v) i = nameBlock u i := by
    rw [resultDone_nameBlock, taken, settling_nameBlock]
  rw [group, serving, ← name, ← taken] at told
  exact resultDone_waiting.mpr told

end

end

/-- Settles O54: each result by the command it answers; an ANNOUNCE by whether a member is COMMANDED on its channel. -/
theorem commandRepliesReachTheCall : Obligations.commandRepliesReachTheCall := by
  refine ⟨?_, ?_⟩
  · intro e os s i hop cmd age r c k hp ht hr hh ho hres hook button hc hk
    obtain ⟨v, step, arrived⟩ := execPollReply_carried hp ht hr hh ho hres hook button
    obtain ⟨store, now, core⟩ := resultDone_outside (r := r) (result := .done) arrived
    have hc' := arrived.callOf.trans hc
    have hk' : v.liveCall c = some k := by rw [arrived.liveCall]; exact hk
    refine ⟨_, step, store, now, core, ?_, ?_, ?_⟩
    · rintro ch x rfl hs hch
      have result : commandResult i (.connect ch) .done v =
          reportParties c (if k.resuming then .resumed else .connected) .none (v.modCall c connectedCall) :=
        connectDone_of_connecting hc' hk' hs hch
      obtain ⟨line, calls, groups, arbiter⟩ := reportCall_line c (if k.resuming then .resumed else .connected) .none false
        (partyLinks (v.modCall c connectedCall) c) (v.modCall c connectedCall)
      refine ⟨?_, ?_, ?_, fun y => ?_, fun p hp up room => ?_⟩
      · rw [resultDone_calls, result, reportParties, calls]
        exact modCall_calls_of_live arrived.calls hk rfl
      · rw [resultDone_arbiter, result, reportParties, arbiter]
        exact arrived.arbiter
      · rw [resultDone_groups, result, reportParties, groups]
        exact arrived.groups
      · have commands : ((reportParties c (if k.resuming then .resumed else .connected) .none (v.modCall c connectedCall)).endRec e).commands =
            (v.endRec e).commands := by
          rw [reportParties, State.endRec, line]
          rfl
        rw [resultDone_commands, result, commands, arrived.commands, mem_withoutEntry]
      · have bound := arrived.room p.link
        have told := waiting_connected hk' (if k.resuming then .resumed else .connected) hp ((arrived.up p.link).trans up) (by omega)
        rw [← result] at told
        obtain ⟨gap, mem⟩ := (resultDone_waiting (r := r)).mpr told
        have ref : (v.modCall c connectedCall).refOfRecord c = s.refOfRecord c := by
          rw [← arrived.refOfRecord c]
          simp [State.refOfRecord, State.modCall]
        exact ⟨gap, _, rfl, ref, rfl, mem⟩
    · rintro rfl hs hd hover
      have result : commandResult i .release .done v = freeRecord c v := releaseDone_of_clearing hc' hk' hs
      have free : (freeRecord c v).liveCall c = none := freeRecord_free hk' hd (by rw [arrived.calls]; exact hover)
      have generation := freeRecord_generation hk'
      rw [resultDone_record, result]
      rw [arrived.record] at generation
      rw [← generation, ← free]
      rfl
    · rintro rfl hs
      have result : commandResult i .release .done v = v := releaseDone_of_other hc' hk' hs
      rw [resultDone_calls, result]
      exact arrived.calls
  · intro e os s i hop cmd age r result hp ht hr hh ho hres hook button
    obtain ⟨v, step, arrived⟩ := execPollReply_carried hp ht hr hh ho hres hook button
    obtain ⟨store, now, core⟩ := resultDone_outside (r := r) (result := result) arrived
    refine ⟨_, step, store, now, core, ?_, ?_, ?_, ?_⟩
    · rintro c k rfl rfl hc hk hs serves unused
      exact resultDone_answered arrived hr hc hk hs serves unused
    · rintro rfl refused
      have quiet : commandResult i .ring result v = v := if_neg refused
      rw [resultDone_calls, resultDone_groups, quiet]
      exact ⟨arrived.calls, arrived.groups⟩
    · rintro ch g rfl commanded
      have commanded' : commandedGroup v i ch = some g := (commandedGroup_congr arrived.groups arrived.reach).trans commanded
      obtain ⟨active, outcome⟩ := commandedGroup_spec commanded'
      have group : v.group g = s.group g := congrArg (fun t => nth t g) arrived.groups
      have taken : commandResult i (.announce ch) result v = settling g i (resultOutcome result) v (beforeOutcome i result v) :=
        announceResult_of_commanded commanded'
      obtain ⟨groups, reach⟩ := beforeOutcome_kept (i := i) (result := result) (v := v)
      have other : resultOutcome result ≠ .pending .commanded := by cases result <;> nofun
      obtain ⟨members, ready⟩ := settling_group groups active outcome other
      rw [← taken, group] at members ready
      have last : (resultDone i r (.announce ch) result v).group g = (commandResult i (.announce ch) result v).group g :=
        congrArg (fun t => nth t g) resultDone_groups
      intro o
      have named : resultOutcome result = o := by cases result <;> rfl
      refine ⟨?_, fun done => ⟨?_, ?_⟩, ?_, fun y late up room => ?_⟩
      · rw [last, members, named, takeOutcome_outcomes]
      · subst done
        exact (resultDone_hears commanded').1
      · subst done
        exact (resultDone_hears commanded').2
      · rw [last, ready]
      · obtain ⟨gap, mem⟩ := resultDone_reports (r := r) arrived hr commanded late up room
        exact ⟨gap, named ▸ mem⟩
    · rintro ch rfl commanded
      have commanded' : commandedGroup v i ch = none := (commandedGroup_congr arrived.groups arrived.reach).trans commanded
      have taken : commandResult i (.announce ch) result v =
          if result = .done ∧ inAnyGroup v i = false then placeCommand i .announceEnd v else v := announceResult_of_none commanded'
      obtain ⟨-, calls, groups, -⟩ := placeCommand_kept i .announceEnd v
      rw [resultDone_groups, resultDone_calls, taken]
      refine ⟨?_, ?_, fun done absent => ?_⟩
      · split
        exacts [groups.trans arrived.groups, arrived.groups]
      · split
        exacts [calls.trans arrived.calls, arrived.calls]
      · have none : inAnyGroup v i = false := by
          rw [inAnyGroup, List.any_eq_false]
          intro g _
          have group : v.group g = s.group g := congrArg (fun t => nth t g) arrived.groups
          rw [takingPart_congr (congrArg GroupRun.active group) (congrArg GroupRun.members group), absent g]
          nofun
        rw [resultDone_commands, taken, if_pos ⟨done, none⟩]
        exact waitsOn_placeCommand (arrived.reach.trans hr) .announceEnd

end Sys2Proof.Machine
end

