-- ==== Sys2Proof/Proofs/EndRules.lean ====
section
/-! PROOF. What a way can do to the ends (R53, R74): `LeavesEnds P s t` leaves the records and the channels of the ends but those of P;
`KeepsEnds P s t` leaves the records of the ends but those of P and keeps every end consistent with its state. The small updates do both,
and a way that touches the ends of P does the second if it leaves these consistent. -/

namespace Sys2Proof.Machine

variable {P : EndId → Prop}

/-! ## Consistent ends -/

/-- The end is consistent with its state (R53 to R61, R74). -/
def EndIsOk (s : State) (e : EndId) : Prop := EndOk (starting s) (s.endRec e) (s.chan e)

theorem EndIsOk.unfitted {s : State} {e : EndId} (h : EndIsOk s e) (hs : starting s = true) : (s.endRec e).state = .unfitted := h.1 hs

/-- An end that is not UNFITTED is consistent only out of STARTING (R29). -/
theorem EndIsOk.not_starting {s : State} {e : EndId} (h : EndIsOk s e) (hst : (s.endRec e).state ≠ .unfitted) : starting s = false :=
  Bool.eq_false_iff.mpr fun hs => hst (h.unfitted hs)

/-- An end with a retry wait is TESTING (R59). -/
theorem EndIsOk.testing_of_retryWait {s : State} {e : EndId} (h : EndIsOk s e) (hw : (s.endRec e).retryWait ≠ none) :
    (s.endRec e).state = .testing := by
  obtain ⟨-, -, -, rest, -⟩ := h
  by_contra hst
  exact hw (rest hst).2.1

/-- What an end's consistency asks of another record is read from its core. -/
theorem EndIsOk.transfer {s t : State} {e : EndId} (h : EndIsOk s e) (hs : starting t = true → starting s = true)
    (hr : (t.endRec e).core = (s.endRec e).core)
    (hc : holdsChannels (s.endRec e).state = false → s.chan e = .powerOn → t.chan e = .powerOn) : EndIsOk t e := by
  have state : (t.endRec e).state = (s.endRec e).state := (congrArg EndRecord.state hr :)
  obtain ⟨start, free, rest⟩ := h
  have core : EndOk (starting s) (t.endRec e).core (s.chan e) := hr ▸ ⟨start, free, rest⟩
  obtain ⟨start, free', rest⟩ := core
  exact ⟨fun ht => start (hs ht), fun hh => ⟨(free' hh).1, hc (state ▸ hh) (free' hh).2⟩, rest⟩

/-- An end whose record has the core of a consistent one, out of STARTING. -/
theorem EndIsOk.of_core {t : State} {e : EndId} {r : EndRecord} (hs : starting t = false) (hr : (t.endRec e).core = r.core)
    (h : EndOk false r (t.chan e)) : EndIsOk t e := by
  have core : EndOk false (t.endRec e).core (t.chan e) := by rw [hr]; exact h
  rw [EndIsOk, hs]
  exact core

/-! ## Ways that leave ends alone -/

/-- The way from one state to another leaves the records of the ends but those of P, gives none of them its first channel, and does not
begin STARTING. -/
structure LeavesEnds (P : EndId → Prop) (s t : State) : Prop where
  core : ∀ e, ¬ P e → (t.endRec e).core = (s.endRec e).core
  chan : ∀ e, ¬ P e → holdsChannels (s.endRec e).state = false → s.chan e = .powerOn → t.chan e = .powerOn
  starting : starting t = true → starting s = true

namespace LeavesEnds

variable {s t u : State}

theorem state (h : LeavesEnds P s t) {e : EndId} (he : ¬ P e) : (t.endRec e).state = (s.endRec e).state :=
  (congrArg EndRecord.state (h.core e he) :)

theorem trans (h : LeavesEnds P s t) (k : LeavesEnds P t u) : LeavesEnds P s u :=
  ⟨fun e he => (k.core e he).trans (h.core e he), fun e he hh hc => k.chan e he (h.state he ▸ hh) (h.chan e he hh hc),
    fun hs => h.starting (k.starting hs)⟩

/-- An operation after another, read as they are nested. -/
theorem andThen (k : LeavesEnds P t u) (h : LeavesEnds P s t) : LeavesEnds P s u := h.trans k

theorem of_ite {c : Prop} [Decidable c] (ht : LeavesEnds P s t) (hu : LeavesEnds P s u) : LeavesEnds P s (if c then t else u) := by
  split
  · exact ht
  · exact hu

/-- An update outside the ends' records and the Arbiter. -/
theorem outside (hl : t.line.ends = s.line.ends) (ha : t.arbiter = s.arbiter) (hs : Machine.starting t = true → Machine.starting s = true) :
    LeavesEnds P s t :=
  ⟨fun e _ => by rw [State.endRec, hl]; rfl, fun e _ _ hc => by rwa [State.chan, ha], hs⟩

theorem soft {ev on : Bool} (h : Soft ev on s t) : LeavesEnds P s t :=
  ⟨fun e _ => h.frame.core e, fun _ _ hh hc => h.chan_powerOn hh hc, fun hs => by rwa [Machine.starting, h.frame.store] at hs⟩

theorem modPort (s : State) (e : EndId) (f : Port → Port) : LeavesEnds P s (s.modPort e f) := .outside rfl rfl id

/-- An update of the record of an end of P. -/
theorem modEnd (s : State) {e : EndId} (f : EndRecord → EndRecord) (he : P e) : LeavesEnds P s (s.modEnd e f) :=
  ⟨fun d hd => by rw [modEnd_endRec_ne]; exact fun h => hd (h ▸ he), fun _ _ _ => id, id⟩

theorem changeEnd {e : EndId} (he : P e) (st : EndState) (r : EndReach) (c : EndCause) (s : State) :
    LeavesEnds P s (Machine.changeEnd e st r c s) :=
  .of_ite ((modEnd s _ he).trans (modPort _ e _)) (modEnd s _ he)

/-- The ends of P alone need be looked at. -/
theorem endsOk (h : LeavesEnds P s t) (ho : EndsOk s) (hP : ∀ e, P e → EndIsOk t e) : EndsOk t := fun e => by
  by_cases he : P e
  · exact hP e he
  · exact EndIsOk.transfer (ho e) h.starting (h.core e he) (h.chan e he)

end LeavesEnds

/-! ## Ways that keep the ends consistent -/

/-- The way from one state to another leaves the records of the ends but those of P, and keeps every end consistent. -/
structure KeepsEnds (P : EndId → Prop) (s t : State) : Prop where
  core : ∀ e, ¬ P e → (t.endRec e).core = (s.endRec e).core
  ok : EndsOk s → EndsOk t

namespace KeepsEnds

variable {s t u : State}

theorem refl (s : State) : KeepsEnds P s s := ⟨fun _ _ => rfl, id⟩

theorem trans (h : KeepsEnds P s t) (k : KeepsEnds P t u) : KeepsEnds P s u :=
  ⟨fun e he => (k.core e he).trans (h.core e he), k.ok ∘ h.ok⟩

theorem mono {Q : EndId → Prop} (h : KeepsEnds P s t) (hPQ : ∀ e, P e → Q e) : KeepsEnds Q s t :=
  ⟨fun e he => h.core e fun hp => he (hPQ e hp), h.ok⟩

/-- An operation after another, read as they are nested. -/
theorem andThen (k : KeepsEnds P t u) (h : KeepsEnds P s t) : KeepsEnds P s u := h.trans k

theorem of_ite {c : Prop} [Decidable c] (ht : KeepsEnds P s t) (hu : KeepsEnds P s u) : KeepsEnds P s (if c then t else u) := by
  split
  · exact ht
  · exact hu

theorem forEach {α : Type} {f : α → State → State} (h : ∀ a s, KeepsEnds P s (f a s)) :
    ∀ (l : List α) (s : State), KeepsEnds P s (Machine.forEach l f s)
  | [], s => .refl s
  | a :: l, s => (h a s).trans (forEach h l (f a s))

/-- A way that leaves every end alone. -/
theorem of_leaves (h : LeavesEnds (fun _ => False) s t) : KeepsEnds P s t := ⟨fun e _ => h.core e id, fun ho => h.endsOk ho nofun⟩

/-- A way that leaves the ends of P consistent and the others alone. -/
theorem of_leaves_others (h : LeavesEnds P s t) (hP : EndsOk s → ∀ e, P e → EndIsOk t e) : KeepsEnds P s t :=
  ⟨h.core, fun ho => h.endsOk ho (hP ho)⟩

theorem soft {ev on : Bool} (h : Soft ev on s t) : KeepsEnds P s t := of_leaves (.soft h)

/-- An update outside the ends' records and the Arbiter. -/
theorem outside (hl : t.line.ends = s.line.ends) (ha : t.arbiter = s.arbiter) (hs : starting t = true → starting s = true) :
    KeepsEnds P s t := of_leaves (.outside hl ha hs)

theorem modLink (s : State) (x : LinkId) (f : LinkRecord → LinkRecord) : KeepsEnds P s (s.modLink x f) :=
  .outside (by simp) (by simp) (by simp [starting])

theorem settle (before s : State) : KeepsEnds P s (Machine.settle before s) :=
  .trans (t := orderReports before s) (.outside rfl rfl id) (.forEach (fun g t => .soft (Soft.testReady (ev := false) (on := true) g t)) _ _)

theorem andFinish (h : KeepsEnds P s t) : KeepsEnds P s (finish t) := h.trans (.soft (Soft.finish (ev := false) (on := true) t))

/-- An update of the record of an end of P that leaves it consistent. -/
theorem modEnd (s : State) {e : EndId} (f : EndRecord → EndRecord) (he : P e) (h : EndIsOk s e → EndIsOk (s.modEnd e f) e) :
    KeepsEnds P s (s.modEnd e f) := by
  have other : LeavesEnds (· = e) s (s.modEnd e f) := .modEnd s f rfl
  refine ⟨(LeavesEnds.modEnd s f he).core, fun ho => other.endsOk ho ?_⟩
  rintro _ rfl
  exact h (ho _)

end KeepsEnds

/-! ## Taking requests -/

/-- Where the outcome of a command is a next state, the way there leaves the ends but those of P, and keeps every end consistent. -/
def OutcomeEnds (P : EndId → Prop) (s : State) (o : Host.Outcome State Fault Refusal) : Prop := ∀ t, o = .next t → KeepsEnds P s t

theorem OutcomeEnds.next {s t : State} (h : KeepsEnds P s t) : OutcomeEnds P s (.next t) := fun _ e => Host.Outcome.next.inj e ▸ h

/-- The answers of a responder touch no end, as a placed response does. -/
def AnswersAside (answer : Responder) : Prop := ∀ (P : EndId → Prop) r b s, KeepsEnds P s (answer r b s)

theorem respond_aside (x : LinkId) (tag typ : Byte) : AnswersAside (respond x tag typ) := fun _ _ _ s => .modLink s x _

theorem requested_ends {x : LinkId} {tag : Byte} {r : Request} {act : Responder → State → State} (s : State)
    (h : ∀ answer, AnswersAside answer → ∀ t, KeepsEnds P t (act answer t)) : OutcomeEnds P s (requested x tag r act s) := by
  have ha := respond_aside x tag (requestType r)
  have popped : KeepsEnds P s (popIntake x s) := .modLink s x _
  unfold requested takeRequest
  refine .next (.of_ite (popped.trans ?_) (.refl s))
  exact .of_ite (ha P _ _ _) (h _ ha _)

section
variable {answer : Responder} (ha : AnswersAside answer) {s : State}
include ha

theorem withCall_ends {index generation : Nat} {act : CallIdx → LiveCall → State} (h : ∀ i k, KeepsEnds P s (act i k)) :
    KeepsEnds P s (withCall index generation answer s act) := by
  unfold withCall
  split
  · exact ha P _ _ _
  · split
    · exact ha P _ _ _
    · exact h _ _

theorem withTrunk_ends {x : LinkId} {slot : Nat} {act : Trunk → State} (h : ∀ t, KeepsEnds P s (act t)) :
    KeepsEnds P s (withTrunk x slot answer s act) := by
  unfold withTrunk
  split
  · exact ha P _ _ _
  · exact .of_ite (h _) (ha P _ _ _)

theorem withEnd_ends {code : Nat} {act : EndId → State} (h : ∀ e, endOf code = some e → KeepsEnds P s (act e)) :
    KeepsEnds P s (withEnd code answer s act) := by
  unfold withEnd
  split
  · exact ha P _ _ _
  · exact h _ ‹_›

/-- A write that is accepted or refused touches no end. -/
theorem checkWrite_ends {latched : Bool} {act : State} (h : KeepsEnds P s act) : KeepsEnds P s (checkWrite latched answer s act) :=
  .of_ite (ha P _ _ _) (.of_ite (ha P _ _ _) h)

theorem acceptWrite_ends (w : StoreWrite) (x : LinkId) (tag : Byte) (b : ResponseBody) : KeepsEnds P s (acceptWrite w x tag b answer s) :=
  (ha P .ok b s).trans (.outside rfl rfl nofun)

end

end Sys2Proof.Machine
end

