-- ==== Sys2Proof/Proofs/EndsAside.lean ====
section
/-! PROOF. The commands that are about no end, and the parts of the others that touch none: each has `KeepsEnds` for any P. -/

namespace Sys2Proof.Machine

variable {P : EndId → Prop}

/-! ## Updates outside the ends -/

section
variable (s : State)

theorem modPost_keepsEnds (i : Slot) (f : PostRow → PostRow) : KeepsEnds P s (s.modPost i f) := .outside rfl rfl id
theorem modPort_keepsEnds (e : EndId) (f : Port → Port) : KeepsEnds P s (s.modPort e f) := .outside rfl rfl id
theorem modCounters_keepsEnds (e : EndId) (f : Counters → Counters) : KeepsEnds P s (s.modCounters e f) := .outside rfl rfl id
theorem modBurst_keepsEnds (e : EndId) (f : BurstRecord → BurstRecord) : KeepsEnds P s (s.modBurst e f) := .outside rfl rfl id
theorem modCall_keepsEnds (i : CallIdx) (f : LiveCall → LiveCall) : KeepsEnds P s (s.modCall i f) := .outside rfl rfl id
theorem modGroup_keepsEnds (g : GroupId) (f : GroupRun → GroupRun) : KeepsEnds P s (s.modGroup g f) := .outside rfl rfl id
theorem makeLive_keepsEnds (i : CallIdx) (k : LiveCall) : KeepsEnds P s (makeLive i k s) := .outside rfl rfl id
theorem takeStamp_keepsEnds : KeepsEnds P s (takeStamp s) := .outside rfl rfl id
theorem reach_keepsEnds (n : Nat) : KeepsEnds P s (s.reach n) := .outside rfl rfl id
theorem withPending_keepsEnds (l : List Instr) : KeepsEnds P s (s.withPending l) := .outside rfl rfl id
theorem lowerCounts_keepsEnds : KeepsEnds P s (lowerCounts s) := .outside rfl rfl id
theorem storeReady_keepsEnds : KeepsEnds P s (storeReady s) := .outside rfl rfl nofun
theorem takeTrunk_keepsEnds (x : LinkId) (t : Trunk) (u : TrunkUse) : KeepsEnds P s (takeTrunk x t u s) := .modLink s x _

/-- An update of an end's record that leaves its core. -/
theorem modEnd_core_keepsEnds (e : EndId) (f : EndRecord → EndRecord) (h : ∀ r, (f r).core = r.core) : KeepsEnds P s (s.modEnd e f) :=
  .soft (Soft.endRec (ev := false) (on := true) s e f h)

theorem tick_keepsEnds : KeepsEnds P s s.tick := .of_ite (.outside rfl rfl id) (.refl s)

/-- A change of the store in which STARTING does not begin. -/
theorem setStore_keepsEnds (b : StoreBlock) (h : b.state = s.store.state) : KeepsEnds P s (s.setStore b) :=
  .outside rfl rfl fun hs => by rwa [starting, setStore_store, h] at hs

theorem clearMarks_keepsEnds (p : RecordId → Bool) : KeepsEnds P s (clearMarks p s) := setStore_keepsEnds s _ rfl

theorem reportBoth_keepsEnds (r : Report) : KeepsEnds P s (reportBoth r s) := .soft (Soft.reportBoth (ev := false) (on := true) r s)

end

/-! ## Requests on calls -/

theorem acceptAnswer_keepsEnds (x : LinkId) (i : CallIdx) (k : LiveCall) (t : Trunk) (s : State) : KeepsEnds P s (acceptAnswer x i k t s) := by
  unfold acceptAnswer
  dsimp only
  refine (KeepsEnds.settle _ _).andThen (.andThen (.soft (Soft.requestOnServing (on := true) _ _ _ ?_)) ((modCall_keepsEnds _ _ _).andThen ?_))
  · exact onLine_modCall _ i _ fun _ => rfl
  · exact (KeepsEnds.soft (Soft.withdrawOffers (ev := false) (on := true) _ _ _ _)).andThen (takeTrunk_keepsEnds s x t _)

theorem addParty_keepsEnds (x : LinkId) (i : CallIdx) (k : LiveCall) (t : Trunk) (s : State) : KeepsEnds P s (addParty x i k t s) :=
  (KeepsEnds.soft (Soft.reportCall (ev := false) (on := true) _ _ _ _ _ _)).andThen
    ((modCall_keepsEnds _ _ _).andThen (takeTrunk_keepsEnds s x t _))

theorem placeCall_keepsEnds (x : LinkId) (i : CallIdx) (slot : Slot) (t : Trunk) (s : State) : KeepsEnds P s (placeCall x i slot t s) := by
  let live := makeLive i (outboundCall s slot x t) s
  have placed : KeepsEnds P s (takeTrunk x t (.call (live.refOfRecord i)) live) :=
    (makeLive_keepsEnds s i _).trans (takeTrunk_keepsEnds _ x t _)
  refine placed.trans (.soft (ev := false) (on := true) ?_)
  exact .andThen (.memberLeftForCall .settle _ _) (.andThen (.placeCommand _ _ _) (.setActivity _ _ _ _))

theorem leaveCall_keepsEnds (x : LinkId) (i : CallIdx) (s : State) : KeepsEnds P s (leaveCall x i s) :=
  .soft (Soft.andThen (ev := false) (on := true) (.reportParties _ _ _ _) (.removeParty i x s))

theorem clearCall_keepsEnds (x : LinkId) (i : CallIdx) (k : LiveCall) {answer : Responder} (ha : AnswersAside answer) (s : State) :
    KeepsEnds P s (clearCall x i k answer s) :=
  (((ha P _ _ s).trans (.soft (Soft.clearing _ _ _ _ _))).trans (.settle _ _)).andFinish

theorem dismiss_keepsEnds (i : CallIdx) (k : LiveCall) (x : LinkId) (s : State) : KeepsEnds P s (dismiss i k x s) :=
  .soft (Soft.dismiss (ev := false) i k x s)

section
variable (x : LinkId) (tag : Byte) (s : State)

theorem execAnswer_ends (index generation slot : Nat) : OutcomeEnds P s (execAnswer x tag index generation slot s) := by
  refine requested_ends s fun answer ha u => withCall_ends ha fun i k => ?_
  refine .of_ite (ha P _ _ _) (.of_ite (ha P _ _ _) (withTrunk_ends ha fun t => ?_))
  exact ((ha P _ _ _).trans (acceptAnswer_keepsEnds x i k t _)).andFinish

theorem execJoin_ends (index generation slot : Nat) : OutcomeEnds P s (execJoin x tag index generation slot s) := by
  refine requested_ends s fun answer ha u => withCall_ends ha fun i k => ?_
  have joined : KeepsEnds P u (if isParty x k then answer .alreadyParty .empty u
      else withTrunk x slot answer u fun t => finish (addParty x i k t (answer .ok .empty u))) :=
    .of_ite (ha P _ _ _) (withTrunk_ends ha fun t => ((ha P _ _ _).trans (addParty_keepsEnds x i k t _)).andFinish)
  cases k.state with
  | offered | ringing | clearing => exact ha P _ _ _
  | connecting | connected | parked | lineLost => exact joined

theorem execLeave_ends (index generation : Nat) : OutcomeEnds P s (execLeave x tag index generation s) := by
  refine requested_ends s fun answer ha u => withCall_ends ha fun i k => .of_ite (.of_ite ?_ ?_) (ha P _ _ _)
  · exact ((ha P _ _ _).trans (leaveCall_keepsEnds x i _)).andFinish
  · exact clearCall_keepsEnds x i k ha u

theorem execClear_ends (index generation : Nat) : OutcomeEnds P s (execClear x tag index generation s) := by
  refine requested_ends s fun answer ha u => withCall_ends ha fun i k => ?_
  have dismissed : KeepsEnds P u (finish (dismiss i k x (answer .ok .empty u))) :=
    ((ha P _ _ _).trans (dismiss_keepsEnds i k x _)).andFinish
  have cleared : KeepsEnds P u (if isParty x k then clearCall x i k answer u else answer .notAParty .empty u) :=
    .of_ite (clearCall_keepsEnds x i k ha u) (ha P _ _ _)
  cases k.state with
  | offered => exact .of_ite dismissed (ha P _ _ _)
  | lineLost => exact .of_ite dismissed cleared
  | ringing | connecting | connected | parked => exact cleared
  | clearing => exact ha P _ _ _

theorem execCallPost_ends (post slot : Nat) : OutcomeEnds P s (execCallPost x tag post slot s) := by
  refine requested_ends s fun answer ha u => ?_
  split
  · refine .of_ite (ha P _ _ _) (.of_ite (ha P _ _ _) ?_)
    split
    · exact ha P _ _ _
    · exact .of_ite ((ha P _ _ _).trans (placeCall_keepsEnds x _ _ _ _)).andFinish (ha P _ _ _)
  · exact ha P _ _ _

/-! ## Requests on announcements -/

theorem startGroup_keepsEnds (g : GroupId) (t : Trunk) : KeepsEnds P s (startGroup g x t s) := by
  have started : KeepsEnds P s (s.modGroup g fun _ => startedGroup s g x t) := modGroup_keepsEnds s g _
  refine ((started.trans (takeTrunk_keepsEnds _ x t (.announce g))).trans (.soft (ev := true) (on := true) ?_)).trans (.settle _ _)
  exact .andThen (.forEach (Soft.reportMember g none) _ _) (.forEach (fun e u => .of_ite (.refl u) (.requestForGroup g e u)) _ _)

theorem execAnnounceStart_ends (group slot : Nat) : OutcomeEnds P s (execAnnounceStart x tag group slot s) := by
  refine requested_ends s fun answer ha u => ?_
  split
  · exact ha P _ _ _
  · refine .of_ite (ha P _ _ _) (.of_ite (ha P _ _ _) (withTrunk_ends ha fun t => ?_))
    exact ((ha P _ _ _).trans (startGroup_keepsEnds x _ _ t)).andFinish

theorem execAnnounceStop_ends (group : Nat) : OutcomeEnds P s (execAnnounceStop x tag group s) := by
  refine requested_ends s fun answer ha u => ?_
  split
  · exact ha P _ _ _
  · exact .of_ite ((ha P _ _ _).trans (.soft (Soft.endGroup (ev := false) (on := true) _ _ _))).andFinish (ha P _ _ _)

/-! ## Requests on posts, and queries -/

theorem execLineStats_ends (code flag : Nat) : OutcomeEnds P s (execLineStats x tag code flag s) :=
  requested_ends s fun _ ha u => withEnd_ends ha fun e _ =>
    (ha P .ok (.stats e (u.counters e) (u.burst e)) u).trans (.of_ite (modCounters_keepsEnds _ e _) (.refl _))

theorem execPostTest_ends (post count pattern : Nat) : OutcomeEnds P s (execPostTest x tag post count pattern s) := by
  refine requested_ends s fun answer ha u => ?_
  split
  · split
    · exact ha P _ _ _
    · refine .of_ite (ha P _ _ _) (.of_ite (ha P _ _ _) (.of_ite (ha P _ _ _) (KeepsEnds.andFinish ?_)))
      exact (modPost_keepsEnds _ _ _).andThen ((modBurst_keepsEnds _ _ _).andThen (ha P _ _ _))
  · exact ha P _ _ _

theorem execPostTestStop_ends (code : Nat) : OutcomeEnds P s (execPostTestStop x tag code s) :=
  requested_ends s fun _ ha _ => withEnd_ends ha fun e _ =>
    ((ha P _ _ _).trans (.soft (Soft.endBurst (ev := false) (on := true) e _ _))).andFinish

theorem execGroupResult_ends (group first : Nat) : OutcomeEnds P s (execGroupResult x tag group first s) := by
  refine requested_ends s fun _ ha u => ?_
  split <;> exact ha P _ _ u

theorem execQueryPost_ends (post : Nat) : OutcomeEnds P s (execQueryPost x tag post s) := by
  refine requested_ends s fun _ ha u => ?_
  split <;> exact ha P _ _ u

theorem execDirectoryRead_ends (kind index first : Nat) : OutcomeEnds P s (execDirectoryRead x tag kind index first s) := by
  refine requested_ends s fun _ ha u => ?_
  split <;> exact ha P _ _ u

/-! ## Requests on the store -/

theorem setLatch_keepsEnds (b : Bool) : KeepsEnds P s (setLatch x b s) := .modLink s x _

theorem execDirectoryWriteName_ends (post : Nat) (f : RawName) : OutcomeEnds P s (execDirectoryWriteName x tag post f s) := by
  refine requested_ends s fun _ ha u => checkWrite_ends ha ?_
  split
  · exact ha P _ _ _
  · exact ha P _ _ _
  · exact acceptWrite_ends ha _ x tag _

theorem execDirectoryWritePlace_ends (post : Nat) (f : RawPlace) : OutcomeEnds P s (execDirectoryWritePlace x tag post f s) := by
  refine requested_ends s fun _ ha u => checkWrite_ends ha ?_
  split
  · exact ha P _ _ _
  · split
    · exact ha P _ _ _
    · exact .of_ite (ha P _ _ _) (.of_ite (ha P _ _ _) (.of_ite (ha P _ _ _) (acceptWrite_ends ha _ x tag _)))

theorem execSiteWriteSegment_ends (seg : Nat) (f : RawSegment) : OutcomeEnds P s (execSiteWriteSegment x tag seg f s) := by
  refine requested_ends s fun _ ha u => checkWrite_ends ha ?_
  split
  · exact .of_ite (ha P _ _ _) (.of_ite (ha P _ _ _) (acceptWrite_ends ha _ x tag _))
  · exact ha P _ _ _

theorem execGroupEdit_ends (group op : Nat) (slots : List Nat) : OutcomeEnds P s (execGroupEdit x tag group op slots s) := by
  refine requested_ends s fun _ ha u => checkWrite_ends ha ?_
  split
  · exact ha P _ _ _
  · exact .of_ite (ha P _ _ _) (acceptWrite_ends ha _ x tag _)

theorem execStoreErase_ends (scope : Nat) : OutcomeEnds P s (execStoreErase x tag scope s) := by
  refine requested_ends s fun _ ha u => checkWrite_ends ha ?_
  split
  · exact ha P _ _ _
  · exact .of_ite (ha P _ _ _) (acceptWrite_ends ha _ x tag _)

end

/-! ## The timers of calls and groups -/

section
variable (s : State)

theorem execOverflowTimerExpiry_ends (i : CallIdx) : OutcomeEnds P s (execOverflowTimerExpiry i s) := by
  unfold execOverflowTimerExpiry
  split
  · refine .next (.andThen (.soft (Soft.offer (ev := false) (on := true) i _)) ((modCall_keepsEnds _ i _).andThen (reach_keepsEnds s _)))
  · exact .next (.refl s)

theorem execRingTimerExpiry_ends (i : CallIdx) : OutcomeEnds P s (execRingTimerExpiry i s) := by
  unfold execRingTimerExpiry
  split
  · exact .next ((reach_keepsEnds s _).trans (.soft (Soft.ringExpires (ev := false) i _ _))).andFinish
  · exact .next (.refl s)

theorem execClearConfirmTimerExpiry_ends (i : CallIdx) : OutcomeEnds P s (execClearConfirmTimerExpiry i s) := by
  unfold execClearConfirmTimerExpiry
  split
  · exact .next ((reach_keepsEnds s _).trans (.soft (Soft.freeRecord (ev := false) i _))).andFinish
  · exact .next (.refl s)

theorem execAcknowledgeWindowExpiry_ends (g : GroupId) : OutcomeEnds P s (execAcknowledgeWindowExpiry g s) := by
  unfold execAcknowledgeWindowExpiry
  split
  · exact .next ((reach_keepsEnds s _).trans (.soft (Soft.windowExpires (ev := false) (on := true) g _))).andFinish
  · exact .next (.refl s)

theorem execAcknowledgeLateExpiry_ends (g : GroupId) : OutcomeEnds P s (execAcknowledgeLateExpiry g s) := by
  unfold execAcknowledgeLateExpiry
  split
  · exact .next ((reach_keepsEnds s _).trans (.soft (Soft.lateExpires (ev := false) (on := true) g _))).andFinish
  · exact .next (.refl s)

end

/-! ## Completions -/

theorem reportWritten_keepsEnds (o : StoreOperation) (s : State) : KeepsEnds P s (reportWritten o s) :=
  .soft (Soft.reportWritten (ev := false) (on := true) o s)

theorem writeEntry_keepsEnds (i : Slot) (v : DirEntry) (s : State) : KeepsEnds P s (writeEntry i v s) :=
  (clearMarks_keepsEnds _ _).andThen (setStore_keepsEnds s _ rfl)

theorem writeSegment_keepsEnds (g : SegId) (v : SegRecord) (s : State) : KeepsEnds P s (writeSegment g v s) :=
  (clearMarks_keepsEnds _ _).andThen (setStore_keepsEnds s _ rfl)

section
variable (s : State)

theorem execNameWriteCompletion_ends : OutcomeEnds P s (execNameWriteCompletion s) := by
  unfold execNameWriteCompletion
  split
  · split
    · exact .next ((storeReady_keepsEnds _).andThen ((reportWritten_keepsEnds _ _).andThen (writeEntry_keepsEnds _ _ s)))
    · exact .next (.refl s)
  · exact .next (.refl s)

theorem execPlaceCompletion_ends : OutcomeEnds P s (execPlaceCompletion s) := by
  unfold execPlaceCompletion
  split
  · split
    · refine .next (KeepsEnds.andFinish ((storeReady_keepsEnds _).andThen (.andThen (.soft (Soft.placed _ _ _ _)) ?_)))
      exact (reportWritten_keepsEnds _ _).andThen (writeEntry_keepsEnds _ _ s)
    · exact .next (.refl s)
  · exact .next (.refl s)

theorem execGlobalWriteCompletion_ends : OutcomeEnds P s (execGlobalWriteCompletion s) := by
  unfold execGlobalWriteCompletion
  split
  · split
    · refine .next ((storeReady_keepsEnds _).andThen ((lowerCounts_keepsEnds _).andThen ((reportWritten_keepsEnds _ _).andThen ?_)))
      exact (clearMarks_keepsEnds _ _).andThen (setStore_keepsEnds s _ rfl)
    · exact .next (.refl s)
  · exact .next (.refl s)

theorem execGroupEditCompletion_ends : OutcomeEnds P s (execGroupEditCompletion s) := by
  unfold execGroupEditCompletion
  split
  · split
    · refine .next ((storeReady_keepsEnds _).andThen ((reportWritten_keepsEnds _ _).andThen ?_))
      exact (clearMarks_keepsEnds _ _).andThen (setStore_keepsEnds s _ rfl)
    · exact .next (.refl s)
  · exact .next (.refl s)

end

/-! ## Replies -/

theorem answered_keepsEnds (i : Slot) (s : State) : KeepsEnds P s (answered i s) :=
  .of_ite ((modPost_keepsEnds s i _).trans (reportBoth_keepsEnds _ _)) (modPost_keepsEnds s i _)

theorem countMismatch_keepsEnds (e : EndId) (i : Slot) (n : Nat) (s : State) : KeepsEnds P s (countMismatch e i n s) := by
  unfold countMismatch
  split
  · exact .of_ite (modCounters_keepsEnds s e _) (.refl s)
  · exact .refl s

theorem checkIdentity_keepsEnds (e : EndId) (i : Slot) (n : Nat) (s : State) : KeepsEnds P s (checkIdentity e i n s) := by
  unfold checkIdentity
  split
  · refine (countMismatch_keepsEnds e i n s).trans (.of_ite (.refl _) ?_)
    exact (reportBoth_keepsEnds _ _).andThen (modPost_keepsEnds _ i _)
  · exact .refl s

theorem checkSensors_keepsEnds (i : Slot) (v : Sensors) (s : State) : KeepsEnds P s (checkSensors i v s) :=
  .of_ite (.refl s) ((reportBoth_keepsEnds _ _).andThen (modPost_keepsEnds s i _))

theorem connectDone_keepsEnds (i : Slot) (c : Chan) (s : State) : KeepsEnds P s (connectDone i c s) := by
  unfold connectDone
  split
  · split
    · exact .of_ite ((modCall_keepsEnds s _ _).trans (.soft (Soft.reportParties (ev := false) (on := true) _ _ _ _))) (.refl s)
    · exact .refl s
  · exact .refl s

theorem ringRefused_keepsEnds (i : Slot) (s : State) : KeepsEnds P s (ringRefused i s) := by
  unfold ringRefused
  split
  · exact .of_ite ((takeStamp_keepsEnds s).trans (.soft (Soft.answeredByPost (ev := false) (on := true) _ _ _))) (.refl s)
  · exact .refl s

theorem releaseDone_keepsEnds (i : Slot) (s : State) : KeepsEnds P s (releaseDone i s) := by
  unfold releaseDone
  split
  · exact .of_ite (.soft (Soft.freeRecord (ev := false) _ s)) (.refl s)
  · exact .refl s

theorem commandResult_keepsEnds (i : Slot) (c : Command) (r : CommandResult) (s : State) : KeepsEnds P s (commandResult i c r s) := by
  cases c with
  | connect c => exact connectDone_keepsEnds i c s
  | ring => exact .of_ite (ringRefused_keepsEnds i s) (.refl s)
  | release => exact releaseDone_keepsEnds i s
  | announce c => exact .soft (Soft.announceResult (ev := false) (on := true) i c r s)
  | lampOn | lampOff | announceEnd => exact .refl s

theorem passResult_keepsEnds (e : EndId) (i : Slot) (c : Option (Command × Nat)) (r : Option CommandResult) (s : State) :
    KeepsEnds P s (passResult e i c r s) := by
  unfold passResult
  split
  · exact (commandResult_keepsEnds _ _ _ _).andThen (modEnd_core_keepsEnds s e _ fun _ => rfl)
  · exact .refl s

theorem passCallEvent_keepsEnds (i : Slot) (b : Button) (s : State) : KeepsEnds P s (passCallEvent i b s) :=
  ((takeStamp_keepsEnds s).trans (.soft (Soft.callEvent i b _ _ (ev := false)))).trans
    (.soft (Soft.abortTarget (ev := false) (on := true) i _ _))

theorem hookAndButton_keepsEnds (i : Slot) (hook : Hook) (b : Button) (s : State) : KeepsEnds P s (hookAndButton i hook b s) := by
  unfold hookAndButton
  dsimp only
  split
  · exact modPost_keepsEnds s i _
  · exact .andThen (.soft (Soft.onHook (ev := false) i _)) (modPost_keepsEnds s i _)
  · exact (passCallEvent_keepsEnds _ _ _).andThen (modPost_keepsEnds s i _)
  · exact .of_ite (.refl s) ((passCallEvent_keepsEnds _ _ _).andThen (modPost_keepsEnds s i _))

theorem releaseSuppression_keepsEnds (e : EndId) (i : Slot) (s : State) : KeepsEnds P s (releaseSuppression e i s) :=
  modEnd_core_keepsEnds s e _ fun _ => rfl

theorem goodPoll_keepsEnds (e : EndId) (i : Slot) (c : Option (Command × Nat)) (r : Reply) (s : State) :
    KeepsEnds P s (goodPoll e i c r s) :=
  (hookAndButton_keepsEnds _ _ _ _).andThen ((passResult_keepsEnds _ _ _ _ _).andThen ((checkSensors_keepsEnds _ _ _).andThen
    ((checkIdentity_keepsEnds _ _ _ _).andThen ((releaseSuppression_keepsEnds _ _ _).andThen (answered_keepsEnds i s)))))

theorem goodTest_keepsEnds (e : EndId) (i : Slot) (r : Reply) (s : State) : KeepsEnds P s (goodTest e i r s) :=
  (hookAndButton_keepsEnds _ _ _ _).andThen ((checkSensors_keepsEnds _ _ _).andThen ((checkIdentity_keepsEnds _ _ _ _).andThen
    (releaseSuppression_keepsEnds e i s)))

theorem postFails_keepsEnds (i : Slot) (s : State) : KeepsEnds P s (postFails i s) := by
  rw [postFails_eq]
  have row : KeepsEnds P s (failedRow i s) := .outside rfl rfl id
  exact .of_ite (row.trans (reportBoth_keepsEnds _ _)) row

theorem movedPoll_keepsEnds (e : EndId) (i : Slot) (o : PollOutcome) (s : State) : KeepsEnds P s (movedPoll e i o s) := by
  cases o with
  | good r => exact countMismatch_keepsEnds _ _ _ s
  | corrupt | silent => exact .refl s

theorem testCounted_keepsEnds (e : EndId) (counted : Bool) (o : EchoOutcome) (s : State) : KeepsEnds P s (testCounted e counted o s) := by
  have running (f : Burst → Burst) : KeepsEnds P s (modRunning e f s) := modBurst_keepsEnds s e _
  refine .of_ite ((running (countEcho o)).trans ?_) (running _)
  unfold endIfDone
  split
  · exact .of_ite (.soft (Soft.endBurst (ev := false) (on := true) e _ _)) (.refl _)
  · exact .refl _
  · exact .refl _

theorem execTestFrameReply_ends (e : EndId) (l : List Byte) (s : State) : OutcomeEnds P s (execTestFrameReply e l s) := by
  unfold execTestFrameReply
  split
  · have counted (c : Bool) (o : EchoOutcome) : KeepsEnds P s (testCounted e c o (endTransaction e s)) :=
      (modPort_keepsEnds s e _).trans (testCounted_keepsEnds e c o _)
    refine .next (KeepsEnds.andFinish ?_)
    split
    · exact (counted _ _).trans (goodTest_keepsEnds _ _ _ _)
    · exact counted _ _
  · exact .next (.refl s)

theorem execTestFrameWindowExpiry_ends (e : EndId) (s : State) : OutcomeEnds P s (execTestFrameWindowExpiry e s) := by
  unfold execTestFrameWindowExpiry
  split
  · exact .next ((modPort_keepsEnds s e _).trans (testCounted_keepsEnds e _ _ _)).andFinish
  · exact .next (.refl s)

theorem execLoopCurrentRestored_ends (e : EndId) (s : State) : OutcomeEnds P s (execLoopCurrentRestored e s) := .next (modPort_keepsEnds s e _)

/-! ## The links -/

theorem linkUp_keepsEnds (x : LinkId) (s : State) : KeepsEnds P s (linkUp x s) := by
  have up : KeepsEnds P s (startSilence x (s.modLink x fun l => { l with up := true, good := 0, badCheck := 0, discarded := 0, firstUp := false })) :=
    .trans (.modLink s x _) (.modLink _ x _)
  refine (KeepsEnds.soft (Soft.offerAllTo (ev := false) (on := true) x _)).andThen (up.trans (.of_ite ?_ ?_))
  · exact .modLink _ x _
  · exact .modLink _ x _

theorem takeFrame_keepsEnds (x : LinkId) (f : Frame) (s : State) : KeepsEnds P s (takeFrame x f s) := by
  have silence : KeepsEnds P s (startSilence x s) := .modLink s x _
  exact silence.trans (.of_ite (.refl _) (.of_ite (.modLink _ x _) (.modLink _ x _)))

theorem linkDown_keepsEnds (x : LinkId) (s : State) : KeepsEnds P s (linkDown x s) := by
  have closed : KeepsEnds P s (closeLink x s) := .modLink s x _
  have groups (t : State) : KeepsEnds P t (forEach (allFin 16) (sourceLost x) t) :=
    .forEach (fun g u => .soft (Soft.sourceLost (ev := false) (on := true) x g u)) _ t
  have freed (t : State) : KeepsEnds P t (freeTrunks x t) := .modLink t x _
  exact (freed _).andThen ((groups _).andThen (.andThen (.soft (Soft.callsLoseLink (ev := false) x _)) closed))

section
variable (x : LinkId) (s : State)

theorem execFrameReceived_ends (l : List Byte) : OutcomeEnds P s (execFrameReceived x l s) := by
  unfold execFrameReceived
  split
  · split
    · exact .next (.trans (.of_ite (.refl s) (linkUp_keepsEnds x s)) (takeFrame_keepsEnds x _ _))
    · exact .next (.modLink s x _)
  · exact .next (.refl s)

theorem execLossOfFraming_ends : OutcomeEnds P s (execLossOfFraming x s) := by
  unfold execLossOfFraming
  split
  · exact .next (linkDown_keepsEnds x s).andFinish
  · exact .next (.refl s)

theorem execSilenceTimerExpiry_ends : OutcomeEnds P s (execSilenceTimerExpiry x s) := by
  unfold execSilenceTimerExpiry
  split
  · split
    · exact .next ((reach_keepsEnds s _).trans (linkDown_keepsEnds x _)).andFinish
    · exact .next (.refl s)
  · exact .next (.refl s)

theorem execReportFrameSent_ends : OutcomeEnds P s (execReportFrameSent x s) := by
  unfold execReportFrameSent
  split
  · split <;> exact .next (.modLink s x _)
  · exact .next (.refl s)

theorem execBadRequestFrame_ends (tag typ : Byte) : OutcomeEnds P s (execBadRequestFrame x tag typ s) := by
  unfold execBadRequestFrame
  split
  · exact .next (.trans (t := popIntake x s) (.modLink s x _) (.modLink _ x _))
  · exact .next (.refl s)

end

end Sys2Proof.Machine
end

