-- ==== Sys2Proof/Proofs/EndSteps.lean ====
section
/-! PROOF. The commands that are about ends: each sets the records of its ends and goes on in small updates, and leaves its ends consistent.
O16 and O18. -/

namespace Sys2Proof.Machine

variable {P : EndId → Prop}

/-! ## Entry to TESTING (R57) -/

theorem EndIsOk.goneTesting {s : State} {e : EndId} (h : EndIsOk s e) (hst : (s.endRec e).state ≠ .unfitted) (cause : EndCause) :
    EndIsOk (s.modEnd e (EndRecord.goneTesting cause)) e := by
  have running : starting (s.modEnd e (EndRecord.goneTesting cause)) = false := h.not_starting hst
  unfold EndIsOk
  rw [running, modEnd_endRec_same]
  simp [EndOk, EndRecord.goneTesting, holdsChannels]

theorem goTesting_keepsEnds {s : State} {e : EndId} (he : P e) (hst : (s.endRec e).state ≠ .unfitted) (cause : EndCause) :
    KeepsEnds P s (goTesting e cause s) :=
  (KeepsEnds.modEnd s _ he fun h => h.goneTesting hst cause).trans (.soft (goTesting_soft (ev := false) (on := true) e cause s))

/-! ## An end goes OFF (R63) -/

/-- The record of an end that goes OFF. -/
def EndRecord.goneOff (r : EndRecord) : EndRecord :=
  { r with state := .off, reach := .none, suppressed := none, busyCount := 0, retryWait := none, retest := none, measurement := .none
           previous := some r.state, cause := some .serviceOff }

/-- The state once an end that goes OFF has stopped serving (R82). -/
def stoppedOff (e : EndId) (s : State) : State := stopEnd e (endBurst e (.aborted .endOff) (s.modEnd e EndRecord.goneOff))

theorem endOff_eq (e : EndId) (s : State) : endOff e s = isolationAlarms s (reportEndState e (assignSegment e.seg (stoppedOff e s))) := by
  simp only [endOff, abortEnd, clearTimers, changeEnd, reduceCtorEq, false_and, if_false, modEnd_modEnd]
  rfl

theorem stoppedOff_soft {ev on : Bool} (e : EndId) (s : State) : Soft ev on (s.modEnd e EndRecord.goneOff) (stoppedOff e s) :=
  .andThen (.stopEnd e _) (.endBurst e _ _)

theorem endOff_soft {ev : Bool} (e : EndId) (s : State) : Soft ev false (stoppedOff e s) (endOff e s) := by
  rw [endOff_eq]
  exact .andThen (.isolationAlarms _ _) (.andThen (.reportEndState e _) (.assignSegment _ _))

theorem endOff_core (e : EndId) (s : State) : ((endOff e s).endRec e).core = (s.endRec e).goneOff.core := by
  rw [(endOff_soft (ev := false) e s).frame.core, (stoppedOff_soft (ev := false) (on := true) e s).frame.core, modEnd_endRec_same]

theorem endOff_chan (e : EndId) (s : State) : (endOff e s).chan e = .powerOn := by
  refine (endOff_soft (ev := false) e s).chan_powerOn ?_ (stopEnd_chan e _)
  rw [(stoppedOff_soft (ev := false) (on := true) e s).state, modEnd_endRec_same]
  rfl

theorem endOff_leaves (e : EndId) (s : State) : LeavesEnds (· = e) s (endOff e s) :=
  .andThen (.soft (endOff_soft (ev := false) e s)) (.andThen (.soft (stoppedOff_soft (ev := false) (on := true) e s)) (.modEnd s _ rfl))

theorem EndRecord.goneOff_ok (r : EndRecord) : EndOk false r.goneOff .powerOn := by simp [EndOk, EndRecord.goneOff, holdsChannels]

theorem endOff_ok {s : State} {e : EndId} (h : EndIsOk s e) (hst : (s.endRec e).state ≠ .unfitted) : EndIsOk (endOff e s) e := by
  have running : starting (endOff e s) = false :=
    Bool.eq_false_iff.mpr fun hs => Bool.eq_false_iff.mp (h.not_starting hst) ((endOff_leaves e s).starting hs)
  refine .of_core running (endOff_core e s) ?_
  rw [endOff_chan]
  exact EndRecord.goneOff_ok _

theorem endOff_keepsEnds {s : State} {e : EndId} (he : P e) (hst : (s.endRec e).state ≠ .unfitted) : KeepsEnds P s (endOff e s) := by
  refine KeepsEnds.mono (.of_leaves_others (endOff_leaves e s) fun h d hd => ?_) fun d hd => ?_
  · rw [hd]
    exact endOff_ok (h e) hst
  · rwa [hd]

/-! ## The requests on ends (R62 to R64) -/

/-- An answer leaves the state of an end, as it leaves its record. -/
theorem AnswersAside.state {answer : Responder} (ha : AnswersAside answer) (r : Result) (b : ResponseBody) (s : State) (e : EndId) :
    ((answer r b s).endRec e).state = (s.endRec e).state :=
  (congrArg EndRecord.state ((ha (fun _ => False) r b s).core e id) :)

section
variable {code : Nat} {answer : Responder} (ha : AnswersAside answer) (hP : ∀ e, endOf code = some e → P e) (s : State)
include ha hP

theorem endService_keepsEnds (setting : Nat) : KeepsEnds P s (endService code setting answer s) := by
  refine withEnd_ends ha fun e he => ?_
  have same := ha.state .ok .empty s e
  have off (hst : (s.endRec e).state ≠ .unfitted) : KeepsEnds P s (finish (endOff e (answer .ok .empty s))) :=
    ((ha P _ _ s).trans (endOff_keepsEnds (hP e he) (by rwa [same]))).andFinish
  have on (hst : (s.endRec e).state ≠ .unfitted) : KeepsEnds P s (finish (goTesting e .serviceOn (answer .ok .empty s))) :=
    ((ha P _ _ s).trans (goTesting_keepsEnds (hP e he) (by rwa [same]) .serviceOn)).andFinish
  cases flagOf setting with
  | none => exact ha P _ _ s
  | some set =>
    cases hst : (s.endRec e).state <;> cases set
    case unfitted.false | unfitted.true | serving.true | testing.true | faulted.true | off.false => exact ha P _ _ s
    case serving.false | testing.false | faulted.false => exact off (by simp [hst])
    case off.true => exact on (by simp [hst])

theorem lineTest_keepsEnds : KeepsEnds P s (withEnd code answer s fun e =>
    match (s.endRec e).state with
    | .faulted | .off => finish (goTesting e .lineTest (answer .ok .empty s))
    | .serving | .testing | .unfitted => answer .wrongEndState .empty s) := by
  refine withEnd_ends ha fun e he => ?_
  have same := ha.state .ok .empty s e
  have on (hst : (s.endRec e).state ≠ .unfitted) : KeepsEnds P s (finish (goTesting e .lineTest (answer .ok .empty s))) :=
    ((ha P _ _ s).trans (goTesting_keepsEnds (hP e he) (by rwa [same]) .lineTest)).andFinish
  cases hst : (s.endRec e).state
  case serving | testing | unfitted => exact ha P _ _ s
  case faulted | off => exact on (by simp [hst])

end

section
variable (x : LinkId) (tag : Byte) (code : Nat) (s : State) (hP : ∀ e, endOf code = some e → P e)
include hP

theorem execEndServiceOff_ends (setting : Nat) : OutcomeEnds P s (execEndServiceOff x tag code setting s) :=
  requested_ends s fun _ ha t => endService_keepsEnds ha hP t setting

theorem execEndServiceOn_ends : OutcomeEnds P s (execEndServiceOn x tag code s) :=
  requested_ends s fun _ ha t => endService_keepsEnds ha hP t 1

theorem execLineTest_ends : OutcomeEnds P s (execLineTest x tag code s) := requested_ends s fun _ ha t => lineTest_keepsEnds ha hP t

end

/-! ## Suspect ends (R49, R50) -/

section
variable {e : EndId} (he : P e) (s : State)
include he

theorem suspectTest_keepsEnds (i : Slot) : KeepsEnds P s (suspectTest e i s) := by
  unfold suspectTest
  split
  · rename_i h
    obtain ⟨serving, -⟩ := h
    exact goTesting_keepsEnds he (by simp [serving]) _
  · exact .refl s

theorem failedPoll_keepsEnds (i : Slot) : KeepsEnds P s (failedPoll e i s) := (postFails_keepsEnds i s).trans (suspectTest_keepsEnds he _ i)

theorem pollEnds_keepsEnds (i : Slot) (hop : Nat) (c : Option (Command × Nat)) (o : PollOutcome) :
    KeepsEnds P s (pollEnds e i hop c o s) := by
  refine KeepsEnds.andFinish (.trans (t := pollClosed e o s) (.outside rfl rfl id) (.of_ite ?_ (movedPoll_keepsEnds e i o _)))
  cases o with
  | good r => exact goodPoll_keepsEnds e i c r _
  | corrupt | silent => exact failedPoll_keepsEnds he _ i

theorem execPollReply_ends (l : List Byte) : OutcomeEnds P s (execPollReply e l s) := by
  unfold execPollReply
  split
  · exact .next (pollEnds_keepsEnds he s _ _ _ _)
  · exact .next (.refl s)

theorem execPollWindowExpiry_ends : OutcomeEnds P s (execPollWindowExpiry e s) := by
  unfold execPollWindowExpiry
  split
  · exact .next (pollEnds_keepsEnds he s _ _ _ _)
  · exact .next (.refl s)

theorem execLoopLossEvent_ends : OutcomeEnds P s (execLoopLossEvent e s) := by
  by_cases hp : s.powered = true
  · rw [show execLoopLossEvent e s = _ from execLoopLossEvent_of_powered hp e]
    refine .next ?_
    split
    · rename_i h
      obtain ⟨active, -⟩ := h
      refine ((modPort_keepsEnds s e _).trans (goTesting_keepsEnds he ?_ _)).andFinish
      rw [modPort_endRec, (senseActive_iff s e).mp active]
      nofun
    · exact modPort_keepsEnds s e _
  · rw [execLoopLossEvent, if_neg hp]
    exact .next (modPort_keepsEnds s e _)

end

end Sys2Proof.Machine
end

