-- ==== Sys2Proof/Proofs/EndMeasurements.lean ====
section
/-! PROOF. Measurements and the timers of an end: what a result gives the end's record, and that the end stays consistent.
O16, O18 and O59. -/

namespace Sys2Proof.Machine

variable {P : EndId → Prop}

/-! ## The values of a result (R56, R58) -/

/-- A result makes the end SERVING FULL, FAULTED with reach NONE, or SERVING LIMIT. -/
theorem resultState_cases (r : SegRecord) (side : Side) (kind : MeasKind) (delay : Nat) :
    resultState r side kind delay = (.serving, .full) ∨ resultState r side kind delay = (.faulted, .none)
      ∨ ∃ x, resultState r side kind delay = (.serving, .limit x) := by
  have byDistance (place : FaultPlace) (v : EndState × EndReach)
      (hv : v = match (motive := FaultPlace → EndState × EndReach) place with
        | .beyond => (.serving, .full)
        | .inFeeder => (.faulted, .none)
        | .inside x => if limitReaches r side x then (.serving, .limit x) else (.faulted, .none)) :
      v = (.serving, .full) ∨ v = (.faulted, .none) ∨ ∃ x, v = (.serving, .limit x) := by
    subst hv
    cases place with
    | inFeeder | beyond => simp
    | inside x => dsimp only; split <;> simp
  cases kind with
  | good => exact .inl rfl
  | crossed | unknown | busy => exact .inr (.inl rfl)
  | openPair | short | mismatch => exact byDistance _ _ rfl

/-- The record of an end that takes a result: its state and reach, its fault record and its retest timer. -/
def EndRecord.withResult (st : EndState × EndReach) (fault : FaultRecord) (retest : Option Nat) (r : EndRecord) : EndRecord :=
  { r with state := st.1, reach := st.2, busyCount := 0, measurement := .none, fault := some fault, retest := retest
           previous := some r.state, cause := some .result }

theorem retestAfter_congr {s t : State} (hn : t.now = s.now) (hs : t.store = s.store) : retestAfter t = retestAfter s := by
  funext st
  simp only [retestAfter, State.after, hn, hs]

/-- A change of an end's state leaves the Timebase, the store and the links. -/
theorem changeEnd_outside (e : EndId) (st : EndState) (r : EndReach) (c : EndCause) (s : State) :
    (changeEnd e st r c s).now = s.now ∧ (changeEnd e st r c s).store = s.store ∧ (changeEnd e st r c s).link = s.link := by
  unfold changeEnd
  dsimp only
  split <;> exact ⟨rfl, rfl, funext fun x => by cases x <;> rfl⟩

theorem changeEnd_endRec_ne {e d : EndId} (h : e ≠ d) (st : EndState) (r : EndReach) (c : EndCause) (s : State) :
    (changeEnd e st r c s).endRec d = s.endRec d := by
  unfold changeEnd
  dsimp only
  split <;> simp [h]

theorem changeEnd_chan (e d : EndId) (st : EndState) (r : EndReach) (c : EndCause) (s : State) :
    (changeEnd e st r c s).chan d = s.chan d := by
  unfold changeEnd
  dsimp only
  split <;> rfl

section
variable (e : EndId) (kind : MeasKind) (delay : Nat) (coupled : Option SegId) (s : State)

theorem takeRecord_core : ((takeRecord e kind delay coupled s).endRec e).core =
    ((s.endRec e).withResult (resultState (s.segment e.seg) e.side kind delay) (faultRecordOf (s.segment e.seg) e.side kind delay coupled)
      (retestAfter s (resultState (s.segment e.seg) e.side kind delay))).core := by
  obtain ⟨now, store, -⟩ := changeEnd_outside e (resultState (s.segment e.seg) e.side kind delay).1
    (resultState (s.segment e.seg) e.side kind delay).2 .result s
  simp [takeRecord, changeEnd_endRec_same, EndRecord.withResult, EndRecord.core, retestAfter_congr now store]

theorem takeRecord_suppressed : ((takeRecord e kind delay coupled s).endRec e).suppressed = resultSuppressed s e kind := by
  simp [takeRecord]

theorem takeRecord_leaves : LeavesEnds (· = e) s (takeRecord e kind delay coupled s) :=
  .trans (.changeEnd (P := (· = e)) rfl _ _ _ s) (.modEnd _ _ rfl)

/-- The end after its result, where one that went FAULTED has stopped serving (R60, R82). -/
def resultStopped : State :=
  if ((takeRecord e kind delay coupled s).endRec e).state = .faulted then stopEnd e (takeRecord e kind delay coupled s)
  else takeRecord e kind delay coupled s

theorem takeResult_eq : takeResult e kind delay coupled s =
    isolationAlarms s (reportEndState e (assignSegment e.seg (resultStopped e kind delay coupled s))) := rfl

theorem resultStopped_soft {ev on : Bool} : Soft ev on (takeRecord e kind delay coupled s) (resultStopped e kind delay coupled s) :=
  .of_ite (.stopEnd e _) (.refl _)

theorem takeResult_leaves : LeavesEnds (· = e) s (takeResult e kind delay coupled s) :=
  (takeRecord_leaves e kind delay coupled s).trans (.soft (takeResult_soft e kind delay coupled s))

theorem takeResult_core : ((takeResult e kind delay coupled s).endRec e).core =
    ((s.endRec e).withResult (resultState (s.segment e.seg) e.side kind delay) (faultRecordOf (s.segment e.seg) e.side kind delay coupled)
      (retestAfter s (resultState (s.segment e.seg) e.side kind delay))).core :=
  ((takeResult_soft e kind delay coupled s).frame.core e).trans (takeRecord_core e kind delay coupled s)

theorem takeRecord_state : ((takeRecord e kind delay coupled s).endRec e).state = (resultState (s.segment e.seg) e.side kind delay).1 := by
  rw [← EndRecord.core_state, takeRecord_core]
  rfl

end

section
variable {e : EndId} {kind : MeasKind} {delay : Nat} {coupled : Option SegId} {s : State}

/-- An end that a result makes FAULTED holds no channel (R82). -/
theorem takeResult_chan (hst : (resultState (s.segment e.seg) e.side kind delay).1 = .faulted) :
    (takeResult e kind delay coupled s).chan e = .powerOn := by
  have stopped : (resultStopped e kind delay coupled s).chan e = .powerOn := by
    rw [resultStopped, if_pos ((takeRecord_state e kind delay coupled s).trans hst), stopEnd_chan]
  have soft : Soft false false (resultStopped e kind delay coupled s) (takeResult e kind delay coupled s) :=
    .andThen (.isolationAlarms _ _) (.andThen (.reportEndState _ _) (.assignSegment _ _))
  refine soft.chan_powerOn ?_ stopped
  rw [(resultStopped_soft (ev := false) (on := true) e kind delay coupled s).state, takeRecord_state, hst]
  rfl

/-- An end that was TESTING with a measurement is consistent with its result. -/
theorem EndRecord.withResult_ok {r : EndRecord} {c c' : ChannelEnd} {seg : SegRecord} {side : Side} (h : EndOk false r c)
    (ht : r.state = .testing) (hm : r.measurement = .running) (fault : FaultRecord)
    (hc : (resultState seg side kind delay).1 = .faulted → c' = .powerOn) :
    EndOk false (r.withResult (resultState seg side kind delay) fault (retestAfter s (resultState seg side kind delay))) c' := by
  obtain ⟨-, -, -, -, waits, -⟩ := h
  have wait : r.retryWait = none := by simpa [hm] using waits ht
  rcases resultState_cases seg side kind delay with hst | hst | ⟨x, hst⟩ <;> rw [hst] at hc ⊢
  · simp [EndOk, EndRecord.withResult, holdsChannels, wait, retestAfter]
  · simp [EndOk, EndRecord.withResult, holdsChannels, wait, retestAfter, hc rfl]
  · simp [EndOk, EndRecord.withResult, holdsChannels, wait, retestAfter]

theorem takeResult_ok (h : EndIsOk s e) (ht : (s.endRec e).state = .testing) (hm : (s.endRec e).measurement = .running) :
    EndIsOk (takeResult e kind delay coupled s) e := by
  have was : starting s = false := h.not_starting (by simp [ht])
  have running : starting (takeResult e kind delay coupled s) = false :=
    Bool.eq_false_iff.mpr fun hs => Bool.eq_false_iff.mp was ((takeResult_leaves e kind delay coupled s).starting hs)
  rw [EndIsOk, was] at h
  exact .of_core running (takeResult_core e kind delay coupled s) (EndRecord.withResult_ok h ht hm _ takeResult_chan)

/-! ## The commands (R55, R58, R59, R61) -/

section
variable (he : P e)
include he

theorem takeResult_keepsEnds (ht : (s.endRec e).state = .testing) (hm : (s.endRec e).measurement = .running) :
    KeepsEnds P s (takeResult e kind delay coupled s) := by
  refine KeepsEnds.mono (.of_leaves_others (takeResult_leaves e kind delay coupled s) fun h d hd => ?_) fun d hd => ?_
  · rw [hd]
    exact takeResult_ok (h e) ht hm
  · rwa [hd]

theorem busyRetry_keepsEnds (hm : (s.endRec e).state = .testing) (hb : (s.endRec e).busyCount < Config.busyRetries) :
    KeepsEnds P s (busyRetry e s) := by
  refine .modEnd s _ he fun h => ?_
  obtain ⟨start, free, reach, -, -, -, retest⟩ := h
  rw [EndIsOk, modEnd_endRec_same]
  refine ⟨start, free, reach, fun hn => absurd hm hn, fun _ => ?_, hb, retest⟩
  simp

theorem measurementBegins_keepsEnds (ht : (s.endRec e).state = .testing) (hm : (s.endRec e).measurement = .waiting) :
    KeepsEnds P s (s.modEnd e fun r => { r with measurement := .running }) := by
  refine .modEnd s _ he fun h => ?_
  obtain ⟨start, free, reach, -, waits, busy, retest⟩ := h
  rw [EndIsOk, modEnd_endRec_same]
  refine ⟨start, free, reach, fun hn => absurd ht hn, fun _ => ?_, busy, retest⟩
  simpa [hm] using waits ht

/-- The retry wait runs in TESTING alone, so its expiry leaves the end consistent. -/
theorem retryWaitExpires_keepsEnds (hw : (s.endRec e).retryWait ≠ none) :
    KeepsEnds P s (s.modEnd e fun r => { r with retryWait := none, measurement := .waiting }) := by
  refine .modEnd s _ he fun h => ?_
  have ht := h.testing_of_retryWait hw
  obtain ⟨start, free, reach, -, -, busy, retest⟩ := h
  rw [EndIsOk, modEnd_endRec_same]
  exact ⟨start, free, reach, fun hn => absurd ht hn, fun _ => by simp, busy, retest⟩

theorem retestStarts_keepsEnds (hw : (s.endRec e).retest.isSome = true) (n : Nat) :
    KeepsEnds P s (s.modEnd e fun r => { r with retest := some n }) := by
  refine .modEnd s _ he fun h => ?_
  obtain ⟨start, free, reach, rest, waits, busy, retest⟩ := h
  rw [EndIsOk, modEnd_endRec_same]
  exact ⟨start, free, reach, rest, waits, busy, iff_of_true rfl (retest.mp hw)⟩

theorem retestExpires_keepsEnds (hw : (s.endRec e).retest.isSome = true) : KeepsEnds P s (retestExpires e s) := by
  unfold retestExpires
  cases hst : (s.endRec e).state
  case unfitted | testing | off => exact .refl s
  case faulted => exact goTesting_keepsEnds he (by simp [hst]) _
  case serving => exact .of_ite (retestStarts_keepsEnds he hw _) (goTesting_keepsEnds he (by simp [hst]) _)

end
end

section
variable {e : EndId} (he : P e) (s : State)
include he

theorem execMeasurementBegin_ends : OutcomeEnds P s (execMeasurementBegin e s) := by
  unfold execMeasurementBegin
  split
  · rename_i h
    simp only [mayMeasure, Bool.and_eq_true, decide_eq_true_eq] at h
    obtain ⟨⟨-, ⟨⟨⟨⟨testing, waiting⟩, -⟩, -⟩, -⟩⟩, -⟩ := h
    exact .next ((measurementBegins_keepsEnds he testing waiting).trans (modCounters_keepsEnds _ e _)).andFinish
  · exact .next (.refl s)

theorem execMeasurementResult_ends (kind : MeasKind) (delay : Nat) (coupled : Option SegId) :
    OutcomeEnds P s (execMeasurementResult e kind delay coupled s) := by
  unfold execMeasurementResult
  split
  · rename_i h
    simp only [Bool.and_eq_true, decide_eq_true_eq] at h
    obtain ⟨⟨⟨-, testing⟩, running⟩, -⟩ := h
    split
    · rename_i busy
      exact .next (busyRetry_keepsEnds he testing busy.2).andFinish
    · exact .next (takeResult_keepsEnds he testing running).andFinish
  · exact .next (.refl s)

theorem execRetryWaitExpiry_ends : OutcomeEnds P s (execRetryWaitExpiry e s) := by
  unfold execRetryWaitExpiry
  split
  · rename_i n _ hw
    have waits : ((s.reach n).endRec e).retryWait ≠ none := fun none => nomatch none.symm.trans hw
    exact .next ((reach_keepsEnds s n).trans (retryWaitExpires_keepsEnds he waits)).andFinish
  · exact .next (.refl s)

theorem execRetestTimerExpiry_ends : OutcomeEnds P s (execRetestTimerExpiry e s) := by
  unfold execRetestTimerExpiry
  split
  · rename_i n _ hw
    have runs : ((s.reach n).endRec e).retest.isSome = true := (congrArg Option.isSome hw :)
    exact .next ((reach_keepsEnds s n).trans (retestExpires_keepsEnds he runs)).andFinish
  · exact .next (.refl s)

end

end Sys2Proof.Machine
end

