-- ==== Sys2Proof/Proofs/EndCompletions.lean ====
section
/-! PROOF. The completions that rewrite or erase the ends, the end of the load and power. O16 and O18. -/

namespace Sys2Proof.Machine

variable {P : EndId → Prop}

/-! ## A segment write (R8) -/

section
variable (fitted : Bool) (e : EndId) (s : State)

theorem rewriteEnd_starting : starting (rewriteEnd fitted e s) = starting s := by rw [starting, (rewriteEnd_reporting fitted e s).store]; rfl

theorem clearedEnd_leaves : LeavesEnds (· = e) s (clearedEnd fitted e s) := by
  refine ⟨fun d hd => by rw [clearedEnd_endRec_ne hd], fun d _ _ hc => by rwa [clearedEnd_chan], fun hs => ?_⟩
  rwa [starting, (Reporting.clearedEnd fitted e s).store] at hs

theorem rewriteEnd_leaves : LeavesEnds (· = e) s (rewriteEnd fitted e s) :=
  (clearedEnd_leaves fitted e s).trans (.soft (rewriteEnd_soft (ev := false) (on := true) fitted e s))

end

/-- A rewritten end holds no channel where its new state allows none. -/
theorem rewriteEnd_chan {fitted : Bool} {e : EndId} {s : State} (h : holdsChannels (s.endRec e).state = false → s.chan e = .powerOn)
    (hn : holdsChannels (segmentEnd fitted (s.endRec e).state).1 = false) : (rewriteEnd fitted e s).chan e = .powerOn := by
  cases fitted
  case false => exact rewriteEnd_chan_of_unfitted e s
  case true =>
    have soft := rewriteEnd_soft (ev := false) (on := true) true e s
    have off : (s.endRec e).state = .off := by
      cases hst : (s.endRec e).state <;> simp [segmentEnd, holdsChannels, hst] at hn
      rfl
    refine soft.chan_powerOn ?_ (by rw [clearedEnd_chan]; exact h (by simp [off, holdsChannels]))
    rw [clearedEnd, clearEnd, off]
    simp [segmentEnd, clearTimers, changeEnd, holdsChannels]

/-- What a segment write makes of an end is consistent. -/
theorem Rewritten.ok {fitted : Bool} {r r' : EndRecord} {c : ChannelEnd} (h : Rewritten fitted r r')
    (hc : holdsChannels (segmentEnd fitted r.state).1 = false → c = .powerOn) : EndOk false r' c := by
  obtain ⟨state, reach, -, busy, wait, retest, measurement⟩ := h
  rw [← state] at hc
  cases fitted
  case false => simp_all [EndOk, segmentEnd, holdsChannels]
  case true =>
    cases hst : r.state <;> simp_all [EndOk, segmentEnd, holdsChannels]

theorem rewriteEnd_ok {fitted : Bool} {e : EndId} {s : State} (hs : starting s = false) (h : EndIsOk s e) :
    EndIsOk (rewriteEnd fitted e s) e := by
  obtain ⟨-, free, -⟩ := h
  have sets : Rewritten fitted (s.endRec e) ((rewriteEnd fitted e s).endRec e) :=
    (rewriteEnd_sets (fitted := fitted) (r := s.endRec e) rfl fun hu => (free (by rw [hu]; rfl)).1).rewritten
  rw [EndIsOk, rewriteEnd_starting, hs]
  exact sets.ok (rewriteEnd_chan fun hh => (free hh).2)

theorem rewriteEnd_keepsEnds (fitted : Bool) {e : EndId} {s : State} (he : P e) (hs : starting s = false) :
    KeepsEnds P s (rewriteEnd fitted e s) := by
  refine KeepsEnds.mono (.of_leaves_others (rewriteEnd_leaves fitted e s) fun h d hd => ?_) fun d hd => ?_
  · rw [hd]
    exact rewriteEnd_ok hs (h e)
  · rwa [hd]

theorem segmentWritten_keepsEnds {seg : SegId} {s : State} (hP : ∀ e, e.seg = seg → P e) (hs : starting s = false) :
    KeepsEnds P s (segmentWritten seg s) := by
  have first : KeepsEnds P s (rewriteEnd (s.segment seg).fitted ⟨seg, .a⟩ s) := rewriteEnd_keepsEnds _ (hP _ rfl) hs
  have second : KeepsEnds P _ (endsRewritten (s.segment seg).fitted seg s) :=
    rewriteEnd_keepsEnds _ (e := ⟨seg, .b⟩) (hP _ rfl) ((rewriteEnd_starting _ _ s).trans hs)
  exact (first.trans second).trans (.soft (segmentWritten_soft seg s))

/-- The Store Controller is not STARTING while a write is in flight. -/
theorem reportWritten_starting (o : StoreOperation) (s : State) : starting (reportWritten o s) = starting s := by
  rw [starting, (reportWritten_unwritten o s).store]
  rfl

theorem execSegmentWriteCompletion_ends {s : State} (hP : ∀ e o r, inFlight s = some o → o.write = .segment e.seg r → P e) :
    OutcomeEnds P s (execSegmentWriteCompletion s) := by
  unfold execSegmentWriteCompletion
  split
  · rename_i o _ hb
    have flight : inFlight s = some o := by simp only [inFlight, hb]
    split
    · rename_i seg r hw
      have running : starting (reportWritten o (writeSegment seg r s)) = false := by
        rw [reportWritten_starting, starting, writeSegment_store, hb]
        rfl
      refine .next (KeepsEnds.andFinish ((storeReady_keepsEnds _).andThen (.andThen (segmentWritten_keepsEnds (fun e he => ?_) running) ?_)))
      · exact hP e o r flight (he ▸ hw)
      · exact (reportWritten_keepsEnds _ _).andThen (writeSegment_keepsEnds _ _ s)
    · exact .next (.refl s)
  · exact .next (.refl s)

/-! ## An erase (R25) -/

theorem EndRecord.erased_ok {r : EndRecord} {c : ChannelEnd} (h : EndOk false r c) {c' : ChannelEnd} (hc : c' = .powerOn) :
    EndOk false r.erased c' := by
  unfold EndRecord.erased
  split
  · rename_i hu
    obtain ⟨-, free, rest⟩ := h
    exact ⟨nofun, fun hh => ⟨(free hh).1, hc⟩, rest⟩
  · simp [EndOk, EndRecord.powerOn, holdsChannels, hc]

/-- An end's consistency reads the core of its record. -/
theorem EndOk.of_core {b : Bool} {r : EndRecord} {c : ChannelEnd} (h : EndOk b r.core c) : EndOk b r c := h

theorem erased_starting (c : EraseScope) (s : State) : starting (erased c s) = starting s := by
  rw [starting, (erased_unwritten c s).store]
  rfl

/-- An erase of scope ALL leaves every end consistent, as power-on does. -/
theorem erased_all_ok {s : State} {e : EndId} (hs : starting s = false) (h : EndsOk s) : EndIsOk (erased .all s) e := by
  have core := erased_all_core s e
  have chan : (erased .all s).chan e = .powerOn := by
    refine erased_all_chan (.of_endsOk h e) ?_
    rw [← EndRecord.core_state, core, EndRecord.erased_state]
  have before : EndOk false (s.endRec e).core (s.chan e) := hs ▸ h e
  rw [EndIsOk, erased_starting, hs]
  refine EndOk.of_core ?_
  rw [core]
  exact EndRecord.erased_ok before chan

theorem erased_keepsEnds (hP : ∀ e, P e) (c : EraseScope) {s : State} (hs : starting s = false) : KeepsEnds P s (erased c s) := by
  cases c with
  | groups => exact .refl s
  | directory => exact .soft (Soft.andThen (directoryErased_soft (ev := false) _) (abortAll_soft s))
  | all => exact ⟨fun e he => absurd (hP e) he, fun h e => erased_all_ok hs h⟩

theorem execEraseCompletion_ends (hP : ∀ e, P e) (s : State) : OutcomeEnds P s (execEraseCompletion s) := by
  unfold execEraseCompletion
  split
  · rename_i o _ hb
    split
    · rename_i c _
      have kept : (erasedStore c s.store).state = s.store.state := by cases c <;> rfl
      have running : starting (reportWritten o (clearMarks (inScope c) (s.setStore (erasedStore c s.store)))) = false := by
        rw [reportWritten_starting]
        change decide ((erasedStore c s.store).state = .starting) = false
        rw [kept, hb]
        rfl
      refine .next (KeepsEnds.andFinish ((storeReady_keepsEnds _).andThen ((erased_keepsEnds hP c running).andThen ?_)))
      exact (reportWritten_keepsEnds _ _).andThen ((clearMarks_keepsEnds _ _).andThen (setStore_keepsEnds s _ kept))
    · exact .next (.refl s)
  · exact .next (.refl s)

/-! ## The end of the load (R30) -/

/-- An end while the load ends: UNFITTED as at power-on, or SERVING FULL. -/
structure EndLoads (r : EndRecord) (c : ChannelEnd) : Prop where
  place : r.state = .unfitted ∧ r.reach = .none ∧ c = .powerOn ∨ r.state = .serving ∧ r.reach = .full
  measurement : r.measurement = .none
  retryWait : r.retryWait = none
  busyCount : r.busyCount = 0
  retest : r.retest = none

theorem EndLoads.of_starting {r : EndRecord} {c : ChannelEnd} (h : EndOk true r c) : EndLoads r c := by
  obtain ⟨start, free, -, rest, -, -, retest⟩ := h
  have state := start rfl
  obtain ⟨reach, chan⟩ := free (by rw [state]; rfl)
  obtain ⟨measurement, wait, busy⟩ := rest (by simp [state])
  refine ⟨.inl ⟨state, reach, chan⟩, measurement, wait, busy, ?_⟩
  simpa [state] using retest

theorem EndLoads.ok {r : EndRecord} {c : ChannelEnd} (h : EndLoads r c) : EndOk false r c := by
  obtain ⟨⟨state, reach, chan⟩ | ⟨state, reach⟩, measurement, wait, busy, retest⟩ := h
  · simp [EndOk, state, reach, chan, measurement, wait, busy, retest, holdsChannels]
  · simp [EndOk, state, reach, measurement, wait, busy, retest, holdsChannels]

theorem EndLoads.soft {ev on : Bool} {s t : State} {e : EndId} (h : EndLoads (s.endRec e) (s.chan e)) (hst : Soft ev on s t) :
    EndLoads (t.endRec e) (t.chan e) := by
  have core := hst.frame.core e
  obtain ⟨place, measurement, wait, busy, retest⟩ := h
  have loads : EndLoads (s.endRec e).core (t.chan e) := by
    refine ⟨place.imp_left fun ⟨state, reach, chan⟩ => ⟨state, reach, hst.chan_powerOn ?_ chan⟩, measurement, wait, busy, retest⟩
    rw [state]
    rfl
  rw [← core] at loads
  obtain ⟨place, measurement, wait, busy, retest⟩ := loads
  exact ⟨place, measurement, wait, busy, retest⟩

theorem startEnd_loads (d e : EndId) {s : State} (h : EndLoads (s.endRec e) (s.chan e)) :
    EndLoads ((startEnd d s).endRec e) ((startEnd d s).chan e) := by
  unfold startEnd
  split
  · by_cases hd : d = e
    · obtain ⟨-, measurement, wait, busy, retest⟩ := h
      subst hd
      rw [modEnd_endRec_same, changeEnd_endRec_same]
      exact ⟨.inr ⟨rfl, rfl⟩, measurement, wait, busy, retest⟩
    · rw [modEnd_endRec_ne _ _ hd, modEnd_chan]
      rwa [changeEnd_endRec_ne hd, changeEnd_chan]
  · exact h

theorem loadedSegments_loads {s : State} {e : EndId} (h : EndLoads (s.endRec e) (s.chan e)) :
    EndLoads ((loadedSegments s).endRec e) ((loadedSegments s).chan e) := by
  have rebuilt : EndLoads ((forEach (allFin 8) rebuild s).endRec e) ((forEach (allFin 8) rebuild s).chan e) :=
    h.soft (Soft.forEach (fun g t => Soft.rebuild (ev := false) (on := true) g t) (allFin 8) s)
  have started := forEach_invariant (I := fun t => EndLoads (t.endRec e) (t.chan e)) (fun d t ht => startEnd_loads d e ht) allEnds _ rebuilt
  exact started.soft (Soft.forEach (fun g t => Soft.assignSegment (ev := false) g t) (allFin 8) _)

theorem LinksOnly.keepsEnds {s t : State} (h : LinksOnly s t) : KeepsEnds P s t := by
  rw [LinksOnly] at h
  rw [h]
  exact .outside rfl rfl id

/-- An end consistent out of STARTING is so once the Store Controller is READY. -/
theorem EndIsOk.storeReady {s : State} {e : EndId} (h : EndOk false (s.endRec e) (s.chan e)) : EndIsOk (storeReady s) e := h

theorem startedUp_ok {s : State} (hs : starting s = true) (h : EndsOk s) : EndsOk (startedUp s) := by
  have loads (e : EndId) : EndLoads (s.endRec e) (s.chan e) := .of_starting (hs ▸ h e)
  have ready : EndsOk (storeReady (loadedSegments s)) := fun e => EndIsOk.storeReady (loadedSegments_loads (loads e)).ok
  have links : KeepsEnds (fun _ => False) _ (startsReleased (storeReady (loadedSegments s))) := (startsReleased_linksOnly _).keepsEnds
  have reports (t : State) : KeepsEnds (fun _ => False) t (forEach allEnds reportStarted t) :=
    .forEach (fun e t => .of_ite (.soft (Soft.reportEndState (ev := false) (on := true) e t)) (.refl t)) _ t
  exact (links.trans (reports _)).andFinish.ok ready

theorem execStartUpLoadEnd_ends (hP : ∀ e, P e) (s : State) : OutcomeEnds P s (execStartUpLoadEnd s) := by
  rw [execStartUpLoadEnd_eq]
  split
  · rename_i h
    exact .next ⟨fun e he => absurd (hP e) he, startedUp_ok (by simp [starting, h.2])⟩
  · exact .next (.refl s)

/-! ## Power (R28, R29) -/

theorem volatileReset_ok (p : Bool) (b : StoreBlock) (s : State) : EndsOk (volatileReset p b s) := fun e => by
  have blocks := volatileReset_blocks p b s
  rw [blocks.endRec, blocks.chan]
  simp [EndOk, EndRecord.powerOn, holdsChannels]

section
variable (hP : ∀ e, P e) (s : State)
include hP

theorem execPowerOnReset_ends (n : Nat) : OutcomeEnds P s (execPowerOnReset n s) :=
  .next ⟨fun e he => absurd (hP e) he, fun _ => volatileReset_ok _ _ s⟩

theorem execPowerLoss_ends (n : Nat) : OutcomeEnds P s (execPowerLoss n s) := by
  unfold execPowerLoss
  split
  · exact .next ⟨fun e he => absurd (hP e) he, fun _ => volatileReset_ok _ _ s⟩
  · exact .next (.refl s)

end

/-! ## Every command -/

/-- The commands that may change the end e: those about it, a completion for its segment, an erase, the end of the load, and power. -/
def changesEnd (c : Instr) (s : State) (e : EndId) : Prop :=
  match c with
  | .powerOnReset _ | .powerLoss _ | .startUpLoadEnd | .eraseCompletion => True
  | .segmentWriteCompletion => ∃ o r, inFlight s = some o ∧ o.write = .segment e.seg r
  | .endServiceOff _ _ code _ | .endServiceOn _ _ code | .lineTest _ _ code => endOf code = some e
  | .pollReply d _ | .pollWindowExpiry d | .loopLossEvent d | .measurementBegin d | .measurementResult d _ _ _
  | .retryWaitExpiry d | .retestTimerExpiry d => d = e
  | _ => False

theorem exec_ends (c : Instr) (s : State) : OutcomeEnds (changesEnd c s) s (exec c s) := by
  cases c with
  | powerOnReset n => exact execPowerOnReset_ends (fun _ => trivial) s n
  | powerLoss n => exact execPowerLoss_ends (fun _ => trivial) s n
  | startUpLoadEnd => exact execStartUpLoadEnd_ends (fun _ => trivial) s
  | frameReceived x l => exact execFrameReceived_ends x s l
  | lossOfFraming x => exact execLossOfFraming_ends x s
  | silenceTimerExpiry x => exact execSilenceTimerExpiry_ends x s
  | reportFrameSent x => exact execReportFrameSent_ends x s
  | badRequestFrame x tag typ => exact execBadRequestFrame_ends x s tag typ
  | answer x tag i g slot => exact execAnswer_ends x tag s i g slot
  | join x tag i g slot => exact execJoin_ends x tag s i g slot
  | leave x tag i g => exact execLeave_ends x tag s i g
  | clear x tag i g => exact execClear_ends x tag s i g
  | callPost x tag post slot => exact execCallPost_ends x tag s post slot
  | queryCalls x tag start => exact requested_ends s fun _ ha t => ha _ _ _ t
  | announceStart x tag g slot => exact execAnnounceStart_ends x tag s g slot
  | announceStop x tag g => exact execAnnounceStop_ends x tag s g
  | groupEdit x tag g op slots => exact execGroupEdit_ends x tag s g op slots
  | groupResult x tag g first => exact execGroupResult_ends x tag s g first
  | endServiceOff x tag code setting => exact execEndServiceOff_ends x tag code s (fun _ => id) setting
  | endServiceOn x tag code => exact execEndServiceOn_ends x tag code s fun _ => id
  | lineTest x tag code => exact execLineTest_ends x tag code s fun _ => id
  | lineStats x tag code flag => exact execLineStats_ends x tag s code flag
  | postTest x tag post count pattern => exact execPostTest_ends x tag s post count pattern
  | postTestStop x tag code => exact execPostTestStop_ends x tag s code
  | queryPost x tag post => exact execQueryPost_ends x tag s post
  | queryEnd x tag code => exact requested_ends s fun _ ha _ => withEnd_ends ha fun _ _ => ha _ _ _ _
  | writeEnable x tag => exact requested_ends s fun _ ha t => (ha _ _ _ t).trans (setLatch_keepsEnds x _ true)
  | writeDisable x tag => exact requested_ends s fun _ ha t => (ha _ _ _ t).trans (setLatch_keepsEnds x _ false)
  | directoryWriteName x tag post f => exact execDirectoryWriteName_ends x tag s post f
  | directoryWritePlace x tag post f => exact execDirectoryWritePlace_ends x tag s post f
  | siteWriteSegment x tag seg f => exact execSiteWriteSegment_ends x tag s seg f
  | siteWriteGlobal x tag f => exact requested_ends s fun _ ha _ => checkWrite_ends ha (acceptWrite_ends ha _ x tag _)
  | storeErase x tag scope => exact execStoreErase_ends x tag s scope
  | directoryRead x tag kind index first => exact execDirectoryRead_ends x tag s kind index first
  | nameWriteCompletion => exact execNameWriteCompletion_ends s
  | placeCompletion => exact execPlaceCompletion_ends s
  | segmentWriteCompletion => exact execSegmentWriteCompletion_ends fun _ o r ho hr => ⟨o, r, ho, hr⟩
  | globalWriteCompletion => exact execGlobalWriteCompletion_ends s
  | groupEditCompletion => exact execGroupEditCompletion_ends s
  | eraseCompletion => exact execEraseCompletion_ends (fun _ => trivial) s
  | pollReply e l => exact execPollReply_ends rfl s l
  | pollWindowExpiry e => exact execPollWindowExpiry_ends rfl s
  | testFrameReply e l => exact execTestFrameReply_ends e l s
  | testFrameWindowExpiry e => exact execTestFrameWindowExpiry_ends e s
  | loopLossEvent e => exact execLoopLossEvent_ends rfl s
  | loopCurrentRestored e => exact execLoopCurrentRestored_ends e s
  | measurementBegin e => exact execMeasurementBegin_ends rfl s
  | measurementResult e kind delay coupled => exact execMeasurementResult_ends rfl s kind delay coupled
  | retryWaitExpiry e => exact execRetryWaitExpiry_ends rfl s
  | retestTimerExpiry e => exact execRetestTimerExpiry_ends rfl s
  | overflowTimerExpiry i => exact execOverflowTimerExpiry_ends s i
  | ringTimerExpiry i => exact execRingTimerExpiry_ends s i
  | clearConfirmTimerExpiry i => exact execClearConfirmTimerExpiry_ends s i
  | acknowledgeWindowExpiry g => exact execAcknowledgeWindowExpiry_ends s g
  | acknowledgeLateExpiry g => exact execAcknowledgeLateExpiry_ends s g

/-- Settles O16: the way of a command leaves the records of the ends that it is not about. -/
theorem endsChangeOnlyByTheirCommands : Obligations.endsChangeOnlyByTheirCommands := by
  intro c e s t ht
  by_cases hc : changesEnd c s e
  · refine .inr ?_
    cases c <;> exact hc
  · exact .inl ((exec_ends c s t ht).core e hc)

/-- Settles O18: the way of every command, and the tick, keep the ends consistent. -/
theorem stepKeepsEnds : Obligations.stepKeepsEnds := by
  intro s t h ht
  unfold step at ht
  split at ht
  · rw [← Host.Outcome.next.inj ht]
    exact (tick_keepsEnds (P := fun _ => False) s).ok h
  · rename_i c rest _
    exact (exec_ends c _ t ht).ok ((withPending_keepsEnds (P := fun _ => False) s rest).ok h)

end Sys2Proof.Machine
end

