-- ==== Sys2Proof/Proofs/FaultPlaces.lean ====
section
/-! PROOF. Where a measured distance lies, and what the end's reach is then (R66, R67). O24. -/

namespace Sys2Proof.Machine

/-- The feeder of a segment at the port of an end (R6). -/
def feederOf (r : SegRecord) (side : Side) : Nat :=
  match side with
  | .a => r.feederA
  | .b => r.feederB

/-- The cable position of a fault at a distance beyond the feeder: counted from the A terminal (R66). -/
def insidePosition (r : SegRecord) (side : Side) (d : Nat) : Nat :=
  match side with
  | .a => d - r.feederA
  | .b => r.cableLength - (d - r.feederB)

section
variable {r : SegRecord} {side : Side} {d : Nat}

theorem faultPlace_inFeeder (h : d < feederOf r side) : faultPlace r side d = .inFeeder := by
  cases side <;> exact if_pos h

theorem faultPlace_beyond (h : feederOf r side + r.cableLength ≤ d) : faultPlace r side d = .beyond := by
  cases side <;> simp only [feederOf] at h <;> (unfold faultPlace; dsimp only; rw [if_neg (by omega), if_pos (by omega)])

theorem faultPlace_inside (h : feederOf r side ≤ d) (hd : d < feederOf r side + r.cableLength) :
    faultPlace r side d = .inside (insidePosition r side d) := by
  cases side <;> simp only [feederOf] at h hd <;> (unfold faultPlace; dsimp only; rw [if_neg (by omega), if_neg (by omega)]; rfl)

/-- LIMIT x includes some post position, from 1 to L − 1, just where R67 says that it does. -/
theorem limitReaches_iff {x : Nat} (h : side = .a → x < r.cableLength) (hb : side = .b → 1 ≤ x) :
    limitReaches r side x = true ↔ ∃ p, 1 ≤ p ∧ p + 1 ≤ r.cableLength ∧ reaches side (.limit x) p = true := by
  cases side with
  | a =>
    simp only [limitReaches, reaches, decide_eq_true_eq]
    have hx := h rfl
    exact ⟨fun h2 => ⟨1, by omega, by omega, by omega⟩, fun ⟨p, _, _, _⟩ => by omega⟩
  | b =>
    simp only [limitReaches, reaches, decide_eq_true_eq]
    have hx := hb rfl
    exact ⟨fun h2 => ⟨r.cableLength - 1, by omega, by omega, by omega⟩, fun ⟨p, _, _, _⟩ => by omega⟩

end

/-- What a kind with a distance gives follows from the place of the fault. -/
theorem resultState_of_distance {r : SegRecord} {side : Side} {kind : MeasKind} {delay : Nat} (h : hasDistance kind = true) :
    resultState r side kind delay = match faultPlace r side (faultDistance r delay) with
      | .beyond => (.serving, .full)
      | .inFeeder => (.faulted, .none)
      | .inside x => if limitReaches r side x then (.serving, .limit x) else (.faulted, .none) := by
  cases kind with
  | good | crossed | unknown | busy => cases h
  | openPair | short | mismatch => rfl

/-- The fault record of a kind with a distance names the position of a fault inside the cable, and its chainage. -/
theorem faultRecordOf_inside {r : SegRecord} {side : Side} {kind : MeasKind} {delay x : Nat} (h : hasDistance kind = true)
    (hx : faultPlace r side (faultDistance r delay) = .inside x) (c : Option SegId) :
    (faultRecordOf r side kind delay c).position = some x ∧ (faultRecordOf r side kind delay c).chainage = some (chainageOf r x) := by
  simp only [faultRecordOf, h, if_true, hx, and_self]

/-- Settles O24: the place of the fault decides, and inside the cable the limit reaches a post position or does not. -/
theorem resultGivesReach : Obligations.resultGivesReach := by
  intro r side kind delay hk d feeder
  have byPlace := resultState_of_distance (r := r) (side := side) (delay := delay) hk
  have hfeeder : feeder = feederOf r side := by cases side <;> rfl
  have hdist : faultDistance r delay = d := rfl
  rw [hdist] at byPlace
  rw [hfeeder]
  refine ⟨fun h => ?_, fun h => ?_, fun h hd => ?_⟩
  · rw [byPlace, faultPlace_inFeeder h]
  · rw [byPlace, faultPlace_beyond h]
  · have place := faultPlace_inside h hd
    rw [place] at byPlace
    dsimp only at byPlace
    have reach : limitReaches r side (insidePosition r side d) = true ↔ _ := limitReaches_iff
      (fun hs => by subst hs; simp only [insidePosition, feederOf] at *; omega)
      (fun hs => by subst hs; simp only [insidePosition, feederOf] at *; omega)
    obtain ⟨position, chainage⟩ := faultRecordOf_inside hk (hdist ▸ place) none
    refine ⟨insidePosition r side d, ?_, ?_, fun some => ?_, fun none => ?_, position, chainage⟩
    · cases side <;> (simp only [insidePosition, feederOf] at *; omega)
    · cases side with
      | a => rfl
      | b => simp only [insidePosition, feederOf] at *; omega
    · rw [byPlace, if_pos (reach.mpr some)]
    · refine byPlace.trans (if_neg fun yes => ?_)
      obtain ⟨p, hp, hl, hr⟩ := reach.mp yes
      rw [none p hp hl] at hr
      cases hr

end Sys2Proof.Machine
end

