-- ==== Sys2Proof/Proofs/EndTests.lean ====
section
/-! PROOF. The requests that put an end TESTING, the beginning of a measurement, and the timers of an end. O40 and O58. -/

namespace Sys2Proof.Machine

/-! ## END SERVICE ON and LINE TEST (R57, R62, R64) -/

/-- An end that goes TESTING has its record set, its burst ended and its END STATE told. -/
theorem goTesting_agree (e : EndId) (cause : EndCause) (s : State) :
    let u := endBurst e (.aborted .endTesting) (s.modEnd e (EndRecord.goneTesting cause))
    Agree (finish (goTesting e cause s)) (reportBoth (.endState (endStateOf u e)) u) := by
  rw [goTesting_eq]
  exact agree_finish _

section
variable {x : LinkId} {tag : Byte} {code : Nat} {s : State} {e : EndId}

theorem execEndServiceOn_of_off (h : Takes s x tag (.endService code 1)) (he : endOf code = some e) (hst : (s.endRec e).state = .off) :
    exec (.endServiceOn x tag code) s = .next (finish (goTesting e .serviceOn (taken x tag (.endService code 1) .ok .empty s))) := by
  have flag : flagOf 1 = some true := rfl
  have off : ((popIntake x s).endRec e).state = .off := by rw [popIntake_endRec, hst]
  change Host.Outcome.next (takeRequest x tag _ _ s) = _
  rw [takeRequest_of_takes _ h]
  simp only [endService, withEnd, he, flag, off, taken]

theorem execLineTest_of_idle (h : Takes s x tag (.lineTest code)) (he : endOf code = some e)
    (hst : (s.endRec e).state = .faulted ∨ (s.endRec e).state = .off) :
    exec (.lineTest x tag code) s = .next (finish (goTesting e .lineTest (taken x tag (.lineTest code) .ok .empty s))) := by
  change Host.Outcome.next (takeRequest x tag _ _ s) = _
  rw [takeRequest_of_takes _ h]
  rcases hst with hst | hst
  all_goals
    have idle := (congrArg EndRecord.state (popIntake_endRec x s e)).trans hst
    simp only [withEnd, he, idle, taken]

end

/-- Settles O40: both requests take the end to TESTING by R57. -/
theorem testRequestsPutTheEndTesting : Obligations.testRequestsPutTheEndTesting := by
  intro x tag code s e c r cause hc h he
  rcases hc with ⟨rfl, rfl, rfl, hst⟩ | ⟨rfl, rfl, rfl, hst⟩
  · exact ⟨_, execEndServiceOn_of_off h he hst, goTesting_agree e _ _⟩
  · exact ⟨_, execLineTest_of_idle h he hst, goTesting_agree e _ _⟩

/-! ## The beginning of a measurement (R55) -/

theorem mayMeasure_iff {s : State} {e : EndId} : mayMeasure s e = true ↔
    (s.endRec e).state = .testing ∧ (s.endRec e).measurement = .waiting ∧ (s.port e).transaction = none
      ∧ (s.port (otherEnd e)).transaction = none ∧ (s.endRec (otherEnd e)).measurement ≠ .running := by
  simp [mayMeasure, and_assoc]

theorem execMeasurementBegin_of_first {s : State} {e : EndId} (hp : s.powered = true) (hm : mayMeasure s e = true)
    (hf : nth s.line.first e.seg = some e.side) :
    exec (.measurementBegin e) s = .next (finish ((s.modEnd e fun r => { r with measurement := .running }).modCounters e fun c =>
      { c with measurements := satInc c.measurements })) :=
  if_pos (by simp [hp, hm, hf])

theorem execMeasurementBegin_of_not {s : State} {e : EndId} (h : mayMeasure s e ≠ true) : exec (.measurementBegin e) s = .next s :=
  if_neg (by simp [h])

/-! ## The expiries (R59, R61) -/

section
variable {s : State} {e : EndId} {n : Nat} (hp : s.powered = true)
include hp

theorem execRetryWaitExpiry_of_running (hw : (s.endRec e).retryWait = some n) :
    exec (.retryWaitExpiry e) s = .next (finish ((s.reach n).modEnd e fun r => { r with retryWait := none, measurement := .waiting })) := by
  simp only [exec, execRetryWaitExpiry, hp, hw]

theorem execRetestTimerExpiry_of_running (hw : (s.endRec e).retest = some n) :
    exec (.retestTimerExpiry e) s = .next (finish (retestExpires e (s.reach n))) := by
  simp only [exec, execRetestTimerExpiry, hp, hw]

end

theorem retestExpires_of_holding {s : State} {e : EndId} (hst : (s.endRec e).state = .serving) (hc : holdsChannel s e = true) :
    retestExpires e s = s.modEnd e fun r => { r with retest := some (s.after s.store.site.global.retest) } := by
  simp only [retestExpires, hst, hc, if_true]

theorem retestExpires_of_free {s : State} {e : EndId}
    (h : (s.endRec e).state = .faulted ∨ ((s.endRec e).state = .serving ∧ holdsChannel s e = false)) :
    retestExpires e s = goTesting e .retest s := by
  rcases h with hst | ⟨hst, hc⟩
  · simp only [retestExpires, hst]
  · simp only [retestExpires, hst, hc, Bool.false_eq_true, if_false]

/-- Settles O58: the conditions of R55, and the branches of the two expiries. -/
theorem measurementsWaitAndReturn : Obligations.measurementsWaitAndReturn := by
  refine ⟨fun e s hp => ⟨fun ht hm ho hother hrun hf => ?_, fun h => ?_⟩,
    fun e s n hp => ⟨fun hw => ?_, fun hw hst hc => ?_, fun hw hst => ?_⟩⟩
  · exact ⟨_, execMeasurementBegin_of_first hp (mayMeasure_iff.mpr ⟨ht, hm, ho, hother, hrun⟩) hf, agree_finish _⟩
  · refine execMeasurementBegin_of_not fun may => ?_
    obtain ⟨-, waiting, idle, other, still⟩ := mayMeasure_iff.mp may
    rcases h with h | h | h | h
    exacts [h waiting, h idle, h other, still h]
  · exact ⟨_, execRetryWaitExpiry_of_running hp hw, agree_finish _⟩
  · have expires := retestExpires_of_holding (s := s.reach n) hst hc
    exact ⟨_, execRetestTimerExpiry_of_running hp hw, expires ▸ agree_finish _⟩
  · have expires := retestExpires_of_free (s := s.reach n) hst
    exact ⟨_, execRetestTimerExpiry_of_running hp hw, expires ▸ goTesting_agree e .retest (s.reach n)⟩

end Sys2Proof.Machine
end

