-- ==== Sys2Proof/Proofs/Reassignment.lean ====
section
/-! PROOF. What the serving assignment leaves of the ends (R69 to R71): of their records nothing but the command lists changes (`ListsOnly`),
so a suppressed post stays until the segment is looked at; and no burst begins. O39 and O59. -/

namespace Sys2Proof.Machine

/-! ## The ends' records less their command lists -/

def EndRecord.unlisted (r : EndRecord) : EndRecord := { r with commands := [] }

/-- Of the ends' records nothing but the command lists changes. -/
structure ListsOnly (s t : State) : Prop where
  records : ∀ e, (t.endRec e).unlisted = (s.endRec e).unlisted

namespace ListsOnly

variable {s t u : State}

theorem suppressed (h : ListsOnly s t) (e : EndId) : (t.endRec e).suppressed = (s.endRec e).suppressed :=
  (congrArg EndRecord.suppressed (h.records e) :)

theorem refl (s : State) : ListsOnly s s := ⟨fun _ => rfl⟩
theorem trans (h : ListsOnly s t) (k : ListsOnly t u) : ListsOnly s u :=
  ⟨fun e => (k.records e).trans (h.records e)⟩

/-- An operation after another, read as they are nested. -/
theorem andThen (k : ListsOnly t u) (h : ListsOnly s t) : ListsOnly s u := h.trans k

theorem of_ite {c : Prop} [Decidable c] (ht : ListsOnly s t) (hu : ListsOnly s u) : ListsOnly s (if c then t else u) := by
  split
  · exact ht
  · exact hu

theorem forEach {α : Type} {f : α → State → State} (h : ∀ a s, ListsOnly s (f a s)) :
    ∀ (l : List α) (s : State), ListsOnly s (Machine.forEach l f s)
  | [], s => .refl s
  | a :: l, s => (h a s).trans (forEach h l (f a s))

/-- An update of anything else. -/
theorem of_ends (h : t.line.ends = s.line.ends) : ListsOnly s t :=
  ⟨fun e => by rw [State.endRec, h]; rfl⟩

theorem modEnd (e : EndId) (f : EndRecord → EndRecord) (s : State) (h : ∀ r, (f r).unlisted = r.unlisted) : ListsOnly s (s.modEnd e f) :=
  ⟨fun d => by
    by_cases hd : e = d
    · subst hd
      rw [modEnd_endRec_same, h]
    · rw [modEnd_endRec_ne _ _ hd]⟩

theorem modChan (e : EndId) (f : ChannelEnd → ChannelEnd) (s : State) : ListsOnly s (s.modChan e f) := of_ends rfl
theorem modCall (i : CallIdx) (f : LiveCall → LiveCall) (s : State) : ListsOnly s (s.modCall i f) := of_ends rfl
theorem modGroup (g : GroupId) (f : GroupRun → GroupRun) (s : State) : ListsOnly s (s.modGroup g f) := of_ends rfl
theorem modLink (x : LinkId) (f : LinkRecord → LinkRecord) (s : State) : ListsOnly s (s.modLink x f) := of_ends (by simp)
theorem setActivity (i : Slot) (a : Activity) (p : Option Stamp) (s : State) : ListsOnly s (Machine.setActivity i a p s) := of_ends rfl

/-! ### Reports, command lists, bursts -/

theorem report (x : LinkId) (r : Report) (s : State) : ListsOnly s (Machine.report x r s) := modLink x _ s
theorem reportBoth (r : Report) (s : State) : ListsOnly s (Machine.reportBoth r s) := (report .a r s).trans (report .b r _)

theorem reportParties (i : CallIdx) (v : CallEvent) (n : CallReason) (s : State) : ListsOnly s (Machine.reportParties i v n s) := by
  unfold Machine.reportParties reportCall
  split
  · exact forEach (fun x t => report x _ t) _ s
  · exact .refl s

theorem placeCommand (i : Slot) (c : Command) (s : State) : ListsOnly s (Machine.placeCommand i c s) := by
  unfold Machine.placeCommand
  split
  · exact .refl s
  · exact .of_ite (modEnd _ _ s fun _ => rfl) (.andThen (modEnd _ _ _ fun _ => rfl) (.of_ends rfl))

theorem dropCommands (i : Slot) (s : State) : ListsOnly s (Machine.dropCommands i s) := by
  unfold Machine.dropCommands
  exact forEach (fun e t => modEnd e (fun r => { r with commands := r.commands.filter fun c => decide (c.slot ≠ i) }) t fun _ => rfl) _ s

theorem moveCommands (i : Slot) (e : EndId) (s : State) : ListsOnly s (Machine.moveCommands i e s) :=
  .andThen (modEnd e _ _ fun _ => rfl) (dropCommands i s)

theorem setIdle (p : Activity → Bool) (i : Slot) (s : State) : ListsOnly s (Machine.setIdle p i s) :=
  .of_ite (setActivity i _ _ s) (.refl s)

theorem endBurst (e : EndId) (x : BurstEnding) (s : State) : ListsOnly s (Machine.endBurst e x s) := by
  have ended (b : Burst) : ListsOnly s ((s.modBurst e fun _ => .ended b x).modPort e fun p => { p with transaction := p.transaction.map uncount }) :=
    .of_ends rfl
  unfold Machine.endBurst
  split
  · exact .andThen (report _ _ _) (.andThen (setIdle _ _ _) (ended _))
  · exact .refl s
  · exact .refl s

theorem abortTarget (i : Slot) (r : AbortReason) (s : State) : ListsOnly s (Machine.abortTarget i r s) :=
  forEach (fun e t => by
    split
    · exact .of_ite (endBurst e _ t) (.refl t)
    · exact .refl t
    · exact .refl t) _ s

/-! ### Channels -/

theorem callTakesChannel (i : CallIdx) (e : EndId) (c : Chan) (s : State) : ListsOnly s (Machine.callTakesChannel i e c s) := by
  unfold Machine.callTakesChannel
  split
  · exact .andThen (placeCommand _ _ _) (.trans (modCall i _ s) (.of_ite (reportParties _ _ _ _) (.refl _)))
  · exact .refl s

theorem commandMember (g : GroupId) (c : Chan) (i : Slot) (s : State) : ListsOnly s (Machine.commandMember g c i s) :=
  .andThen (modGroup g _ _) (.andThen (modGroup g _ _) (placeCommand i _ s))

theorem groupTakesChannel (g : GroupId) (e : EndId) (c : Chan) (s : State) : ListsOnly s (Machine.groupTakesChannel g e c s) :=
  .andThen (forEach (commandMember g c) _ _) (modGroup g _ s)

theorem handOver (e : EndId) (c : Chan) : ∀ (l : List Waiter) (s : State), ListsOnly s (Machine.handOver e c l s)
  | [], s => .andThen (modChan e _ _) (modChan e _ s)
  | .call _ _ _ _ :: l, s => .of_ite (.andThen (callTakesChannel _ _ _ _) (.of_ends rfl)) (handOver e c l s)
  | .announce g _ :: l, s =>
    .of_ite (.andThen (groupTakesChannel _ _ _ _) (.of_ends rfl)) (.andThen (handOver e c l _) (modGroup g _ s))

theorem release (e : EndId) (c : Chan) (h : Holder) (s : State) : ListsOnly s (Machine.release e c h s) :=
  .of_ite (handOver e c _ s) (.refl s)

theorem callLosesChannel (ref : CallRef) (r : CallReason) (s : State) : ListsOnly s (Machine.callLosesChannel ref r s) := by
  unfold Machine.callLosesChannel
  split
  · exact .of_ite (.andThen (reportParties _ _ _ _) (modCall _ _ s)) (modCall _ _ s)
  · exact .refl s

theorem callLosesEntry (ref : CallRef) (s : State) : ListsOnly s (Machine.callLosesEntry ref s) := by
  unfold Machine.callLosesEntry
  split
  · exact modCall _ _ s
  · exact .refl s

theorem postLeft (i : Slot) (e : EndId) (r : CallReason) (s : State) : ListsOnly s (Machine.postLeft i e r s) := by
  have entry (t : State) : ListsOnly t (match entryOfPost i (t.chan e).waiting with
      | some ref => Machine.callLosesEntry ref (Machine.withdrawCall e ref t)
      | none => t) := by
    split
    · exact .andThen (callLosesEntry _ _) (modChan e _ _)
    · exact .refl _
  refine .andThen (entry _) ?_
  split
  · exact (release _ _ _ s).trans (callLosesChannel _ _ _)
  · exact .refl s

/-! ### Members -/

theorem changeMember (g : GroupId) (i : Slot) (o : MemberOutcome) (p : Option CallRef) (s : State) :
    ListsOnly s (Machine.changeMember g i o p s) := by
  have told (t : State) : ListsOnly t (reportMember g p i t) := by
    unfold reportMember
    dsimp only
    split
    · exact .of_ite ((modLink .a _ t).trans (modLink .b _ _)) (.refl t)
    · exact .refl t
  exact .andThen (told _) (modGroup g _ s)

theorem releases (g : GroupId) (s : State) : ListsOnly s (Machine.releases g s) :=
  forEach (fun e t => by
    unfold releaseIfDone
    split
    · exact .of_ite (.andThen (release _ _ _ _) (modGroup g _ t)) (.refl t)
    · exact .refl t) _ s

theorem dropMember (g : GroupId) (o : MemberOutcome) (p : Option CallRef) (i : Slot) (s : State) :
    ListsOnly s (Machine.dropMember g o p i s) :=
  .andThen (changeMember g i _ _ _) (.trans (placeCommand i _ s) (.of_ite (setIdle _ i _) (.refl _)))

theorem groupPreempted (g : GroupId) (e : EndId) (ref : CallRef) (s : State) : ListsOnly s (Machine.groupPreempted g e ref s) :=
  .andThen (releases g _) (.andThen (forEach (dropMember g _ _) _ _) (modGroup g _ s))

theorem requestForGroup (g : GroupId) (e : EndId) (s : State) : ListsOnly s (Machine.requestForGroup g e s) := by
  unfold Machine.requestForGroup
  refine .of_ite ?_ (.refl s)
  split
  · exact forEach (fun i t => changeMember g i _ _ t) _ s
  · split
    · exact forEach (commandMember g _) _ s
    · refine .of_ite (modGroup g _ s) ?_
      split
      · exact .andThen (groupTakesChannel _ _ _ _) (modChan e _ s)
      · exact .andThen (modGroup g _ _) (modChan e _ s)

theorem quitChannel (g : GroupId) (i : Slot) (s : State) : ListsOnly s (Machine.quitChannel g i s) :=
  .trans (.of_ite (placeCommand i _ s) (.refl s)) (.of_ite (setIdle _ i _) (.refl _))

theorem moveMember (i : Slot) (e : EndId) (g : GroupId) (s : State) : ListsOnly s (Machine.moveMember i e g s) := by
  have changed (o : MemberOutcome) : ListsOnly s (Machine.changeMember g i o none (Machine.quitChannel g i s)) :=
    (quitChannel g i s).trans (changeMember g i o none _)
  unfold Machine.moveMember
  split
  · exact (commandMember g _ i s).trans (.of_ite (setIdle _ i _) (.refl _))
  · exact .of_ite (changed _) ((changed _).trans (.of_ite (.refl _) (requestForGroup g e _)))

theorem forGroupsOf (i : Slot) {f : GroupId → State → State} (h : ∀ g s, ListsOnly s (f g s)) (s : State) :
    ListsOnly s (Machine.forGroupsOf i f s) :=
  forEach (fun g t => .of_ite ((h g t).trans (releases g _)) (.refl t)) _ s

theorem memberMoved (i : Slot) (s : State) : ListsOnly s (Machine.memberMoved i s) := by
  unfold Machine.memberMoved
  split
  · exact forGroupsOf i (moveMember i _) s
  · exact .refl s

theorem memberLost (i : Slot) (s : State) : ListsOnly s (Machine.memberLost i s) := forGroupsOf i (fun g t => dropMember g _ _ i t) s

/-! ### Channel requests of calls -/

theorem preempt (i : CallIdx) (slot : Slot) (e : EndId) (c : Chan) (g : GroupId) (s : State) :
    ListsOnly s (Machine.preempt i slot e c g s) := by
  unfold Machine.preempt
  dsimp only
  exact .andThen (callTakesChannel _ _ _ _) (.andThen (groupPreempted _ _ _ _) (.andThen (modChan e _ _) (modChan e _ s)))

theorem grantOrWait (i : CallIdx) (k : LiveCall) (kd : RequestKind) (e : EndId) (s : State) :
    ListsOnly s (Machine.grantOrWait i k kd e s) := by
  unfold Machine.grantOrWait
  dsimp only
  split
  · exact .andThen (callTakesChannel _ _ _ _) (modChan e _ s)
  · split
    · exact preempt _ _ _ _ _ s
    · exact .andThen (modCall _ _ _) (modChan e _ s)

theorem requestForCall (i : CallIdx) (kd : RequestKind) (e : EndId) (s : State) : ListsOnly s (Machine.requestForCall i kd e s) := by
  unfold Machine.requestForCall
  split
  · exact .refl s
  · refine .of_ite (.refl s) ?_
    split
    · exact callTakesChannel _ _ _ s
    · refine .of_ite (modCall _ _ s) (.andThen (grantOrWait _ _ _ _ _) ?_)
      exact forEach (fun x t => .of_ite (postLeft _ x _ t) (.refl t)) _ s

theorem requestOnServing (i : CallIdx) (kd : RequestKind) (s : State) : ListsOnly s (Machine.requestOnServing i kd s) := by
  unfold Machine.requestOnServing
  split
  · split
    · exact requestForCall _ _ _ s
    · exact .refl s
  · exact .refl s

/-! ### Calls of posts that move, are lost or are served again -/

theorem callPostMoved (i : Slot) (s : State) : ListsOnly s (Machine.callPostMoved i s) := by
  unfold Machine.callPostMoved
  split
  · split
    · exact .of_ite (requestOnServing _ _ s) (.of_ite (requestOnServing _ _ s) (.refl s))
    · exact .refl s
  · exact .refl s

theorem callPostLost (i : Slot) (s : State) : ListsOnly s (Machine.callPostLost i s) := by
  have withdrawn (j : CallIdx) (r : WithdrawReason) (l : LinkSet) (t : State) : ListsOnly t (withdrawOffers j r l t) :=
    .trans (.of_ite (report .a _ t) (.refl t)) (.of_ite (report .b _ _) (.refl _))
  unfold Machine.callPostLost
  split
  · split
    · refine .of_ite (.refl s) (.of_ite ?_ ?_)
      · exact .andThen (withdrawn _ _ _ _) (modCall _ _ s)
      · exact .andThen (reportParties _ _ _ _) (modCall _ _ s)
    · exact .refl s
  · exact .refl s

theorem offerInTurn (i : CallIdx) (s : State) : ListsOnly s (Machine.offerInTurn i s) := by
  have sent (x : LinkId) (t : State) : ListsOnly t (sendOffer reportInTurn i x t) := by
    unfold sendOffer
    split
    · exact modLink x _ t
    · exact .refl t
  have one (x : LinkId) (t : State) : ListsOnly t (offerTo reportInTurn i x t) := by
    unfold offerTo
    split
    · exact .of_ite (.andThen (sent _ _) (modCall i _ t)) (.refl t)
    · exact .refl t
  unfold Machine.offerInTurn offerBy
  split
  · exact .andThen (one _ _) (one _ s)
  · exact .refl s

theorem callPostServed (i : Slot) (s : State) : ListsOnly s (Machine.callPostServed i s) := by
  have parked (c : CallIdx) : ListsOnly s (parkServed c s) :=
    .andThen (requestOnServing _ _ _) (.andThen (reportParties _ _ _ _) (modCall _ _ s))
  unfold Machine.callPostServed
  split
  · split
    · refine .of_ite ?_ (.refl s)
      split
      · exact .andThen (offerInTurn _ _) (modCall _ _ s)
      · exact parked _
      · exact .andThen (reportParties _ _ _ _) (modCall _ _ s)
      · exact parked _
    · exact .refl s
  · exact .refl s

theorem overflowUnserved (i : Slot) (s : State) : ListsOnly s (Machine.overflowUnserved i s) := by
  refine .of_ite (.andThen (setIdle _ i _) ?_) (.refl s)
  unfold missOverflow
  split
  · exact .andThen (reportBoth _ _) (.of_ends rfl)
  · exact .refl s

theorem reachEffects (i : Slot) (old new : PostReach) (s : State) : ListsOnly s (Machine.reachEffects i old new s) := by
  have lost (t : State) : ListsOnly t (Machine.memberLost i (Machine.callPostLost i t)) := (callPostLost i t).trans (memberLost i _)
  have unserved (t : State) : ListsOnly t (Machine.memberLost i (Machine.callPostLost i (Machine.overflowUnserved i t))) :=
    (overflowUnserved i t).trans (lost _)
  have moved (e : EndId) (t : State) : ListsOnly t (Machine.memberMoved i (Machine.callPostMoved i (Machine.postLeft i e .postMoved t))) :=
    (postLeft i e _ t).trans ((callPostMoved i _).trans (memberMoved i _))
  unfold Machine.reachEffects
  cases old with
  | served e =>
    cases new with
    | served f => exact .andThen (moved e _) (.andThen (abortTarget i .postMoved _) (moveCommands i f s))
    | isolated => exact .andThen (lost _) (.andThen (postLeft i e .postIsolated _) (abortTarget i .postIsolated s))
    | unserved =>
      exact .andThen (unserved _) (.andThen (postLeft i e .postIsolated _) (.andThen (abortTarget i .postUnserved _) (dropCommands i s)))
  | isolated =>
    cases new with
    | served f => exact .andThen (callPostServed i _) (moveCommands i f s)
    | isolated => exact .refl s
    | unserved => exact .andThen (unserved _) (dropCommands i s)
  | unserved =>
    cases new with
    | served f => exact .andThen (callPostServed i _) (moveCommands i f s)
    | isolated => exact lost s
    | unserved => exact .refl s

theorem reassign (i : Slot) (s : State) : ListsOnly s (Machine.reassign i s) :=
  .of_ite (.refl s) (.andThen (reachEffects i _ _ _) (.of_ends rfl))

end ListsOnly

/-! ## Bursts -/

/-- Moves end bursts and begin none. -/
theorem Moves.burstsOnlyEnd {homes new : Bool} {s t : State} (h : Moves homes new s t) : BurstsOnlyEnd s t := fun e hs => by
  rcases h.undisturbed.bursts e with same | ⟨b, x, -, ended⟩
  · rwa [burstRuns, same]
  · rw [burstRuns, ended]

theorem Moves.callPostServed (i : Slot) (s : State) : Moves true true s (Machine.callPostServed i s) := by
  have parked (c : CallIdx) : Moves true true s (parkServed c s) :=
    .andThen (requestOnServing _ _ _) (.andThen (reportParties _ _ _ _) (callAs _ _ s fun _ => rfl))
  unfold Machine.callPostServed
  split
  · split
    · refine .of_ite (fun _ => ?_) (.refl s)
      split
      · exact .andThen (offerInTurn _ _) (callAs _ _ s fun _ => rfl)
      · exact parked _
      · exact .andThen (reportParties _ _ _ _) (callAs _ _ s fun _ => rfl)
      · exact parked _
    · exact .refl s
  · exact .refl s

theorem BurstsOnlyEnd.reachEffects (i : Slot) (old new : PostReach) (s : State) : BurstsOnlyEnd s (Machine.reachEffects i old new s) := by
  have lost (t : State) : BurstsOnlyEnd t (Machine.memberLost i (Machine.callPostLost i t)) := (callPostLost i t).trans (memberLost i _)
  have again (f : EndId) : BurstsOnlyEnd s (callPostServed i (moveCommands i f s)) :=
    Moves.burstsOnlyEnd (.andThen (.callPostServed i _) (.carry s i f rfl))
  cases new with
  | unserved => exact reachEffects_unserved i old s
  | isolated =>
    cases old with
    | served e => exact .andThen (lost _) (.andThen (postLeft i e _ _) (abortTarget i _ s))
    | isolated => exact .refl s
    | unserved => exact lost s
  | served f =>
    cases old with
    | served e => exact (Moves.rehomed (new := false) i e f s).burstsOnlyEnd
    | isolated | unserved => exact again f

theorem BurstsOnlyEnd.reassign (i : Slot) (s : State) : BurstsOnlyEnd s (Machine.reassign i s) :=
  .of_ite (.refl s) (.andThen (.reachEffects i _ _ _) (.of_bursts rfl))

theorem BurstsOnlyEnd.assignSegment (g : SegId) (s : State) : BurstsOnlyEnd s (Machine.assignSegment g s) :=
  .andThen (.settle s _) (.andThen (.fixSegment g _) (.forEach reassign _ s))

theorem BurstsOnlyEnd.isolationAlarms (before s : State) : BurstsOnlyEnd s (Machine.isolationAlarms before s) :=
  forEach (fun i t => by
    split
    · exact .refl t
    · exact .reportBoth _ t
    · exact .reportBoth _ t
    · exact .refl t) _ s

/-! ## Who serves a post once it is assigned -/

/-- A post that is assigned anew is served by an end that is available to it (R69). -/
theorem reassigned_available (i : Slot) (e : EndId) (l : List Slot) (s : State)
    (h : i ∈ l ∨ ((s.post i).reach = .served e → available s e (s.entry i).place.position = true))
    (ht : ((forEach l reassign s).post i).reach = .served e) : available s e (s.entry i).place.position = true := by
  induction l generalizing s with
  | nil => exact h.resolve_left List.not_mem_nil ht
  | cons j l ih =>
    have entry : (reassign j s).entry i = s.entry i := by simp only [State.entry, reassign_store]
    have avail : ∀ p, available (reassign j s) e p = available s e p := available_congr (Soft.reassign j s).frame.core e
    have rest := ih (reassign j s)
    rw [entry, avail, reassign_reach] at rest
    refine rest ?_ ht
    by_cases hij : j = i
    · subst hij
      rw [if_pos rfl]
      exact .inr fun new => (assignedReach_served new).2
    · rw [if_neg hij]
      exact h.imp_left fun hm => (List.mem_cons.mp hm).resolve_left fun e => hij e.symm

theorem assignSegment_available {seg : SegId} {s : State} {i : Slot} {e : EndId} (hp : (s.entry i).place.present = true)
    (hs : (s.entry i).place.seg = seg) (ht : ((assignSegment seg s).post i).reach = .served e) :
    available s e (s.entry i).place.position = true :=
  reassigned_available i e _ s (.inl (mem_presentOn.mpr ⟨hp, hs⟩)) (((assignSegment_calm seg s).reach i).symm.trans ht)

end Sys2Proof.Machine
end

