-- ==== Sys2Proof/Proofs/EndOutOfService.lean ====
section
/-! PROOF. An end that END SERVICE takes out of service, and an end that takes the result of a measurement (R51, R58, R60, R63). O39 and O59. -/

namespace Sys2Proof.Machine

/-! ## The suppressed post after an assignment (R51) -/

/-- The suppressed post is kept while it is the farthest served post. -/
def keptSuppression (s : State) (e : EndId) (p : Option Slot) : Option Slot := p.filter fun i => decide (farthest s e = some i)

theorem fixSuppressed_keeps (e : EndId) (s : State) :
    ((fixSuppressed e s).endRec e).suppressed = keptSuppression s e (s.endRec e).suppressed := by
  unfold fixSuppressed keptSuppression
  cases hp : (s.endRec e).suppressed with
  | none => simp [hp]
  | some i =>
    dsimp only
    split
    · rename_i h
      simp [hp, h, Option.filter]
    · rename_i h
      simp [h, Option.filter]

theorem fixSuppressed_endRec_ne {e d : EndId} (h : e ≠ d) (s : State) : (fixSuppressed e s).endRec d = s.endRec d := by
  unfold fixSuppressed
  split
  · split
    · rfl
    · rw [modEnd_endRec_ne _ _ h]
  · rfl

theorem Calm.hop {s t : State} (h : Calm s t) (i : Slot) : (t.post i).hop = (s.post i).hop := by
  have same := congrArg PostRow.hop (h.rows i)
  exact same

theorem Calm.farthest {s t : State} (h : Calm s t) (e : EndId) : Machine.farthest t e = Machine.farthest s e := farthest_congr h.reach h.hop e

theorem keptSuppression_calm {s t : State} (h : Calm s t) (e : EndId) (p : Option Slot) : keptSuppression t e p = keptSuppression s e p := by
  rw [keptSuppression, h.farthest]
  rfl

theorem fixSegment_keeps (e : EndId) (s : State) :
    ((fixSegment e.seg s).endRec e).suppressed = keptSuppression s e (s.endRec e).suppressed := by
  obtain ⟨seg, side⟩ := e
  cases side with
  | a =>
    refine (congrArg EndRecord.suppressed (fixSuppressed_endRec_ne ?_ (fixSuppressed ⟨seg, .a⟩ s))).trans (fixSuppressed_keeps _ s)
    simp
  | b =>
    refine (fixSuppressed_keeps _ _).trans ?_
    rw [keptSuppression_calm (Calm.fixSuppressed _ s), fixSuppressed_endRec_ne (by simp)]

theorem ListsOnly.settle (before s : State) : ListsOnly s (Machine.settle before s) := by
  have ordered : ListsOnly s (orderReports before s) := .of_ends rfl
  refine ordered.trans (forEach (fun g t => ?_) _ _)
  exact .of_ite (.andThen (reportBoth _ _) (modGroup g _ t)) (.refl t)

theorem ListsOnly.isolationAlarms (before s : State) : ListsOnly s (Machine.isolationAlarms before s) :=
  forEach (fun i t => by
    split
    · exact .refl t
    · exact .reportBoth _ t
    · exact .reportBoth _ t
    · exact .refl t) _ s

theorem assignSegment_keeps_suppressed (e : EndId) (s : State) :
    ((assignSegment e.seg s).endRec e).suppressed = keptSuppression (assignSegment e.seg s) e (s.endRec e).suppressed := by
  have assigned : ListsOnly s (forEach (presentOn s e.seg) reassign s) := .forEach .reassign _ s
  rw [keptSuppression_calm (assignSegment_calm e.seg s), ← assigned.suppressed, ← fixSegment_keeps]
  exact (ListsOnly.settle s _).suppressed e

/-- What idle ports begin leaves the suppressed posts. -/
theorem Agree.suppressed {s t : State} (h : Agree t s) (e : EndId) : (t.endRec e).suppressed = (s.endRec e).suppressed := by
  have line : t.line.settled = s.line.settled := congrArg State.line h
  have same := congrArg (fun l : LineBlock => (nth l.ends (endIdx e)).suppressed) line
  simp only [LineBlock.settled, nth_map] at same
  exact same

/-! ## What follows the record of an end (R60, R63) -/

/-- The posts of the end's segment are assigned, and the end and the isolated posts are reported. -/
def endAssigned (before : State) (e : EndId) (s : State) : State :=
  finish (isolationAlarms before (reportEndState e (assignSegment e.seg s)))

section
variable (before : State) (e : EndId) (s : State)

theorem endAssigned_soft {ev : Bool} : Soft ev false s (endAssigned before e s) :=
  .andThen (.finish _) (.andThen (.isolationAlarms _ _) (.andThen (.reportEndState e _) (.assignSegment _ s)))

theorem endAssigned_calm : Calm (assignSegment e.seg s) (endAssigned before e s) :=
  .andThen (.finish _) (.andThen (.isolationAlarms _ _) (.reportEndState e _))

theorem endAssigned_bursts : BurstsOnlyEnd s (endAssigned before e s) :=
  .andThen (.of_agree (agree_finish _)) (.andThen (.isolationAlarms _ _) (.andThen (.reportBoth _ _) (.assignSegment _ s)))

/-- An end that has a suppressed post keeps it while the post is its farthest served one. -/
theorem endAssigned_suppressed :
    ((endAssigned before e s).endRec e).suppressed = keptSuppression (endAssigned before e s) e (s.endRec e).suppressed := by
  have reports : ListsOnly (assignSegment e.seg s) (isolationAlarms before (reportEndState e (assignSegment e.seg s))) :=
    .andThen (.isolationAlarms _ _) (.reportBoth _ _)
  rw [keptSuppression_calm (endAssigned_calm before e s), ← assignSegment_keeps_suppressed, ← reports.suppressed]
  exact (agree_finish _).suppressed e

end

theorem endAssigned_reaches {before s : State} {e : EndId} {i : Slot} (hp : (s.entry i).place.present = true) (hs : (s.entry i).place.seg = e.seg)
    (ht : ((endAssigned before e s).post i).reach = .served e) :
    holdsChannels (s.endRec e).state = true ∧ reaches e.side (s.endRec e).reach (s.entry i).place.position = true := by
  have avail := assignSegment_available hp hs (((endAssigned_calm before e s).reach i).symm.trans ht)
  simpa only [available, Bool.and_eq_true] using avail

/-! ## END SERVICE OFF (R63) -/

theorem finish_endOff (e : EndId) (s : State) : finish (endOff e s) = endAssigned s e (stoppedOff e s) := congrArg finish (endOff_eq e s)

section
variable (e : EndId) (s : State)

theorem finish_endOff_soft : Soft false false (s.modEnd e EndRecord.goneOff) (finish (endOff e s)) := by
  rw [finish_endOff]
  exact .andThen (endAssigned_soft s e _) (stoppedOff_soft e s)

theorem finish_endOff_suppressed : ((finish (endOff e s)).endRec e).suppressed = none := by
  have calm : Calm (s.modEnd e EndRecord.goneOff) (stoppedOff e s) := .andThen (.stopEnd e _) (.endBurst e _ _)
  rw [finish_endOff, endAssigned_suppressed, calm.unsuppressed e (by rw [modEnd_endRec_same]; rfl)]
  rfl

theorem finish_endOff_burstRuns : burstRuns (finish (endOff e s)) e = false := by
  rw [finish_endOff]
  exact endAssigned_bursts _ _ _ e (BurstsOnlyEnd.stopEnd e _ e (BurstsOnlyEnd.endBurst_burstRuns e _ _))

end

/-- An end that is OFF serves no present post of its segment. -/
theorem finish_endOff_serves_none {e : EndId} {s : State} {i : Slot} (hp : (s.entry i).place.present = true)
    (hs : (s.entry i).place.seg = e.seg) : ((finish (endOff e s)).post i).reach ≠ .served e := by
  have soft := stoppedOff_soft (ev := false) (on := true) e s
  have entry : (stoppedOff e s).entry i = s.entry i := by rw [State.entry, soft.frame.store]; rfl
  have off : ((stoppedOff e s).endRec e).state = .off := by rw [soft.state, modEnd_endRec_same]; rfl
  rw [finish_endOff]
  intro served
  obtain ⟨holds, -⟩ := endAssigned_reaches (by rw [entry, hp]) (by rw [entry, hs]) served
  rw [off] at holds
  cases holds

theorem execEndServiceOff_of_in_service {x : LinkId} {tag : Byte} {code : Nat} {s : State} {e : EndId} (h : Takes s x tag (.endService code 0))
    (he : endOf code = some e)
    (hst : (s.endRec e).state = .serving ∨ (s.endRec e).state = .testing ∨ (s.endRec e).state = .faulted) :
    exec (.endServiceOff x tag code 0) s = .next (finish (endOff e (taken x tag (.endService code 0) .ok .empty s))) := by
  have flag : flagOf 0 = some false := rfl
  change Host.Outcome.next (takeRequest x tag _ _ s) = _
  rw [takeRequest_of_takes _ h]
  rcases hst with hst | hst | hst
  all_goals
    have serves := (congrArg EndRecord.state (popIntake_endRec x s e)).trans hst
    simp only [endService, withEnd, he, flag, serves, taken]

/-- The answer to a request changes its own link alone. -/
theorem taken_kept (x : LinkId) (tag : Byte) (r : Request) (result : Result) (b : ResponseBody) (s : State) :
    let u := taken x tag r result b s
    (∀ e, u.endRec e = s.endRec e) ∧ (∀ i, u.entry i = s.entry i) ∧ u.store = s.store ∧ u.now = s.now
      ∧ u.link (otherLink x) = s.link (otherLink x) := by
  cases x <;> exact ⟨fun _ => rfl, fun _ => rfl, rfl, rfl, rfl⟩

/-- Settles O39: the end goes OFF, stops serving, and its posts are assigned anew. -/
theorem endServiceOffStopsTheEnd : Obligations.endServiceOffStopsTheEnd := by
  intro x tag code s e h he hst
  refine ⟨_, execEndServiceOff_of_in_service h he hst, ?_⟩
  obtain ⟨ends, entries, store, now, link⟩ := taken_kept x tag (.endService code 0) .ok .empty s
  generalize taken x tag (.endService code 0) .ok .empty s = u at ends entries store now link
  have soft := finish_endOff_soft e u
  have last : Soft false true (endOff e u) (finish (endOff e u)) := .finish _
  refine ⟨?_, finish_endOff_suppressed e u, ?_, fun i hp hs => ?_, finish_endOff_burstRuns e u, fun d hd => ?_, ?_, ?_, ?_⟩
  · rw [soft.frame.core e, modEnd_endRec_same, ends]
    rfl
  · refine last.chan_powerOn ?_ (endOff_chan e u)
    rw [← EndRecord.core_state, endOff_core]
    rfl
  · exact finish_endOff_serves_none (by rw [entries, hp]) (by rw [entries, hs])
  · rw [soft.frame.core d, modEnd_endRec_ne _ _ hd.symm, ends]
  · exact soft.frame.store.trans store
  · exact soft.frame.now.trans now
  · have told := soft.frame.onlyTold (otherLink x)
    rwa [modEnd_link, link] at told

/-! ## The result of a measurement (R51, R58, R60) -/

section
variable (e : EndId) (kind : MeasKind) (delay : Nat) (coupled : Option SegId) (s : State)

theorem finish_takeResult : finish (takeResult e kind delay coupled s) = endAssigned s e (resultStopped e kind delay coupled s) := rfl

theorem finish_takeResult_soft : Soft false false (takeRecord e kind delay coupled s) (finish (takeResult e kind delay coupled s)) :=
  .andThen (.finish _) (takeResult_soft e kind delay coupled s)

/-- Only a GOOD result suppresses a post, and it leaves the end SERVING. -/
theorem resultStopped_suppressed : ((resultStopped e kind delay coupled s).endRec e).suppressed = resultSuppressed s e kind := by
  by_cases hk : kind = .good
  · subst hk
    have serving : ¬ ((takeRecord e .good delay coupled s).endRec e).state = .faulted := by
      rw [takeRecord_state]
      simp [resultState]
    rw [resultStopped, if_neg serving, takeRecord_suppressed]
  · have calm : Calm (takeRecord e kind delay coupled s) (resultStopped e kind delay coupled s) := .of_ite (.stopEnd e _) (.refl _)
    have none : resultSuppressed s e kind = none := if_neg hk
    rw [none]
    exact calm.unsuppressed e ((takeRecord_suppressed e kind delay coupled s).trans none)

theorem takeRecord_outside : (takeRecord e kind delay coupled s).now = s.now ∧ (takeRecord e kind delay coupled s).store = s.store
    ∧ (takeRecord e kind delay coupled s).link = s.link := changeEnd_outside e _ _ .result s

/-- The retest timer runs unless the end is SERVING FULL (R60, R61). -/
theorem retestAfter_resultState (r : SegRecord) (side : Side) :
    retestAfter s (resultState r side kind delay) =
      if (resultState r side kind delay).1 = .serving ∧ (resultState r side kind delay).2 = .full then none
      else some (s.now + 1000 * s.store.site.global.retest) := by
  rcases resultState_cases r side kind delay with h | h | ⟨x, h⟩ <;> rw [h] <;> simp [retestAfter, State.after]

/-- A taken result leaves suppressed the post that it suppresses, if that stays the farthest. -/
theorem finish_takeResult_suppressed : ((finish (takeResult e kind delay coupled s)).endRec e).suppressed =
    match if kind = .good then farthest s e else none with
    | some i => if (s.post i).failures = s.store.site.global.threshold ∧ farthest (finish (takeResult e kind delay coupled s)) e = some i
        then some i else none
    | none => none := by
  rw [finish_takeResult, endAssigned_suppressed, resultStopped_suppressed]
  unfold resultSuppressed keptSuppression
  by_cases hk : kind = .good
  · rw [if_pos hk, if_pos hk]
    cases hf : farthest s e with
    | none => rfl
    | some i =>
      by_cases hm : (s.post i).failures = s.store.site.global.threshold
      · simp [hm, Option.filter]
      · simp [hm]
  · rw [if_neg hk, if_neg hk]
    rfl

end

theorem execMeasurementResult_retried {e : EndId} {delay : Nat} {coupled : Option SegId} {s : State} (hp : s.powered = true)
    (ht : (s.endRec e).state = .testing) (hm : (s.endRec e).measurement = .running) (hw : measurementWf e .busy delay coupled = true)
    (hb : (s.endRec e).busyCount < 3) : exec (.measurementResult e .busy delay coupled) s = .next (finish (busyRetry e s)) := by
  change execMeasurementResult e .busy delay coupled s = _
  unfold execMeasurementResult
  rw [if_pos (by simp [hp, ht, hm, hw]), if_pos ⟨rfl, hb⟩]

/-- Settles O59: a BUSY result starts the retry wait, and any other is taken with its consequences in the order of R60. -/
theorem measurementResultIsTaken : Obligations.measurementResultIsTaken := by
  intro e kind delay coupled s hp ht hm hw
  refine ⟨fun hk hb => ?_, fun hb => ?_⟩
  · subst hk
    exact ⟨_, execMeasurementResult_retried hp ht hm hw hb, agree_finish _⟩
  · intro seg st
    refine ⟨_, execMeasurementResult_taken hp ht hm hw hb, ?_⟩
    have soft := finish_takeResult_soft e kind delay coupled s
    have last : Soft false true (takeResult e kind delay coupled s) (finish (takeResult e kind delay coupled s)) := .finish _
    have stopped := resultStopped_soft (ev := false) (on := true) e kind delay coupled s
    obtain ⟨now, store, link⟩ := takeRecord_outside e kind delay coupled s
    refine ⟨?_, ⟨fun hk => by subst hk; rfl, ?_⟩, finish_takeResult_suppressed e kind delay coupled s, fun hf => ?_, fun i hpres hseg hserved => ?_,
      fun d hd => ?_, soft.frame.store.trans store, soft.frame.now.trans now, ?_, ?_⟩
    · rw [soft.frame.core e, takeRecord_core, ← retestAfter_resultState, EndRecord.withResult, ht]
      rfl
    · rintro (rfl | rfl | rfl) <;> rfl
    · refine last.chan_powerOn ?_ (takeResult_chan hf)
      rw [(takeResult_soft e kind delay coupled s).state, takeRecord_state, hf]
      rfl
    · have entry : (resultStopped e kind delay coupled s).entry i = s.entry i := by rw [State.entry, stopped.frame.store, store]; rfl
      rw [finish_takeResult] at hserved
      obtain ⟨-, reach⟩ := endAssigned_reaches (by rw [entry, hpres]) (by rw [entry, hseg]) hserved
      have same : ((resultStopped e kind delay coupled s).endRec e).reach = st.2 :=
        (congrArg EndRecord.reach ((stopped.frame.core e).trans (takeRecord_core e kind delay coupled s)) :)
      rwa [same, entry] at reach
    · rw [last.frame.core d, (takeResult_leaves e kind delay coupled s).core d hd]
    · have told := soft.frame.onlyTold .a
      rwa [link] at told
    · have told := soft.frame.onlyTold .b
      rwa [link] at told

end Sys2Proof.Machine
end

