-- ==== Sys2Proof/Proofs/ServingEnds.lean ====
section
/-! PROOF. The end that the serving assignment gives a post, and the row of a post that it changes (R69 to R71). O27. -/

namespace Sys2Proof.Machine

/-! ## The end that is assigned (R69) -/

/-- The post has a call that holds it to its end. -/
def CallHolds (s : State) (i : Slot) : Prop :=
  ∃ c st, s.callOf i = some c ∧ s.callState c = some st ∧ (st = .connecting ∨ st = .connected ∨ st = .parked)

theorem needsItsEnd_iff {st : CallState} : needsItsEnd st = true ↔ st = .connecting ∨ st = .connected ∨ st = .parked := by
  cases st <;> simp [needsItsEnd]

theorem heldOn_of_served {s : State} {i : Slot} {d : EndId} (hr : (s.post i).reach = .served d) (hc : CallHolds s i)
    (hs : d.seg = (s.entry i).place.seg) (ha : available s d (s.entry i).place.position = true) : heldOn s i = some d := by
  obtain ⟨c, st, call, state, needs⟩ := hc
  simp only [heldOn, hr, call, state, needsItsEnd_iff.mpr needs, hs, ha, decide_true, Bool.and_self, if_true]

theorem heldOn_some {s : State} {i : Slot} {d : EndId} (h : heldOn s i = some d) : (s.post i).reach = .served d ∧ CallHolds s i := by
  unfold heldOn at h
  split at h
  · rename_i e hr
    dsimp only at h
    simp only [Option.ite_none_right_eq_some, Option.some.injEq, Bool.and_eq_true] at h
    obtain ⟨⟨⟨holds, -⟩, -⟩, rfl⟩ := h
    refine ⟨hr, ?_⟩
    split at holds
    · split at holds
      · exact ⟨_, _, ‹_›, ‹_›, needsItsEnd_iff.mp holds⟩
      · cases holds
    · cases holds
  · cases h
  · cases h

theorem assignedReach_of_fitted {s : State} {i : Slot} (hp : (s.entry i).place.present = true)
    (hf : (s.segment (s.entry i).place.seg).fitted = true) : assignedReach s i = match heldOn s i with
      | some e => .served e
      | none =>
        if available s (primaryEnd s i) (s.entry i).place.position then .served (primaryEnd s i)
        else if available s (otherEnd (primaryEnd s i)) (s.entry i).place.position then .served (otherEnd (primaryEnd s i))
        else .isolated := by
  unfold assignedReach
  dsimp only
  exact if_pos (by simp [hp, hf])

/-- A segment has two ends. -/
theorem eq_or_eq_otherEnd {d e : EndId} (h : d.seg = e.seg) : d = e ∨ d = otherEnd e := by
  obtain ⟨_, side⟩ := d
  obtain ⟨_, side'⟩ := e
  dsimp only at h
  subst h
  cases side <;> cases side' <;> simp [otherEnd, otherSide]

theorem primaryEnd_side (s : State) (i : Slot) :
    (primaryEnd s i).side = .a ↔ (s.entry i).place.position < (s.segment (s.entry i).place.seg).split := by
  unfold primaryEnd
  dsimp only
  split <;> simp_all

theorem assignedReach_isolated_iff {s : State} {i : Slot} (hp : (s.entry i).place.present = true)
    (hf : (s.segment (s.entry i).place.seg).fitted = true) : assignedReach s i = .isolated ↔
      available s (primaryEnd s i) (s.entry i).place.position = false
        ∧ available s (otherEnd (primaryEnd s i)) (s.entry i).place.position = false := by
  rw [assignedReach_of_fitted hp hf]
  cases hh : heldOn s i with
  | none =>
    cases hprim : available s (primaryEnd s i) (s.entry i).place.position <;>
      cases hother : available s (otherEnd (primaryEnd s i)) (s.entry i).place.position <;> simp
  | some d =>
    obtain ⟨seg, avail⟩ := heldOn_available hh
    refine iff_of_false nofun fun ⟨hprim, hother⟩ => ?_
    rcases eq_or_eq_otherEnd (e := primaryEnd s i) seg with rfl | rfl
    · exact nomatch hprim.symm.trans avail
    · exact nomatch hother.symm.trans avail

/-- A post whose call does not hold it to an available end is assigned its primary end while that is available. -/
theorem assignedReach_primary {s : State} {i : Slot} (hp : (s.entry i).place.present = true)
    (hf : (s.segment (s.entry i).place.seg).fitted = true)
    (free : ∀ c st d, s.callOf i = some c → s.callState c = some st → (st = .connecting ∨ st = .connected ∨ st = .parked) →
      (s.post i).reach = .served d → d.seg = (s.entry i).place.seg → available s d (s.entry i).place.position = false)
    (ha : available s (primaryEnd s i) (s.entry i).place.position = true) : assignedReach s i = .served (primaryEnd s i) := by
  have unheld : heldOn s i = none := by
    cases hh : heldOn s i with
    | none => rfl
    | some d =>
      obtain ⟨reach, c, st, call, state, needs⟩ := heldOn_some hh
      obtain ⟨seg, avail⟩ := heldOn_available hh
      exact nomatch (free c st d call state needs reach seg).symm.trans avail
  rw [assignedReach_of_fitted hp hf, unheld]
  exact if_pos ha

/-- A call holds its post to the end that serves it. -/
theorem assignedReach_held {s : State} {i : Slot} {d : EndId} (hp : (s.entry i).place.present = true)
    (hf : (s.segment (s.entry i).place.seg).fitted = true) (hr : (s.post i).reach = .served d) (hc : CallHolds s i)
    (hs : d.seg = (s.entry i).place.seg) (ha : available s d (s.entry i).place.position = true) : assignedReach s i = .served d := by
  rw [assignedReach_of_fitted hp hf, heldOn_of_served hr hc hs ha]

/-! ## The row of a post that is changed (R70, R71) -/

theorem reassign_changed {s : State} {i : Slot} (h : assignedReach s i ≠ (s.post i).reach) :
    reassign i s = reachEffects i (s.post i).reach (assignedReach s i) (setReach i (assignedReach s i) s) := if_neg h

theorem setReach_post_same (i : Slot) (r : PostReach) (s : State) :
    (setReach i r s).post i = { s.post i with reach := r, hop := hopFor s r i, reply := .unproven, failures := 0 } := by
  rw [setReach, modPost_post_same]

theorem setReach_post_ne {i j : Slot} (h : i ≠ j) (r : PostReach) (s : State) : (setReach i r s).post j = s.post j := by
  rw [setReach, modPost_post_ne _ _ h]

theorem reassign_row {s : State} {i : Slot} (h : assignedReach s i ≠ (s.post i).reach) :
    ((reassign i s).post i).reach = assignedReach s i ∧ ((reassign i s).post i).hop = hopFor s (assignedReach s i) i
      ∧ ((reassign i s).post i).reply = .unproven ∧ ((reassign i s).post i).failures = 0 := by
  have rows := (Calm.reachEffects i (s.post i).reach (assignedReach s i) (setReach i (assignedReach s i) s)).rows i
  rw [← reassign_changed h, setReach_post_same] at rows
  simp only [PostRow.steady, PostRow.mk.injEq] at rows
  obtain ⟨reach, hop, reply, failures, -⟩ := rows
  exact ⟨reach, hop, reply, failures⟩

theorem reassign_other_row {s : State} {i j : Slot} (h : assignedReach s i ≠ (s.post i).reach) (hj : j ≠ i) :
    ((reassign i s).post j).reach = (s.post j).reach ∧ ((reassign i s).post j).hop = (s.post j).hop := by
  have calm := Calm.reachEffects i (s.post i).reach (assignedReach s i) (setReach i (assignedReach s i) s)
  rw [← reassign_changed h] at calm
  have row := setReach_post_ne hj.symm (assignedReach s i) s
  exact ⟨(calm.reach j).trans (congrArg PostRow.reach row), (calm.hop j).trans (congrArg PostRow.hop row)⟩

/-! ## Whether a post is served -/

theorem servingEnd_of_served {s : State} {i : Slot} {e : EndId} (h : (s.post i).reach = .served e) : servingEnd s i = some e := by
  simp only [servingEnd, h]

theorem servingEnd_eq_none {s : State} {i : Slot} : servingEnd s i = none ↔ (s.post i).reach = .isolated ∨ (s.post i).reach = .unserved := by
  unfold servingEnd
  cases (s.post i).reach <;> simp

end Sys2Proof.Machine
end

