-- ==== Sys2Proof/Proofs/CallLines.lean ====
section
/-! PROOF. What the operations that follow a change of a post's reach make of a live call: no more than its line, and its state while it needs
an end; and no list gains an entry of a call (`LinesOnly`). Where no call loses a channel, a call whose entries are on one end keeps the
channel or the request that it has there (`LinesStay`). O27. -/

namespace Sys2Proof.Machine

/-! ## Calls and entries -/

/-- What becomes of a live call: its line, and its state within PARKED and CONNECTING while it needs an end. -/
structure LineOf (k k' : LiveCall) : Prop where
  slot : k'.slot = k.slot
  parties : k'.parties = k.parties
  stamp : k'.stamp = k.stamp
  state : k'.state = k.state ∨ needsItsEnd k.state = true ∧ (k'.state = .parked ∨ k'.state = .connecting)

namespace LineOf

variable {k l m : LiveCall}

theorem refl (k : LiveCall) : LineOf k k := ⟨rfl, rfl, rfl, .inl rfl⟩

theorem needs (h : LineOf k l) (hn : needsItsEnd l.state = true) : needsItsEnd k.state = true := by
  rcases h.state with same | ⟨needs, -⟩
  · rwa [← same]
  · exact needs

theorem trans (h : LineOf k l) (h' : LineOf l m) : LineOf k m := by
  refine ⟨h'.slot.trans h.slot, h'.parties.trans h.parties, h'.stamp.trans h.stamp, ?_⟩
  rcases h'.state with same | ⟨needs, state⟩
  · rw [same]
    exact h.state
  · exact .inr ⟨h.needs needs, state⟩

/-- A call that is PARKED or CONNECTING stays one of them. -/
theorem waiting (h : LineOf k l) (hk : k.state = .parked ∨ k.state = .connecting) : l.state = .parked ∨ l.state = .connecting := by
  rcases h.state with same | ⟨-, state⟩
  · rwa [same]
  · exact state

/-- A call that needs no end keeps its state. -/
theorem still (h : LineOf k l) (hk : needsItsEnd k.state = false) : l.state = k.state :=
  h.state.resolve_right fun ⟨needs, _⟩ => nomatch needs.symm.trans hk

end LineOf

/-- The call has an entry in the list of the end. -/
def entryOn (s : State) (d : EndId) (ref : CallRef) : Bool := (s.chan d).waiting.any (waitsFor ref)

/-- Live calls change no more than their lines, free records stay free, and no list gains an entry of a call. -/
structure LinesOnly (s t : State) : Prop where
  live : ∀ c k, s.liveCall c = some k → ∃ k', t.liveCall c = some k' ∧ LineOf k k'
  free : ∀ c, s.liveCall c = none → t.liveCall c = none
  refs : ∀ c, t.refOfRecord c = s.refOfRecord c
  entries : ∀ d ref, entryOn s d ref = false → entryOn t d ref = false

namespace LinesOnly

variable {s t u : State}

/-- An update of anything but the calls. -/
theorem of_calls (hc : t.calls = s.calls) (he : ∀ d ref, entryOn s d ref = false → entryOn t d ref = false) : LinesOnly s t := by
  have live := liveCall_congr hc
  exact ⟨fun c k hk => ⟨k, by rwa [live], .refl k⟩, fun c h => by rwa [live], fun c => by rw [State.refOfRecord, State.record, hc]; rfl, he⟩

/-- An update of neither the calls nor the Arbiter. -/
theorem of_kept (hc : t.calls = s.calls) (ha : t.arbiter = s.arbiter) : LinesOnly s t :=
  .of_calls hc fun d ref h => by rwa [entryOn, State.chan, ha]

theorem refl (s : State) : LinesOnly s s := of_kept rfl rfl

theorem trans (h : LinesOnly s t) (k : LinesOnly t u) : LinesOnly s u := by
  refine ⟨fun c a ha => ?_, fun c => k.free c ∘ h.free c, fun c => (k.refs c).trans (h.refs c), fun d ref => k.entries d ref ∘ h.entries d ref⟩
  obtain ⟨b, hb, line⟩ := h.live c a ha
  obtain ⟨b', hb', line'⟩ := k.live c b hb
  exact ⟨b', hb', line.trans line'⟩

/-- An operation after another, read as they are nested. -/
theorem andThen (k : LinesOnly t u) (h : LinesOnly s t) : LinesOnly s u := h.trans k

theorem of_ite {c : Prop} [Decidable c] (ht : LinesOnly s t) (hu : LinesOnly s u) : LinesOnly s (if c then t else u) := by
  split
  · exact ht
  · exact hu

theorem forEach {α : Type} {f : α → State → State} (h : ∀ a s, LinesOnly s (f a s)) :
    ∀ (l : List α) (s : State), LinesOnly s (Machine.forEach l f s)
  | [], s => .refl s
  | a :: l, s => (h a s).trans (forEach h l (f a s))

/-- An update of one call. -/
theorem modCall (c : CallIdx) (f : LiveCall → LiveCall) (s : State) (h : ∀ k, s.liveCall c = some k → LineOf k (f k)) :
    LinesOnly s (s.modCall c f) := by
  refine ⟨fun d k hk => ?_, fun d hd => ?_, fun d => modCall_refOfRecord s c d f, fun _ _ => id⟩
  · by_cases hc : c = d
    · subst hc
      exact ⟨f k, by simp [hk], h k hk⟩
    · exact ⟨k, by simpa [hc] using hk, .refl k⟩
  · by_cases hc : c = d
    · subst hc
      simp [hd]
    · simpa [hc] using hd

/-- An update of a list that adds no entry of a call. -/
theorem modChan (e : EndId) (f : ChannelEnd → ChannelEnd) (s : State)
    (h : ∀ r ref, r.waiting.any (waitsFor ref) = false → (f r).waiting.any (waitsFor ref) = false) : LinesOnly s (s.modChan e f) := by
  refine .of_calls rfl fun d ref hd => ?_
  unfold entryOn at *
  by_cases he : e = d
  · subst he
    rw [modChan_chan_same]
    exact h _ ref hd
  · rwa [modChan_chan_ne _ _ he]

theorem callOf (h : LinesOnly s t) (i : Slot) : t.callOf i = s.callOf i := by
  unfold State.callOf
  congr 1
  funext c
  cases hc : s.liveCall c with
  | none => rw [h.free c hc]
  | some k =>
    obtain ⟨k', hk', line⟩ := h.live c k hc
    rw [hk']
    dsimp only
    rw [line.slot]

end LinesOnly

/-! ## A call takes a channel (R100) -/

/-- The record of a call that takes a channel. -/
def LiveCall.taking (e : EndId) (c : Chan) (k : LiveCall) : LiveCall :=
  { k with channel := some (e, c), request := none, state := if k.state == .parked then .connecting else k.state
           resuming := k.state == .parked || k.resuming }

theorem LineOf.taking (e : EndId) (c : Chan) (k : LiveCall) : LineOf k (k.taking e c) := by
  refine ⟨rfl, rfl, rfl, ?_⟩
  cases hs : k.state <;> simp [LiveCall.taking, hs, needsItsEnd]

/-- The call has a channel of the end, or a request for one. -/
def OnEnd (f : EndId) (k : LiveCall) : Prop := (∃ ch, k.channel = some (f, ch)) ∨ ∃ kind, k.request = some (f, kind)

theorem OnEnd.taking (e : EndId) (c : Chan) (k : LiveCall) : OnEnd e (k.taking e c) := .inl ⟨c, rfl⟩

section
variable {s : State} {i : CallIdx} {k : LiveCall}

theorem reportParties_kept (i : CallIdx) (v : CallEvent) (n : CallReason) (s : State) :
    (reportParties i v n s).calls = s.calls ∧ (reportParties i v n s).arbiter = s.arbiter := by
  obtain ⟨-, calls, -, arbiter⟩ := reportCall_line i v n false (partyLinks s i) s
  exact ⟨calls, arbiter⟩

theorem callTakesChannel_modCall (hk : s.liveCall i = some k) (e : EndId) (c : Chan) :
    (callTakesChannel i e c s).calls = (s.modCall i (LiveCall.taking e c)).calls ∧ (callTakesChannel i e c s).arbiter = s.arbiter := by
  have placed (u : State) : (placeCommand k.slot (.connect c) u).calls = u.calls ∧ (placeCommand k.slot (.connect c) u).arbiter = u.arbiter := by
    obtain ⟨-, calls, -, arbiter, -⟩ := placeCommand_kept k.slot (.connect c) u
    exact ⟨calls, arbiter⟩
  unfold callTakesChannel
  rw [hk]
  dsimp only
  rw [(placed _).1, (placed _).2]
  split
  · rename_i parked
    rw [(reportParties_kept _ _ _ _).1, (reportParties_kept _ _ _ _).2]
    exact ⟨modCall_calls_of_live rfl hk (by simp [LiveCall.taking, parked]), rfl⟩
  · rename_i other
    exact ⟨modCall_calls_of_live rfl hk (by simp [LiveCall.taking, other]), rfl⟩

theorem callTakesChannel_taking (hk : s.liveCall i = some k) (e : EndId) (c : Chan) :
    (callTakesChannel i e c s).liveCall i = some (k.taking e c) := by
  rw [liveCall_congr (callTakesChannel_modCall hk e c).1]
  exact liveCall_modCall hk _

theorem callTakesChannel_other {j : CallIdx} (hj : i ≠ j) (e : EndId) (c : Chan) : (callTakesChannel i e c s).liveCall j = s.liveCall j := by
  cases hk : s.liveCall i with
  | none => simp only [callTakesChannel, hk]
  | some k =>
    rw [liveCall_congr (callTakesChannel_modCall hk e c).1]
    exact modCall_liveCall_ne s _ hj

theorem LinesOnly.callTakesChannel (i : CallIdx) (e : EndId) (c : Chan) (s : State) : LinesOnly s (Machine.callTakesChannel i e c s) := by
  cases hk : s.liveCall i with
  | none =>
    simp only [Machine.callTakesChannel, hk]
    exact .refl s
  | some k =>
    obtain ⟨calls, arbiter⟩ := callTakesChannel_modCall hk e c
    exact .andThen (.of_kept (s := s.modCall i (LiveCall.taking e c)) calls arbiter) (.modCall i _ s fun k _ => .taking e c k)

end

/-! ## Chains in which no call loses a channel -/

/-- The call has entries on no other end. -/
def EntriesAt (s : State) (c : CallIdx) (f : EndId) : Prop := ∀ d, d ≠ f → entryOn s d (s.refOfRecord c) = false

/-- Further, a call with entries on one end alone keeps its channel or its request there. -/
structure LinesStay (s t : State) : Prop extends LinesOnly s t where
  stays : ∀ c f k, EntriesAt s c f → s.liveCall c = some k → OnEnd f k → ∃ k', t.liveCall c = some k' ∧ OnEnd f k'

theorem EntriesAt.later {s t : State} {c : CallIdx} {f : EndId} (h : EntriesAt s c f) (k : LinesOnly s t) : EntriesAt t c f := fun d hd => by
  rw [k.refs]
  exact k.entries d _ (h d hd)

namespace LinesStay

variable {s t u : State}

theorem of_calls (hc : t.calls = s.calls) (he : ∀ d ref, entryOn s d ref = false → entryOn t d ref = false) : LinesStay s t :=
  ⟨.of_calls hc he, fun c f k _ hk hf => ⟨k, by rwa [liveCall_congr hc], hf⟩⟩

theorem of_kept (hc : t.calls = s.calls) (ha : t.arbiter = s.arbiter) : LinesStay s t :=
  .of_calls hc fun d ref h => by rwa [entryOn, State.chan, ha]

theorem refl (s : State) : LinesStay s s := of_kept rfl rfl

theorem trans (h : LinesStay s t) (k : LinesStay t u) : LinesStay s u := by
  refine ⟨h.toLinesOnly.trans k.toLinesOnly, fun c f a he ha hf => ?_⟩
  obtain ⟨b, hb, onEnd⟩ := h.stays c f a he ha hf
  exact k.stays c f b (he.later h.toLinesOnly) hb onEnd

/-- An operation after another, read as they are nested. -/
theorem andThen (k : LinesStay t u) (h : LinesStay s t) : LinesStay s u := h.trans k

theorem of_ite {c : Prop} [Decidable c] (ht : LinesStay s t) (hu : LinesStay s u) : LinesStay s (if c then t else u) := by
  split
  · exact ht
  · exact hu

theorem forEach {α : Type} {f : α → State → State} (h : ∀ a s, LinesStay s (f a s)) :
    ∀ (l : List α) (s : State), LinesStay s (Machine.forEach l f s)
  | [], s => .refl s
  | a :: l, s => (h a s).trans (forEach h l (f a s))

theorem modChan (e : EndId) (f : ChannelEnd → ChannelEnd) (s : State)
    (h : ∀ r ref, r.waiting.any (waitsFor ref) = false → (f r).waiting.any (waitsFor ref) = false) : LinesStay s (s.modChan e f) :=
  .of_calls rfl (LinesOnly.modChan e f s h).entries

theorem setHolder (e : EndId) (c : Chan) (h : Holder) (s : State) : LinesStay s (Machine.setHolder e c h s) := modChan e _ s fun _ _ => id

theorem modGroup (g : GroupId) (f : GroupRun → GroupRun) (s : State) : LinesStay s (s.modGroup g f) := of_kept rfl rfl

theorem placeCommand (i : Slot) (c : Command) (s : State) : LinesStay s (Machine.placeCommand i c s) := by
  obtain ⟨-, calls, -, arbiter, -⟩ := placeCommand_kept i c s
  exact of_kept calls arbiter

theorem setIdle (p : Activity → Bool) (i : Slot) (s : State) : LinesStay s (Machine.setIdle p i s) := by
  obtain ⟨calls, -, arbiter⟩ := CallsKept.setIdle p i s
  exact of_kept calls arbiter

theorem commandMember (g : GroupId) (c : Chan) (i : Slot) (s : State) : LinesStay s (Machine.commandMember g c i s) :=
  .andThen (modGroup g _ _) (.andThen (modGroup g _ _) (placeCommand i _ s))

theorem groupTakesChannel (g : GroupId) (e : EndId) (c : Chan) (s : State) : LinesStay s (Machine.groupTakesChannel g e c s) :=
  .andThen (forEach (commandMember g c) _ _) (modGroup g _ s)

/-- The rest of a list holds no entry that the list does not. -/
theorem setRest (e : EndId) {l : List Waiter} {s : State} (hl : ∀ w ∈ l, w ∈ (s.chan e).waiting) : LinesStay s (setWaiting e l s) := by
  refine .of_calls rfl fun d ref h => ?_
  unfold entryOn setWaiting at *
  by_cases he : e = d
  · subst he
    rw [modChan_chan_same, List.any_eq_false]
    exact fun w hw => List.any_eq_false.mp h w (hl w hw)
  · rwa [modChan_chan_ne _ _ he]

/-- A call that a grant is wanted for is named by its reference. -/
theorem refOfRecord_of_wants {ref : CallRef} (h : callWants s ref = true) : s.refOfRecord ref.index = ref := by
  unfold callWants liveRef at h
  split at h
  · rename_i hk
    split at hk
    · rename_i same
      rw [State.refOfRecord, same]
    · cases hk
  · cases h

/-- A channel handed to a waiting call is one of the end on which it waits. -/
theorem granted {e : EndId} {c : Chan} {ref : CallRef} {s v : State} (wants : callWants s ref = true) (waits : entryOn s e ref = true)
    (placed : LinesStay s v) (calls : v.calls = s.calls) : LinesStay s (callTakesChannel ref.index e c v) := by
  refine ⟨placed.toLinesOnly.trans (.callTakesChannel _ e c v), fun d f k he hk hf => ?_⟩
  have live : v.liveCall d = some k := by rwa [liveCall_congr calls]
  by_cases hd : ref.index = d
  · subst hd
    have same : e = f := by
      by_contra hef
      have none := he e hef
      rw [refOfRecord_of_wants wants] at none
      exact nomatch none.symm.trans waits
    subst same
    exact ⟨_, callTakesChannel_taking live e c, .taking e c k⟩
  · exact ⟨k, (callTakesChannel_other hd e c).trans live, hf⟩

theorem handOver (e : EndId) (c : Chan) :
    ∀ (l : List Waiter) (s : State), (∀ w ∈ l, w ∈ (s.chan e).waiting) → LinesStay s (Machine.handOver e c l s)
  | [], s, _ => .andThen (setHolder e c _ _) (setRest e nofun)
  | .call kd ref slot cls :: l, s, hl => by
    have rest : ∀ w ∈ l, w ∈ (s.chan e).waiting := fun w hw => hl w (List.mem_cons_of_mem _ hw)
    unfold Machine.handOver
    split
    · rename_i wants
      have waits : entryOn s e ref = true := List.any_eq_true.mpr ⟨_, hl _ List.mem_cons_self, by simp [waitsFor]⟩
      exact granted wants waits (.andThen (setHolder e c _ _) (setRest e rest)) rfl
    · exact handOver e c l s rest
  | .announce g _ :: l, s, hl => by
    have rest : ∀ w ∈ l, w ∈ (s.chan e).waiting := fun w hw => hl w (List.mem_cons_of_mem _ hw)
    unfold Machine.handOver
    refine .of_ite (.andThen (groupTakesChannel _ _ _ _) (.andThen (setHolder e c _ _) (setRest e rest))) ?_
    exact .andThen (handOver e c l _ rest) (modGroup g _ s)

theorem release (e : EndId) (c : Chan) (h : Holder) (s : State) : LinesStay s (Machine.release e c h s) :=
  .of_ite (handOver e c _ s fun _ => id) (.refl s)

/-! ### Members -/

theorem changeMember (g : GroupId) (i : Slot) (o : MemberOutcome) (p : Option CallRef) (s : State) :
    LinesStay s (Machine.changeMember g i o p s) := by
  have told (t : State) : LinesStay t (reportMember g p i t) := by
    unfold reportMember
    dsimp only
    split
    · exact .of_ite (of_kept rfl rfl) (.refl t)
    · exact .refl t
  exact .andThen (told _) (modGroup g _ s)

theorem releases (g : GroupId) (s : State) : LinesStay s (Machine.releases g s) :=
  forEach (fun e t => by
    unfold releaseIfDone
    split
    · exact .of_ite (.andThen (release _ _ _ _) (modGroup g _ t)) (.refl t)
    · exact .refl t) _ s

theorem dropMember (g : GroupId) (o : MemberOutcome) (p : Option CallRef) (i : Slot) (s : State) :
    LinesStay s (Machine.dropMember g o p i s) :=
  .andThen (changeMember g i _ _ _) (.trans (placeCommand i _ s) (.of_ite (setIdle _ i _) (.refl _)))

theorem groupPreempted (g : GroupId) (e : EndId) (ref : CallRef) (s : State) : LinesStay s (Machine.groupPreempted g e ref s) :=
  .andThen (releases g _) (.andThen (forEach (dropMember g _ _) _ _) (modGroup g _ s))

theorem any_insertWaiter (p : Waiter → Bool) (w : Waiter) (l : List Waiter) : (insertWaiter w l).any p = (p w || l.any p) := by
  induction l with
  | nil => rfl
  | cons v l ih =>
    unfold insertWaiter
    split
    · rfl
    · rw [List.any_cons, ih, List.any_cons, Bool.or_left_comm]

theorem requestForGroup (g : GroupId) (e : EndId) (s : State) : LinesStay s (Machine.requestForGroup g e s) := by
  unfold Machine.requestForGroup
  refine .of_ite ?_ (.refl s)
  split
  · exact forEach (fun i t => changeMember g i _ _ t) _ s
  · split
    · exact forEach (commandMember g _) _ s
    · refine .of_ite (modGroup g _ s) ?_
      split
      · exact .andThen (groupTakesChannel _ _ _ _) (setHolder e _ _ s)
      · refine .andThen (modGroup g _ _) (.of_calls rfl fun d ref h => ?_)
        unfold entryOn setWaiting at *
        by_cases he : e = d
        · subst he
          rw [modChan_chan_same, any_insertWaiter, h]
          rfl
        · rwa [modChan_chan_ne _ _ he]

theorem quitChannel (g : GroupId) (i : Slot) (s : State) : LinesStay s (Machine.quitChannel g i s) :=
  .trans (.of_ite (placeCommand i _ s) (.refl s)) (.of_ite (setIdle _ i _) (.refl _))

theorem moveMember (i : Slot) (e : EndId) (g : GroupId) (s : State) : LinesStay s (Machine.moveMember i e g s) := by
  have changed (o : MemberOutcome) : LinesStay s (Machine.changeMember g i o none (Machine.quitChannel g i s)) :=
    (quitChannel g i s).trans (changeMember g i o none _)
  unfold Machine.moveMember
  split
  · exact (commandMember g _ i s).trans (.of_ite (setIdle _ i _) (.refl _))
  · exact .of_ite (changed _) ((changed _).trans (.of_ite (.refl _) (requestForGroup g e _)))

theorem memberMoved (i : Slot) (s : State) : LinesStay s (Machine.memberMoved i s) := by
  unfold Machine.memberMoved
  split
  · exact forEach (fun g t => .of_ite ((moveMember i _ g t).trans (releases g _)) (.refl t)) _ s
  · exact .refl s

end LinesStay

/-! ## A post has left an end (R81) -/

theorem LineOf.losesChannel (k : LiveCall) : LineOf k { k with channel := none } := ⟨rfl, rfl, rfl, .inl rfl⟩
theorem LineOf.losesRequest (k : LiveCall) : LineOf k { k with request := none } := ⟨rfl, rfl, rfl, .inl rfl⟩

theorem LinesOnly.reportParties (i : CallIdx) (v : CallEvent) (n : CallReason) (s : State) : LinesOnly s (Machine.reportParties i v n s) := by
  obtain ⟨calls, arbiter⟩ := reportParties_kept i v n s
  exact of_kept calls arbiter

theorem liveCall_of_liveRef {s : State} {ref : CallRef} {k : LiveCall} (h : liveRef s ref = some k) : s.liveCall ref.index = some k := by
  unfold liveRef at h
  split at h
  · exact h
  · cases h

theorem LinesOnly.callLosesChannel (ref : CallRef) (r : CallReason) (s : State) : LinesOnly s (Machine.callLosesChannel ref r s) := by
  unfold Machine.callLosesChannel
  split
  · rename_i k hk
    split
    · rename_i hs
      refine .andThen (reportParties _ _ _ _) (.modCall _ _ s fun l hl => ?_)
      cases (liveCall_of_liveRef hk).symm.trans hl
      exact ⟨rfl, rfl, rfl, .inr ⟨needsItsEnd_iff.mpr (hs.elim (.inr ∘ .inl) .inl), .inl rfl⟩⟩
    · exact .modCall _ _ s fun l _ => .losesChannel l
  · exact .refl s

theorem LinesOnly.callLosesEntry (ref : CallRef) (s : State) : LinesOnly s (Machine.callLosesEntry ref s) := by
  unfold Machine.callLosesEntry
  split
  · exact .modCall _ _ s fun l _ => .losesRequest l
  · exact .refl s

theorem any_filter_waitsFor {ref ref' : CallRef} {l : List Waiter} (h : l.any (waitsFor ref) = false) :
    (l.filter fun w => !waitsFor ref' w).any (waitsFor ref) = false := by
  rw [List.any_eq_false] at h ⊢
  exact fun w hw => h w (List.mem_filter.mp hw).1

theorem LinesOnly.withdrawCall (e : EndId) (ref : CallRef) (s : State) : LinesOnly s (Machine.withdrawCall e ref s) :=
  .modChan e _ s fun _ _ h => any_filter_waitsFor h

/-- The second half of R81: the waiting entry of the post's call is removed. -/
def entryLeft (i : Slot) (e : EndId) (s : State) : State :=
  match entryOfPost i (s.chan e).waiting with
  | some ref => callLosesEntry ref (withdrawCall e ref s)
  | none => s

/-- The first half of R81: the channel of the post's call is released. -/
def channelLeft (i : Slot) (e : EndId) (r : CallReason) (s : State) : State :=
  match channelOfPost s e i with
  | some (c, ref) => callLosesChannel ref r (release e c (.call ref i) s)
  | none => s

theorem postLeft_eq (i : Slot) (e : EndId) (r : CallReason) (s : State) : postLeft i e r s = entryLeft i e (channelLeft i e r s) := rfl

theorem LinesOnly.entryLeft (i : Slot) (e : EndId) (s : State) : LinesOnly s (Machine.entryLeft i e s) := by
  unfold Machine.entryLeft
  split
  · exact .andThen (callLosesEntry _ _) (withdrawCall _ _ s)
  · exact .refl s

theorem LinesOnly.channelLeft (i : Slot) (e : EndId) (r : CallReason) (s : State) : LinesOnly s (Machine.channelLeft i e r s) := by
  unfold Machine.channelLeft
  split
  · exact .andThen (callLosesChannel _ _ _) (LinesStay.release _ _ _ s).toLinesOnly
  · exact .refl s

theorem LinesOnly.postLeft (i : Slot) (e : EndId) (r : CallReason) (s : State) : LinesOnly s (Machine.postLeft i e r s) :=
  (channelLeft i e r s).trans (entryLeft i e _)

/-! ## A request on an end (R76, R77) -/

/-- The call has its line on the end, or a request for it; no list of another end gains an entry of a call. -/
structure Requests (c : CallIdx) (f : EndId) (k : LiveCall) (s t : State) : Prop where
  line : ∃ l, t.liveCall c = some l ∧ LineOf k l ∧ OnEnd f l
  refs : t.refOfRecord c = s.refOfRecord c
  entries : ∀ d ref, d ≠ f → entryOn s d ref = false → entryOn t d ref = false

section
variable {s u : State} {c : CallIdx} {k k' : LiveCall} {f : EndId}

theorem Requests.after (h : LinesOnly s u) (hk : s.liveCall c = some k) {t : State} (ht : ∀ l, u.liveCall c = some l → Requests c f l u t) :
    Requests c f k s t := by
  obtain ⟨l, hl, line⟩ := h.live c k hk
  obtain ⟨⟨m, hm, line', onEnd⟩, refs, entries⟩ := ht l hl
  exact ⟨⟨m, hm, line.trans line', onEnd⟩, refs.trans (h.refs c), fun d ref hd he => entries d ref hd (h.entries d ref he)⟩

theorem Requests.taking (hk : s.liveCall c = some k) (ch : Chan) : Requests c f k s (callTakesChannel c f ch s) := by
  have only := LinesOnly.callTakesChannel c f ch s
  exact ⟨⟨_, callTakesChannel_taking hk f ch, .taking f ch k, .taking f ch k⟩, only.refs c, fun d ref _ => only.entries d ref⟩

theorem Requests.callWaits (hk : s.liveCall c = some k) (kd : RequestKind) : Requests c f k s (callWaits c f kd s) :=
  ⟨⟨_, liveCall_modCall hk _, ⟨rfl, rfl, rfl, .inl rfl⟩, .inr ⟨kd, rfl⟩⟩, modCall_refOfRecord s c c _, fun _ _ _ => id⟩

theorem Requests.grantOrWait (hk : s.liveCall c = some k) (kd : RequestKind) : Requests c f k s (grantOrWait c k' kd f s) := by
  unfold Machine.grantOrWait
  dsimp only
  split
  · rename_i ch _
    exact .after (LinesStay.setHolder f ch _ s).toLinesOnly hk fun l hl => .taking hl ch
  · split
    · rename_i ch g _
      refine .after (u := groupPreempted g f (s.refOfRecord c)
        (addPreempted f g (s.refOfRecord c) (setHolder f ch (.call (s.refOfRecord c) k'.slot) s))) ?_ hk fun l hl => .taking hl ch
      have added (t : State) : LinesStay t (addPreempted f g (s.refOfRecord c) t) := .modChan f _ t fun r _ h => by split <;> exact h
      exact (((LinesStay.setHolder f ch _ s).trans (added _)).trans (.groupPreempted g f _ _)).toLinesOnly
    · have waits : (setWaiting f (insertWaiter (.call kd (s.refOfRecord c) k'.slot k'.cls) (s.chan f).waiting) s).liveCall c = some k := hk
      obtain ⟨line, refs, -⟩ := Requests.callWaits (f := f) waits kd
      refine ⟨line, refs, fun d ref hd he => ?_⟩
      change ((setWaiting f _ s).chan d).waiting.any _ = false
      rwa [setWaiting, modChan_chan_ne _ _ hd.symm]

theorem Requests.requestForCall (hk : s.liveCall c = some k) (hh : holdsChannels (s.endRec f).state = true) (kd : RequestKind) :
    Requests c f k s (requestForCall c kd f s) := by
  unfold Machine.requestForCall
  rw [hk]
  dsimp only
  rw [if_neg (by simp [hh])]
  split
  · exact .taking hk _
  · split
    · exact .callWaits hk kd
    · refine .after (LinesOnly.forEach (fun x t => ?_) allEnds s) hk fun l hl => .grantOrWait hl kd
      exact .of_ite (.postLeft k.slot x .postMoved t) (.refl t)

/-- A call requests on the end that serves its post (R100). -/
theorem Requests.requestOnServing (hk : s.liveCall c = some k) (hr : (s.post k.slot).reach = .served f)
    (hh : holdsChannels (s.endRec f).state = true) (kd : RequestKind) : Requests c f k s (requestOnServing c kd s) := by
  unfold Machine.requestOnServing
  rw [hk]
  dsimp only
  rw [servingEnd_of_served hr]
  exact .requestForCall hk hh kd

end

end Sys2Proof.Machine
end

