-- ==== Sys2Proof/Proofs/MemberChanges.lean ====
section
/-! PROOF. The members of announcements while channels change hands and posts change ends (R119, R121, R126, R127): a channel handed to a group
makes AWAITING members COMMANDED and touches no other outcome (`MembersLater`); a post that is lost or moves gives its members theirs. O27. -/

namespace Sys2Proof.Machine

/-! ## The outcomes of a post in a group -/

/-- The outcomes of the members of a group that are of the post, in the order of the members. -/
def outcomesOf (s : State) (g : GroupId) (i : Slot) : List MemberOutcome :=
  ((s.group g).members.filter fun m => decide (m.slot = i)).map Member.outcome

theorem outcomeOf_eq_head? (s : State) (g : GroupId) (i : Slot) : outcomeOf s g i = (outcomesOf s g i).head? := by
  simp [outcomeOf, memberOf, outcomesOf, List.head?_filter]

theorem takingPart_iff_outcomes {s : State} {g : GroupId} {i : Slot} :
    takingPart s g i = true ↔ (s.group g).active = true ∧ ∃ o ∈ outcomesOf s g i, unsettled o = true := by
  rw [takingPart_iff]
  simp [outcomesOf, and_assoc]

/-- Every outcome of the post in the group is of the kind, and there is one. -/
def AllAre (P : MemberOutcome → Prop) (s : State) (g : GroupId) (i : Slot) : Prop :=
  outcomesOf s g i ≠ [] ∧ ∀ o ∈ outcomesOf s g i, P o

theorem AllAre.outcomeOf {P : MemberOutcome → Prop} {s : State} {g : GroupId} {i : Slot} (h : AllAre P s g i) :
    ∃ o, Machine.outcomeOf s g i = some o ∧ P o := by
  obtain ⟨some, all⟩ := h
  refine ⟨(outcomesOf s g i).head some, ?_, all _ (List.head_mem some)⟩
  rw [outcomeOf_eq_head?, List.head?_eq_some_head some]

theorem AllAre.imp {P Q : MemberOutcome → Prop} {s : State} {g : GroupId} {i : Slot} (h : AllAre P s g i) (hPQ : ∀ o, P o → Q o) :
    AllAre Q s g i := ⟨h.1, fun o ho => hPQ o (h.2 o ho)⟩

theorem outcomesOf_ne_nil_of_taking {s : State} {g : GroupId} {i : Slot} (h : takingPart s g i = true) : outcomesOf s g i ≠ [] := by
  obtain ⟨-, o, ho, -⟩ := takingPart_iff_outcomes.mp h
  exact List.ne_nil_of_mem ho

/-! ## One post's outcome is set -/

/-- The members of one post in one group take the outcome. -/
structure SetsOutcome (g : GroupId) (i : Slot) (o : MemberOutcome) (s t : State) : Prop where
  active : ∀ h, (t.group h).active = (s.group h).active
  same : outcomesOf t g i = (outcomesOf s g i).map fun _ => o
  other : ∀ h j, h ≠ g ∨ j ≠ i → outcomesOf t h j = outcomesOf s h j

theorem outcomesOf_congr {s t : State} {g : GroupId} (h : (t.group g).members = (s.group g).members) (i : Slot) :
    outcomesOf t g i = outcomesOf s g i := by rw [outcomesOf, h]; rfl

theorem outcomesOf_of_groups {s t : State} (h : t.groups = s.groups) (g : GroupId) (i : Slot) : outcomesOf t g i = outcomesOf s g i :=
  outcomesOf_congr (by rw [State.group, h]; rfl) i

theorem slot_after_modMember {f : Member → Member} (hf : ∀ m, (f m).slot = m.slot) (i j : Slot) :
    ((fun m : Member => decide (m.slot = j)) ∘ fun m => if m.slot = i then f m else m) = fun m => decide (m.slot = j) :=
  funext fun m => by by_cases h : m.slot = i <;> simp [h, hf]

theorem SetsOutcome.modMember (g : GroupId) (i : Slot) (o : MemberOutcome) (b : Bool) (s : State) :
    SetsOutcome g i o s (Machine.modMember g i (fun m => { m with outcome := o, leaving := b }) s) := by
  have slots := slot_after_modMember (f := fun m => { m with outcome := o, leaving := b }) (fun _ => rfl) i
  have members : ((Machine.modMember g i (fun m => { m with outcome := o, leaving := b }) s).group g).members =
      (s.group g).members.map fun m => if m.slot = i then { m with outcome := o, leaving := b } else m := by rw [modMember_group_same]
  refine ⟨fun h => ?_, ?_, fun h j hj => ?_⟩
  · by_cases hg : g = h
    · subst hg; rw [modMember_group_same]
    · rw [modMember_group_ne hg]
  · rw [outcomesOf, members, List.filter_map, slots, outcomesOf, List.map_map, List.map_map]
    refine List.map_congr_left fun m hm => ?_
    have slot : m.slot = i := by simpa using (List.mem_filter.mp hm).2
    simp [slot]
  · by_cases hg : g = h
    · subst hg
      have hji : j ≠ i := hj.resolve_left fun ne => ne rfl
      rw [outcomesOf, members, List.filter_map, slots, outcomesOf, List.map_map]
      refine List.map_congr_left fun m hm => ?_
      have slot : m.slot = j := by simpa using (List.mem_filter.mp hm).2
      simp [slot, hji]
    · exact outcomesOf_congr (by rw [modMember_group_ne hg]) j

/-- What comes before and after leaves the groups' members. -/
theorem SetsOutcome.between {g : GroupId} {i : Slot} {o : MemberOutcome} {s u v t : State} (h : SetsOutcome g i o u v)
    (hu : ∀ h, (u.group h).active = (s.group h).active ∧ (u.group h).members = (s.group h).members)
    (ht : ∀ h, (t.group h).active = (v.group h).active ∧ (t.group h).members = (v.group h).members) : SetsOutcome g i o s t := by
  obtain ⟨active, same, other⟩ := h
  refine ⟨fun h => (ht h).1.trans ((active h).trans (hu h).1), ?_, fun h j hj => ?_⟩
  · rw [outcomesOf_congr (ht g).2, same, outcomesOf_congr (hu g).2]
  · rw [outcomesOf_congr (ht h).2, other h j hj, outcomesOf_congr (hu h).2]

theorem membersKept_of_groups {s t : State} (h : t.groups = s.groups) (g : GroupId) :
    (t.group g).active = (s.group g).active ∧ (t.group g).members = (s.group g).members := by
  rw [State.group, h]
  exact ⟨rfl, rfl⟩

theorem SetsOutcome.commandMember (g : GroupId) (c : Chan) (i : Slot) (s : State) :
    SetsOutcome g i (.pending .commanded) s (commandMember g c i s) :=
  (SetsOutcome.modMember g i _ false _).between (membersKept_of_groups (placeCommand_kept i (.announce c) s).2.2.1) fun h => startLate_group g h _

theorem SetsOutcome.changeMember (g : GroupId) (i : Slot) (o : MemberOutcome) (p : Option CallRef) (s : State) :
    SetsOutcome g i o s (changeMember g i o p s) :=
  (SetsOutcome.modMember g i o false s).between (fun _ => ⟨rfl, rfl⟩) (membersKept_of_groups (reportMember_line p _).2)

theorem SetsOutcome.dropMember (g : GroupId) (i : Slot) (o : MemberOutcome) (p : Option CallRef) (s : State) :
    SetsOutcome g i o s (dropMember g o p i s) := by
  have placed := (placeCommand_kept i .announceEnd s).2.2.1
  refine (SetsOutcome.changeMember g i o p _).between (membersKept_of_groups ?_) fun _ => ⟨rfl, rfl⟩
  split
  · exact (CallsKept.setIdle _ i _).groups.trans placed
  · exact placed

section
variable {g : GroupId} {i : Slot} {o : MemberOutcome} {s t : State} (h : SetsOutcome g i o s t)
include h

theorem SetsOutcome.allAre (some : outcomesOf s g i ≠ []) : AllAre (· = o) t g i := by
  rw [AllAre, h.same]
  simpa using some

theorem SetsOutcome.takingPart_ne {k : GroupId} {j : Slot} (hk : k ≠ g ∨ j ≠ i) : takingPart t k j = takingPart s k j :=
  Bool.eq_iff_iff.mpr (by rw [takingPart_iff_outcomes, takingPart_iff_outcomes, h.active, h.other k j hk])

end

/-! ## Channels handed to groups (R79, R119) -/

/-- Outcomes stay, or those of a post with an AWAITING member become COMMANDED. -/
structure MembersLater (s t : State) : Prop where
  active : ∀ g, (t.group g).active = (s.group g).active
  outcomes : ∀ g i, outcomesOf t g i = outcomesOf s g i
    ∨ .pending .awaiting ∈ outcomesOf s g i ∧ outcomesOf t g i = (outcomesOf s g i).map fun _ => .pending .commanded

namespace MembersLater

variable {s t u : State} {g : GroupId} {i : Slot}

/-- An update that leaves the groups' members. -/
theorem of_members (h : ∀ g, (t.group g).active = (s.group g).active ∧ (t.group g).members = (s.group g).members) : MembersLater s t :=
  ⟨fun g => (h g).1, fun g i => .inl (outcomesOf_congr (h g).2 i)⟩

theorem of_groups (h : t.groups = s.groups) : MembersLater s t := of_members (membersKept_of_groups h)

theorem of_groupKept (h : ∀ g, GroupKept g s t) : MembersLater s t := of_members fun g => ⟨(h g).active, (h g).members⟩

theorem refl (s : State) : MembersLater s s := of_groups rfl

theorem trans (h : MembersLater s t) (k : MembersLater t u) : MembersLater s u := by
  refine ⟨fun g => (k.active g).trans (h.active g), fun g i => ?_⟩
  rcases k.outcomes g i with same | ⟨awaits, commanded⟩
  · rw [same]
    exact h.outcomes g i
  · rcases h.outcomes g i with before | ⟨-, before⟩
    · rw [before] at awaits commanded
      exact .inr ⟨awaits, commanded⟩
    · rw [before] at awaits
      obtain ⟨o, -, ho⟩ := List.mem_map.mp awaits
      cases ho

/-- An operation after another, read as they are nested. -/
theorem andThen (k : MembersLater t u) (h : MembersLater s t) : MembersLater s u := h.trans k

theorem of_ite {c : Prop} [Decidable c] (ht : MembersLater s t) (hu : MembersLater s u) : MembersLater s (if c then t else u) := by
  split
  · exact ht
  · exact hu

theorem forEach {α : Type} {f : α → State → State} (h : ∀ a s, MembersLater s (f a s)) :
    ∀ (l : List α) (s : State), MembersLater s (Machine.forEach l f s)
  | [], s => .refl s
  | a :: l, s => (h a s).trans (forEach h l (f a s))

theorem modGroup (g : GroupId) (f : GroupRun → GroupRun) (s : State) (hf : ∀ r, (f r).active = r.active ∧ (f r).members = r.members) :
    MembersLater s (s.modGroup g f) := of_members fun h => by
  by_cases hg : g = h
  · subst hg; rw [modGroup_group_same]; exact hf _
  · rw [modGroup_group_ne s _ hg]; exact ⟨rfl, rfl⟩

theorem modChan (e : EndId) (f : ChannelEnd → ChannelEnd) (s : State) : MembersLater s (s.modChan e f) := of_groups rfl

/-! ### What it leaves -/

theorem takingPart (h : MembersLater s t) (g : GroupId) (i : Slot) : Machine.takingPart t g i = Machine.takingPart s g i := by
  refine Bool.eq_iff_iff.mpr ?_
  rw [takingPart_iff_outcomes, takingPart_iff_outcomes, h.active]
  refine and_congr_right fun _ => ?_
  rcases h.outcomes g i with same | ⟨awaits, commanded⟩
  · rw [same]
  · refine iff_of_true ⟨.pending .commanded, ?_, rfl⟩ ⟨_, awaits, rfl⟩
    rw [commanded]
    exact List.mem_map.mpr ⟨_, awaits, rfl⟩

/-- A kind of outcomes stays that of the post, if AWAITING is not of it or COMMANDED is too. -/
theorem allAre {P : MemberOutcome → Prop} (h : MembersLater s t) (hP : P (.pending .awaiting) → P (.pending .commanded))
    (hs : AllAre P s g i) : AllAre P t g i := by
  obtain ⟨some, all⟩ := hs
  rcases h.outcomes g i with same | ⟨awaits, commanded⟩
  · rw [AllAre, same]
    exact ⟨some, all⟩
  · rw [AllAre, commanded]
    refine ⟨by simpa using some, fun o ho => ?_⟩
    obtain ⟨_, -, rfl⟩ := List.mem_map.mp ho
    exact hP (all _ awaits)

/-! ### The operations -/

/-- The post has a member that may be commanded: AWAITING, or COMMANDED already. -/
def MayCommand (s : State) (g : GroupId) (i : Slot) : Prop :=
  .pending .awaiting ∈ outcomesOf s g i ∨ ∀ o ∈ outcomesOf s g i, o = .pending .commanded

theorem commandMember {c : Chan} (h : MayCommand s g i) : MembersLater s (Machine.commandMember g c i s) := by
  obtain ⟨active, same, other⟩ := SetsOutcome.commandMember g c i s
  refine ⟨active, fun k j => ?_⟩
  by_cases hk : k = g ∧ j = i
  · obtain ⟨rfl, rfl⟩ := hk
    rcases h with awaits | all
    · exact .inr ⟨awaits, same⟩
    · refine .inl (same.trans ?_)
      conv_rhs => rw [← List.map_id (outcomesOf s k j)]
      exact List.map_congr_left fun o ho => (all o ho).symm
  · exact .inl (other k j (by tauto))

theorem mayCommand_later (h : MembersLater s t) (hs : MayCommand s g i) : MayCommand t g i := by
  unfold MayCommand at *
  rcases h.outcomes g i with same | ⟨-, commanded⟩
  · rwa [same]
  · refine .inr fun o ho => ?_
    rw [commanded] at ho
    obtain ⟨_, -, rfl⟩ := List.mem_map.mp ho
    rfl

theorem commandEach (g : GroupId) (c : Chan) :
    ∀ (l : List Slot) (s : State), (∀ i ∈ l, MayCommand s g i) → MembersLater s (Machine.forEach l (Machine.commandMember g c) s)
  | [], s, _ => .refl s
  | i :: l, s, h => by
    have first : MembersLater s (Machine.commandMember g c i s) := commandMember (h i List.mem_cons_self)
    exact first.trans (commandEach g c l _ fun j hj => mayCommand_later first (h j (List.mem_cons_of_mem i hj)))

theorem mayCommand_of_awaiting {e : EndId} (h : i ∈ awaitingOn s g e) : MayCommand s g i := by
  simp only [awaitingOn, List.mem_map, List.mem_filter, Bool.and_eq_true, decide_eq_true_eq] at h
  obtain ⟨m, ⟨hm, ho, -⟩, rfl⟩ := h
  exact .inl (List.mem_map.mpr ⟨m, List.mem_filter.mpr ⟨hm, by simp⟩, ho⟩)

theorem commandAwaiting (g : GroupId) (e : EndId) (c : Chan) (s : State) :
    MembersLater s (Machine.forEach (awaitingOn s g e) (Machine.commandMember g c) s) := commandEach g c _ s fun _ => mayCommand_of_awaiting

theorem groupTakesChannel (g : GroupId) (e : EndId) (c : Chan) (s : State) : MembersLater s (Machine.groupTakesChannel g e c s) :=
  .andThen (commandAwaiting g e c _) (modGroup g _ s fun _ => ⟨rfl, rfl⟩)

theorem callTakesChannel (c : CallIdx) (e : EndId) (ch : Chan) (s : State) : MembersLater s (Machine.callTakesChannel c e ch s) :=
  of_groupKept fun g => .callTakesChannel g c e ch s

theorem handOver (e : EndId) (c : Chan) : ∀ (l : List Waiter) (s : State), MembersLater s (Machine.handOver e c l s)
  | [], s => .andThen (modChan e _ _) (modChan e _ s)
  | .call _ _ _ _ :: l, s => by
    unfold Machine.handOver
    exact .of_ite (.andThen (callTakesChannel _ _ _ _) (.andThen (modChan e _ _) (modChan e _ s))) (handOver e c l s)
  | .announce g _ :: l, s => by
    unfold Machine.handOver
    refine .of_ite (.andThen (groupTakesChannel _ _ _ _) (.andThen (modChan e _ _) (modChan e _ s))) ?_
    exact .andThen (handOver e c l _) (modGroup g _ s fun _ => ⟨rfl, rfl⟩)

theorem release (e : EndId) (c : Chan) (h : Holder) (s : State) : MembersLater s (Machine.release e c h s) :=
  .of_ite (handOver e c _ s) (.refl s)

theorem releases (g : GroupId) (s : State) : MembersLater s (Machine.releases g s) :=
  forEach (fun e t => by
    unfold releaseIfDone
    split
    · exact .of_ite (.andThen (release _ _ _ _) (modGroup g _ t fun _ => ⟨rfl, rfl⟩)) (.refl t)
    · exact .refl t) _ s

end MembersLater

/-! ## A post has left an end (R81) -/

theorem reportParties_groups (i : CallIdx) (v : CallEvent) (n : CallReason) (s : State) : (reportParties i v n s).groups = s.groups := by
  obtain ⟨-, -, groups, -⟩ := reportCall_line i v n false (partyLinks s i) s
  exact groups

theorem callLosesChannel_groups (ref : CallRef) (r : CallReason) (s : State) : (callLosesChannel ref r s).groups = s.groups := by
  unfold callLosesChannel
  split
  · split
    · exact reportParties_groups _ _ _ _
    · rfl
  · rfl

theorem entryLeft_groups (i : Slot) (e : EndId) (s : State) : (entryLeft i e s).groups = s.groups := by
  unfold entryLeft callLosesEntry
  split
  · split <;> rfl
  · rfl

theorem MembersLater.postLeft (i : Slot) (e : EndId) (r : CallReason) (s : State) : MembersLater s (postLeft i e r s) := by
  rw [postLeft_eq]
  refine .andThen (.of_groups (entryLeft_groups i e _)) ?_
  unfold channelLeft
  split
  · exact .andThen (.of_groups (callLosesChannel_groups _ _ _)) (.release _ _ _ s)
  · exact .refl s

/-! ## The channel that a group holds of another end -/

/-- The groups' channels of the end stay, and their READY. -/
def HeldKept (d : EndId) (s t : State) : Prop :=
  ∀ g, heldOnEnd (t.group g) d = heldOnEnd (s.group g) d ∧ (t.group g).readySent = (s.group g).readySent

namespace HeldKept

variable {d : EndId} {s t u : State}

theorem of_groups (h : t.groups = s.groups) : HeldKept d s t := fun g => by rw [State.group, h]; exact ⟨rfl, rfl⟩
theorem refl (s : State) : HeldKept d s s := of_groups rfl
theorem trans (h : HeldKept d s t) (k : HeldKept d t u) : HeldKept d s u :=
  fun g => ⟨(k g).1.trans (h g).1, (k g).2.trans (h g).2⟩

/-- An operation after another, read as they are nested. -/
theorem andThen (k : HeldKept d t u) (h : HeldKept d s t) : HeldKept d s u := h.trans k

theorem of_ite {c : Prop} [Decidable c] (ht : HeldKept d s t) (hu : HeldKept d s u) : HeldKept d s (if c then t else u) := by
  split
  · exact ht
  · exact hu

theorem modGroup (g : GroupId) (f : GroupRun → GroupRun) (s : State)
    (hf : ∀ r, heldOnEnd (f r) d = heldOnEnd r d ∧ (f r).readySent = r.readySent) : HeldKept d s (s.modGroup g f) := fun h => by
  by_cases hg : g = h
  · subst hg; rw [modGroup_group_same]; exact hf _
  · rw [modGroup_group_ne s _ hg]; exact ⟨rfl, rfl⟩

theorem commandMember (g : GroupId) (c : Chan) (i : Slot) (s : State) : HeldKept d s (Machine.commandMember g c i s) := by
  have late (t : State) : HeldKept d t (startLate g t) := modGroup g _ t fun r => by split <;> exact ⟨rfl, rfl⟩
  have member (t : State) : HeldKept d t (modMember g i (fun m => { m with outcome := .pending .commanded, leaving := false }) t) :=
    modGroup g _ t fun _ => ⟨rfl, rfl⟩
  exact .andThen (late _) (.andThen (member _) (.of_groups (placeCommand_kept i _ s).2.2.1))

theorem groupTakesChannel {e : EndId} (he : e ≠ d) (g : GroupId) (c : Chan) (s : State) : HeldKept d s (Machine.groupTakesChannel g e c s) := by
  have taken : HeldKept d s (s.modGroup g fun r => { r with held := r.held ++ [(e, c)], waiting := r.waiting.filter fun x => decide (x ≠ e) }) :=
    modGroup g _ s fun r => ⟨by simp [heldOnEnd, List.find?_append, he], rfl⟩
  exact forEach_invariant (I := HeldKept d s) (fun i t h => h.trans (commandMember g c i t)) _ _ taken

theorem callTakesChannel (i : CallIdx) (e : EndId) (c : Chan) (s : State) : HeldKept d s (Machine.callTakesChannel i e c s) := by
  unfold Machine.callTakesChannel
  split
  · refine .andThen (.of_groups (placeCommand_kept _ _ _).2.2.1) (.andThen (.of_ite (.of_groups (reportParties_groups _ _ _ _)) (.refl _)) ?_)
    exact .of_groups rfl
  · exact .refl s

theorem handOver {e : EndId} (he : e ≠ d) (c : Chan) : ∀ (l : List Waiter) (s : State), HeldKept d s (Machine.handOver e c l s)
  | [], s => .of_groups rfl
  | .call _ ref slot _ :: l, s => by
    unfold Machine.handOver
    exact .of_ite (.andThen (callTakesChannel _ _ _ _) (.of_groups rfl)) (handOver he c l s)
  | .announce g _ :: l, s => by
    unfold Machine.handOver
    refine .of_ite (.andThen (groupTakesChannel he _ _ _) (.of_groups rfl)) ?_
    exact .andThen (handOver he c l _) (modGroup g _ s fun _ => ⟨rfl, rfl⟩)

theorem postLeft {e : EndId} (he : e ≠ d) (i : Slot) (r : CallReason) (s : State) : HeldKept d s (Machine.postLeft i e r s) := by
  rw [postLeft_eq]
  refine .andThen (.of_groups (entryLeft_groups i e _)) ?_
  unfold channelLeft
  split
  · exact .andThen (.of_groups (callLosesChannel_groups _ _ _)) (.of_ite (handOver he _ _ s) (.refl s))
  · exact .refl s

end HeldKept

/-! ## A post is lost (R127) -/

/-- The members of the post in the group are UNREACHABLE. -/
def Lost (g : GroupId) (i : Slot) (s : State) : Prop := AllAre (· = .unreachable) s g i

theorem MembersLater.lost {s t : State} {g : GroupId} {i : Slot} (h : MembersLater s t) (hs : Lost g i s) : Lost g i t := h.allAre nofun hs

/-- A group loses its member of the post. -/
def loseMember (i : Slot) (g : GroupId) (s : State) : State := releases g (dropMember g .unreachable none i s)

theorem loseMember_lost {s : State} {g : GroupId} {i : Slot} (h : takingPart s g i = true) : Lost g i (loseMember i g s) :=
  (MembersLater.releases g _).lost ((SetsOutcome.dropMember g i .unreachable none s).allAre (outcomesOf_ne_nil_of_taking h))

theorem takingPart_loseMember {g k : GroupId} (hk : k ≠ g) (i : Slot) (s : State) : takingPart (loseMember i k s) g i = takingPart s g i :=
  ((MembersLater.releases k _).takingPart g i).trans ((SetsOutcome.dropMember k i .unreachable none s).takingPart_ne (.inl hk.symm))

theorem Lost.loseMember {s : State} {g k : GroupId} {i : Slot} (hk : k ≠ g) (h : Lost g i s) : Lost g i (loseMember i k s) := by
  refine (MembersLater.releases k _).lost ?_
  rw [Lost, AllAre, (SetsOutcome.dropMember k i .unreachable none s).other g i (.inl hk.symm)]
  exact h

/-- The pass of `memberLost` over one group. -/
def loseTaking (i : Slot) (g : GroupId) (s : State) : State := if takingPart s g i then loseMember i g s else s

theorem loseTaking_same {s : State} {g : GroupId} {i : Slot} (h : takingPart s g i = true ∨ Lost g i s) : Lost g i (loseTaking i g s) := by
  unfold loseTaking
  split
  · exact loseMember_lost ‹_›
  · exact h.resolve_left ‹_›

theorem loseTaking_other {s : State} {g k : GroupId} {i : Slot} (hk : k ≠ g) (h : takingPart s g i = true ∨ Lost g i s) :
    takingPart (loseTaking i k s) g i = true ∨ Lost g i (loseTaking i k s) := by
  unfold loseTaking
  split
  · exact h.imp (takingPart_loseMember hk i s).trans (Lost.loseMember hk)
  · exact h

theorem Lost.loseTaking {s : State} {g k : GroupId} {i : Slot} (h : Lost g i s) : Lost g i (loseTaking i k s) := by
  by_cases hk : k = g
  · subst hk
    exact loseTaking_same (.inr h)
  · unfold Machine.loseTaking
    split
    · exact h.loseMember hk
    · exact h

theorem memberLost_eq (i : Slot) (s : State) : memberLost i s = forEach (allFin 16) (loseTaking i) s := rfl

/-- A post that is lost leaves its members UNREACHABLE. -/
theorem memberLost_unreachable {s : State} {g : GroupId} {i : Slot} (h : takingPart s g i = true) :
    outcomeOf (memberLost i s) g i = some .unreachable := by
  have all : Lost g i (memberLost i s) := by
    rw [memberLost_eq]
    refine forEach_brings (f := loseTaking i) (I := fun t => takingPart t g i = true ∨ Lost g i t) (P := Lost g i) (a := g) (fun k t ht => ?_)
      (fun _ => loseTaking_same) (fun _ _ _ => Lost.loseTaking) (allFin 16) s (.inl h) (.inl (mem_allFin g))
    by_cases hk : k = g
    · subst hk
      exact .inr (loseTaking_same ht)
    · exact loseTaking_other hk ht
  obtain ⟨_, outcome, rfl⟩ := all.outcomeOf
  exact outcome

/-! ## A post moves to its other end (R126) -/

/-- What may become of a member that the end has no channel for: PREEMPTED or PENDING. -/
def MayWait (o : MemberOutcome) : Prop := o = .preempted ∨ ∃ phase, o = .pending phase

theorem quitChannel_groups (g : GroupId) (i : Slot) (s : State) : (quitChannel g i s).groups = s.groups := by
  unfold quitChannel
  dsimp only
  have placed : (if hasCommand s g i = true then placeCommand i .announceEnd s else s).groups = s.groups := by
    split
    · exact (placeCommand_kept i _ s).2.2.1
    · rfl
  split
  · exact (CallsKept.setIdle _ i _).groups.trans placed
  · exact placed

/-- The request of a group for a channel changes members of that group alone, and a waiting member waits or is PREEMPTED (R78, R119). -/
theorem requestForGroup_waits {s : State} {g : GroupId} {i : Slot} (e : EndId) (h : AllAre MayWait s g i) :
    AllAre MayWait (requestForGroup g e s) g i := by
  have commanded : MayWait (.pending .awaiting) → MayWait (.pending .commanded) := fun _ => .inr ⟨_, rfl⟩
  have kept {t u : State} (k : MembersLater t u) (ht : AllAre MayWait t g i) : AllAre MayWait u g i := k.allAre commanded ht
  have joined (t : State) : MembersLater t (joinWaiting g e t) := .modGroup g _ t fun r => by split <;> exact ⟨rfl, rfl⟩
  unfold requestForGroup
  split
  · split
    · rename_i ref _
      refine forEach_invariant (I := fun t => AllAre MayWait t g i) (fun j t ht => ?_) _ s h
      have sets := SetsOutcome.changeMember g j .preempted (some ref) t
      by_cases hj : i = j
      · subst hj
        exact (sets.allAre ht.1).imp fun _ => .inl
      · rw [AllAre, sets.other g i (.inr hj)]
        exact ht
    · split
      · exact kept (.commandAwaiting g e _ s) h
      · split
        · exact kept (joined s) h
        · split
          · exact kept (.andThen (.groupTakesChannel g e _ _) (.modChan e _ s)) h
          · exact kept (.andThen (joined _) (.modChan e _ s)) h
  · exact h

/-- The outcome of a member whose post moves, by what its group holds of the new end and by READY (R126). -/
def MovedOutcome (held : Option Chan) (ready : Bool) (o : MemberOutcome) : Prop :=
  match held, ready with
  | some _, _ => o = .pending .commanded
  | none, true => o = .noChannel
  | none, false => MayWait o

theorem moveMember_outcome {s : State} {g : GroupId} {i : Slot} (e : EndId) (h : outcomesOf s g i ≠ []) :
    AllAre (MovedOutcome (heldOnEnd (s.group g) e) (s.group g).readySent) (moveMember i e g s) g i := by
  have quit : outcomesOf (quitChannel g i s) g i ≠ [] := by rwa [outcomesOf_of_groups (quitChannel_groups g i s)]
  have changed (o : MemberOutcome) : AllAre (· = o) (changeMember g i o none (quitChannel g i s)) g i :=
    (SetsOutcome.changeMember g i o none _).allAre quit
  unfold moveMember MovedOutcome
  cases heldOnEnd (s.group g) e with
  | some c =>
    have sets := (SetsOutcome.commandMember g c i s).allAre h
    dsimp only
    split
    · exact (MembersLater.of_groups (CallsKept.setIdle _ i _).groups).allAre nofun sets
    · exact sets
  | none =>
    cases (s.group g).readySent with
    | true => exact changed .noChannel
    | false =>
      have waits := (changed (.pending .awaiting)).imp (Q := MayWait) fun o ho => .inr ⟨_, ho⟩
      dsimp only
      rw [if_neg (by decide)]
      split
      · exact waits
      · exact requestForGroup_waits e waits

/-- An outcome of R126 stays one while channels change hands. -/
theorem MembersLater.moved {s t : State} (h : MembersLater s t) {held : Option Chan} {ready : Bool} {g : GroupId} {i : Slot}
    (hs : AllAre (MovedOutcome held ready) s g i) : AllAre (MovedOutcome held ready) t g i := by
  refine h.allAre (fun awaiting => ?_) hs
  cases held with
  | some c => rfl
  | none =>
    cases ready with
    | true => cases awaiting
    | false => exact .inr ⟨_, rfl⟩

/-- The members of one group alone change as a post moves. -/
theorem moveMember_other {s : State} {g k : GroupId} (hk : k ≠ g) (i : Slot) (e : EndId) : takingPart (moveMember i e g s) k i = takingPart s k i := by
  have commands (l : List Slot) (c : Chan) (t : State) : takingPart (forEach l (commandMember g c) t) k i = takingPart t k i :=
    forEach_unchanged (fun t => takingPart t k i) (fun j t => (SetsOutcome.commandMember g c j t).takingPart_ne (.inl hk)) l t
  have quit (o : MemberOutcome) : takingPart (changeMember g i o none (quitChannel g i s)) k i = takingPart s k i :=
    ((SetsOutcome.changeMember g i o none _).takingPart_ne (.inl hk)).trans ((MembersLater.of_groups (quitChannel_groups g i s)).takingPart k i)
  have joined (t : State) : takingPart (joinWaiting g e t) k i = takingPart t k i :=
    (MembersLater.modGroup g _ t fun r => by split <;> exact ⟨rfl, rfl⟩).takingPart k i
  have requests (t : State) : takingPart (requestForGroup g e t) k i = takingPart t k i := by
    unfold requestForGroup
    split
    · split
      · exact forEach_unchanged (fun t => takingPart t k i) (fun j t => (SetsOutcome.changeMember g j .preempted _ t).takingPart_ne (.inl hk)) _ t
      · split
        · exact commands _ _ t
        · split
          · exact joined t
          · split
            · exact (MembersLater.andThen (.groupTakesChannel g e _ _) (.modChan e _ t)).takingPart k i
            · exact (joined _).trans ((MembersLater.modChan e _ t).takingPart k i)
    · rfl
  unfold moveMember
  split
  · have sets := (SetsOutcome.commandMember g ‹Chan› i s).takingPart_ne (k := k) (j := i) (.inl hk)
    dsimp only
    split
    · exact ((MembersLater.of_groups (CallsKept.setIdle _ i _).groups).takingPart k i).trans sets
    · exact sets
  · split
    · exact quit _
    · dsimp only
      split
      · exact quit _
      · exact (requests _).trans (quit _)

/-- A loop through a list that holds a once: what stands before a's pass, what it brings, and what the other passes keep. -/
theorem forEach_at {α : Type} {I J : State → Prop} {f : α → State → State} {a : α} (before : ∀ b s, b ≠ a → I s → I (f b s))
    (here : ∀ s, I s → J (f a s)) (after : ∀ b s, b ≠ a → J s → J (f b s)) :
    ∀ (l : List α) (s : State), l.Nodup → (a ∈ l ∧ I s) ∨ (a ∉ l ∧ J s) → J (forEach l f s)
  | [], s, _, h => by
    rcases h with ⟨mem, -⟩ | ⟨-, hj⟩
    · cases mem
    · exact hj
  | b :: l, s, nodup, h => by
    obtain ⟨fresh, rest⟩ := List.nodup_cons.mp nodup
    refine forEach_at before here after l (f b s) rest ?_
    by_cases hb : b = a
    · subst hb
      rcases h with ⟨-, hi⟩ | ⟨absent, -⟩
      · exact .inr ⟨fresh, here s hi⟩
      · exact absurd List.mem_cons_self absent
    · rcases h with ⟨mem, hi⟩ | ⟨absent, hj⟩
      · exact .inl ⟨(List.mem_cons.mp mem).resolve_left fun same => hb same.symm, before b s hb hi⟩
      · exact .inr ⟨fun mem => absent (List.mem_cons_of_mem b mem), after b s hb hj⟩

/-- A post that takes part in one group alone moves: that group's member has its outcome by R126. -/
theorem memberMoved_outcome {s : State} {g : GroupId} {i : Slot} {e : EndId} (hr : (s.post i).reach = .served e) (h : takingPart s g i = true)
    (alone : ∀ k, k ≠ g → takingPart s k i = false) :
    ∃ o, outcomeOf (memberMoved i s) g i = some o ∧ MovedOutcome (heldOnEnd (s.group g) e) (s.group g).readySent o := by
  have skip (k : GroupId) (t : State) (absent : takingPart t k i = false) :
      (if takingPart t k i then releases k (moveMember i e k t) else t) = t := if_neg (by simp [absent])
  have all : AllAre (MovedOutcome (heldOnEnd (s.group g) e) (s.group g).readySent) (memberMoved i s) g i := by
    unfold memberMoved forGroupsOf
    rw [servingEnd_of_served hr]
    dsimp only
    refine (forEach_at (I := fun t => t = s) (J := fun t => AllAre (MovedOutcome (heldOnEnd (s.group g) e) (s.group g).readySent) t g i
      ∧ ∀ k, k ≠ g → takingPart t k i = false) (a := g) (fun k t hk ht => ?_) (fun t ht => ?_) (fun k t hk ht => ?_) (allFin 16) s
      (allFin_nodup 16) (.inl ⟨mem_allFin g, rfl⟩)).1
    · subst ht
      exact skip k t (alone k hk)
    · subst ht
      rw [if_pos h]
      have later := MembersLater.releases g (moveMember i e g t)
      refine ⟨later.moved (moveMember_outcome e (outcomesOf_ne_nil_of_taking h)), fun k hk => ?_⟩
      rw [later.takingPart, moveMember_other hk, alone k hk]
    · rw [skip k t (ht.2 k hk)]
      exact ht
  exact all.outcomeOf

end Sys2Proof.Machine
end

