-- ==== Sys2Proof/Proofs/LostAndServedCalls.lean ====
section
/-! PROOF. The call of a post that is lost and of one that is served again (R110), and the call of a post that moves or takes a new hop
(R109, R111). O27. -/

namespace Sys2Proof.Machine

/-! ## The post is lost (R110) -/

/-- What becomes of the call of a post that is lost, CLEARING or not. -/
def LiveCall.lost (k : LiveCall) : LiveCall :=
  if k.state = .clearing ∨ k.state = .lineLost then k
  else if k.state = .offered then { k with state := .lineLost, offered := .empty, timer := stopOverflowTimer k.timer }
  else { k with state := .lineLost, channel := none, request := none }

/-- The call is LINE LOST: its line is given up unless it was OFFERED or LINE LOST, its offers if it was OFFERED. -/
structure LostCall (k l : LiveCall) : Prop where
  state : l.state = .lineLost
  parties : l.parties = k.parties
  stamp : l.stamp = k.stamp
  unoffered : k.state = .offered → l.offered = .empty
  offLine : k.state ≠ .offered → k.state ≠ .lineLost → l.channel = none ∧ l.request = none

theorem LostCall.lost {k : LiveCall} (h : k.state ≠ .clearing) : LostCall k k.lost := by
  unfold LiveCall.lost
  by_cases hl : k.state = .lineLost
  · rw [if_pos (.inr hl)]
    exact ⟨hl, rfl, rfl, fun ho => (nomatch ho.symm.trans hl), fun _ hn => absurd hl hn⟩
  · rw [if_neg (by simp [h, hl])]
    by_cases ho : k.state = .offered
    · rw [if_pos ho]
      exact ⟨rfl, rfl, rfl, fun _ => rfl, fun hn => absurd ho hn⟩
    · rw [if_neg ho]
      exact ⟨rfl, rfl, rfl, fun hs => absurd hs ho, fun _ _ => ⟨rfl, rfl⟩⟩

/-- A state that needs no end is had before and after or neither. -/
theorem LineOf.idle_iff {k l : LiveCall} (h : LineOf k l) {st : CallState} (hst : needsItsEnd st = false) : l.state = st ↔ k.state = st := by
  constructor <;> rintro rfl
  · refine (h.state.resolve_right fun ⟨_, state⟩ => ?_).symm
    rcases state with state | state <;> exact absurd hst (by simp [state, needsItsEnd])
  · exact h.still hst

theorem LostCall.of_line {k k' l : LiveCall} (line : LineOf k k') (h : LostCall k' l) : LostCall k l := by
  obtain ⟨state, parties, stamp, unoffered, offLine⟩ := h
  refine ⟨state, parties.trans line.parties, stamp.trans line.stamp, fun ho => unoffered ((line.idle_iff rfl).mpr ho), fun ho hl => ?_⟩
  exact offLine (ho ∘ (line.idle_iff rfl).mp) (hl ∘ (line.idle_iff rfl).mp)

theorem withdrawOffers_kept (c : CallIdx) (r : WithdrawReason) (l : LinkSet) (s : State) : CallsKept s (withdrawOffers c r l s) := by
  have first : CallsKept s (if l.a then report .a (.offerWithdrawn (s.refOfRecord c) r) s else s) := by
    split
    · exact .report _ _ s
    · exact ⟨rfl, rfl, rfl⟩
  unfold withdrawOffers
  dsimp only
  split
  · exact first.trans (.report _ _ _)
  · exact first

theorem callPostLost_lost {s : State} {i : Slot} {c : CallIdx} {k : LiveCall} (hc : s.callOf i = some c) (hk : s.liveCall c = some k) :
    (callPostLost i s).liveCall c = some k.lost := by
  unfold callPostLost LiveCall.lost
  rw [hc]
  dsimp only
  rw [hk]
  dsimp only
  split
  · exact hk
  · split
    · rw [liveCall_congr (withdrawOffers_kept c _ _ _).calls]
      exact liveCall_modCall hk _
    · rw [liveCall_congr (reportParties_kept c _ _ _).1]
      exact liveCall_modCall hk _

theorem callPostLost_groups (i : Slot) (s : State) : (callPostLost i s).groups = s.groups := by
  unfold callPostLost
  split
  · split
    · split
      · rfl
      · split
        · exact (withdrawOffers_kept _ _ _ _).groups
        · exact reportParties_groups _ _ _ _
    · rfl
  · rfl

theorem Moves.memberLost (i : Slot) (s : State) : Moves false false s (Machine.memberLost i s) :=
  .forEach (fun g t => .of_ite (fun _ => (dropMember g .unreachable none i rfl t).trans (.releases g _)) (.refl t)) _ s

/-- The call of a lost post is LINE LOST, whatever its members then do. -/
theorem memberLost_callPostLost {s : State} {i : Slot} {c : CallIdx} {k : LiveCall} (hc : s.callOf i = some c) (hk : s.liveCall c = some k)
    (hs : k.state ≠ .clearing) : ∃ l, (memberLost i (callPostLost i s)).liveCall c = some l ∧ LostCall k l := by
  have lost := LostCall.lost hs
  refine ⟨k.lost, (Moves.memberLost i _).offLine c k.lost (callPostLost_lost hc hk) ?_, lost⟩
  rw [lost.state]
  rfl

/-! ### What precedes it -/

theorem dropCommands_kept (i : Slot) (s : State) : CallsKept s (dropCommands i s) := by
  obtain ⟨ends, h⟩ := forEach_modEnd allEnds id (fun _ r => { r with commands := r.commands.filter fun x => decide (x.slot ≠ i) }) s
  have dropped : dropCommands i s = s.onLine fun v => { v with ends := ends } := h
  rw [dropped]
  exact ⟨rfl, rfl, rfl⟩

theorem moveCommands_kept (i : Slot) (e : EndId) (s : State) : CallsKept s (moveCommands i e s) := by
  obtain ⟨ends, h⟩ := moveCommands_eq i e s
  rw [h]
  exact ⟨rfl, rfl, rfl⟩

/-- A chain that changes calls no more than their lines, and outcomes by channels handed to groups. -/
structure LinesAndMembers (s t : State) : Prop where
  lines : LinesOnly s t
  members : MembersLater s t

namespace LinesAndMembers

variable {s t u : State}

theorem trans (h : LinesAndMembers s t) (k : LinesAndMembers t u) : LinesAndMembers s u := ⟨h.lines.trans k.lines, h.members.trans k.members⟩

/-- An operation after another, read as they are nested. -/
theorem andThen (k : LinesAndMembers t u) (h : LinesAndMembers s t) : LinesAndMembers s u := h.trans k

theorem of_kept (h : CallsKept s t) : LinesAndMembers s t := ⟨.of_kept h.calls h.arbiter, .of_groups h.groups⟩

theorem refl (s : State) : LinesAndMembers s s := ⟨.refl s, .refl s⟩

theorem postLeft (i : Slot) (e : EndId) (r : CallReason) (s : State) : LinesAndMembers s (Machine.postLeft i e r s) :=
  ⟨.postLeft i e r s, .postLeft i e r s⟩

theorem setOverflow (l : List OverflowEntry) (s : State) : LinesAndMembers s (s.setOverflow l) :=
  ⟨⟨fun _ k hk => ⟨k, hk, .refl k⟩, fun _ => id, fun _ => rfl, fun _ _ => id⟩, .of_groups rfl⟩

theorem missOverflow (i : Slot) (s : State) : LinesAndMembers s (Machine.missOverflow i s) := by
  unfold Machine.missOverflow
  split
  · exact .andThen (.of_kept (.reportBoth _ _)) (.setOverflow _ s)
  · exact .refl s

theorem overflowUnserved (i : Slot) (s : State) : LinesAndMembers s (Machine.overflowUnserved i s) := by
  unfold Machine.overflowUnserved
  split
  · exact .andThen (.of_kept (.setIdle _ i _)) (.missOverflow i s)
  · exact .refl s

end LinesAndMembers

/-- Whatever a post that was served, ISOLATED or UNSERVED gives up, its call and its members are told last that it is lost. -/
theorem reachEffects_lost (i : Slot) {old new : PostReach} (hn : new = .isolated ∨ new = .unserved) (ne : new ≠ old) (s : State) :
    ∃ v, LinesAndMembers s v ∧ reachEffects i old new s = memberLost i (callPostLost i v) := by
  rcases hn with rfl | rfl
  · cases old with
    | served e =>
      exact ⟨_, .andThen (.postLeft i e .postIsolated _) (.of_kept (abortTarget_calls i .postIsolated s)), rfl⟩
    | isolated => exact absurd rfl ne
    | unserved => exact ⟨s, .refl s, rfl⟩
  · cases old with
    | served e =>
      exact ⟨_, .andThen (.overflowUnserved i _) (.andThen (.postLeft i e .postIsolated _)
        (.andThen (.of_kept (abortTarget_calls i .postUnserved _)) (.of_kept (dropCommands_kept i s)))), rfl⟩
    | isolated => exact ⟨_, .andThen (.overflowUnserved i _) (.of_kept (dropCommands_kept i s)), rfl⟩
    | unserved => exact absurd rfl ne

/-- The call of a post that is lost, and its members. -/
theorem reachEffects_of_lost (i : Slot) {old new : PostReach} (hn : new = .isolated ∨ new = .unserved) (ne : new ≠ old) (s : State) :
    (∀ c k, s.callOf i = some c → s.liveCall c = some k → k.state ≠ .clearing →
        ∃ l, (reachEffects i old new s).liveCall c = some l ∧ LostCall k l)
      ∧ ∀ g, takingPart s g i = true → outcomeOf (reachEffects i old new s) g i = some .unreachable := by
  obtain ⟨v, ⟨lines, members⟩, shape⟩ := reachEffects_lost i hn ne s
  rw [shape]
  refine ⟨fun c k hc hk hs => ?_, fun g hg => ?_⟩
  · obtain ⟨k', hk', line⟩ := lines.live c k hk
    obtain ⟨l, hl, lost⟩ := memberLost_callPostLost ((lines.callOf i).trans hc) hk' (hs ∘ (line.idle_iff rfl).mp)
    exact ⟨l, hl, .of_line line lost⟩
  · refine memberLost_unreachable ?_
    rw [(MembersLater.of_groups (callPostLost_groups i v)).takingPart, members.takingPart]
    exact hg

end Sys2Proof.Machine
end

