-- ==== Sys2Proof/Proofs/OfferedAgain.lean ====
section
/-! PROOF. An OFFERED call that no link has is offered to each UP link that it is due to (R96), within an event that may offer several. O27. -/

namespace Sys2Proof.Machine

theorem has_put (l : LinkSet) (x y : LinkId) (b : Bool) : (l.put x b).has y = if x = y then b else l.has y := by
  cases x <;> cases y <;> rfl

theorem nameBlock_slot (s : State) (i : Slot) : (nameBlock s i).slot = i := by
  unfold nameBlock
  dsimp only
  split <;> rfl

theorem OnlyReports.length_le {a b : List QueueEntry} (h : OnlyReports a b) : a.length ≤ b.length := by
  obtain ⟨l, rfl⟩ := h
  simp

/-! ## What an offer leaves -/

/-- Records agree but for the offered set, the timer and the overflowed flag. -/
def SameButOffer (k l : LiveCall) : Prop :=
  ∀ o t b, { l with offered := o, timer := t, flags := { l.flags with overflowed := b } }
    = { k with offered := o, timer := t, flags := { k.flags with overflowed := b } }

namespace SameButOffer

variable {k l m : LiveCall}

theorem trans (h : SameButOffer k l) (h' : SameButOffer l m) : SameButOffer k m := fun o t b => (h' o t b).trans (h o t b)

theorem fields (h : SameButOffer k l) : l.slot = k.slot ∧ l.state = k.state ∧ l.cls = k.cls ∧ l.stamp = k.stamp := by
  have same := h .empty none false
  exact ⟨(congrArg LiveCall.slot same :), (congrArg LiveCall.state same :), (congrArg LiveCall.cls same :), (congrArg LiveCall.stamp same :)⟩

theorem joinOffered (s : State) (x : LinkId) (k : LiveCall) : SameButOffer k (Machine.joinOffered s x k) := fun _ _ _ => by
  unfold Machine.joinOffered
  split <;> rfl

end SameButOffer

/-- A chain that tells links and leaves the store and the references. -/
structure OffersOnly (s t : State) : Prop where
  store : t.store = s.store
  up : ∀ y, (t.link y).up = (s.link y).up
  refs : ∀ c, t.refOfRecord c = s.refOfRecord c
  told : ∀ y, OnlyReports (s.link y).queue (t.link y).queue

theorem OffersOnly.refl (s : State) : OffersOnly s s := ⟨rfl, fun _ => rfl, fun _ => rfl, fun _ => .refl _⟩

theorem OffersOnly.trans {s t u : State} (h : OffersOnly s t) (k : OffersOnly t u) : OffersOnly s u :=
  ⟨k.store.trans h.store, fun y => (k.up y).trans (h.up y), fun c => (k.refs c).trans (h.refs c), fun y => (h.told y).trans (k.told y)⟩

theorem OffersOnly.reportInTurn (x : LinkId) (r : Report) (s : State) : OffersOnly s (Machine.reportInTurn x r s) := by
  have link (y : LinkId) : OnlyTold { s.link y with overrun := [] } { (Machine.reportInTurn x r s).link y with overrun := [] } := by
    rw [Machine.reportInTurn, link_modLink]
    split
    · exact enqueueInTurn_told r _
    · exact .refl _
  refine ⟨by simp [Machine.reportInTurn], fun y => ?_, fun c => by simp [Machine.reportInTurn, State.refOfRecord], fun y => (link y).1⟩
  exact (congrArg LinkRecord.up (link y).2.2 :)

theorem OffersOnly.modCall (c : CallIdx) (f : LiveCall → LiveCall) (s : State) : OffersOnly s (s.modCall c f) :=
  ⟨rfl, fun y => by cases y <;> rfl, fun d => modCall_refOfRecord s c d f, fun y => by cases y <;> exact .refl _⟩

/-! ## The test of R96 for one link -/

/-- The link is UP and the call is due to it. -/
def offersTo (s : State) (k : LiveCall) (x : LinkId) : Bool := (s.link x).up && dueTo s k x

/-- An OFFER of the call waits in the queue of the link. -/
def OfferWaits (ref : CallRef) (k : LiveCall) (y : LinkId) (t : State) : Prop :=
  ∃ gap rank flags name, name.slot = k.slot ∧ QueueEntry.report gap (.offer ref k.cls rank k.stamp flags name) ∈ (t.link y).queue

theorem OfferWaits.later {ref : CallRef} {k : LiveCall} {y : LinkId} {t u : State} (h : OfferWaits ref k y t) (o : OffersOnly t u) :
    OfferWaits ref k y u := by
  obtain ⟨gap, rank, flags, name, slot, mem⟩ := h
  obtain ⟨l, same⟩ := o.told y
  exact ⟨gap, rank, flags, name, slot, same ▸ List.mem_append_left _ mem⟩

/-- What the test of R96 for one link makes of an OFFERED call that the link has not. -/
structure OfferPass (c : CallIdx) (x : LinkId) (k l : LiveCall) (s t : State) : Prop where
  live : t.liveCall c = some l
  same : SameButOffer k l
  offered : ∀ y, l.offered.has y = if x = y then offersTo s k x else k.offered.has y
  home : x = homeLinkOf s k.slot → l.flags = k.flags
  only : OffersOnly s t
  waits : offersTo s k x = true → (t.link x).queue.length < 64 → OfferWaits (s.refOfRecord c) k x t

theorem offerTo_pass {s : State} {c : CallIdx} {k : LiveCall} {x : LinkId} (hk : s.liveCall c = some k) (state : k.state = .offered)
    (fresh : k.offered.has x = false) : ∃ l, OfferPass c x k l s (offerTo reportInTurn c x s) := by
  cases goes : offersTo s k x with
  | false =>
    have stays : offerTo reportInTurn c x s = s := by
      unfold offerTo
      rw [hk]
      dsimp only
      refine if_neg fun ⟨_, up, _, due⟩ => ?_
      simp [offersTo, up, due] at goes
    rw [stays]
    refine ⟨k, hk, fun _ _ _ => rfl, fun y => ?_, fun _ => rfl, .refl s, fun h => nomatch goes.symm.trans h⟩
    split
    · rename_i hy
      rw [← hy, fresh, goes]
    · rfl
  | true =>
    obtain ⟨up, due⟩ : (s.link x).up = true ∧ dueTo s k x = true := by simpa [offersTo] using goes
    let w := s.modCall c (joinOffered s x)
    have live : w.liveCall c = some (joinOffered s x k) := liveCall_modCall hk _
    have told : offerTo reportInTurn c x s = reportInTurn x (offerOf w c (joinOffered s x k)) w := by
      unfold offerTo
      rw [hk]
      dsimp only
      rw [if_pos ⟨state, up, fresh, due⟩]
      exact sendOffer_of_live live _ x
    have modified : OffersOnly s w := .modCall c _ s
    have queued := OffersOnly.reportInTurn x (offerOf w c (joinOffered s x k)) w
    rw [told]
    refine ⟨joinOffered s x k, ?_, .joinOffered s x k, fun y => ?_, fun hx => ?_, modified.trans queued, fun _ room => ?_⟩
    · rw [reportInTurn, modLink_liveCall]
      exact live
    · rw [goes, ← has_put]
      unfold joinOffered
      split <;> rfl
    · rw [joinOffered, if_pos hx]
    · obtain ⟨slot, -, cls, stamp⟩ := (SameButOffer.joinOffered s x k).fields
      have before : (w.link x).queue.length < 64 := Nat.lt_of_le_of_lt (queued.told x).length_le room
      refine ⟨(w.link x).gap, queueRank w c, (joinOffered s x k).flags, nameBlock w k.slot, nameBlock_slot w k.slot, ?_⟩
      rw [reportInTurn, link_modLink, if_pos rfl, enqueueInTurn_of_room _ before, enqueue_of_room _ ((modified.up x).trans up) before, offerOf,
        modified.refs, slot, cls, stamp]
      exact List.mem_append_right _ List.mem_cons_self

/-! ## The test of R96 -/

theorem eq_or_eq_otherLink (x y : LinkId) : y = x ∨ y = otherLink x := by cases x <;> cases y <;> simp [otherLink]

theorem offersTo_congr {s t : State} {k l : LiveCall} (h : OffersOnly s t) (slot : l.slot = k.slot) (flag : l.flags.overflowed = k.flags.overflowed)
    (x : LinkId) : offersTo t l x = offersTo s k x := by
  simp only [offersTo, dueTo, slot, flag, h.up, homeLinkOf_congr h.store]

/-- An OFFERED call that no link has is offered to the links that it is due to. -/
theorem offerInTurn_offers {s : State} {c : CallIdx} {k : LiveCall} (hk : s.liveCall c = some k) (state : k.state = .offered)
    (fresh : k.offered = .empty) : ∃ l, (offerInTurn c s).liveCall c = some l ∧ SameButOffer k l
      ∧ ∀ y, l.offered.has y = offersTo s k y
        ∧ (l.offered.has y = true → ((offerInTurn c s).link y).queue.length < 64 → OfferWaits (s.refOfRecord c) k y (offerInTurn c s)) := by
  have none (y : LinkId) : k.offered.has y = false := by rw [fresh]; cases y <;> rfl
  unfold offerInTurn offerBy
  rw [hk]
  dsimp only
  generalize hx : homeLinkOf s k.slot = x
  obtain ⟨l, first⟩ := offerTo_pass hk state (none x)
  generalize ht : offerTo reportInTurn c x s = t at first
  obtain ⟨slot, lstate, cls, stamp⟩ := first.same.fields
  have unoffered : l.offered.has (otherLink x) = false := by rw [first.offered, if_neg (otherLink_ne x).symm, none]
  obtain ⟨m, second⟩ := offerTo_pass first.live (lstate.trans state) unoffered
  have other : offersTo t l (otherLink x) = offersTo s k (otherLink x) :=
    offersTo_congr first.only slot (congrArg CallFlags.overflowed (first.home hx.symm)) _
  refine ⟨m, second.live, first.same.trans second.same, fun y => ?_⟩
  rcases eq_or_eq_otherLink x y with rfl | rfl
  · have offered : m.offered.has y = offersTo s k y := by rw [second.offered, if_neg (otherLink_ne y), first.offered, if_pos rfl]
    refine ⟨offered, fun has room => ?_⟩
    exact (first.waits (offered.symm.trans has) (Nat.lt_of_le_of_lt (second.only.told y).length_le room)).later second.only
  · have offered : m.offered.has (otherLink x) = offersTo s k (otherLink x) := by rw [second.offered, if_pos rfl, other]
    refine ⟨offered, fun has room => ?_⟩
    obtain ⟨gap, rank, flags, name, named, mem⟩ := second.waits (other.trans (offered.symm.trans has)) room
    rw [first.only.refs, cls, stamp] at mem
    exact ⟨gap, rank, flags, name, named.trans slot, mem⟩

end Sys2Proof.Machine
end

