-- ==== Sys2Proof/Proofs/MovedCalls.lean ====
section
/-! PROOF. The call of a post that is served again, that moves to its other end, or that takes a new hop on its end (R109 to R111): it asks
for a channel of the end. O27. -/

namespace Sys2Proof.Machine

/-- The call stands PARKED or CONNECTING with its parties, and has a channel of the end or a request for one. -/
def AsksOn (f : EndId) (k : LiveCall) (c : CallIdx) (t : State) : Prop :=
  ∃ l, t.liveCall c = some l ∧ l.parties = k.parties ∧ (l.state = .parked ∨ l.state = .connecting) ∧ OnEnd f l

section
variable {s t : State} {c : CallIdx} {k k' : LiveCall} {f : EndId}

theorem AsksOn.of_requests (h : Requests c f k s t) (hk : k.state = .parked ∨ k.state = .connecting) : AsksOn f k c t := by
  obtain ⟨l, live, line, onEnd⟩ := h.line
  exact ⟨l, live, line.parties, line.waiting hk, onEnd⟩

theorem AsksOn.of_parties (h : AsksOn f k' c t) (same : k'.parties = k.parties) : AsksOn f k c t := by
  obtain ⟨l, live, parties, state, onEnd⟩ := h
  exact ⟨l, live, parties.trans same, state, onEnd⟩

/-- A call that keeps to its end. -/
theorem AsksOn.later (h : AsksOn f k c s) (entries : EntriesAt s c f) (stay : LinesStay s t) : AsksOn f k c t := by
  obtain ⟨l, live, parties, state, onEnd⟩ := h
  obtain ⟨m, live', onEnd'⟩ := stay.stays c f l entries live onEnd
  obtain ⟨m', found, line⟩ := stay.live c l live
  cases live'.symm.trans found
  exact ⟨m, live', line.parties.trans parties, line.waiting state, onEnd'⟩

/-- The end serves the post and holds channels. -/
structure ServedBy (f : EndId) (i : Slot) (s : State) : Prop where
  reach : (s.post i).reach = .served f
  holds : holdsChannels (s.endRec f).state = true

theorem ServedBy.later {i : Slot} (h : ServedBy f i s) (calm : Calm s t) (soft : Soft true false s t) : ServedBy f i t :=
  ⟨(calm.reach i).trans h.reach, (congrArg holdsChannels (soft.state f)).trans h.holds⟩

/-- A call that parks asks anew. -/
theorem parked_asks (hk : s.liveCall c = some k) (served : ServedBy f k.slot s) (n : CallReason) :
    AsksOn f k c (requestOnServing c .parked (reportParties c .parked n (s.modCall c fun k => { k with state := .parked }))) := by
  have live : (reportParties c .parked n (s.modCall c fun k => { k with state := .parked })).liveCall c = some { k with state := .parked } := by
    rw [liveCall_congr (reportParties_kept c _ n _).1]
    exact liveCall_modCall hk _
  have calm : Calm s (reportParties c .parked n (s.modCall c fun k => { k with state := .parked })) :=
    (Calm.modCall c _ s).trans (.reportParties c _ n _)
  have soft := Soft.reportParties (ev := true) (on := false) c .parked n (s.modCall c fun k => { k with state := .parked })
  have reach := (calm.reach k.slot).trans served.reach
  have holds := (congrArg holdsChannels (soft.state f)).trans served.holds
  exact (AsksOn.of_requests (.requestOnServing live reach holds .parked) (.inl rfl)).of_parties rfl

end

/-! ## The post is served again (R110) -/

/-- What becomes of the LINE LOST call of a post that is served again. -/
def servedAgain (c : CallIdx) (k : LiveCall) (s : State) : State :=
  match k.direction, k.parties, k.stamp with
  | .inbound, [], _ => offerInTurn c (s.modCall c fun k => { k with state := .offered, offered := .empty, resuming := false })
  | .inbound, _ :: _, _ => parkServed c s
  | .outbound, _, none => reportParties c .ringing .none (s.modCall c fun k => { k with state := .ringing })
  | .outbound, _, some _ => parkServed c s

theorem servedAgain_parks (c : CallIdx) {k : LiveCall} (s : State)
    (h : (k.direction = .inbound ∧ k.parties ≠ []) ∨ (k.direction = .outbound ∧ k.stamp ≠ none)) : servedAgain c k s = parkServed c s := by
  rcases h with ⟨direction, some⟩ | ⟨direction, some⟩
  · obtain ⟨p, l, parties⟩ := List.exists_cons_of_ne_nil some
    simp only [servedAgain, direction, parties]
  · obtain ⟨p, stamp⟩ := Option.ne_none_iff_exists'.mp some
    simp only [servedAgain, direction, stamp]

section
variable {s : State} {i : Slot} {c : CallIdx} {k : LiveCall} (hc : s.callOf i = some c) (hk : s.liveCall c = some k) (hs : k.state = .lineLost)
include hc hk hs

theorem callPostServed_eq : callPostServed i s = servedAgain c k s := by
  unfold callPostServed
  rw [hc]
  dsimp only
  rw [hk]
  dsimp only
  rw [if_pos hs]
  rfl

/-- An inbound call without parties is offered again. -/
theorem callPostServed_offers (hd : k.direction = .inbound) (hp : k.parties = []) :
    ∃ l, (callPostServed i s).liveCall c = some l ∧ SameButOffer { k with state := .offered, offered := .empty, resuming := false } l
      ∧ ∀ y, l.offered.has y = offersTo s k y
        ∧ (l.offered.has y = true → ((callPostServed i s).link y).queue.length < 64 → OfferWaits (s.refOfRecord c) k y (callPostServed i s)) := by
  let f : LiveCall → LiveCall := fun k => { k with state := .offered, offered := .empty, resuming := false }
  have offers : callPostServed i s = offerInTurn c (s.modCall c f) := by
    rw [callPostServed_eq hc hk hs]
    simp only [servedAgain, hd, hp, f]
  rw [offers]
  obtain ⟨l, live, same, told⟩ := offerInTurn_offers (liveCall_modCall hk f) rfl rfl
  refine ⟨l, live, same, fun y => ?_⟩
  obtain ⟨offered, waits⟩ := told y
  rw [modCall_refOfRecord] at waits
  exact ⟨offered.trans (offersTo_congr (OffersOnly.modCall c f s) rfl rfl y), waits⟩

/-- An outbound call that the post has not answered rings again. -/
theorem callPostServed_rings (hd : k.direction = .outbound) (hn : k.stamp = none) :
    (callPostServed i s).liveCall c = some { k with state := .ringing } := by
  have rings : callPostServed i s = reportParties c .ringing .none (s.modCall c fun k => { k with state := .ringing }) := by
    rw [callPostServed_eq hc hk hs]
    simp only [servedAgain, hd, hn]
  rw [rings, liveCall_congr (reportParties_kept c _ _ _).1]
  exact liveCall_modCall hk _

/-- A call with a party, or answered by the post, parks and asks for a channel. -/
theorem callPostServed_parks {f : EndId} (served : ServedBy f k.slot s)
    (h : (k.direction = .inbound ∧ k.parties ≠ []) ∨ (k.direction = .outbound ∧ k.stamp ≠ none)) : AsksOn f k c (callPostServed i s) := by
  rw [callPostServed_eq hc hk hs, servedAgain_parks c s h]
  exact parked_asks hk served .postServed

end

/-! ## The call's place on an end (R74) -/

/-- The call of the reference, and no other, is that of the post among the channels and the entries of the end; no other end has an entry of it. -/
structure PlacedAt (e : EndId) (i : Slot) (ref : CallRef) (s : State) : Prop where
  elsewhere : ∀ d, d ≠ e → entryOn s d ref = false
  channels : ∀ ch r j, nth (s.chan e).channels ch = .call r j → (r = ref ↔ j = i)
  entries : ∀ kd r j p, Waiter.call kd r j p ∈ (s.chan e).waiting → (r = ref ↔ j = i)

theorem placedAt_of_placesMatch {s : State} {e : EndId} {i : Slot} {ref : CallRef} (h : placesMatch s e i ref = true) : PlacedAt e i ref s := by
  simp only [placesMatch, Bool.and_eq_true, List.all_eq_true] at h
  obtain ⟨⟨elsewhere, channels⟩, entries⟩ := h
  refine ⟨fun d hd => ?_, fun ch r j hold => ?_, fun kd r j p mem => ?_⟩
  · have unused := elsewhere d (mem_allEnds d)
    simp only [hd, decide_false, Bool.false_or, Bool.not_eq_true'] at unused
    exact (Bool.or_eq_false_iff.mp unused).2
  · have same := channels ch (mem_allFin ch)
    rw [hold] at same
    exact of_decide_eq_true same
  · exact of_decide_eq_true (entries _ mem)

theorem channelOfPost_eq_some {s : State} {e : EndId} {i : Slot} {ch : Chan} {r : CallRef} (h : channelOfPost s e i = some (ch, r)) :
    nth (s.chan e).channels ch = .call r i := by
  obtain ⟨c, -, found⟩ := List.exists_of_findSome?_eq_some h
  split at found
  · simp only [Option.ite_none_right_eq_some, Option.some.injEq, Prod.mk.injEq] at found
    obtain ⟨rfl, rfl, rfl⟩ := found
    assumption
  · cases found
  · cases found

theorem entryOfPost_eq_some {i : Slot} {l : List Waiter} {r : CallRef} (h : entryOfPost i l = some r) : ∃ kd p, Waiter.call kd r i p ∈ l := by
  obtain ⟨w, mem, found⟩ := List.exists_of_findSome?_eq_some h
  cases w with
  | call kd r' j p =>
    simp only [Option.ite_none_right_eq_some, Option.some.injEq] at found
    obtain ⟨rfl, rfl⟩ := found
    exact ⟨kd, p, mem⟩
  | announce g p => cases found

theorem entryOfPost_eq_none {i : Slot} {l : List Waiter} (h : entryOfPost i l = none) {kd : RequestKind} {r : CallRef} {j : Slot} {p : CallClass}
    (mem : Waiter.call kd r j p ∈ l) : j ≠ i := by
  have absent := List.findSome?_eq_none_iff.mp h _ mem
  rintro rfl
  simp at absent

section
variable {s : State} {e : EndId} {i : Slot} {ref : CallRef}

/-- An end that has no entry of the post has none of its call. -/
theorem PlacedAt.noEntry (h : PlacedAt e i ref s) (none : entryOfPost i (s.chan e).waiting = none) (d : EndId) : entryOn s d ref = false := by
  by_cases hd : d = e
  · subst hd
    refine List.any_eq_false.mpr fun w mem => ?_
    cases w with
    | call kd r j p => simpa [waitsFor] using fun same => entryOfPost_eq_none none mem ((h.entries kd r j p mem).mp same)
    | announce g p => exact Bool.false_ne_true
  · exact h.elsewhere d hd

/-- An entry of the post's call leaves with the post. -/
theorem PlacedAt.entryLeft (h : PlacedAt e i ref s) (d : EndId) : entryOn (entryLeft i e s) d ref = false := by
  cases found : entryOfPost i (s.chan e).waiting with
  | none =>
    simp only [Machine.entryLeft, found]
    exact h.noEntry found d
  | some r =>
    obtain ⟨kd, p, mem⟩ := entryOfPost_eq_some found
    obtain rfl : r = ref := (h.entries kd r i p mem).mpr rfl
    simp only [Machine.entryLeft, found]
    refine (LinesOnly.callLosesEntry r _).entries d r ?_
    by_cases hd : e = d
    · subst hd
      rw [entryOn, withdrawCall, modChan_chan_same]
      simp
    · rw [entryOn, withdrawCall, modChan_chan_ne _ _ hd]
      exact h.elsewhere d (Ne.symm hd)

end

/-! ## A post leaves its end with its call (R81) -/

section
variable {s : State} {c : CallIdx} {k : LiveCall}

theorem liveRef_refOfRecord (s : State) (c : CallIdx) : liveRef s (s.refOfRecord c) = s.liveCall c := if_pos rfl

/-- An entry that is lost leaves a live call its state. -/
theorem entryLeft_state (hk : s.liveCall c = some k) (i : Slot) (e : EndId) :
    ∃ l, (entryLeft i e s).liveCall c = some l ∧ LineOf k l ∧ l.state = k.state := by
  have lost (ref : CallRef) (t : State) (ht : t.liveCall c = some k) :
      ∃ l, (callLosesEntry ref t).liveCall c = some l ∧ LineOf k l ∧ l.state = k.state := by
    unfold callLosesEntry
    split
    · by_cases hr : ref.index = c
      · subst hr
        exact ⟨_, liveCall_modCall ht _, .losesRequest k, rfl⟩
      · exact ⟨k, (modCall_liveCall_ne t _ hr).trans ht, .refl k, rfl⟩
    · exact ⟨k, ht, .refl k, rfl⟩
  unfold entryLeft
  split
  · exact lost _ _ hk
  · exact ⟨k, hk, .refl k, rfl⟩

/-- A call that loses its channel is PARKED. -/
theorem callLosesChannel_parked (hk : s.liveCall c = some k) (hs : needsItsEnd k.state = true) (r : CallReason) :
    ∃ l, (callLosesChannel (s.refOfRecord c) r s).liveCall c = some l ∧ LineOf k l ∧ l.state = .parked := by
  unfold callLosesChannel
  rw [liveRef_refOfRecord, hk]
  dsimp only
  split
  · refine ⟨{ k with channel := none, state := .parked, request := none }, ?_, ⟨rfl, rfl, rfl, .inr ⟨hs, .inl rfl⟩⟩, rfl⟩
    rw [liveCall_congr (reportParties_kept _ _ _ _).1]
    exact liveCall_modCall hk _
  · rename_i other
    refine ⟨_, liveCall_modCall hk _, .losesChannel k, ?_⟩
    rcases needsItsEnd_iff.mp hs with state | state | state
    · exact absurd (.inr state) other
    · exact absurd (.inl state) other
    · exact state

/-- The call of a post that leaves its end is PARKED, and no list has an entry of it. -/
theorem postLeft_parked {e : EndId} {i : Slot} (hk : s.liveCall c = some k) (placed : PlacedAt e i (s.refOfRecord c) s)
    (h : k.state = .parked ∧ channelOfPost s e i = none ∨ (k.state = .connected ∨ k.state = .connecting) ∧
      (channelOfPost s e i).isSome = true ∧ entryOfPost i (s.chan e).waiting = none) (r : CallReason) :
    ∃ l, (postLeft i e r s).liveCall c = some l ∧ LineOf k l ∧ l.state = .parked ∧ ∀ d, entryOn (postLeft i e r s) d (s.refOfRecord c) = false := by
  rw [postLeft_eq]
  rcases h with ⟨parked, none⟩ | ⟨state, some, noEntry⟩
  · have kept : channelLeft i e r s = s := by simp only [channelLeft, none]
    rw [kept]
    obtain ⟨l, live, line, same⟩ := entryLeft_state hk i e
    exact ⟨l, live, line, same.trans parked, placed.entryLeft⟩
  · obtain ⟨⟨ch, ref⟩, found⟩ := Option.isSome_iff_exists.mp some
    obtain rfl : ref = s.refOfRecord c := (placed.channels ch ref i (channelOfPost_eq_some found)).mpr rfl
    have left : channelLeft i e r s = callLosesChannel (s.refOfRecord c) r (release e ch (.call (s.refOfRecord c) i) s) := by
      simp only [channelLeft, found]
    have released := LinesStay.release e ch (.call (s.refOfRecord c) i) s
    have needs : needsItsEnd k.state = true := needsItsEnd_iff.mpr (state.elim (.inr ∘ .inl) .inl)
    obtain ⟨k', live', line'⟩ := released.live c k hk
    have needs' : needsItsEnd k'.state = true := by
      rcases line'.state with same | ⟨-, state' | state'⟩
      · rwa [same]
      · simp [state', needsItsEnd]
      · simp [state', needsItsEnd]
    obtain ⟨l, live, line, parked⟩ := callLosesChannel_parked live' needs' r
    rw [released.refs c, ← left] at live
    obtain ⟨m, live'', line'', same⟩ := entryLeft_state live i e
    exact ⟨m, live'', (line'.trans line).trans line'', same.trans parked,
      fun d => ((LinesOnly.channelLeft i e r s).trans (.entryLeft i e _)).entries d _ (placed.noEntry noEntry d)⟩

end

/-! ## The post moves (R109) -/

section
variable {s : State} {i : Slot} {c : CallIdx} {k : LiveCall} {f : EndId}

/-- The PARKED call of a post that has moved asks for a channel, and has entries on the new end alone. -/
theorem callPostMoved_asks (hc : s.callOf i = some c) (hk : s.liveCall c = some k) (hs : k.state = .parked) (served : ServedBy f i s)
    (entries : ∀ d, entryOn s d (s.refOfRecord c) = false) : AsksOn f k c (callPostMoved i s) ∧ EntriesAt (callPostMoved i s) c f := by
  have moved : callPostMoved i s = requestOnServing c .parked s := by
    unfold callPostMoved
    rw [hc]
    dsimp only
    rw [hk]
    dsimp only
    rw [if_pos hs]
  obtain ⟨_, found, slot⟩ := liveCall_of_callOf hc
  cases hk.symm.trans found
  have requests : Requests c f k s (requestOnServing c .parked s) := .requestOnServing hk (slot ▸ served.reach) served.holds .parked
  rw [moved]
  refine ⟨.of_requests requests (.inl hs), fun d hd => ?_⟩
  rw [requests.refs]
  exact requests.entries d _ hd (entries d)

theorem callPostMoved_of_none (h : s.callOf i = none) : callPostMoved i s = s := by rw [callPostMoved, h]

/-- The call of a post that moves with its one place on the old end asks for a channel of the new one. -/
theorem moved_call_asks {e : EndId} (hc : s.callOf i = some c) (hk : s.liveCall c = some k) (served : ServedBy f i s)
    (placed : PlacedAt e i (s.refOfRecord c) s) (h : k.state = .parked ∧ channelOfPost s e i = none ∨
      (k.state = .connected ∨ k.state = .connecting) ∧ (channelOfPost s e i).isSome = true ∧ entryOfPost i (s.chan e).waiting = none)
    (r : CallReason) : AsksOn f k c (memberMoved i (callPostMoved i (postLeft i e r s))) := by
  obtain ⟨l, live, line, parked, entries⟩ := postLeft_parked hk placed h r
  have lines := LinesOnly.postLeft i e r s
  rw [← lines.refs c] at entries
  obtain ⟨waits, at_⟩ := callPostMoved_asks ((lines.callOf i).trans hc) live parked (served.later (.postLeft i e r s) (.postLeft i e r s)) entries
  exact (waits.of_parties line.parties).later at_ (.memberMoved i _)

/-- The member of a post without a call that moves takes its outcome by the new end. -/
theorem moved_member_outcome {e : EndId} (he : e ≠ f) {g : GroupId} (hc : s.callOf i = none) (served : ServedBy f i s)
    (h : takingPart s g i = true) (alone : ∀ k, k ≠ g → takingPart s k i = false) (r : CallReason) :
    ∃ o, outcomeOf (memberMoved i (callPostMoved i (postLeft i e r s))) g i = some o
      ∧ MovedOutcome (heldOnEnd (s.group g) f) (s.group g).readySent o := by
  have lines := LinesOnly.postLeft i e r s
  have members := MembersLater.postLeft i e r s
  obtain ⟨held, ready⟩ := HeldKept.postLeft he i r s g
  have reach := (served.later (.postLeft i e r s) (.postLeft i e r s)).reach
  rw [callPostMoved_of_none ((lines.callOf i).trans hc), ← held, ← ready]
  exact memberMoved_outcome reach ((members.takingPart g i).trans h) fun k hk => (members.takingPart k i).trans (alone k hk)

/-! ## The post takes a new hop (R111) -/

theorem LinesOnly.releaseCallChannel (c : CallIdx) (s : State) : LinesOnly s (Machine.releaseCallChannel c s) := by
  unfold Machine.releaseCallChannel
  split
  · split
    · exact .andThen (LinesStay.release _ _ _ _).toLinesOnly (.modCall c _ s fun k _ => .losesChannel k)
    · exact .refl s
  · exact .refl s

theorem LinesOnly.withdrawCallRequest (c : CallIdx) (s : State) : LinesOnly s (Machine.withdrawCallRequest c s) := by
  unfold Machine.withdrawCallRequest
  split
  · split
    · exact .andThen (.withdrawCall _ _ _) (.modCall c _ s fun k _ => .losesRequest k)
    · exact .refl s
  · exact .refl s

/-- A call whose post takes a new hop asks anew on the same end. -/
theorem callHopMoved_asks (hc : s.callOf i = some c) (hk : s.liveCall c = some k) (served : ServedBy f i s)
    (h : k.state = .connected ∨ k.state = .parked ∨ (k.state = .connecting ∧ k.channel.isSome = true)) : AsksOn f k c (callHopMoved i s) := by
  have lines := (LinesOnly.releaseCallChannel c s).trans (.withdrawCallRequest c _)
  have calm := (Calm.releaseCallChannel c s).trans (.withdrawCallRequest c _)
  have soft := (Soft.releaseCallChannel (ev := true) (on := false) c s).trans (.withdrawCallRequest c _)
  obtain ⟨_, found, slot⟩ := liveCall_of_callOf hc
  cases hk.symm.trans found
  obtain ⟨l, live, line⟩ := lines.live c k hk
  have served' : ServedBy f l.slot (withdrawCallRequest c (releaseCallChannel c s)) := by
    rw [line.slot, slot]
    exact served.later calm soft
  unfold callHopMoved
  rw [hc]
  dsimp only
  rw [hk]
  dsimp only
  cases parks : decide (k.state = .connected) || (decide (k.state = .connecting) && k.channel.isSome) with
  | true => exact (parked_asks live served' .postMoved).of_parties line.parties
  | false =>
    have parked : k.state = .parked := by
      rcases h with state | state | ⟨state, channel⟩
      · simp [state] at parks
      · exact state
      · simp [state, channel] at parks
    simp only [parked, decide_true, Bool.or_true, if_true]
    exact (AsksOn.of_requests (.requestOnServing live served'.reach served'.holds .parked) (line.waiting (.inl parked))).of_parties line.parties

end

end Sys2Proof.Machine
end

