-- ==== Sys2Proof/Proofs/ServingAssignment.lean ====
section
/-! PROOF. The serving assignment of one post with its call and its memberships: the changes of a post's reach one by one. O27. -/

namespace Sys2Proof.Machine

section
variable {s : State} {i : Slot}

/-- A post that is assigned an end is served by it once its commands have moved there. -/
theorem servedBy_of_assigned {f : EndId} (h : assignedReach s i = .served f) : ServedBy f i (moveCommands i f (setReach i (.served f) s)) := by
  obtain ⟨-, avail⟩ := assignedReach_served h
  have placed : ServedBy f i (setReach i (.served f) s) := by
    refine ⟨by rw [setReach_post_same], ?_⟩
    exact (Bool.and_eq_true_iff.mp avail).1
  exact placed.later (.moveCommands i f _) (.moveCommands i f _)

theorem setReach_moveCommands_kept (i : Slot) (f : EndId) (r : PostReach) (s : State) : CallsKept s (moveCommands i f (setReach i r s)) :=
  (show CallsKept s (setReach i r s) from ⟨rfl, rfl, rfl⟩).trans (moveCommands_kept i f _)

/-! ## The four kinds of change -/

/-- A post that is no longer served. -/
theorem reassign_lost (h : assignedReach s i ≠ (s.post i).reach) (hn : servingEnd (reassign i s) i = none) :
    (∀ c k, s.callOf i = some c → s.liveCall c = some k → k.state ≠ .clearing → ∃ l, (reassign i s).liveCall c = some l ∧ LostCall k l)
      ∧ ∀ g, takingPart s g i = true → outcomeOf (reassign i s) g i = some .unreachable := by
  obtain ⟨reach, -⟩ := reassign_row h
  have unserved : assignedReach s i = .isolated ∨ assignedReach s i = .unserved := by
    rw [← reach]
    exact servingEnd_eq_none.mp hn
  rw [reassign_changed h]
  exact reachEffects_of_lost i unserved h (setReach i (assignedReach s i) s)

/-- A post that is served again. -/
theorem reassign_served {f : EndId} (hf : assignedReach s i = .served f) (hn : servingEnd s i = none) :
    reassign i s = callPostServed i (moveCommands i f (setReach i (.served f) s)) := by
  rcases servingEnd_eq_none.mp hn with old | old <;> rw [reassign_changed (by rw [hf, old]; nofun), hf, old] <;> rfl

/-- A post that moves to its other end. -/
theorem reassign_moved {e f : EndId} (h : assignedReach s i ≠ (s.post i).reach) (he : (s.post i).reach = .served e)
    (hf : assignedReach s i = .served f) : reassign i s =
      memberMoved i (callPostMoved i (postLeft i e .postMoved (abortTarget i .postMoved (moveCommands i f (setReach i (.served f) s))))) := by
  rw [reassign_changed h, he, hf]
  rfl

/-! ## Its call -/

section
variable {c : CallIdx} {k : LiveCall} {f : EndId} (hc : s.callOf i = some c) (hk : s.liveCall c = some k)
include hc hk

/-- A LINE LOST call without parties is OFFERED again. -/
theorem reassign_offers (hf : assignedReach s i = .served f) (hn : servingEnd s i = none) (hs : k.state = .lineLost)
    (hd : k.direction = .inbound) (hp : k.parties = []) : ∃ l, (reassign i s).liveCall c = some l
      ∧ SameButOffer { k with state := .offered, offered := .empty, resuming := false } l
      ∧ ∀ y, l.offered.has y = offersTo s k y
        ∧ (l.offered.has y = true → ((reassign i s).link y).queue.length < 64 → OfferWaits (s.refOfRecord c) k y (reassign i s)) := by
  rw [reassign_served hf hn]
  obtain ⟨ends, moved⟩ := moveCommands_eq i f (setReach i (.served f) s)
  rw [moved]
  exact callPostServed_offers (s := (setReach i (.served f) s).onLine fun v => { v with ends := ends }) hc hk hs hd hp

/-- A LINE LOST call that the post has not answered rings again. -/
theorem reassign_rings (hf : assignedReach s i = .served f) (hn : servingEnd s i = none) (hs : k.state = .lineLost)
    (hd : k.direction = .outbound) (hp : k.stamp = none) : (reassign i s).liveCall c = some { k with state := .ringing } := by
  have calls := (setReach_moveCommands_kept i f (.served f) s).calls
  rw [reassign_served hf hn]
  exact callPostServed_rings ((callOf_congr calls i).trans hc) ((congrFun (liveCall_congr calls) c).trans hk) hs hd hp

/-- A LINE LOST call with a party, or answered by the post, asks for a channel of the end. -/
theorem reassign_parks (hf : assignedReach s i = .served f) (hn : servingEnd s i = none) (hs : k.state = .lineLost)
    (h : (k.direction = .inbound ∧ k.parties ≠ []) ∨ (k.direction = .outbound ∧ k.stamp ≠ none)) : AsksOn f k c (reassign i s) := by
  have calls := (setReach_moveCommands_kept i f (.served f) s).calls
  obtain ⟨_, found, slot⟩ := liveCall_of_callOf hc
  cases hk.symm.trans found
  rw [reassign_served hf hn]
  exact callPostServed_parks ((callOf_congr calls i).trans hc) ((congrFun (liveCall_congr calls) c).trans hk) hs (by rw [slot]; exact servedBy_of_assigned hf) h

/-- The call of a post that moves asks for a channel of the new end. -/
theorem reassign_asks {e : EndId} (h : assignedReach s i ≠ (s.post i).reach) (he : (s.post i).reach = .served e)
    (hf : assignedReach s i = .served f) (placed : placesMatch s e i (s.refOfRecord c) = true)
    (held : k.state = .parked ∧ channelOfPost s e i = none ∨ (k.state = .connected ∨ k.state = .connecting) ∧
      (channelOfPost s e i).isSome = true ∧ entryOfPost i (s.chan e).waiting = none) : AsksOn f k c (reassign i s) := by
  have served := (servedBy_of_assigned hf).later (.abortTarget i .postMoved _) (.abortTarget i .postMoved _)
  have kept := (setReach_moveCommands_kept i f (.served f) s).trans (abortTarget_calls i .postMoved _)
  rw [reassign_moved h he hf]
  generalize abortTarget i .postMoved (moveCommands i f (setReach i (.served f) s)) = u at served kept ⊢
  obtain ⟨calls, -, arbiter⟩ := kept
  have refs : u.refOfRecord c = s.refOfRecord c := by rw [State.refOfRecord, State.record, calls]; rfl
  have chan : u.chan e = s.chan e := by rw [State.chan, arbiter]; rfl
  have channel : channelOfPost u e i = channelOfPost s e i := by rw [channelOfPost, chan]; rfl
  have place : placesMatch u e i (u.refOfRecord c) = true := by
    rw [refs, ← placed]
    simp only [placesMatch, usesEnd_congr arbiter, chan]
  refine moved_call_asks ((callOf_congr calls i).trans hc) ((congrFun (liveCall_congr calls) c).trans hk) served (placedAt_of_placesMatch place) ?_ .postMoved
  rwa [channel, chan]

end

/-! ## Its memberships -/

/-- The member of a post without a call that moves. -/
theorem reassign_member {e f : EndId} {g : GroupId} (h : assignedReach s i ≠ (s.post i).reach) (he : (s.post i).reach = .served e)
    (hf : assignedReach s i = .served f) (hc : s.callOf i = none) (taking : takingPart s g i = true)
    (alone : ∀ k, k ≠ g → takingPart s k i = false) :
    ∃ o, outcomeOf (reassign i s) g i = some o ∧ MovedOutcome (heldOnEnd (s.group g) f) (s.group g).readySent o := by
  have served := (servedBy_of_assigned hf).later (.abortTarget i .postMoved _) (.abortTarget i .postMoved _)
  have kept := (setReach_moveCommands_kept i f (.served f) s).trans (abortTarget_calls i .postMoved _)
  have ne : e ≠ f := by
    rintro rfl
    exact h (hf.trans he.symm)
  rw [reassign_moved h he hf]
  generalize abortTarget i .postMoved (moveCommands i f (setReach i (.served f) s)) = u at served kept ⊢
  obtain ⟨calls, groups, -⟩ := kept
  have members := MembersLater.of_groups groups
  have group : u.group g = s.group g := by rw [State.group, groups]; rfl
  rw [← group]
  exact moved_member_outcome ne ((callOf_congr calls i).trans hc) served ((members.takingPart g i).trans taking)
    (fun k hk => (members.takingPart k i).trans (alone k hk)) .postMoved

end

/-- Settles O27: what becomes of a post's call and its members is told last, after the post has left its old end (`reachEffects_of_lost`,
`callPostServed_eq`, `moved_call_asks`, `memberMoved_outcome`). -/
theorem servingAssignment : Obligations.servingAssignment := by
  refine ⟨fun s i => ?assigned, fun s i h => ?changed, fun s i c k e hc hk hr hh => callHopMoved_asks hc hk ⟨hr, hh⟩⟩
  case assigned =>
    refine ⟨⟨rfl, primaryEnd_side s i⟩, fun h => assignedReach_eq_unserved.mpr ?_, fun hp hf => ⟨fun d => assignedReach_served, ?_,
      assignedReach_isolated_iff hp hf, assignedReach_primary hp hf,
      fun c st d hc hst hn hr => assignedReach_held hp hf hr ⟨c, st, hc, hst, hn⟩⟩⟩
    · rintro ⟨present, fitted⟩
      rcases h with absent | unfitted
      · exact nomatch absent.symm.trans present
      · exact nomatch unfitted.symm.trans fitted
    · exact fun unserved => assignedReach_eq_unserved.mp unserved ⟨hp, hf⟩
  case changed =>
    refine ⟨reassign_row h, fun j => reassign_other_row h, fun c k hc hk => ⟨fun hn hs => ?lost, fun f hf hn hs => ⟨fun hd hp => ?offered,
        reassign_rings hc hk hf hn hs, reassign_parks hc hk hf hn hs⟩, fun e f he hf => reassign_asks hc hk h he hf⟩,
      fun g taking => ⟨fun hn => (reassign_lost h hn).2 g taking, fun e f he hf hc alone => ?member⟩⟩
    case lost =>
      obtain ⟨l, live, lost⟩ := (reassign_lost h hn).1 c k hc hk hs
      exact ⟨l, live, lost.state, lost.parties, lost.stamp, lost.unoffered, lost.offLine⟩
    case offered =>
      obtain ⟨l, live, same, told⟩ := reassign_offers hc hk hf hn hs hd hp
      obtain ⟨_, found, slot⟩ := liveCall_of_callOf hc
      cases hk.symm.trans found
      refine ⟨l, live, same .empty k.timer k.flags.overflowed, fun y => ?_⟩
      obtain ⟨offered, waits⟩ := told y
      unfold OfferWaits at waits
      rw [slot] at waits
      exact ⟨offered, waits⟩
    case member =>
      obtain ⟨o, outcome, moved⟩ := reassign_member h he hf hc taking alone
      rw [outcome]
      unfold MovedOutcome MayWait at moved
      generalize heldOnEnd (s.group g) f = held, (s.group g).readySent = ready at moved ⊢
      cases held with
      | some _ => exact congrArg some moved
      | none =>
        cases ready with
        | true => exact congrArg some moved
        | false => exact moved.imp (congrArg some) fun ⟨phase, pending⟩ => ⟨phase, congrArg some pending⟩

end Sys2Proof.Machine
end
